-- ==== Sys2Proof/Word.lean ====
section
/-! DEFINITION. The word types of the machine and nothing else: the widths that 00_scope.md (R5, R7)
fixes for registers, masks, lines and signatures. -/

namespace Sys2Proof

/-- A 64-bit integer register, address or control register (R5). -/
abbrev Word := BitVec 64

/-- One byte of memory. -/
abbrev Byte := BitVec 8

/-- One 512-byte vector register (R7): byte `i` is bits `8i+7:8i`. -/
abbrev VReg := BitVec 4096

/-- One 512-bit mask register (R7). -/
abbrev KReg := BitVec 512

/-- A 512-bit signature (R118, R120). -/
abbrev Sig := BitVec 512

/-- One 128-byte line (R11): byte `i` is bits `8i+7:8i`. -/
abbrev LineData := BitVec 1024

/-- A five-bit register, queue, accumulator or handle field of an instruction word (R60). -/
abbrev Reg := BitVec 5

end Sys2Proof
end

