-- ==== Sys2Proof/Config.lean ====
section
/-! DEFINITION. What the spec leaves to the part that was made, or leaves open altogether: opaque
constants, of which nothing can be computed or proved. A claim holds whatever they are. -/

namespace Sys2Proof.Config

/-- A byte that the spec leaves open, one for each number that the counter `State.free` gives: read under a key that did
not write it (R394), or in a sector that Kamgor has repaired (R318). -/
opaque freeByte : Nat → Byte

/-- What a majority granule reads as under a key that did not write it: context and generation of the key that wrote it
and of the key that reads it, and the data (R394). -/
opaque otherKey : Nat → Nat → Nat → Nat → BitVec 512 → BitVec 512

/-- SHAKE256 of a message, the first 64 bytes (R372, R373). -/
opaque shake256 : List Byte → List Byte

/-- Ed448ph verification with the empty context string: public key, signature, message (R372). -/
opaque ed448Verify : List Byte → List Byte → List Byte → Bool

/-- The Ed448ph signature by the device identity key (R374). -/
opaque identitySign : List Byte → List Byte

/-- The device identity public key, 57 bytes (R374). -/
opaque identityKey : List Byte

/-- The 64-byte hash fused for a key slot (R373). -/
opaque fusedHash : Nat → List Byte

/-- Whether a key slot is fused as revoked (R373). -/
opaque revoked : Nat → Bool

/-- The fused minimum security version of a firmware kind (R373). -/
opaque minVersion : Nat → Nat

/-- Part revision reported by an attestation (R374). -/
opaque partRevision : Nat

/-- Where Kamgor keeps a page table: bits 51:12 of the non-leaf entry for a context, level and index path
(R306: "PA[51:12] of the next table"; R309: no context sees it). -/
opaque tableFrame : Nat → Nat → Nat → BitVec 40

/-- Whether the far device of a peer access allows it by its tables and its access table: far context, far
virtual address, bytes, write (R415). The far device is outside the package. -/
opaque farAccess : Nat → Nat → Nat → Bool → Bool

/-- A byte of a field or section of a save record of which the spec gives the contents and not the layout (R354, R355,
R358): field, contents, place. -/
opaque recordByte : Nat → List Nat → Nat → Byte

/-- Length of a section of a save record of which the spec does not give the layout (R354): section, contents. -/
opaque recordLength : Nat → List Nat → Nat

/-- How the position of a scan's trap record packs the channel and the line offset (R300). -/
opaque scanPos : Nat → Nat → Word

/-- Whether a dirty line of an extent was written back before the time-out that forces its release: a number that the counter
`State.free` gives, and the line (R393). -/
opaque releaseDone : Nat → Nat → Bool

/-- Whether the host's window answers an access with an error status (R155). -/
opaque hostError : Nat → Bool

end Sys2Proof.Config
end

