-- ==== Sys2Proof/Syntax.lean ====
section
/-! DEFINITION. The instruction set as syntax: the shared sub-field codes of R64 as inductive types, and
`Instr`, one constructor for each row of spec/opcode_table.json. The first 206 constructors are the
instruction words (R62, R65 to R71); the others are the indivisible steps the device takes beside the
threads (the rows of the table without bits): their arguments name which of the several things the
device could do next is done, and are inputs of the machine. -/

namespace Sys2Proof

/-- Scope codes of R64 (R10). -/
inductive Scope | thr | core | clu | die | pkg | sys
deriving DecidableEq, Repr

/-- Two-bit atomic scope of R64. -/
inductive AmoScope | clu | die | pkg | sys
deriving DecidableEq, Repr

/-- Cache hint of R64. -/
inductive Hint | norm | keep | strm | noal
deriving DecidableEq, Repr

/-- Element format of R64. -/
inductive ElemFmt | f32 | bf16 | f16 | e4m3 | e5m2 | e3m2 | e2m3 | e2m1 | i32 | i16 | i8 | i4
deriving DecidableEq, Repr

/-- Narrow float format of R64. -/
inductive NarrowFmt | e4m3 | e5m2 | e3m2 | e2m3 | e2m1
deriving DecidableEq, Repr

/-- Wide type of R64. -/
inductive WideType | f32 | bf16 | f16
deriving DecidableEq, Repr

/-- Conversion code of R64. -/
inductive Conv | rne | rtz | rs | rnen | rtzn | rsn
deriving DecidableEq, Repr

/-- Tile type of R64; `fmt` takes the types from FMTA and FMTB. -/
inductive TileType
  | e2m1 | e3m2 | e2m3 | e4m3 | e5m2 | i4 | i8 | bf16 | f16 | f32 | q4g | q8g | fmt
deriving DecidableEq, Repr

/-- Element size of R64. -/
inductive ElemSize | b8 | b16 | b32 | b64
deriving DecidableEq, Repr

/-- Destination type of the typed vector groups (R68). -/
inductive VType | f32 | bf16 | f16 | i32 | i16 | i8
deriving DecidableEq, Repr

/-- Local address mode of `ldl` and `stl` (R96). -/
inductive LocMode | own | csel | ilv
deriving DecidableEq, Repr

/-- Access size of `ldl`, `stl`, `ldh`, `sth` (R96). -/
inductive MemSize | b | h | w | d
deriving DecidableEq, Repr

/-- Ordering and wake field of an atomic (R66); acquire with a wake has no encoding. -/
inductive AmoOrd | relaxed | wk1 | wkall | acq | rel | relWk1 | relWkall
deriving DecidableEq, Repr

/-- Fence class (R145). -/
inductive FenceClass | all | ld | st | mem | eng
deriving DecidableEq, Repr

/-- Token level of `qtok` and `qbtok` (R67). -/
inductive TokLevel | end1 | end2 | end3
deriving DecidableEq, Repr

/-- Condition of `vcmp` (R198). -/
inductive Cond | eq | ne | lt | le
deriving DecidableEq, Repr

/-- Operation of `vred` and `vscan` (R204). -/
inductive RedOp | add | min | max
deriving DecidableEq, Repr

/-- Spawn affinity (R257). -/
inductive Affinity | core | clu | die | pkg
deriving DecidableEq, Repr

/-- What a write of a device register brings, and whether the host makes it or Kamgor (R3, R370). -/
structure RegWord where
  v : Word
  host : Bool := false
deriving DecidableEq, Repr

/-- An input of a router (R214, R218). -/
structure RouterInput where
  router : Fin 160
  port : Fin 9 := 0
deriving DecidableEq, Repr

/-- A reset of a compute die, and what Kamgor sets its CUR and TGT to (R368, R369). -/
structure DieReset where
  die : Fin 4
  cur : Fin 7 := 6
  tgt : Fin 7 := 6
deriving DecidableEq, Repr

/-- Registers of the control die and the dies that a host or Kamgor writes and that have no row of
their own in the table (R3, R219, R224, R333, R347, R364, R383, R398, R400, R409, R410, R412, R415). -/
inductive DevReg
  | lqbase (ctx : Fin 64) | lqstat (ctx : Fin 64) | ctxctl (ctx : Fin 64) | intstat (ctx : Fin 64)
  | lqhead (ctx : Fin 64)
  | dcfg (domain : Fin 5) | dscfg (die : Fin 4) | mscctx (ctx : Fin 64) | majcfg
  | eventCount (die : Fin 4) (router : Fin 160)
  | mbcmd | mbarg | mbstat
  | hwin (ctx : Fin 64) (win : Fin 16) (word : Fin 2)
  | hostMode
  | pwin (port : Fin 16) (win : Fin 16) (word : Fin 2)
  | aperture (a : Fin 16) (word : Fin 2)
deriving DecidableEq, Repr

/-- What a host access through an aperture does, beside a read: a write, or an AtomicOp, a compare before the value (R408). -/
inductive HostOp
  | write (v : Word) | fetchAdd (v : Word) | swap (v : Word) | cas (c v : Word)
deriving DecidableEq, Repr

/-- The access tables of R370. -/
inductive AclTarget
  | vault (tile : Fin 320) | stack (s : Fin 12) | control
deriving DecidableEq, Repr

/-- One constructor for each row of spec/opcode_table.json, in the table's order. -/
inductive Instr
  /-- LUI (R78): Writes the sign-extended 20-bit upper immediate, shifted left by 12, into rd. -/
  | lui (d : Reg) (imm : BitVec 20)
  /-- AUIPC (R78): Adds the sign-extended upper immediate, shifted left by 12, to the instruction's address and writes the sum into rd. -/
  | auipc (d : Reg) (imm : BitVec 20)
  /-- JAL (R81): Jumps PC-relative and writes the address of the next word into rd, trapping on a misaligned or unfetchable target. -/
  | jal (d : Reg) (off : BitVec 20)
  /-- JALR (R81): Jumps to rs1 plus the immediate with bit 0 cleared and writes the link address into rd after reading rs1. -/
  | jalr (d a : Reg) (imm : BitVec 12)
  /-- BEQ (R81): Branches when the two registers are equal. -/
  | beq (a b : Reg) (off : BitVec 12)
  /-- BNE (R81): Branches when the two registers differ. -/
  | bne (a b : Reg) (off : BitVec 12)
  /-- BLT (R81): Branches when rs1 is less than rs2, signed. -/
  | blt (a b : Reg) (off : BitVec 12)
  /-- BGE (R81): Branches when rs1 is greater than or equal to rs2, signed. -/
  | bge (a b : Reg) (off : BitVec 12)
  /-- BLTU (R81): Branches when rs1 is less than rs2, unsigned. -/
  | bltu (a b : Reg) (off : BitVec 12)
  /-- BGEU (R81): Branches when rs1 is greater than or equal to rs2, unsigned. -/
  | bgeu (a b : Reg) (off : BitVec 12)
  /-- LB (R82): Loads a sign-extended byte from the global space through the L1D. -/
  | lb (d a : Reg) (imm : BitVec 12)
  /-- LH (R82): Loads a sign-extended halfword from the global space. -/
  | lh (d a : Reg) (imm : BitVec 12)
  /-- LW (R82): Loads a sign-extended word from the global space. -/
  | lw (d a : Reg) (imm : BitVec 12)
  /-- LD (R82): Loads a doubleword from the global space, with the hint held in HINT. -/
  | ld (d a : Reg) (imm : BitVec 12)
  /-- LBU (R82): Loads a zero-extended byte from the global space. -/
  | lbu (d a : Reg) (imm : BitVec 12)
  /-- LHU (R82): Loads a zero-extended halfword from the global space. -/
  | lhu (d a : Reg) (imm : BitVec 12)
  /-- LWU (R82): Loads a zero-extended word from the global space. -/
  | lwu (d a : Reg) (imm : BitVec 12)
  /-- SB (R82): Stores the low byte of rs2 to the global space. -/
  | sb (a b : Reg) (imm : BitVec 12)
  /-- SH (R82): Stores the low halfword of rs2 to the global space. -/
  | sh (a b : Reg) (imm : BitVec 12)
  /-- SW (R82): Stores the low word of rs2 to the global space. -/
  | sw (a b : Reg) (imm : BitVec 12)
  /-- SD (R82): Stores a doubleword to the global space, into the L1D or as a noal update. -/
  | sd (a b : Reg) (imm : BitVec 12)
  /-- ADDI (R78): Adds the sign-extended immediate to rs1. -/
  | addi (d a : Reg) (imm : BitVec 12)
  /-- SLTI (R78): Sets rd to 1 when rs1 is less than the immediate, signed. -/
  | slti (d a : Reg) (imm : BitVec 12)
  /-- SLTIU (R78): Sets rd to 1 when rs1 is less than the immediate, unsigned. -/
  | sltiu (d a : Reg) (imm : BitVec 12)
  /-- XORI (R78): XORs rs1 with the immediate. -/
  | xori (d a : Reg) (imm : BitVec 12)
  /-- ORI (R78): ORs rs1 with the immediate. -/
  | ori (d a : Reg) (imm : BitVec 12)
  /-- ANDI (R78): ANDs rs1 with the immediate. -/
  | andi (d a : Reg) (imm : BitVec 12)
  /-- SLLI (R78): Shifts rs1 left by the 6-bit shift amount. -/
  | slli (d a : Reg) (sh : BitVec 6)
  /-- SRLI (R78): Shifts rs1 right logically by the 6-bit shift amount. -/
  | srli (d a : Reg) (sh : BitVec 6)
  /-- SRAI (R78): Shifts rs1 right arithmetically by the 6-bit shift amount. -/
  | srai (d a : Reg) (sh : BitVec 6)
  /-- ADD (R78): Adds two registers modulo 2^64. -/
  | add (d a b : Reg)
  /-- SLL (R78): Shifts rs1 left by bits 5:0 of rs2. -/
  | sll (d a b : Reg)
  /-- SLT (R78): Sets rd to 1 when rs1 is less than rs2, signed. -/
  | slt (d a b : Reg)
  /-- SLTU (R78): Sets rd to 1 when rs1 is less than rs2, unsigned. -/
  | sltu (d a b : Reg)
  /-- XOR (R78): XORs two registers. -/
  | xor (d a b : Reg)
  /-- SRL (R78): Shifts rs1 right logically by bits 5:0 of rs2. -/
  | srl (d a b : Reg)
  /-- OR (R78): ORs two registers. -/
  | or (d a b : Reg)
  /-- AND (R78): ANDs two registers. -/
  | and (d a b : Reg)
  /-- SUB (R78): Subtracts rs2 from rs1 modulo 2^64. -/
  | sub (d a b : Reg)
  /-- SRA (R78): Shifts rs1 right arithmetically by bits 5:0 of rs2. -/
  | sra (d a b : Reg)
  /-- MUL (R78): Writes the low 64 bits of the product. -/
  | mul (d a b : Reg)
  /-- MULH (R78): Writes bits 127:64 of the signed by signed product. -/
  | mulh (d a b : Reg)
  /-- MULHSU (R78): Writes bits 127:64 of the signed by unsigned product. -/
  | mulhsu (d a b : Reg)
  /-- MULHU (R78): Writes bits 127:64 of the unsigned by unsigned product. -/
  | mulhu (d a b : Reg)
  /-- DIV (R79): Divides signed, rounding toward zero, with the fixed borderline results and no trap. -/
  | div (d a b : Reg)
  /-- DIVU (R79): Divides unsigned, giving all ones for a zero divisor. -/
  | divu (d a b : Reg)
  /-- REM (R79): Gives the signed remainder, with the dividend's sign. -/
  | rem (d a b : Reg)
  /-- REMU (R79): Gives the unsigned remainder. -/
  | remu (d a b : Reg)
  /-- ADDIW (R78): Adds the immediate on bits 31:0 and sign-extends the result. -/
  | addiw (d a : Reg) (imm : BitVec 12)
  /-- SLLIW (R78): Shifts the low word left and sign-extends the result. -/
  | slliw (d a : Reg) (sh : BitVec 5)
  /-- SRLIW (R78): Shifts the low word right logically and sign-extends the result. -/
  | srliw (d a : Reg) (sh : BitVec 5)
  /-- SRAIW (R78): Shifts the low word right arithmetically and sign-extends the result. -/
  | sraiw (d a : Reg) (sh : BitVec 5)
  /-- ADDW (R78): Adds the low words and sign-extends the result. -/
  | addw (d a b : Reg)
  /-- SLLW (R78): Shifts the low word left by bits 4:0 of rs2. -/
  | sllw (d a b : Reg)
  /-- SRLW (R78): Shifts the low word right logically by bits 4:0 of rs2. -/
  | srlw (d a b : Reg)
  /-- SUBW (R78): Subtracts the low words and sign-extends the result. -/
  | subw (d a b : Reg)
  /-- SRAW (R78): Shifts the low word right arithmetically by bits 4:0 of rs2. -/
  | sraw (d a b : Reg)
  /-- MULW (R78): Multiplies the low words and sign-extends the 32-bit product. -/
  | mulw (d a b : Reg)
  /-- DIVW (R79): Divides the low words signed, with the fixed borderline results. -/
  | divw (d a b : Reg)
  /-- DIVUW (R79): Divides the low words unsigned, with the fixed borderline results. -/
  | divuw (d a b : Reg)
  /-- REMW (R79): Gives the signed remainder of the low words. -/
  | remw (d a b : Reg)
  /-- REMUW (R79): Gives the unsigned remainder of the low words. -/
  | remuw (d a b : Reg)
  /-- FENCE (R89): Any MISC-MEM word with funct3 000 executes as fnc.pkg over all classes. -/
  | fence (imm : BitVec 12) (a d : Reg)
  /-- FENCE_I (R90): Writes back the core's L1D, invalidates the cluster's instruction cache and refetches the next instruction. -/
  | fenceI (imm : BitVec 12) (a d : Reg)
  /-- ECALL (R91): Traps with cause ECALL; in slot 15 it forwards the record at x10 to Kamgor and parks. -/
  | ecall
  /-- EBREAK (R91): Traps with cause EBREAK; in slot 15 it parks the supervisor and tells Kamgor. -/
  | ebreak
  /-- CSRRW (R92): Reads the CSR into rd and writes rs1 into it in one step. -/
  | csrrw (d a : Reg) (csr : BitVec 12)
  /-- CSRRS (R92): Reads the CSR and sets the bits of rs1 when rs1 is nonzero. -/
  | csrrs (d a : Reg) (csr : BitVec 12)
  /-- CSRRC (R92): Reads the CSR and clears the bits of rs1 when rs1 is nonzero. -/
  | csrrc (d a : Reg) (csr : BitVec 12)
  /-- CSRRWI (R92): Reads the CSR and writes the zero-extended 5-bit immediate into it. -/
  | csrrwi (d u : Reg) (csr : BitVec 12)
  /-- CSRRSI (R92): Reads the CSR and sets the immediate's bits. -/
  | csrrsi (d u : Reg) (csr : BitVec 12)
  /-- CSRRCI (R92): Reads the CSR and clears the immediate's bits. -/
  | csrrci (d u : Reg) (csr : BitVec 12)
  /-- REP (R185): Executes the following word count times, stepping the chosen register fields, each repetition a full instruction. -/
  | rep (count : BitVec 6) (mask : BitVec 3) (step : BitVec 2)
  /-- BFX (R94): Extracts a sign-extended bit field described by rs2. -/
  | bfx (d a b : Reg)
  /-- BFXU (R94): Extracts a zero-extended bit field described by rs2. -/
  | bfxu (d a b : Reg)
  /-- BFI (R94): Inserts the low bits of rs1 into a field of rd. -/
  | bfi (d a b : Reg)
  /-- CLZ (R95): Counts the leading zero bits of rs1. -/
  | clz (d a : Reg)
  /-- CTZ (R95): Counts the trailing zero bits of rs1. -/
  | ctz (d a : Reg)
  /-- CPOP (R95): Counts the set bits of rs1. -/
  | cpop (d a : Reg)
  /-- REV8 (R95): Reverses the byte order of rs1. -/
  | rev8 (d a : Reg)
  /-- LDL (R97): Loads from the local space under the own, core-select or interleaved mode. -/
  | ldl (d a : Reg) (size : MemSize) (mode : LocMode) (u : Bool)
  /-- STL (R97): Stores to the local space under the selected mode. -/
  | stl (a b : Reg) (size : MemSize) (mode : LocMode)
  /-- LDH (R98): Loads from the global space with the hint in its encoding. -/
  | ldh (d a : Reg) (size : MemSize) (hint : Hint) (u : Bool)
  /-- STH (R98): Stores to the global space with the hint in its encoding. -/
  | sth (a b : Reg) (size : MemSize) (hint : Hint)
  /-- AMOADD (R137): Atomically adds rs2 to the word at its home atomic unit, with optional ordering and wake. -/
  | amoadd (d : BitVec 4) (b : BitVec 4) (a : BitVec 4) (dbl : Bool) (ord : AmoOrd) (scope : AmoScope)
  /-- AMOAND (R137): Atomically ANDs rs2 into the word. -/
  | amoand (d : BitVec 4) (b : BitVec 4) (a : BitVec 4) (dbl : Bool) (ord : AmoOrd) (scope : AmoScope)
  /-- AMOOR (R137): Atomically ORs rs2 into the word. -/
  | amoor (d : BitVec 4) (b : BitVec 4) (a : BitVec 4) (dbl : Bool) (ord : AmoOrd) (scope : AmoScope)
  /-- AMOXOR (R137): Atomically XORs rs2 into the word. -/
  | amoxor (d : BitVec 4) (b : BitVec 4) (a : BitVec 4) (dbl : Bool) (ord : AmoOrd) (scope : AmoScope)
  /-- AMOMIN (R137): Atomically stores the signed minimum. -/
  | amomin (d : BitVec 4) (b : BitVec 4) (a : BitVec 4) (dbl : Bool) (ord : AmoOrd) (scope : AmoScope)
  /-- AMOMAX (R137): Atomically stores the signed maximum. -/
  | amomax (d : BitVec 4) (b : BitVec 4) (a : BitVec 4) (dbl : Bool) (ord : AmoOrd) (scope : AmoScope)
  /-- AMOMINU (R137): Atomically stores the unsigned minimum. -/
  | amominu (d : BitVec 4) (b : BitVec 4) (a : BitVec 4) (dbl : Bool) (ord : AmoOrd) (scope : AmoScope)
  /-- AMOMAXU (R137): Atomically stores the unsigned maximum. -/
  | amomaxu (d : BitVec 4) (b : BitVec 4) (a : BitVec 4) (dbl : Bool) (ord : AmoOrd) (scope : AmoScope)
  /-- AMOSWAP (R137): Atomically swaps rs2 into the word. -/
  | amoswap (d : BitVec 4) (b : BitVec 4) (a : BitVec 4) (dbl : Bool) (ord : AmoOrd) (scope : AmoScope)
  /-- AMOCAS (R137): Atomically writes rs2 when the word equals the compare value in rd. -/
  | amocas (d : BitVec 4) (b : BitVec 4) (a : BitVec 4) (dbl : Bool) (ord : AmoOrd) (scope : AmoScope)
  /-- AMODECP (R137): Atomically decrements the word only when it is positive, returning the old value. -/
  | amodecp (d : BitVec 4) (a : BitVec 4) (dbl : Bool) (ord : AmoOrd) (scope : AmoScope)
  /-- AMOFADD (R137): Atomically adds rs2 as IEEE binary32 or binary64 with RNE. -/
  | amofadd (d : BitVec 4) (b : BitVec 4) (a : BitVec 4) (dbl : Bool) (ord : AmoOrd) (scope : AmoScope)
  /-- FNC (R145): Fence: probes touched tiles at its scope and parks until the echoes of the chosen class return. -/
  | fnc (scope : Scope) (cls : FenceClass)
  /-- LDAQ (R146): Acquire load: reads the sync object's value and signature at the home and invalidates matching L1D lines. -/
  | ldaq (d a : Reg) (dbl : Bool) (scope : Scope)
  /-- STRL (R147): Release store: writes back the tier's dirty sectors, probes, then writes value, count and signature to the sync object. -/
  | strl (a b : Reg) (dbl : Bool) (scope : Scope)
  /-- L1WB (R148): Writes back dirty L1D sectors of a range homed in the scope's tier. -/
  | l1wb (a b : Reg) (scope : Scope)
  /-- L1INV (R148): Writes back and invalidates L1D sectors of a range homed in the scope's tier. -/
  | l1inv (a b : Reg) (scope : Scope)
  /-- BOINIT (R150): Initialises a barrier object with an expected byte count at phase 0, armed. -/
  | boinit (a b : Reg)
  /-- BOEXP (R150): Sets the next phase's expected count and arms the object, flipping if already reached. -/
  | boexp (a b : Reg)
  /-- BOARR (R150): Counts bytes into a barrier object after the thread's remote stores are performed. -/
  | boarr (a b : Reg)
  /-- TRECV (R313): Supervisor takes the oldest trap record into scratchpad and gets the trapped slot. -/
  | trecv (d a : Reg)
  /-- TRESUME (R314): Answers every taken record of a slot, resuming the thread or its engines. -/
  | tresume (a : Reg)
  /-- TKILL (R316): Ends the thread in a slot, releasing its records, registrations, bindings, claims and engine work. -/
  | tkill (a : Reg)
  /-- TSTEP (R315): Answers a slot's records granting exactly one instruction boundary, then a STEP trap. -/
  | tstep (a : Reg)
  /-- QMAP (R249): Binds a port register to one end of a register queue or ring. -/
  | qmap (p : Reg) (ring : Bool) (out : Bool) (num : Reg)
  /-- QUNMAP (R249): Removes a port register's binding. -/
  | qunmap (p : Reg)
  /-- QTOK (R250): Writes an END token of the given level to an out-bound port. -/
  | qtok (p : Reg) (level : TokLevel)
  /-- QPEEK (R252): Parks until the head holds an entry and returns its value or minus its token level without taking it. -/
  | qpeek (d p : Reg)
  /-- QSTAT (R253): Returns a snapshot of a port's status without parking. -/
  | qstat (d p : Reg)
  /-- QBTOK (R251): Branches and dequeues when the head is a token of at least the given level. -/
  | qbtok (p : Reg) (level : TokLevel) (off : BitVec 12)
  /-- RWAITF (R255): Parks until n entries from the consumer head are full. -/
  | rwaitf (h : BitVec 3) (c : Reg)
  /-- RWAITE (R255): Parks until the producer may place the next n sequences or its claim's sequence. -/
  | rwaite (h : BitVec 3) (c : Reg)
  /-- RADVC (R255): Takes n full DATA entries from the head and sends the new head. -/
  | radvc (h : BitVec 3) (c : Reg)
  /-- RADVP (R255): Marks the current claim's sequence SKIP on a sequenced output ring. -/
  | radvp (h : BitVec 3) (c : Reg)
  /-- RSLOT (R255): Reads a word of a ring cell at an offset from the head, or of the claimed cell. -/
  | rslot (d : Reg) (h : BitVec 3) (c : Reg)
  /-- RSEQ (R255): Claims the lowest unclaimed full sequence of an input ring, settling earlier claims. -/
  | rseq (d : Reg) (h : BitVec 3)
  /-- SEND (R256): Delivers a value into a target thread's message register, retrying while refused. -/
  | send (m : BitVec 3) (a b : Reg)
  /-- MRECV (R256): Parks until a message register is full, then takes its value and clears the full bit. -/
  | mrecv (d : Reg) (m : BitVec 3)
  /-- MTEST (R256): Returns a message register's full bit without waiting. -/
  | mtest (d : Reg) (m : BitVec 3)
  /-- SPAWN (R257): Pushes a task record onto the core's deque with an affinity. -/
  | spawn (d a : Reg) (aff : Affinity)
  /-- TRET (R258): Retires the thread after its queued tile operations complete, freeing slot, allotment and bindings. -/
  | tret
  /-- YIELD (R259): Waits up to 16 die cycles or until no other slot is ready. -/
  | yield
  /-- WAITA (R152): Compares the word at its home and either returns a status or registers in the monitor table and parks. -/
  | waita (d a b : Reg) (dbl : Bool)
  /-- NOTIFY (R153): Sends a wake for one or all registrations on a word and returns the number woken. -/
  | notify (d a : Reg) (all : Bool)
  /-- BOWAIT (R151): Parks until a barrier object's phase differs from the given value. -/
  | bowait (a b : Reg)
  /-- REDUCE (R260): Places a vector on a tree slot's collective lane for one reduction episode. -/
  | reduce (v : Reg) (tree : BitVec 4) (a : Reg)
  /-- ALIGN (R261): Parks until every member of the align set is parked at the same PC, or 256 cycles pass. -/
  | align (id : BitVec 4)
  /-- IPF (R262): Asks the cluster's fetch port to bring instruction lines into the instruction cache. -/
  | ipf (a : Reg) (count : BitVec 4)
  /-- VADD (R195): Adds active elements of two vectors. -/
  | vadd (ty : VType) (d a b : Reg) (k : BitVec 3)
  /-- VSUB (R195): Subtracts active elements. -/
  | vsub (ty : VType) (d a b : Reg) (k : BitVec 3)
  /-- VMUL (R195): Multiplies active elements. -/
  | vmul (ty : VType) (d a b : Reg) (k : BitVec 3)
  /-- VMA (R195): Fused multiply-add with vd as addend. -/
  | vma (ty : VType) (d a b : Reg) (k : BitVec 3)
  /-- VMIN (R195): Takes the element minimum. -/
  | vmin (ty : VType) (d a b : Reg) (k : BitVec 3)
  /-- VMAX (R195): Takes the element maximum. -/
  | vmax (ty : VType) (d a b : Reg) (k : BitVec 3)
  /-- VDIV (R195): Divides f32 elements, correctly rounded. -/
  | vdiv (d a b : Reg) (k : BitVec 3)
  /-- VSLL (R197): Shifts integer elements left. -/
  | vsll (ty : VType) (d a b : Reg) (k : BitVec 3)
  /-- VSRL (R197): Shifts integer elements right with zeros. -/
  | vsrl (ty : VType) (d a b : Reg) (k : BitVec 3)
  /-- VSRA (R197): Shifts integer elements right with sign copies. -/
  | vsra (ty : VType) (d a b : Reg) (k : BitVec 3)
  /-- VCMP (R198): Compares elements and writes a destination mask. -/
  | vcmp (ty : VType) (cond : Cond) (kd : BitVec 3) (a b : Reg) (k : BitVec 3)
  /-- VSEL (R199): Selects each element from vs1 or vs2 by a mask, bit for bit. -/
  | vsel (ty : VType) (d a b : Reg) (ks : BitVec 3)
  /-- VRED (R204): Reduces active elements by a fixed pairwise tree into element 0. -/
  | vred (ty : VType) (op : RedOp) (d a : Reg) (k : BitVec 3)
  /-- VSCAN (R204): Writes the left-fold prefix values of the elements. -/
  | vscan (ty : VType) (op : RedOp) (d a : Reg) (k : BitVec 3)
  /-- VCVT (R200): Converts every element from a source format to the destination type by a conversion code. -/
  | vcvt (ty : VType) (conv : Conv) (src : ElemFmt) (d a : Reg)
  /-- VABS (R196): Takes the absolute value of each element. -/
  | vabs (ty : VType) (d a : Reg) (k : BitVec 3)
  /-- VNEG (R196): Negates each element. -/
  | vneg (ty : VType) (d a : Reg) (k : BitVec 3)
  /-- VSQRT (R196): Takes the correctly rounded f32 square root. -/
  | vsqrt (d a : Reg) (k : BitVec 3)
  /-- VRCP (R196): Takes the correctly rounded f32 reciprocal. -/
  | vrcp (d a : Reg) (k : BitVec 3)
  /-- VRSQRT (R196): Takes the correctly rounded f32 reciprocal square root. -/
  | vrsqrt (d a : Reg) (k : BitVec 3)
  /-- VEXP2 (R196): Takes the correctly rounded f32 power of two. -/
  | vexp2 (d a : Reg) (k : BitVec 3)
  /-- VLOG2 (R196): Takes the correctly rounded f32 base-2 logarithm. -/
  | vlog2 (d a : Reg) (k : BitVec 3)
  /-- VSORT (R209): Sorts the active elements of each row into the active positions. -/
  | vsort (ty : VType) (d a : Reg) (k : BitVec 3)
  /-- VTRN (R206): Transposes the ROWS by C grid of vs1. -/
  | vtrn (ty : VType) (d a : Reg) (k : BitVec 3)
  /-- VCOMP (R208): Packs active elements into the low positions, zeroing the rest. -/
  | vcomp (ty : VType) (d a : Reg) (k : BitVec 3)
  /-- VEXPD (R208): Unpacks low elements into the active positions. -/
  | vexpd (ty : VType) (d a : Reg) (k : BitVec 3)
  /-- VCVT_NARROW (R201): Converts wide float elements into a narrow float format, packed. -/
  | vcvtNarrow (nfmt : NarrowFmt) (conv : Conv) (wide : WideType) (d a : Reg)
  /-- VQNT (R211): Quantises wide elements into a narrow format with per-block E8M0 scales. -/
  | vqnt (nfmt : NarrowFmt) (conv : Conv) (wide : WideType) (d a : Reg)
  /-- VDQ (R212): Dequantises narrow elements with their block scales into a wide type. -/
  | vdq (nfmt : NarrowFmt) (conv : Conv) (wide : WideType) (d a : Reg)
  /-- VSHAPE (R181): Sets SHAPE's rows and row bytes, trapping on refused values. -/
  | vshape (a b : Reg)
  /-- VLD (R192): Loads ROWS rows of RBYTES bytes with a row stride, global or local. -/
  | vld (v a b : Reg) (hint : Hint) (loc : Bool)
  /-- VST (R192): Stores ROWS rows of RBYTES bytes with a row stride. -/
  | vst (v a b : Reg) (hint : Hint) (loc : Bool)
  /-- VLDX (R193): Gathers 4-byte elements at base plus signed offsets. -/
  | vldx (v a b : Reg) (hint : Hint) (loc : Bool)
  /-- VSTX (R193): Scatters 4-byte elements at base plus signed offsets in ascending order. -/
  | vstx (v a b : Reg) (hint : Hint) (loc : Bool)
  /-- VBC (R194): Broadcasts a scalar into every element. -/
  | vbc (size : ElemSize) (d a : Reg)
  /-- VINS (R194): Inserts a scalar into one element. -/
  | vins (size : ElemSize) (d a b : Reg)
  /-- VEXT (R194): Extracts one element into an integer register. -/
  | vext (size : ElemSize) (u : Bool) (d a b : Reg)
  /-- VMV (R194): Copies active 4-byte elements. -/
  | vmv (d a : Reg) (k : BitVec 3)
  /-- VAND (R197): ANDs active 4-byte elements. -/
  | vand (d a b : Reg) (k : BitVec 3)
  /-- VOR (R197): ORs active 4-byte elements. -/
  | vor (d a b : Reg) (k : BitVec 3)
  /-- VXOR (R197): XORs active 4-byte elements. -/
  | vxor (d a b : Reg) (k : BitVec 3)
  /-- VROT (R205): Rotates elements toward lower indices. -/
  | vrot (size : ElemSize) (d a b : Reg)
  /-- VMATCH (R207): Finds for each element its least bitwise match in vs2. -/
  | vmatch (size : ElemSize) (d a b : Reg)
  /-- KAND (R210): ANDs two masks. -/
  | kand (kd ka kb : BitVec 3)
  /-- KOR (R210): ORs two masks. -/
  | kor (kd ka kb : BitVec 3)
  /-- KXOR (R210): XORs two masks. -/
  | kxor (kd ka kb : BitVec 3)
  /-- KNOT (R210): Inverts a mask. -/
  | knot (kd ka : BitVec 3)
  /-- KPOP (R210): Counts a mask's set bits into rd. -/
  | kpop (d : Reg) (ka : BitVec 3)
  /-- KFIRST (R210): Writes the index of a mask's lowest set bit. -/
  | kfirst (d : Reg) (ka : BitVec 3)
  /-- KMV (R210): Copies a mask. -/
  | kmv (kd ka : BitVec 3)
  /-- KLEN (R210): Sets the first X[rs1] bits of a mask. -/
  | klen (kd : BitVec 3) (a : Reg)
  /-- TCFG (R265): Claims sub-arrays in a mode with a K step count, or releases the claim. -/
  | tcfg (a : Reg)
  /-- TZERO (R280): Queues an operation that zeroes the named output tile. -/
  | tzero (acc : Reg)
  /-- TWAIT (R275): Parks until every earlier tile operation writing the accumulator is complete. -/
  | twait (acc : Reg)
  /-- TMMA (R281): Queues a tile product adding A times B into the output tile. -/
  | tmma (ty : TileType) (ga gb : Bool) (acc a b : Reg)
  /-- TMMAC (R282): Queues a product whose A operand is a source accumulator through the down-converter. -/
  | tmmac (ty : TileType) (gb : Bool) (acc src b : Reg)
  /-- TLDA (R284): Queues a load of the output tile from local memory, converted to FP32. -/
  | tlda (ty : TileType) (acc a b : Reg)
  /-- TSTA (R284): Queues a store of the output tile into local memory, rounded by FMTA.CVT. -/
  | tsta (ty : TileType) (acc a b : Reg)
  /-- TMOV (R284): Queues a bit-for-bit copy of one accumulator into another. -/
  | tmov (acc src : Reg)
  /-- PUT (R285): Queues a copy from local space to global memory with a barrier or notify completion. -/
  | put (d a b rc : Reg) (ntf : Bool)
  /-- GET (R285): Queues a copy from global memory to local space. -/
  | get (d a b rc : Reg) (ntf : Bool)
  /-- PUTM (R288): Queues a copy into the same local address of each core named by a mask. -/
  | putm (d a b rc : Reg)
  /-- GETF (R287): Queues a global-to-local copy whose follow-on tmma or tmmac starts when the copy's last byte is counted. -/
  | getf (d a b rc : Reg) (ntf : Bool)
  /-- GATH (R292): Gathers table elements named by a local index list into scratchpad with one count. -/
  | gath (d a b rc : Reg)
  /-- KSCAN (R296): Streams a global region past the stack scan units, returning passing pairs into a pair ring. -/
  | kscan (d a b rc : Reg)
  /-- RACFG (R293): Sets the thread's reference-accelerator table base and element size. -/
  | racfg (a b : Reg)
  /-- RASTART (R294): Starts the cluster's reference accelerator streaming indices from one queue into values in another. -/
  | rastart (qi qv : Reg)
  /-- RASTAT (R295): Returns a snapshot of the thread's accelerator stream. -/
  | rastat (d : Reg)
  /-- CRCFG (R298): Reads a loop record from global memory as the thread's cruiser configuration. -/
  | crcfg (a : Reg)
  /-- CRGO (R299): Starts the cluster's cruiser emitting into a queue. -/
  | crgo (q : Reg)
  /-- CRSTAT (R299): Returns a snapshot of the thread's cruiser. -/
  | crstat (d : Reg)
  /-- PFT (R290): Prefetches a region of lines into their home slices with a hint. -/
  | pft (hint : Hint) (a b : Reg)
  /-- CWB (R291): Writes dirty MSC lines of a range to the stacks. -/
  | cwb (a b : Reg)
  /-- CINV (R291): Writes back and invalidates MSC lines of a range, except pinned ones. -/
  | cinv (a b : Reg)
  /-- L1D_FILL (R17): A reply returns to the core, fills the L1D sector and writes the destination register. -/
  | l1dFill (m : Nat)
  /-- MSC_REQUEST (R379): A miss request reaches its home slice, which serves a hit or reads the stack and allocates by hint and policy. -/
  | mscRequest (m : Nat)
  /-- STACK_REPLY (R417): A channel controller returns read data or acknowledges a write to the slice. -/
  | stackReply (m : Nat)
  /-- WRITEBACK_AT_HOME (R108): A sector write-back or noal update arrives at the home slice and is performed. -/
  | writebackAtHome (m : Nat)
  /-- WRITEBACK_ACK (R85): An acknowledgement returns to the core, releasing the next write-back or waiting load of the line. -/
  | writebackAck (m : Nat)
  /-- ATOMIC_AT_HOME (R138): The home tile's atomic unit performs an atomic in one step, with release, acquire and wake parts. -/
  | atomicAtHome (m : Nat)
  /-- SYNC_ACCESS_AT_HOME (R146): An ldaq read or strl step-4 write is performed at the sync object's home in one step. -/
  | syncAccessAtHome (m : Nat)
  /-- WAITA_AT_HOME (R152): The compare-and-register step of waita is made at the home tile. -/
  | waitaAtHome (m : Nat)
  /-- NOTIFY_AT_HOME (R153): A notify reaches the home tile and wakes one or every registration on its word. -/
  | notifyAtHome (m : Nat)
  /-- FENCE_PROBE (R123): A fence probe reaches a target, which echoes once it has received the carried request count. -/
  | fenceProbe (m : Nat)
  /-- ECHO_ARRIVAL (R123): A fence echo returns to the core; when all are back the fence or release resumes. -/
  | echoArrival (m : Nat)
  /-- VAULT_ACCESS (R105): A vault access is checked by the tile's access table and performed at the vault in one step. -/
  | vaultAccess (m : Nat)
  /-- REMOTE_SCRATCHPAD_ACCESS (R100): A csel or ilv access is performed at another core's scratchpad. -/
  | remoteScratchpadAccess (m : Nat)
  /-- DEVICE_ACCESS (R397): An 8-byte device-page access reaches the control die's context registers and is acknowledged. -/
  | deviceAccess (m : Nat)
  /-- SEND_DELIVERY (R256): A send reaches the target core and is accepted, refused or found absent in one step. -/
  | sendDelivery (m : Nat)
  /-- SEND_RETRY (R256): After a refusal the sender waits 64 die cycles and sends again. -/
  | sendRetry (core : Fin 1280) (slot : Fin 16)
  /-- ALIGN_TIMEOUT (R261): An align that has waited 256 die cycles releases its thread. -/
  | alignTimeout (core : Fin 1280) (slot : Fin 16)
  /-- YIELD_EXPIRY (R259): A yielding thread continues after 16 die cycles. -/
  | yieldExpiry (core : Fin 1280) (slot : Fin 16)
  /-- RING_CELL_WRITE (R242): A ring cell write is performed in one step at the landing core or the boom cell's home. -/
  | ringCellWrite (m : Nat)
  /-- HEAD_MESSAGE (R241): A consumer head message reaches a producer, which keeps the largest head and may unpark. -/
  | headMessage (m : Nat)
  /-- RING_CLAIM (R243): A claim is performed at the landing core, taking the lowest full unclaimed sequence. -/
  | ringClaim (m : Nat)
  /-- BOOM_READ_AHEAD (R242): The ring engine reads a boom cell ahead when the head comes within 4 sequences of it. -/
  | boomReadAhead (ring : Nat)
  /-- LB_CLONE (R245): After 4,096 cycles above 75 % occupancy the balancer dispatches a new replica. -/
  | lbClone (ring : Nat) (core : Fin 1280)
  /-- LB_WITHDRAW (R245): After 65,536 cycles below 25 % occupancy the balancer marks the highest replica to retire at its next token. -/
  | lbWithdraw (ring : Nat)
  /-- CRUISER_EMIT (R299): The cruiser emits one DATA record or token per die cycle while its queue has room. -/
  | cruiserEmit (cluster : Fin 320)
  /-- ACCEL_LOOKAHEAD (R294): The accelerator reads ahead up to 64 indices, translates them and sends speculative gathers. -/
  | accelLookahead (cluster : Fin 320)
  /-- ACCEL_DELIVER (R294): A confirmed value or token enters the value queue in index order. -/
  | accelDeliver (cluster : Fin 320)
  /-- GATHER_REQUEST (R292): A home tile's gather engine reads its elements at its slice and returns a packed reply. -/
  | gatherRequest (core : Fin 1280) (cmd : Nat) (elem : Nat)
  /-- GATHER_LAND (R292): Gathered elements land and, when all have, the byte count is made in one count. -/
  | gatherLand (core : Fin 1280) (cmd : Nat)
  /-- COPY_PACKET_LAND (R286): A copy packet is performed at its destination and its bytes are counted into the barrier object. -/
  | copyPacketLand (core : Fin 1280) (cmd : Nat) (pkt : Nat)
  /-- NOTIFY_WORD_WRITE (R126): After every payload byte is acknowledged the engine writes the notify word as a pkg release and wakes its registrations. -/
  | notifyWordWrite (core : Fin 1280) (cmd : Nat)
  /-- SCAN_LINE (R297): A channel's scan unit streams a line, writing passing elements as pairs into the pair ring. -/
  | scanLine (core : Fin 1280) (cmd : Nat) (channel : Nat)
  /-- SCAN_COMPLETE (R297): When every channel is done, n times w bytes are counted into the barrier object. -/
  | scanComplete (core : Fin 1280) (cmd : Nat)
  /-- PREFETCH_LINE (R290): A prefetched line is fetched into its home slice and inserted with the hint. -/
  | prefetchLine (core : Fin 1280) (cmd : Nat) (line : Nat)
  /-- MAINTENANCE_LINE (R291): A home slice handles one line of a cwb or cinv. -/
  | maintenanceLine (core : Fin 1280) (cmd : Nat) (line : Nat)
  /-- TILE_STEP (R268): A sub-array performs one K step of its head operation once the operand bytes are present. -/
  | tileStep (cluster : Fin 320) (sub : Fin 4)
  /-- TILE_STEP_FAULT (R278): A faulting step stops the sub-array with steps 0 to k-1 applied and posts a record. -/
  | tileStepFault (cluster : Fin 320) (sub : Fin 4)
  /-- VAULT_REFUSAL (R419): A tlda or tsta whose vault access is refused posts an access-fault record once all its accesses are answered. -/
  | vaultRefusal (cluster : Fin 320) (sub : Fin 4)
  /-- ENGINE_FAULT (R300): An engine meeting a fault waits for sent packets, posts a record and traps its issuing thread. -/
  | engineFault (core : Fin 1280) (cmd : Nat)
  /-- TABLE_WALK (R308): A walker walks the context's page tables, sets A and D bits and fills the translation caches or stops at a fault. -/
  | tableWalk (core : Fin 1280) (va : Nat) (write : Bool)
  /-- SPECULATIVE_CONFIRM (R311): A confirmed speculative access delivers its held reply or retries a held fault. -/
  | speculativeConfirm (cluster : Fin 320)
  /-- INSTRUCTION_FETCH_MISS (R351): An instruction-cache miss fetches the line from its home slice, freezing only threads waiting on it. -/
  | instructionFetchMiss (m : Nat)
  /-- FETCH_BLOCK (R351): The fetch port reads one 32-byte block per die cycle for every thread waiting on it. -/
  | fetchBlock (cluster : Fin 320) (block : Nat)
  /-- PACKET_SUSPECT (R218): A head packet that has waited T_susp cycles becomes suspect. -/
  | packetSuspect (m : Nat) (die : Fin 4) (router : RouterInput)
  /-- TOKEN_CAPTURE (R221): The recovery token reaches a station with a suspect packet and moves it through the skid lane. -/
  | tokenCapture (m : Nat) (domain : Fin 5)
  /-- SKID_HANDOVER (R222): A rescued packet waiting in a link skid slot crosses with the link token. -/
  | skidHandover (m : Nat) (domain : Fin 5)
  /-- REDUCE_INPUT (R228): A reduction packet reaches a router input and is held, waited or discarded by episode. -/
  | reduceInput (m : Nat)
  /-- ROUTER_FORWARD (R229): Four die cycles after its last input a router folds its inputs and forwards with the missing mask. -/
  | routerForward (die : Fin 4) (tree : Fin 16) (router : Fin 80)
  /-- RED_LIMIT (R230): At (HEIGHT+1) times T_red after its first input a router stops waiting and forms a partial fold. -/
  | redLimit (die : Fin 4) (tree : Fin 16) (router : Fin 80)
  /-- ROOT_DELIVERY (R231): The root writes the delivery record and counts 48 plus F bytes into its barrier object. -/
  | rootDelivery (die : Fin 4) (tree : Fin 16)
  /-- TAKE_ENTRY (R334): The control die reads the launch-queue entry at HEAD, checks it and queues or refuses it. -/
  | takeEntry (ctx : Fin 64)
  /-- PACKET_TO_DIE (R343): A taken packet is sent to a die's ready queue by affinity. -/
  | packetToDie (ctx : Fin 64)
  /-- DIE_STEAL (R344): An idle die sends a steal request to a ring neighbour every 2 µs and may receive an any-affinity packet. -/
  | dieSteal (thief : Fin 4) (east : Bool)
  /-- DISPATCH (R346): A core's dispatcher takes a fitting deque entry or packet and starts a thread, taking a new context if needed. -/
  | dispatch (core : Fin 1280)
  /-- TASK_STEAL (R349): An idle core sends a steal request every 256 die cycles and may take a victim's oldest fitting entry. -/
  | taskSteal (thief victim : Fin 1280)
  /-- TASK_MIGRATE (R350): A die or pkg entry that has waited MIGR times 256 cycles moves to the die's ready queue. -/
  | taskMigrate (core : Fin 1280) (entry : Nat)
  /-- GRAPH_START (R335): A graph start is taken and every node record checked before any node starts. -/
  | graphStart (ctx : Fin 64)
  /-- NODE_START (R338): A node that has become ready is started: a packet placed, a predicate read or an object written. -/
  | nodeStart (ctx : Fin 64) (graph : Nat) (node : Nat)
  /-- LAUNCH_NODE_COMPLETE (R339): A launch node completes when all its threads have retired and their requests and commands are done. -/
  | launchNodeComplete (ctx : Fin 64) (graph : Nat) (node : Nat)
  /-- LOOP_PASS_END (R340): When a pass's nodes complete, the loop node reads its predicate and runs another pass or completes. -/
  | loopPassEnd (ctx : Fin 64) (graph : Nat) (node : Nat)
  /-- COMPLETION_OBJECT_WRITE (R339): A completion node or DONE object is written in one step at its home and wakes its registrations. -/
  | completionObjectWrite (ctx : Fin 64) (graph : Nat) (node : Nat)
  /-- PREEMPT_REQUEST (R352): Writing CTXCTL.RUN as 0 asks Kamgor to pre-empt the context, halting every core within 1 µs. -/
  | preemptRequest (ctx : Fin 64)
  /-- CONTEXT_SAVE (R353): After settling, each halted core writes back its L1D, writes its save record and frees its resources. -/
  | contextSave (ctx : Fin 64)
  /-- RESUME_REQUEST (R357): Writing CTXCTL.RUN as 1 has Kamgor restore each saved core onto a free core. -/
  | resumeRequest (ctx : Fin 64) (place : List (Fin 1280))
  /-- OPAQUE_SAVE (R358): Kamgor halts a core without settling and saves its replay queue in an opaque section. -/
  | opaqueSave (core : Fin 1280)
  /-- KAMGOR_ANSWER (R318): Kamgor answers a forwarded record by writing x10 and unparking the supervisor. -/
  | kamgorAnswer (core : Fin 1280) (repaired : Bool)
  /-- SUPERVISOR_TRAP (R319): A trap or ebreak in slot 15 parks the supervisor and Kamgor restarts it or ends the context by policy. -/
  | supervisorTrap (core : Fin 1280)
  /-- LQTAIL_WRITE (R333): A write of TAIL appends entries unless it would overfill the ring. -/
  | lqtailWrite (ctx : Fin 64) (v : RegWord)
  /-- LQCFG_WRITE (R333): A write of LQCFG enables or stops the taking of entries. -/
  | lqcfgWrite (ctx : Fin 64) (v : RegWord)
  /-- REGISTER_WRITE (R3): A write to a register without a row of its own updates its RW fields and clears W1C bits. -/
  | registerWrite (r : DevReg) (v : RegWord)
  /-- CREATE (R330): Mailbox command that checks a context descriptor, installs it and its key. -/
  | create
  /-- END (R410): Mailbox command that ends a context, destroys its key and removes its windows and trees. -/
  | endCtx
  /-- MAP (R410): Mailbox command that writes page-table leaves for a range and invalidates old translations. -/
  | map
  /-- UNMAP (R410): Mailbox command that removes a range's leaves. -/
  | unmap
  /-- WINDOWS (R385): Mailbox command that installs a context's pin and replica windows when no core holds it. -/
  | windows
  /-- TREE (R226): Mailbox command that installs a tree record into a slot for a context. -/
  | tree
  /-- ATTEST (R374): Mailbox command that returns a signed attestation report over a nonce. -/
  | attest
  /-- HOST_APERTURE_ACCESS (R411): A host access through a BAR2 aperture is translated, checked and performed at the home slice. -/
  | hostApertureAccess (aperture : Fin 16) (off : Nat) (size : Nat) (write : Option HostOp)
  /-- HOST_REQUEST (R413): A device request to a host window is sent in order and echoes a sys probe when complete. -/
  | hostRequest (m : Nat)
  /-- PEER_REQUEST (R415): A peer request is translated, checked and performed at the far device. -/
  | peerRequest (m : Nat)
  /-- PEER_LINK_FAIL (R416): A peer link down for 10 µs fails every outstanding request on it. -/
  | peerLinkFail (port : Fin 16)
  /-- EXTENT_RELEASE (R393): A fabric extent release writes back and invalidates its lines, or on forced timeout discards them and logs the loss. -/
  | extentRelease (extent : Fin 1024) (forced : Bool)
  /-- ACCESS_TABLE_WRITE (R371): A table write takes effect for accesses arriving after its acknowledgement. -/
  | accessTableWrite (target : AclTarget) (entry : Fin 64) (w0 w1 : Word)
  /-- SLICE_RETIRE (R378): Kamgor drains a slice, remaps its entries, wakes its registrations and leaves a retire stub. -/
  | sliceRetire (tile dest : Fin 320)
  /-- STUB_FORWARD (R378): A request reaching a retired slice is forwarded to its new home, which replies. -/
  | stubForward (m : Nat)
  /-- HOT_ROW_CAPTURE (R391): At a row's 2,048th activation in a window the controller captures its lines. -/
  | hotRowCapture (stack : Fin 12) (row : List Nat)
  /-- CAPTURE_WINDOW_END (R391): At the end of a 32 ms window every captured bit clears and the lines go to age 3. -/
  | captureWindowEnd
  /-- MAJ_COPY_AT_STACK (R402): A copy or repair is judged by its tag at a stack and accepted, refused as stale or absent. -/
  | majCopyAtStack (m : Nat)
  /-- MAJ_REPLY (R402): A stack's reply reaches the unit; the second reply from an IN stack completes the store. -/
  | majReply (m : Nat)
  /-- MAJ_READ_REPLY (R403): A read reply reaches the unit, which resolves the winner, repairs and returns or traps. -/
  | majReadReply (m : Nat)
  /-- STACK_OFFLINE (R398): Writing STATE OFFLINE takes a stack out of service, holding its normal accesses. -/
  | stackOffline (stack : Fin 12)
  /-- STACK_CATCHUP (R405): Writing STATE CATCHUP sets every carve granule's catch-up bit and starts the sweep. -/
  | stackCatchup (stack : Fin 12)
  /-- STACK_FAILED (R399): Writing STATE FAILED turns held and later accesses into uncorrectable errors and discards dirty lines. -/
  | stackFailed (stack : Fin 12)
  /-- CATCHUP_GRANULE (R405): The scrubber brings one granule of a returning stack up to date from the winner. -/
  | catchupGranule (stack : Fin 12)
  /-- SCRUB_VISIT (R406): The scrubber reads a granule's copies, repairs them and refreshes an ageing tag. -/
  | scrubVisit (triple : Fin 4) (granule : Nat)
  /-- DFREQ_TGT_WRITE (R364): Writing TGT retargets the spare PLL and clears LOCK. -/
  | dfreqTgtWrite (die : Fin 4) (v : Word)
  /-- PLL_LOCK (R364): The spare PLL locks to the target step and sets LOCK. -/
  | pllLock (die : Fin 4)
  /-- DFSW_WRITE (R364): Writing AT schedules the switch at a reference tick when locked and far enough ahead. -/
  | dfswWrite (die : Fin 4) (v : Word)
  /-- FREQ_SWITCH (R365): At tick AT the die clock passes to the new PLL, INC is updated and crossing FIFOs stall. -/
  | freqSwitch (die : Fin 4)
  /-- CROSSING_STALL_END (R365): At AT plus 64 the die's clock-crossing FIFOs pass traffic again. -/
  | crossingStallEnd (die : Fin 4)
  /-- COMPUTE_DIE_RESET (R369): Kamgor stops dispatch to a die, ends its contexts and drains and stops its compute layer. -/
  | computeDieReset (die : DieReset)
  /-- DIE_RESET_RELEASE (R369): On release the die loads its timer copy and dispatch resumes. -/
  | dieResetRelease (die : Fin 4)
  /-- PACKAGE_RESET (R368): Package reset loses all state and restarts the boot. -/
  | packageReset
  /-- BOOT_IMAGE_CHECK (R373): The boot ROM checks and runs each firmware image in kind order, or enters recovery mode. -/
  | bootImageCheck (image : List Byte)
  /-- RECOVERY_IMAGE (R373): An image supplied through the recovery window is checked as at boot. -/
  | recoveryImage (image : List Byte)
  /-- LINK_MODULE_FAIL (R362): A die-to-die module failing training is disabled, or the loss of every module is a fatal error. -/
  | linkModuleFail (link : Fin 8) (module : Fin 12)
  /-- ILLEGAL_INSTRUCTION (R74): Issuing a word that decodes to no form traps with ILLEGAL_INSTRUCTION and changes no register or memory. -/
  | illegalInstruction (word : BitVec 32)
  /-- REPLY_TO_CORE (R139): A data reply of an atomic, ldaq, vault, remote-scratchpad, MAJ or device load reaches the core, writes rd and, for an acquire, ORs G into SIGACQ and invalidates matching L1D lines. -/
  | replyToCore (m : Nat)
  /-- MEMORY_ERROR (R395): A stored sector takes a correctable or uncorrectable error, which later reads correct and count or report. -/
  | memoryError (pa : Nat) (correctable : Bool) (copy : Option (Fin 12))
  /-- PEER_LINK_UP (R416): Kamgor reports a failed peer link up again, and the port again accepts new requests. -/
  | peerLinkUp (port : Fin 16)
  /-- EXTENT_GRANT (R414): The fabric manager grants a CXL fabric extent, which Kamgor places at 2^50 plus e times 2^40 and maps as normal memory. -/
  | extentGrant (extent : Fin 1024) (size : Nat)
deriving DecidableEq, Repr

end Sys2Proof
end

