-- ==== Sys2Proof/WellFormed.lean ====
section
/-! DEFINITION. Which terms of `Instr` are instruction words: the decode-time limits of R62, R65 to R71
that the types of the fields do not already carry. The decoder yields only terms that pass them; the
encoder's round trip is stated for the terms that pass them. -/

namespace Sys2Proof

/-- A vector type of the integer column (R68). -/
def VType.isInt : VType → Bool
  | .i32 | .i16 | .i8 => true
  | .f32 | .bf16 | .f16 => false

/-- The element format a destination type names (R64, R68). -/
def VType.fmt : VType → ElemFmt
  | .f32 => .f32 | .bf16 => .bf16 | .f16 => .f16 | .i32 => .i32 | .i16 => .i16 | .i8 => .i8

/-- A conversion code that gives NaN on overflow (R64). -/
def Conv.nanOnOverflow : Conv → Bool
  | .rnen | .rtzn | .rsn => true
  | .rne | .rtz | .rs => false

/-- A narrow format without a NaN (R159). -/
def NarrowFmt.noNaN : NarrowFmt → Bool
  | .e3m2 | .e2m3 | .e2m1 => true
  | .e4m3 | .e5m2 => false

/-- Scope accepted by the ordering forms: `core` to `sys` (R65). -/
def Scope.orders : Scope → Bool
  | .thr => false
  | .core | .clu | .die | .pkg | .sys => true

/-- The tile types that `tlda` and `tsta` accept (R71). -/
def TileType.movable : TileType → Bool
  | .q4g | .q8g => false
  | _ => true

/-- The decode-time limits of an instruction (R74 steps 2 and 3). Device steps have no word and no limit
here. -/
def Instr.wf : Instr → Bool
  | .rep _ _ step => step != 3#2
  | .ldl _ _ size _ u => !(size == .d && u)
  | .ldh _ _ size _ u => !(size == .d && u)
  | .fnc scope _ => scope.orders
  | .ldaq _ _ _ scope => scope.orders
  | .strl _ _ _ scope => scope.orders
  | .l1wb _ _ scope => scope.orders
  | .l1inv _ _ scope => scope.orders
  | .qmap _ ring _ num => !ring || num.ult 8#5
  | .vsll ty _ _ _ _ => ty.isInt
  | .vsrl ty _ _ _ _ => ty.isInt
  | .vsra ty _ _ _ _ => ty.isInt
  | .vcmp _ _ kd _ _ _ => kd != 0#3
  | .vcvt ty conv src _ _ => src != ty.fmt && !(ty.isInt && conv.nanOnOverflow)
  | .vcvtNarrow n conv _ _ _ => !(n.noNaN && conv.nanOnOverflow)
  | .vqnt n conv _ _ _ => !(n.noNaN && conv.nanOnOverflow)
  | .vld _ _ _ hint loc => !loc || hint == .norm
  | .vst _ _ _ hint loc => !loc || hint == .norm
  | .vldx _ _ _ hint loc => !loc || hint == .norm
  | .vstx _ _ _ hint loc => !loc || hint == .norm
  | .vext size u _ _ _ => !(size == .b64 && u)
  | .kand kd _ _ => kd != 0#3
  | .kor kd _ _ => kd != 0#3
  | .kxor kd _ _ => kd != 0#3
  | .knot kd _ => kd != 0#3
  | .kmv kd _ => kd != 0#3
  | .klen kd _ => kd != 0#3
  | .tlda ty _ _ _ => ty.movable
  | .tsta ty _ _ _ => ty.movable
  | .pft hint _ _ => hint != .noal
  | _ => true

end Sys2Proof
end

