-- ==== Sys2Proof/Machine/State.lean ====
section
/-! DEFINITION. The state of the whole package as plain data: cores with their sixteen thread slots,
clusters, vault-die tiles, dies, stacks, the control die, the messages in flight between them, and the
input (`agenda`) that says which step the device takes next. After each field: [width; rule and file;
reset value]. "DC n" is a value the model names where the spec gives none (assumption n). -/

namespace Sys2Proof.Machine

/-- Global core id (R9). -/
abbrev CoreId := Fin 1280
/-- Thread slot of a core (R9). -/
abbrev Slot := Fin 16
/-- Tile id, also the global cluster number (R9). -/
abbrev TileId := Fin 320
/-- Compute die (R9). -/
abbrev DieId := Fin 4
/-- Memory stack (R9). -/
abbrev StackId := Fin 12
/-- Hardware context (R9). -/
abbrev Ctx := Fin 64

/-- A memory: the bytes that differ from what an unlisted address reads as (`Memory.unlisted`), by
rising address. -/
abbrev Memory := List Host.Cell

/-- What a byte that nothing has written reads as: Kamgor zeroes every frame that it hands to a context
(R394), a dispatcher zeroes the scratchpad of a core that takes a context (R346), the majority carve is
written with zeros (R400); for the vaults DESIGN CHOICE (assumption 2). -/
def Memory.unlisted : Byte := 0

/-- The canonical form of a memory: addresses strictly rising, and no entry that equals what an unlisted
address reads as. -/
def Memory.wf (m : Memory) : Bool :=
  decide (m.Pairwise fun p q => p.1 < q.1) && m.all fun p => p.2 != Memory.unlisted

/-- Kind of a queue entry or ring cell (R237, R240). -/
inductive EntKind | data | end1 | end2 | end3
deriving DecidableEq, Repr

/-- One entry of a register queue (R237). -/
structure QEntry where
  /-- The value, 64 bits (R237). -/
  val : Word := 0
  /-- The kind, 2 bits (R237). -/
  kind : EntKind := .data
deriving DecidableEq, Repr

/-- Cause codes of a trap record (R303). -/
inductive Cause
  | illegalInstruction | illegalOperand | privilege | misaligned | misalignedFetch | fetchFault
  | translation | pageFault | accessFault | localAddress | memoryError | majorityUnresolved
  | queueToken | sendTarget | ecall | ebreak | step
deriving DecidableEq, Repr

/-- Engine kind of a trap record (R302). -/
inductive EngineKind | own | copy | gather | accel | scan | tile
deriving DecidableEq, Repr

/-- A trap record (R302), 64 bytes in memory. -/
structure TrapRecord where
  tid : BitVec 32 := 0
  cause : Cause := .illegalInstruction
  engine : EngineKind := .own
  write : Bool := false
  fetch : Bool := false
  held : Bool := false
  rep : Bool := false
  level : BitVec 8 := 0
  pc : Word := 0
  addr : Word := 0
  pos : Word := 0
  detail : Word := 0
  word : BitVec 32 := 0
  repcnt : BitVec 8 := 0
  time : Word := 0
deriving DecidableEq, Repr

/-- Page types (R306). -/
inductive PageType | normal | maj | replica | device | host | peer
deriving DecidableEq, Repr

/-- One leaf held by a translation cache (R308): the page it maps and the leaf's fields. -/
structure TlbEntry where
  ctx : Ctx := 0
  /-- Level of the leaf, 1 to 3 (R306). -/
  level : Nat := 3
  /-- Virtual page number: VA without the offset bits of the level. -/
  vpn : Nat := 0
  /-- The leaf entry, 64 bits (R306). -/
  leaf : Word := 0
deriving DecidableEq, Repr

/-- One line of a core's L1D (R84, R418). The list of a core's lines runs from the most to the least
recently used. -/
structure L1Line where
  /-- Line number PA >> 7. -/
  line : Nat := 0
  /-- Valid sectors (R18). -/
  valid : BitVec 4 := 0
  /-- Dirty sectors (R84). -/
  dirty : BitVec 4 := 0
  data : LineData := 0
  /-- Hint of the access that allocated the line (R418). -/
  hint : Hint := .norm
deriving DecidableEq, Repr

/-- A target that requests and probes are counted for (R122). -/
inductive Target
  | tile (t : TileId) | host (w : Fin 16) | peer (p : Fin 16)
deriving DecidableEq, Repr

/-- A binding of a port register (R49, R249, R325). -/
structure Binding where
  ring : Bool := false
  out : Bool := false
  /-- Queue number or handle as the thread names it. -/
  num : Reg := 0
  /-- The queue (of the core) or ring (of the package) that it names. -/
  obj : Nat := 0
deriving DecidableEq, Repr

/-- A thread's state on one ring in claim mode (R255): the sequence it holds. -/
structure Claim where
  ring : Nat := 0
  seq : Nat := 0
  /-- Kind of the claimed entry (R243). -/
  kind : EntKind := .data
  /-- The value read at the claim (words of the cell, R255). -/
  cell : List Byte := []
  /-- The one reading instruction has been used, or the claim was a token (R255). -/
  readUsed : Bool := false
  /-- The output rings on which the claim has been used (R244, R250). -/
  outUsed : List Nat := []
deriving DecidableEq, Repr

/-- Where a load's bytes go. -/
inductive LoadDst
  | x (r : Reg) (size : Nat) (signed : Bool)
  | v (r : Reg)
  | hold
deriving DecidableEq, Repr

/-- One piece of an outstanding load: bytes `pos` to `pos + len - 1` of the result. -/
structure Piece where
  /-- The message that brings the bytes; `none` once they have been taken. -/
  msg : Option Nat := none
  pos : Nat := 0
  len : Nat := 0
  /-- First byte of the piece within the reply's bytes. -/
  off : Nat := 0
  data : List Byte := []
  /-- Virtual or local address of the piece's first byte. -/
  va : Nat := 0
deriving DecidableEq, Repr

/-- The registers of a thread as they stand before an instruction that may fail, or a load that may be cancelled, after
the thread has gone on. They come back then: the thread stands at the instruction as if nothing after it had executed
(R87, R88, R187). -/
structure Undo where
  pc : Word := 0
  x : Vector Word 32 := .replicate 32 0
  v : Vector VReg 32 := .replicate 32 0
  k : Vector KReg 8 := .replicate 8 0
  rows : BitVec 8 := 1
  rbytes : BitVec 10 := 512
  repcnt : BitVec 7 := 0
  hint : Hint := .norm
  srseed : BitVec 32 := 0
  gens : Vector (BitVec 32) 128 := .replicate 128 0
  instret : Word := 0
  /-- FMTA, FMTB, FMTC, SCLA, SCLB and GRPSZ. -/
  fmts : List Word := []
  /-- Bindings of x24 to x31. -/
  ports : Vector (Option Binding) 8 := .replicate 8 none
  inRep : Bool := false
  /-- The fetched block that the instruction lies in. -/
  ibuf : Option (Nat × List Byte) := none
deriving DecidableEq, Repr

/-- An outstanding load (R80, R88): the destination register is pending until every piece is there. -/
structure PendLoad where
  dst : LoadDst := .hold
  pieces : List Piece := []
  /-- Address of the load, for a precise memory error (R87). -/
  pc : Word := 0
  va : Word := 0
  /-- The thread's registers before the load. -/
  undo : Undo := {}
  /-- A later instruction has had an effect outside the thread's registers while the load was outstanding (assumption
  60). -/
  passed : Bool := false
deriving DecidableEq, Repr

/-- An instruction that executes again after later ones of its thread have had their effects outside the thread
(assumption 60): the registers as they stood before it, and the register that its result goes to. -/
structure Redo where
  undo : Undo := {}
  dst : LoadDst := .hold
deriving DecidableEq, Repr

/-- What a waiting or parked thread waits for (R27, R29). -/
inductive Blocker
  | regs (x v : BitVec 32)
  /-- Earlier loads of the thread, before it may trap (R87). -/
  | loads
  | lineBusy (line : Nat)
  /-- A fetch of the sector that another access of the core has under way (R84, R111). -/
  | sectorBusy (line sec : Nat)
  | msgs
  | device
  | fetch
  | queueIn (q : Nat) | queueOut (q : Nat)
  | ringIn (ring n : Nat) | ringPlace (ring seq : Nat) | ringClaim
  | message (m : Fin 8)
  | sendRetry | registered
  | bowait (addr : Nat) (phase : Byte)
  | tileOps (acc : Option (Fin 32)) | tileFull (subs : BitVec 4) | tileHeld (subs : BitVec 4)
  | align (id : BitVec 4) (pc : Word)
  | trapq
  | yield
  | deque
  | copyQueue | accel | cruiser
  | reduce
  | kamgor
  | majStamp | majOut | engines
  /-- A register of another thread whose value has not arrived (R103). -/
  | page (slot : Slot) (x v : BitVec 32)
  /-- Another thread's instruction that is under way (R103). -/
  | inside (slot : Slot)
  /-- The thread's loads from vaults and other cores' scratchpads, before a release (R111). -/
  | localReads
  | slotFree (slot : Slot)
  | vault
  | vaultLine (line : Nat)
  | spadOf (core : CoreId)
  /-- A stall of the crossing between the cores and the tile unit (R365). -/
  | crossing
deriving DecidableEq, Repr

/-- How far the current instruction of a thread has come when it waits after sending requests (R31, R117,
R123). All of it is the parked instruction's own; it is cleared when the instruction completes. -/
structure Progress where
  /-- Step of the instruction's own sequence. -/
  stage : Nat := 0
  /-- Messages whose answers are awaited. -/
  msgs : List Nat := []
  /-- TBM bits probed (R123). -/
  probed : Word := 0
  /-- Sectors fetched for a store that missed: line, sector, bytes (R84). -/
  got : List (Nat × Nat × BitVec 256) := []
  /-- Bytes of a blocking read. -/
  data : Option (List Byte) := none
  /-- Values taken from bound ports by the instruction before it had to wait. -/
  taken : List Word := []
  /-- Die cycle at which the thread began to wait. -/
  since : Nat := 0
  /-- Order of parking (R32); `none` while the thread has not parked at this instruction. -/
  ticket : Option Nat := none
  /-- What the ticket was taken for: a place in another order is another ticket. -/
  queued : Option Blocker := none
  /-- The instruction's places in other orders: what it was woken for is held for it until it completes (R32). -/
  held : List (Nat × Blocker) := []
deriving DecidableEq, Repr

/-- State of a thread slot (R22, R27). -/
inductive Status
  | absent | ready | waiting (b : Blocker) | parked (b : Blocker) | trapped | halted (parked : Bool)
deriving DecidableEq, Repr

/-- A thread slot. Registers of a slot without a thread read 0 (R103). -/
structure Thread where
  /-- Thread state. [R22, R27 03; reset: no thread] -/
  status : Status := .absent
  /-- Program counter. [64; R102 08, R21 03; reset DC 1: 0] -/
  pc : Word := 0
  /-- Integer registers x0 to x31. [32 x 64; R5 R7 00; dispatch 0 (R8); reset DC 1: 0] -/
  x : Vector Word 32 := .replicate 32 0
  /-- Vector registers v0 to v31 of the thread's run. [32 x 4096; R179 14; dispatch 0 (R8); reset DC 1: 0] -/
  v : Vector VReg 32 := .replicate 32 0
  /-- Mask registers k0 to k7 (k0 reads as all ones). [8 x 512; R184 14; dispatch 0; reset DC 1: 0] -/
  k : Vector KReg 8 := .replicate 8 0
  /-- Message registers m0 to m7. [8 x 64; R104 08, R256 19; dispatch 0; reset DC 1: 0] -/
  m : Vector Word 8 := .replicate 8 0
  /-- Full bits of the message registers. [8; R104 08; dispatch 0; reset DC 1: 0] -/
  mfull : BitVec 8 := 0
  /-- SHAPE.ROWS. [8; R180 14; reset 1] -/
  rows : BitVec 8 := 1
  /-- SHAPE.RBYTES. [10; R180 14; reset 512] -/
  rbytes : BitVec 10 := 512
  /-- REPCNT.LEFT. [7; R185 14; reset 0] -/
  repcnt : BitVec 7 := 0
  /-- HINT.CODE. [2; R93 07; reset 0] -/
  hint : Hint := .norm
  /-- SRSEED.SEED. [32; R323 23; reset 0] -/
  srseed : BitVec 32 := 0
  /-- The 128 stochastic generator states. [128 x 32; R168 13; dispatch: seeded by 0; reset DC 1: 0] -/
  gens : Vector (BitVec 32) 128 := .replicate 128 0
  /-- INSTRET. [64; R323 23; 0 at dispatch; reset DC 1: 0] -/
  instret : Word := 0
  /-- SLIP.COUNT. [32; R323 23; 0 at dispatch; reset DC 1: 0] -/
  slip : BitVec 32 := 0
  /-- FMTA. [64; R270 20; dispatch: packet; reset DC 1: 0] -/
  fmta : Word := 0
  /-- FMTB. [64; R270 20; dispatch: packet; reset DC 1: 0] -/
  fmtb : Word := 0
  /-- FMTC. [64; R283 21; dispatch: packet; reset DC 1: 0] -/
  fmtc : Word := 0
  /-- SCLA. [64; R270 20; dispatch: packet; reset DC 1: 0] -/
  scla : Word := 0
  /-- SCLB. [64; R270 20; dispatch: packet; reset DC 1: 0] -/
  sclb : Word := 0
  /-- GRPSZ. [64; R270 20; dispatch: packet; reset DC 1: 0] -/
  grpsz : Word := 0
  /-- Bindings of x24 to x31, shown by QPORTS. [8 x (8); R49 05, R325 23; reset none] -/
  ports : Vector (Option Binding) 8 := .replicate 8 none
  /-- TBM, the touched-bank mask. [64; R122 09, R326 23; reset 0] -/
  tbm : Word := 0
  /-- SIGACQ, the acquired signature. [512; R118 R119 09, R326 23; reset 0] -/
  sigacq : Sig := 0
  /-- Write signature. [512; R118 09; 0 at dispatch; reset DC 1: 0] -/
  wsig : Sig := 0
  /-- TID. [15; R324 23; dispatch: packet; reset DC 1: 0] -/
  tid : BitVec 15 := 0
  /-- CORE. [11; R324 23; dispatch: packet; reset DC 1: 0] -/
  coreNo : BitVec 11 := 0
  /-- CLUST. [7; R324 23; dispatch: packet; reset DC 1: 0] -/
  clust : BitVec 7 := 0
  /-- DIE. [2; R324 23; dispatch: packet; reset DC 1: 0] -/
  dieNo : BitVec 2 := 0
  /-- HCTX. [6; R324 23; dispatch: packet; reset DC 1: 0] -/
  hctx : Ctx := 0
  /-- PRIO. [5; R324 23; dispatch: packet; reset DC 1: 0] -/
  prio : BitVec 5 := 0
  /-- VCOUNT. [6; R324 23; dispatch: packet; reset DC 1: 0] -/
  vcount : BitVec 6 := 0
  /-- SPBASE. [19; R324 23; dispatch: packet; reset DC 1: 0] -/
  spbase : BitVec 19 := 0
  /-- SPSIZE. [20; R324 23; dispatch: packet; reset DC 1: 0] -/
  spsize : BitVec 20 := 0
  /-- First physical vector register of the run. [7; R179 14; dispatch; reset DC 1: 0] -/
  vbase : Nat := 0
  /-- Nesting depth. [R25 03; dispatch; reset DC 1: 0] -/
  depth : Nat := 0
  /-- Replica index and count. [R8 00, R355 26; dispatch; reset DC 1: 0, 0] -/
  replica : Nat × Nat := (0, 0)
  /-- The stage (of the core's `stages`) the thread belongs to. [R25 03; dispatch; reset DC 1: 0] -/
  stage : Nat := 0
  /-- The launch (of the control die's `launches`) that the thread counts for. [R339 25; reset DC 1: none] -/
  launch : Option Nat := none
  /-- A task thread, started from a deque entry. [R25 03; reset DC 1: false] -/
  task : Bool := false
  /-- Register-file-map window selector. [5; R102 08; reset DC 1: 0] -/
  vsel : Reg := 0
  /-- The align set the thread belongs to. [R261 19; reset none] -/
  alignSet : Option (BitVec 4) := none
  /-- Reference-accelerator configuration: table base and element size. [R293 21; reset none] -/
  racfg : Option (Word × Nat) := none
  /-- Cruiser configuration: base and (count, stride) of each level. [R298 21; reset none] -/
  crcfg : Option (Word × List (Nat × Int)) := none
  /-- DATA records emitted since the thread's last `crgo`. [40; R299 21; reset 0] -/
  emitted : BitVec 40 := 0
  /-- Rings on which the thread is in claim mode, with its last claim there. [R255 19; reset none] -/
  claims : List Claim := []
  /-- Integer registers whose value has not yet arrived. [32; R27 03, R80 07; reset 0] -/
  xpend : BitVec 32 := 0
  /-- Vector registers whose value has not yet arrived. [32; R190 15; reset 0] -/
  vpend : BitVec 32 := 0
  /-- Outstanding loads. [R88 07; reset none] -/
  loads : List PendLoad := []
  /-- Earlier instructions that failed or were cancelled and execute again, oldest first; the thread stands at the first.
  [R87 R88 07; reset none] -/
  redo : List Redo := []
  /-- The registers with which the thread goes on behind them; of a trapped thread that has not stood back yet, none.
  [R87 R88 07; reset none] -/
  after : Option Undo := none
  /-- What it keeps of the progress of the instruction at which it goes on then. [R31 03; reset none] -/
  kept : Progress := {}
  /-- Progress of the current instruction. [R31 03; reset none] -/
  prog : Progress := {}
  /-- The current issue is a repetition of a `rep` pair. [R185 14; reset false] -/
  inRep : Bool := false
  /-- A `tstep` has granted one instruction boundary. [R315 23; reset false] -/
  stepping : Bool := false
  /-- The fetched 32-byte block that the next instruction lies in: its virtual address and bytes.
  [R351 26; reset none] -/
  ibuf : Option (Nat × List Byte) := none
deriving DecidableEq, Repr

/-- A register queue in a core's queue store (R237). -/
structure RQueue where
  id : Nat := 0
  depth : Nat := 0
  entries : List QEntry := []
  /-- Who holds the producer end: a slot, or an engine of the cluster (R237). -/
  prod : Option (Slot ⊕ EngineKind) := none
  cons : Option (Slot ⊕ EngineKind) := none
  /-- Stages of the core that own the queue (R237). -/
  owners : List Nat := []
  /-- The installation and binding record of a declared queue, and whether one of its two stages has yet to be
  dispatched (R235, R237). -/
  bind : Option (Nat × Nat) := none
  awaits : Bool := false
deriving DecidableEq, Repr

/-- A stage's allotment on a core (R25, R179, R237). -/
structure StageAlloc where
  id : Nat := 0
  /-- Installation of the pipeline and the stage's number in it (R234, R236). -/
  inst : Option Nat := none
  stno : Nat := 0
  /-- Threads of the stage that still run on the core, tasks included. -/
  live : Nat := 0
  /-- Vector registers of the stage's reserve: first register and count (R179). -/
  vres : Nat × Nat := (0, 0)
  /-- Scratchpad allotment: base and bytes (R99, R346). -/
  spad : Nat × Nat := (0, 0)
  qent : Nat := 0
  rings : Nat := 0
  /-- Queue numbers: number, queue id, and whether the stage is the producer (declared queues only). -/
  queues : List (Nat × Nat × Option Bool) := []
  /-- Ring handles: handle, ring id, and whether the stage is the producer (R234, R235). -/
  handles : List (Nat × Nat × Bool) := []
  /-- Replica limit of the stage (R331). -/
  repl : Nat := 1
deriving DecidableEq, Repr

/-- A task record (R348). -/
structure TaskRec where
  entry : Word := 0
  arg : Word := 0
  vregs : Nat := 0
  prio : BitVec 5 := 0
  spad : Nat := 0
deriving DecidableEq, Repr

/-- One entry of a core's task deque (R257, R348). -/
structure DequeEntry where
  id : Nat := 0
  record : TaskRec := {}
  depth : Nat := 0
  aff : Affinity := .core
  /-- FMTA, FMTB, FMTC, SCLA, SCLB and GRPSZ of the spawning thread (R348). -/
  fmts : List Word := []
  /-- The reserved entry that it occupies, or none for an ordinary one (R257). -/
  reserved : Option Nat := none
  /-- Die cycle at which it was pushed (R350). -/
  since : Nat := 0
  /-- Context, stage and launch of the spawning thread. -/
  ctx : Ctx := 0
  stage : Nat := 0
  launch : Option Nat := none
deriving DecidableEq, Repr

/-- Completion register of an engine command (R279). -/
inductive Completion
  | none | object (addr : Nat) | notify (va : Nat)
deriving DecidableEq, Repr

/-- An address of a copy: local, or global virtual. -/
inductive Place
  | loc (addr : Nat) | glob (va : Nat)
deriving DecidableEq, Repr

/-- What an engine command does (R285 to R297). -/
inductive CmdKind
  | copy (dst src : Place) (len : Nat) (hint : Hint) (follow : Bool)
  | multicast (mask : BitVec 4) (dst src len : Nat)
  | gather (dst : Nat) (base : Nat) (lsize count list : Nat)
  | scan (ring base n : Nat) (thresh : BitVec 32) (fmt : ElemFmt) (abs : Bool) (rsize headp desc : Nat)
  | prefetch (base stride rows lines : Nat) (hint : Hint)
  | clean (base len : Nat) (inval : Bool)
deriving DecidableEq, Repr

/-- A command of an engine of a core (R286). -/
structure Cmd where
  id : Nat := 0
  slot : Slot := 0
  ctx : Ctx := 0
  kind : CmdKind := .copy (.loc 0) (.loc 0) 0 .norm false
  comp : Completion := .none
  /-- Pieces done: packets landed, elements landed, or lines handled. -/
  done : List Nat := []
  /-- Of a scan, the bytes handled of the line that each channel is in; of a gather, the elements read and not yet
  landed with their values (R292, R297). -/
  chans : List (Nat × Nat) := []
  /-- The bytes of the line that each channel of a scan is in (R297, R407: each sector is read once). -/
  lineBuf : List (Nat × List Byte) := []
  /-- Pairs that a scan has written (R297). -/
  pairs : Nat := 0
  /-- A fault that stops the command, with its record; posted or held (R300, R304). -/
  fault : Option TrapRecord := none
  posted : Bool := false
  /-- Destination pages of 64 KiB whose lines' signature bits wait for a translation (R286). -/
  late : List Nat := []
  /-- Signature of the payload lines of a `.ntf` copy (R126). -/
  sig : Sig := 0
  launch : Option Nat := none
  /-- The thread that issued it has retired; the command runs on (R258). -/
  gone : Bool := false
deriving DecidableEq, Repr

/-- A supervisor request or trap that waits for Kamgor (R318, R319). -/
inductive KamgorReq
  | forwarded (record : List Byte) | stopped (record : TrapRecord)
deriving DecidableEq, Repr

/-- One of the 1,280 cores. -/
structure Core where
  /-- The sixteen thread slots. [R22 03; reset: all without a thread] -/
  slots : Vector Thread 16 := .replicate 16 {}
  /-- Context that the core holds. [R23 03; reset DC 1: none] -/
  ctx : Option Ctx := none
  /-- Last slot that issued. [4; R28 03; reset DC 1: 0] -/
  last : Slot := 0
  /-- Die cycle in which the core last issued. [R28 03; reset none] -/
  issuedAt : Option Nat := none
  /-- Scratchpad, 512 KiB. [R99 08; reset: zero when the core takes a context (R346)] -/
  spad : Memory := []
  /-- Granules of the scratchpad written since the core took the context. [8,192; R356 26; reset none] -/
  dirtyGran : List Nat := []
  /-- L1D lines, most recently used first. [128 x 20; R15 02, R418 07; reset DC 1: empty] -/
  l1d : List L1Line := []
  /-- First-level translation cache. [128 entries; R308 22; reset DC 1: empty] -/
  tlb : List TlbEntry := []
  /-- Queue store. [512 entries; R237 18; reset DC 1: empty] -/
  queues : List RQueue := []
  /-- Stage allotments. [R25 03, R346 26; reset none] -/
  stages : List StageAlloc := []
  /-- Task deque, oldest first. [64; R257 19; reset DC 1: empty] -/
  deque : List DequeEntry := []
  /-- Trap queue, oldest first. [128; R304 22; reset DC 1: empty] -/
  trapq : List TrapRecord := []
  /-- Taken, unanswered records. [R313 23; reset none] -/
  taken : List TrapRecord := []
  /-- TRAPQ.HIGH. [8; R327 23; reset 0] -/
  trapHigh : BitVec 8 := 0
  /-- SVSTATE.HOLD. [15; R327 23; reset 0] -/
  hold : BitVec 15 := 0
  /-- RESCUE.COUNT. [32; R224 16; reset 0] -/
  rescue : BitVec 32 := 0
  /-- Requests sent to each target. [R122 09; reset DC 1: none] -/
  sent : List (Target × Nat) := []
  /-- Commands of the copy, gather, scan, prefetch and maintenance engines. [R286 21; reset none] -/
  cmds : List Cmd := []
  /-- Episode count of each tree slot. [16 x 8; R228 16; reset 0 at install] -/
  episodes : Vector (BitVec 8) 16 := .replicate 16 0
  /-- Skips counted against the head packet, and that packet. [R347 26; reset DC 1: 0] -/
  skips : Nat × Option Nat := (0, none)
  /-- Which core the next steal request asks, in the asking order, and the die cycle of the last request.
  [R349 26; reset DC 1: the first, none] -/
  stealAt : Nat × Option Nat := (0, none)
  /-- Die cycle of the last record posted, and how many were posted in it. [R304 22; reset DC 1: 0, 0] -/
  posts : Nat × Nat := (0, 0)
  /-- Request to Kamgor. [R318 R319 23; reset none] -/
  kamgor : Option KamgorReq := none
  /-- Landings set aside in the scratchpad: base and bytes. [R241 18; reset none] -/
  landings : List (Nat × Nat) := []
  /-- The core stops issuing for a pre-emption. [R352 26; reset false] -/
  halting : Bool := false
  /-- Model's own: the next parking order. [R32 03; reset 0] -/
  ticket : Nat := 0
deriving DecidableEq, Repr

/-- Operations of a sub-array's queue (R275, R281 to R284). -/
inductive TileOpKind
  | zero
  | mma (ta tb : TileType) (ga gb : Bool) (a b : Nat)
  | mmac (ta tb : TileType) (gb : Bool) (src : Fin 32) (b : Nat) (draws : List (BitVec 16))
  | load (ty : TileType) (addr stride : Nat)
  | store (ty : TileType) (addr stride : Nat) (draws : List (BitVec 16))
  | move (src : Fin 32)
deriving DecidableEq, Repr

/-- Modes of a claim (R265). -/
inductive TileMode | independent | m1x4 | m2x2 | m4x1
deriving DecidableEq, Repr

/-- Bytes of an operand that the sequencer holds ahead of the step that needs them (R273, R276, R310). -/
structure TileHeld where
  /-- The step along K that they are held for. -/
  step : Nat := 0
  /-- Global or local, and the address of the first byte. -/
  glob : Bool := false
  addr : Nat := 0
  /-- The bytes; `none` is a fault that is held (R273, R311). -/
  bytes : Option (List Byte) := none
deriving DecidableEq, Repr

/-- One macro-operation of the sequencer (R275). In a fused mode the same operation stands in all four
queues. -/
structure TileOp where
  id : Nat := 0
  kind : TileOpKind := .zero
  /-- Destination accumulator number as named. -/
  acc : Fin 32 := 0
  mode : TileMode := .independent
  ksteps : Nat := 1
  /-- Scale pointers, group size and conversion of the issuing thread (R270). -/
  scla : Nat := 0
  sclb : Nat := 0
  grp : Nat := 32
  cvt : Conv := .rne
  /-- Next step along K (R278). -/
  step : Nat := 0
  /-- The copy command that must finish first (R287). -/
  after : Option Nat := none
  /-- Operations that must be complete before this one reads their accumulator (R58, R275). -/
  deps : List Nat := []
  /-- Operand bytes and faults held ahead of their steps (R273, R276). -/
  ahead : List TileHeld := []
  /-- A fault that stops the operation; posted or held (R278, R304). -/
  fault : Option TrapRecord := none
  posted : Bool := false
deriving DecidableEq, Repr

/-- One sub-array of a tile unit (R264). -/
structure SubArray where
  /-- The claimant: core and slot. [R264 20; reset none] -/
  claim : Option (CoreId × Slot) := none
  /-- Context of the last claimant. [R264 20; reset none] -/
  lastCtx : Option Ctx := none
  /-- Mode. [3; R265 20; reset DC 1: independent] -/
  mode : TileMode := .independent
  /-- Steps along K, 1 to 256. [8; R265 20; reset DC 1: 1] -/
  ksteps : Nat := 1
  /-- Eight accumulators of 32 x 32 FP32 cells; cell (i, j) is bits 32(32i+j)+31:32(32i+j).
  [8 x 32,768; R264 20; set to +0 when another context claims; reset DC 1: +0] -/
  acc : Vector (BitVec 32768) 8 := .replicate 8 0
  /-- Queue of at most eight macro-operations, oldest first. [R275 20; reset none] -/
  queue : List TileOp := []
deriving DecidableEq, Repr

/-- One look-ahead of the reference accelerator (R294): the index's place in the index queue. -/
structure Ahead where
  idx : Word := 0
  /-- The value held, once the gather has answered. -/
  val : Option Word := none
  /-- A fault was met and is held (R311). -/
  held : Bool := false
  /-- The access stopped until it is confirmed (R310). -/
  stopped : Bool := false
  /-- Sent as a confirmed access. -/
  confirmed : Bool := false
deriving DecidableEq, Repr

/-- The stream that a reference accelerator runs (R294). -/
structure Stream where
  core : CoreId := 0
  slot : Slot := 0
  qi : Nat := 0
  qv : Nat := 0
  base : Word := 0
  size : Nat := 1
  /-- Reorder buffer, in index-queue order; tokens are `none`. -/
  rob : List (Option Ahead) := []
  delivered : Nat := 0
  fault : Option TrapRecord := none
  posted : Bool := false
deriving DecidableEq, Repr

/-- A running cruiser (R299). -/
structure CruiserRun where
  core : CoreId := 0
  slot : Slot := 0
  q : Nat := 0
  base : Word := 0
  levels : List (Nat × Int) := []
  /-- Loop indices, outermost first. -/
  idx : List Nat := []
  /-- Tokens still to emit before the next DATA. -/
  ends : List EntKind := []
  /-- The last record has been emitted; only `ends` remain. -/
  last : Bool := false
  /-- Die cycle of the last emission: one in each cycle at most. -/
  cycle : Option Nat := none
deriving DecidableEq, Repr

/-- One cluster of a compute die with its shared units. -/
structure Cluster where
  /-- Instruction-cache lines by line number, oldest first. [256 KiB; R351 26; reset DC 1: empty] -/
  icache : List (Nat × LineData) := []
  /-- Tile unit, four sub-arrays. [R264 20; reset none] -/
  tile : Vector SubArray 4 := .replicate 4 {}
  /-- Reference accelerator's stream. [R294 21; reset none] -/
  accel : Option Stream := none
  /-- Cruiser. [R299 21; reset none] -/
  cruiser : Option CruiserRun := none
  /-- Order in which threads parked for the accelerator, the cruiser and the tile unit: next place.
  [R265 20, R294 21; reset 0] -/
  order : Nat := 0
  /-- TIME of the majority unit's last stamp. [49; R402 31; reset DC 1: none] -/
  lastStamp : Option (BitVec 49) := none
deriving DecidableEq, Repr

/-- One line of an MSC slice (R379). -/
structure MscLine where
  line : Nat := 0
  way : Fin 16 := 0
  valid : BitVec 4 := 0
  dirty : BitVec 4 := 0
  data : LineData := 0
  /-- Context whose key the line is under (R379, R394). -/
  key : Ctx := 0
  age : BitVec 2 := 0
  pinned : Bool := false
  captured : Bool := false
deriving DecidableEq, Repr

/-- One registration of a wait-monitor table (R152). -/
structure Monitor where
  ctx : Ctx := 0
  /-- Word address with bits 2:0 cleared (R141). -/
  va : Nat := 0
  core : CoreId := 0
  slot : Slot := 0
  rd : Reg := 0
deriving DecidableEq, Repr

/-- One entry of an access table (R370): words 0 and 1. -/
structure AclEntry where
  w0 : Word := 0
  w1 : Word := 0
deriving DecidableEq, Repr

/-- One vault-die tile. -/
structure Tile where
  /-- Lines of the MSC slice. [6 MiB; R377 30; reset DC 1: empty] -/
  msc : List MscLine := []
  /-- Duelling selector of each context. [64 x 10; R382 30; 512 at CREATE; reset DC 1: 0] -/
  selectors : Vector (BitVec 10) 64 := .replicate 64 0
  /-- Count of policy-B insertions. [5; R382 30; reset DC 1: 0] -/
  bcount : BitVec 5 := 0
  /-- Wait-monitor table, earliest first. [64 entries; R152 11; reset DC 1: empty] -/
  monitors : List Monitor := []
  /-- Access table of the vault. [16 x 128; R370 28; reset empty] -/
  acl : Vector AclEntry 16 := .replicate 16 {}
  /-- Requests received from each core. [R123 09; reset DC 1: none] -/
  received : List (Nat × Nat) := []
  /-- The slice has been retired to another tile. [R378 30; reset none] -/
  stub : Option TileId := none
deriving DecidableEq, Repr

/-- A packet or migrated task in a die's ready queue (R343, R350). -/
structure Packet where
  id : Nat := 0
  ctx : Ctx := 0
  prio : BitVec 5 := 0
  /-- Take order (R334). -/
  seq : Nat := 0
  /-- Affinity: 0 any, 1 die, 2 cluster, 3 core, and its value (R331). -/
  affk : Nat := 0
  affv : Nat := 0
  repl : Nat := 1
  entry : Word := 0
  args : Word := 0
  vregs : Nat := 0
  spad : Nat := 0
  qent : Nat := 0
  rings : Nat := 0
  /-- FMTA, FMTB, FMTC, SCLA, SCLB, GRPSZ. -/
  fmts : List Word := []
  /-- Pipeline installation and stage number (R236). -/
  inst : Option Nat := none
  stno : Nat := 0
  launch : Option Nat := none
  /-- A migrated task's deque entry (R350). -/
  task : Option DequeEntry := none
  /-- Replica index and count of a clone (R245). -/
  replica : Nat × Nat := (0, 1)
deriving DecidableEq, Repr

/-- A reduction episode at one router of a tree (R228, R229). -/
structure Episode where
  tree : Fin 16 := 0
  /-- Router y * 10 + x. -/
  router : Nat := 0
  episode : BitVec 8 := 0
  /-- Die cycle of the first input taken (R230). -/
  first : Nat := 0
  /-- T_red in die cycles, as it stood then (R219). -/
  tred : Nat := 65536
  /-- Inputs held: place in the fold order, members it stands for missing, size status, F and the sum. -/
  inputs : List (Nat × List Nat × Bool × Nat × List (BitVec 32)) := []
  /-- The limit has passed (R230). -/
  limit : Bool := false
deriving DecidableEq, Repr

/-- A tree record installed in a slot (R226, R227). -/
structure TreeRec where
  ctx : Ctx := 0
  members : List CoreId := []
  /-- Routers: x, y, parent port, height. Entry 0 is the root. -/
  routers : List (Nat × Nat × Nat × Nat) := []
deriving DecidableEq, Repr

/-- One compute die with its part of the memory domain. -/
structure Die where
  /-- CYCLE. [64; R323 23, R366 28; reset 0] -/
  cycle : Word := 0
  /-- NCYCLE. [64; R323 23, R366 28; reset 0] -/
  ncycle : Word := 0
  /-- F, the carried fraction. [16; R366 28; reset 0] -/
  frac : BitVec 16 := 0
  /-- DFREQ.INC. [17; R364 28; reset 0x1_0000] -/
  inc : BitVec 17 := 0x10000
  /-- DFREQ.LOCK. [1; R364 28; reset 0] -/
  lock : Bool := false
  /-- DFREQ.TGT. [4; R364 28; reset 6] -/
  tgt : BitVec 4 := 6
  /-- DFREQ.CUR. [4; R364 28; reset 6] -/
  cur : BitVec 4 := 6
  /-- DFSW.AT. [64; R364 28; reset 0] -/
  at_ : Word := 0
  /-- Tick at which a crossing stall ends. [R365 28; reset none] -/
  stallEnd : Option Word := none
  /-- By how much the die's copy of the reference timer lags the control die's, in the units of `time`: 0 to 2 ns.
  [R16 02, R367 28; reset DC 1: 0] -/
  skew : Nat := 0
  /-- Model's own: the time at which the next die cycle begins, in the units of `time`. [R366 28; reset DC 1: 0] -/
  edge : Nat := 0
  /-- The compute layer is in reset. [R369 28; reset false] -/
  inReset : Bool := false
  /-- Second-level translation share. [64K entries; R308 22; reset DC 1: empty] -/
  l2 : List TlbEntry := []
  /-- Ready queue in order. [R343 26; reset DC 1: empty] -/
  ready : List Packet := []
  /-- DSCFG.MIGR. [16; R347 26; reset 16] -/
  migr : BitVec 16 := 16
  /-- DSCFG.AGE. [8; R347 26; reset 8] -/
  age : BitVec 8 := 8
  /-- The next steal request goes east. [R344 26; reset true (east first)] -/
  stealEast : Bool := true
  /-- Tree slots. [16; R226 16; reset DC 1: empty] -/
  trees : Vector (Option TreeRec) 16 := .replicate 16 none
  /-- Reduction episodes in the routers. [R228 16; reset none] -/
  episodes : List Episode := []
  /-- Delivery addresses that member 0's `reduce` gave, by tree and episode. [R231 16; reset none] -/
  delivers : List (Fin 16 × BitVec 8 × Nat) := []
  /-- Last episode that each router has forwarded, by tree and router. [R228 16; reset none] -/
  forwarded : List (Nat × Nat × BitVec 8) := []
  /-- MSCMAP: entry i is the tile of the die's slice i. [80 x 9; R377 30; reset die * 80 + i] -/
  mscmap : Vector TileId 80 := .replicate 80 0
  /-- Event counter of each router: compute layer 0 to 79, vault layer 80 to 159. [160 x 32; R224 16;
  reset DC 1: 0] -/
  events : Vector (BitVec 32) 160 := .replicate 160 0
deriving DecidableEq, Repr

/-- State of a stack (R398). -/
inductive StackState | in_ | offline | catchup | failed
deriving DecidableEq, Repr

/-- A granule of a majority copy that differs from zero data with tag 0 (R400, R401). -/
structure MajCopy where
  granule : Nat := 0
  data : BitVec 512 := 0
  tag : Word := 0
  /-- A stored error of the copy: true when correctable (R395, R403). -/
  err : Option Bool := none
  /-- Context and generation of the key that the data is under (R394); none for the zeros of the boot (R400). -/
  key : Option (Ctx × Nat) := none
deriving DecidableEq, Repr

/-- One HBM4 stack with its controllers. -/
structure Stack where
  /-- STKSTAT.STATE. [3; R398 31; reset 0 IN] -/
  state : StackState := .in_
  /-- STKSTAT.UECNT. [16; R398 31; reset 0] -/
  uecnt : BitVec 16 := 0
  /-- STKSTAT.CECNT. [16; R398 31; reset 0] -/
  cecnt : BitVec 16 := 0
  /-- Access table of the controller. [64 x 128; R370 28; reset empty] -/
  acl : Vector AclEntry 64 := .replicate 64 {}
  /-- Majority copies by window offset granule. [R400 31; reset zero data and tag 0] -/
  maj : List MajCopy := []
  /-- Tags of the copies that Kamgor's zeroes left, by unit of 1,024 granules; of others 0. [64; R394 R400 R401 31; reset none] -/
  majTags : List (Nat × Word) := []
  /-- Granules whose catch-up bit is set, or all of them except those listed. [R405 31; reset none set] -/
  catchAll : Bool := false
  catchOff : List Nat := []
  /-- Scrub pointer and granules swept since CATCHUP. [R405 31; reset DC 1: 0] -/
  scrub : Nat := 0
  swept : Nat := 0
  /-- Writes held while the stack is OFFLINE: address, bytes, context. [R399 31; reset none] -/
  held : List (Nat × List Byte × Ctx) := []
  /-- Rows captured in the current window. [R391 30; reset none] -/
  captured : List (List Nat) := []
deriving DecidableEq, Repr

/-- A value of an atomic as performed at its home (R137). -/
inductive AmoOp
  | add | and | or | xor | min | max | minu | maxu | swap | cas | decp | fadd
deriving DecidableEq, Repr

/-- A request to a host or peer target (R143, R412, R415). -/
inductive ExtReq
  | read (n : Nat) | write (bytes : List Byte) | atomic (op : AmoOp) (n : Nat) (v c : Word)
deriving DecidableEq, Repr

/-- What a message in flight carries. -/
inductive Body
  /-- Sectors of a line asked of the home slice; `alloc` false for `noal`, or after an acquire has
  invalidated the line meanwhile (R84, R119). -/
  | fill (line : Nat) (sectors : BitVec 4) (hint : Hint) (alloc store : Bool)
  /-- A sector written back whole (R84). -/
  | writeback (line : Nat) (sector : Nat) (data : BitVec 256) (hint : Hint)
  /-- A byte-masked update of one line by `noal` stores: bytes at physical addresses, in order (R84). -/
  | update (line : Nat) (writes : List (Nat × List Byte))
  | atomic (op : AmoOp) (pa va : Nat) (dbl : Bool) (ord : AmoOrd) (scope : Scope) (v c : Word) (rd : Reg)
      (p : Sig)
  | ldaq (pa : Nat) (dbl : Bool) (scope : Scope) (rd : Reg)
  | strl (pa va : Nat) (dbl : Bool) (v : Word) (p : Sig)
  | waita (pa va : Nat) (dbl : Bool) (expected : Word) (rd : Reg)
  | notify (pa va : Nat) (all : Bool) (rd : Reg)
  | probe (count : Nat)
  | vaultRead (addr n : Nat)
  | vaultWrite (addr : Nat) (bytes : List Byte)
  | spadRead (core : CoreId) (addr n : Nat)
  | spadWrite (core : CoreId) (addr : Nat) (bytes : List Byte)
  | device (off : Nat) (write : Option Word)
  | host (win : Fin 16) (off : Nat) (req : ExtReq) (rd : Option (Reg × Option Scope))
  | peer (port : Fin 16) (off : Nat) (req : ExtReq) (rd : Option (Reg × Option Scope))
  | send (dest : Fin 20480) (m : Fin 8) (v : Word)
  /-- `boom`: the producer has placed it in the boom (R241). -/
  | cell (ring seq : Nat) (kind : EntKind) (skip boom : Bool) (payload : List Byte)
  | head (ring : Nat) (core : CoreId) (head : Nat)
  | claim (ring : Nat)
  | majCopy (op : Nat) (stack : StackId) (granule : Nat) (tag : Word) (data : BitVec 512) (repair : Bool)
  | majRead (op : Nat) (stack : StackId) (granule : Nat)
  | ifetch (line : Nat)
  | reduce (tree : Fin 16) (episode : BitVec 8) (member off size : Nat) (data : List (BitVec 32))
deriving DecidableEq, Repr

/-- Why a reply carries no data. -/
inductive ReplyErr
  | none | memory (pa : Nat) | access (detail : Word) | majority (pa : Nat) | absent | refused
deriving DecidableEq, Repr

/-- How far a message has come. -/
inductive Stage
  /-- On its way to the target, or waiting there. -/
  | sent
  /-- The home slice has asked the stack (R379, R417). -/
  | atStack
  /-- Performed; the reply or acknowledgement is on its way back. -/
  | reply (data : List Byte) (sig : Sig) (err : ReplyErr)
deriving DecidableEq, Repr

/-- Where the rescue of a packet has brought it: not rescued; in the skid slot of a die-to-die link, at the near end
or already across (`up`: the link is crossed away from its first end, R220), on the row or, of a control link, the
column of its edge router (R215); in the reserved ejection slot of its destination (R221 to R223). -/
inductive Rescue
  | no | skid (link : Fin 8) (up across : Bool) (lane : Fin 10) | ejected
deriving DecidableEq, Repr

/-- A router input at which a packet is suspect (R218). -/
structure Suspect where
  die : DieId := 0
  /-- Router of the die: compute layer 0 to 79, vault layer 80 to 159. -/
  router : Fin 160 := 0
  /-- Input: the mesh ports in the order of R217, 6 the local port; 7 a die-link port of the edge router, 8 the control
  die's end of the die's control link. -/
  port : Fin 9 := 6
  /-- When it became suspect, in the units of `time` (R221). -/
  since : Nat := 0
deriving DecidableEq, Repr

/-- The recovery token of a routing domain (R220). -/
structure Token where
  /-- A station of its ring, and when it came or will come there, in the units of `time`; while it rides a packet that
  lies ahead (R221). -/
  station : Nat := 0
  since : Nat := 0
deriving DecidableEq, Repr

/-- A message in flight (R130: no order holds between two of them). -/
structure Msg where
  id : Nat := 0
  core : CoreId := 0
  slot : Slot := 0
  ctx : Ctx := 0
  /-- The counted target, for requests of R122. -/
  target : Option Target := none
  body : Body := .probe 0
  stage : Stage := .sent
  /-- Suspect at a router (R218), and where its rescue has brought it (R221, R222). -/
  suspect : Option Suspect := none
  rescue : Rescue := .no
  /-- The thread that sent it has been killed, or its die reset: the reply is discarded (R316, R369). -/
  orphan : Bool := false
  /-- A retire stub has forwarded it to the new home (R378). -/
  forwarded : Bool := false
  /-- A write-back that no instruction waits for (an eviction or a save): when it fails, no thread traps, and the loss is
  logged (assumption 73). -/
  quiet : Bool := false
  launch : Option Nat := none
  /-- Of a request that a thread may post: its registers before the instruction (R87, R139). -/
  undo : Option Undo := none
  /-- Of a release: the write signature and SIGACQ that it cleared, which come back when it fails (R117). -/
  sigs : Option (Sig × Sig) := none
  /-- Of a majority copy: its stack has gone out of service since it was sent (R402). -/
  absent : Bool := false
  /-- Address of the instruction that sent it, and the address it accesses, for a precise trap (R87, R155). -/
  pc : Word := 0
  va : Word := 0
deriving DecidableEq, Repr

/-- An operation of a majority unit (R402, R403). -/
structure MajOp where
  id : Nat := 0
  core : CoreId := 0
  slot : Slot := 0
  ctx : Ctx := 0
  /-- Virtual address of the access's first byte in the granule. -/
  va : Nat := 0
  triple : Fin 4 := 0
  granule : Nat := 0
  /-- Stacks asked and still IN for this operation (R403). -/
  asked : List StackId := []
  /-- Good replies so far, in order: stack, tag, data. -/
  good : List (StackId × Word × BitVec 512) := []
  /-- Stacks that answered with an error. -/
  bad : List StackId := []
  /-- The read belongs to a store smaller than a granule (R404). -/
  write : Bool := false
  /-- The winner of a read, and the stack whose repair the load still waits for. -/
  winner : Option (Word × BitVec 512) := none
  repairing : Option StackId := none
  /-- The store has been stamped: its tag, and the replies so far other than ABSENT (R402). -/
  stamped : Option Word := none
  acks : List (StackId × Bool) := []
  /-- Completed; later replies are discarded. -/
  done : Bool := false
deriving DecidableEq, Repr

/-- A ring (R240 to R246). -/
structure Ring where
  id : Nat := 0
  inst : Nat := 0
  ctx : Ctx := 0
  prodStage : Nat := 0
  consStage : Nat := 0
  sequenced : Bool := false
  slotsLog : Nat := 0
  /-- Landing: core (once known), base and bytes (R241). -/
  land : Option (CoreId × Nat) := none
  landSize : Nat := 0
  boom : Nat := 0
  /-- Consumer's head, an absolute sequence number kept modulo 2^40 (R240, R241). -/
  head : Nat := 0
  /-- Next sequence of a plain ring's producer (R253). -/
  next : Nat := 0
  /-- Largest head that each producing core has received (R241). -/
  heads : List (CoreId × Nat) := []
  /-- Claims: sequence, core and slot of the claimant, and whether its reading has been used (R243). -/
  claimed : List (Nat × CoreId × Slot) := []
  /-- Next sequence to claim (R243). -/
  claimHead : Nat := 0
  /-- Tokens that have reached the claim head, oldest first, with the replicas that each still awaits (R243). -/
  tokens : List (Nat × List (CoreId × Slot)) := []
  /-- Replicas of the consuming stage that run (R243): core, slot, index. -/
  replicas : List (CoreId × Slot × Nat) := []
  /-- Sequences freed out of order by claims (R243). -/
  freed : List Nat := []
  /-- Cells written and not yet freed (R245). -/
  count : Nat := 0
  /-- Boom cells read ahead by the ring engine: sequence and bytes (R242). -/
  ahead : List (Nat × List Byte) := []
  /-- A replica marked for withdrawal (R245). -/
  withdraw : Option Nat := none
  /-- Die cycle since when the occupancy has been above 75 % or below 25 % (R245). -/
  highSince : Option Nat := none
  lowSince : Option Nat := none
deriving DecidableEq, Repr

/-- A pipeline installation (R236). -/
structure Install where
  id : Nat := 0
  ctx : Ctx := 0
  /-- Physical identity of the record: its virtual address in the context. -/
  pipe : Word := 0
  /-- Stage templates (R236). -/
  stages : List Packet := []
  /-- Binding records: producer, consumer, their queue numbers, depth (R235). -/
  bindings : List (Nat × Nat × Nat × Nat × Nat) := []
  /-- Ring records: ring id, producer, consumer, handles. -/
  rings : List (Nat × Nat × Nat × Nat × Nat) := []
  /-- Threads that run from it. -/
  live : Nat := 0
deriving DecidableEq, Repr

/-- A started launch whose completion is watched (R339). -/
structure Launch where
  id : Nat := 0
  ctx : Ctx := 0
  /-- DONE of the packet, or 0 (R331). -/
  done : Word := 0
  /-- The launch node that the packet was placed by: graph and node. -/
  node : Option (Nat × Nat) := none
  /-- Threads started and not yet retired, packets and tasks waiting included. -/
  live : Nat := 0
deriving DecidableEq, Repr

/-- Kind of a graph node (R336). -/
inductive NodeKind
  | launch (template : Word)
  | cond (pred : Word) (then_ else_ : Nat)
  | loop (pred : Word) (first last limit : Nat)
  | completion (object : Word) (irq : Bool)
deriving DecidableEq, Repr

/-- State of a graph node (R338). A `then` or `else` node is `chosen` between the choice and its start. -/
inductive NodeState | idle | chosen | started | complete
deriving DecidableEq, Repr

/-- A node record as read at the graph start (R336). -/
structure Node where
  kind : NodeKind := .launch 0
  preds : Nat := 0
  succs : List Nat := []
  state : NodeState := .idle
  /-- Pass of a loop node (R340). -/
  pass : Nat := 0
  /-- The node that a started conditional node has chosen (R339). -/
  choice : Option Nat := none
deriving DecidableEq, Repr

/-- A running graph (R335). -/
structure Graph where
  id : Nat := 0
  prio : BitVec 5 := 0
  nodes : List Node := []
  faulted : Bool := false
deriving DecidableEq, Repr

/-- An entry of a context's ready list (R334, R335). -/
inductive Listed
  | packet (p : Packet) | graph (base : Word) (count : Nat) (prio : BitVec 5) (seq : Nat)
deriving DecidableEq, Repr

/-- A window entry MSCWIN of a context (R384). -/
structure MscWin where
  w0 : Word := 0
  w1 : Word := 0
  w2 : Word := 0
  w3 : Word := 0
deriving DecidableEq, Repr

/-- A saved core of a pre-empted context (R354, R357). -/
structure SavedCore where
  /-- Core it ran on. -/
  home : CoreId := 0
  /-- The core's threads, queues, trap queue and engines as saved. -/
  core : Core := {}
  /-- Claims on sub-arrays: sub-array, mode, steps, accumulators, queue (R277). -/
  tile : List (Fin 4 × SubArray) := []
  accel : Option Stream := none
  cruiser : Option CruiserRun := none
  /-- Save slot of the record (R330). -/
  saveSlot : Nat := 0
  /-- Opaque kind, with the core's requests in flight, which are put back at the resume (R358). -/
  isOpaque : Bool := false
  replay : List Msg := []
  ops : List MajOp := []
deriving DecidableEq, Repr

/-- Whether and how a context runs (R330, R352, R353). -/
inductive RunState | running | halting | saved
deriving DecidableEq, Repr

/-- One hardware context on the control die: its table entry, launch queue and registers. -/
structure Context where
  /-- The context has been created. [R330 25; reset DC 1: false] -/
  live : Bool := false
  /-- POLICY bit 0 SVRESTART. [R330 25; reset DC 1: false] -/
  svRestart : Bool := false
  /-- SVENTRY. [64; R330 25; reset DC 1: 0] -/
  sventry : Word := 0
  /-- SVARG. [64; R330 25; reset DC 1: 0] -/
  svarg : Word := 0
  /-- SAVEBASE, SAVESTRIDE. [64; R330 25; reset DC 1: 0] -/
  savebase : Word := 0
  savestride : Word := 0
  /-- SAVESLOTS. [16; R330 25; reset DC 1: 0] -/
  saveslots : Nat := 0
  /-- LOSSLOG and the number of entries appended. [64; R330 25; reset DC 1: 0] -/
  losslog : Word := 0
  losses : Nat := 0
  /-- Page tables: level and table index path of each nonzero entry (R306; not visible, R309).
  [64 each; R306 22; reset DC 1: empty] -/
  pt : List ((Nat × Nat) × Word) := []
  /-- Ranges mapped with DEFER and not yet made present: VA, frame, length, level, leaf bits.
  [R318 23, R410 32; reset none] -/
  deferred : List (Nat × Nat × Nat × Nat × Word) := []
  /-- Key slot: live, and generation of the key. [512; R394 31; reset DC 1: dead, generation 0] -/
  keyLive : Bool := false
  keyGen : Nat := 0
  /-- LQBASE.BASE. [64; R333 25; reset 0] -/
  lqbase : Word := 0
  /-- LQCFG.EN. [1; R333 25; reset 0] -/
  lqen : Bool := false
  /-- LQCFG.LOG2N. [4; R333 25; reset 4] -/
  lqlog : BitVec 4 := 4
  /-- LQTAIL.TAIL. [32; R333 25; reset 0] -/
  lqtail : BitVec 32 := 0
  /-- LQHEAD.HEAD. [32; R333 25; reset 0] -/
  lqhead : BitVec 32 := 0
  /-- LQSTAT.REFUSED. [16; R333 25; reset 0] -/
  refused : BitVec 16 := 0
  /-- LQSTAT.NODE. [16; R333 25; reset 0] -/
  faultNode : BitVec 16 := 0
  /-- LQSTAT.DFAULT. [1; R333 25; reset 0] -/
  dfault : Bool := false
  /-- LQSTAT.GFAULT. [1; R333 25; reset 0] -/
  gfault : Bool := false
  /-- LQSTAT.REFD. [1; R333 25; reset 0] -/
  refd : Bool := false
  /-- Ready list, in order. [R334 25; reset DC 1: empty] -/
  list : List Listed := []
  /-- Running graphs, at most four. [R335 25; reset none] -/
  graphs : List Graph := []
  /-- CTXCTL.RUN. [1; R409 32; reset 1] -/
  run : Bool := true
  /-- CTXCTL.SAVED. [1; R409 32; reset 0] -/
  saved : Bool := false
  /-- INTSTAT bits ENDED, LOSS, GFAULT, DONE. [4; R409 32; reset 0] -/
  intstat : BitVec 4 := 0
  /-- Whether the context runs, halts or is saved. [R352 R353 26; reset running] -/
  runState : RunState := .running
  /-- Saved cores. [R354 26; reset none] -/
  savedCores : List SavedCore := []
  /-- Placement map: home core and core it now runs on. [R357 26; reset none] -/
  placement : List (CoreId × CoreId) := []
  /-- Kamgor's answers kept while the supervisor is saved, by home core. [R318 23; reset none] -/
  answers : List (CoreId × Word) := []
  /-- MSCCTX.POL. [2; R383 30; reset 0] -/
  pol : BitVec 2 := 0
  /-- MSCCTX.PINLIM. [16; R383 30; reset 0] -/
  pinlim : BitVec 16 := 0
  /-- MSCCTX.PINUSE. [24; R383 30; reset 0] -/
  pinuse : BitVec 24 := 0
  /-- MSCWIN0 to MSCWIN7. [8 x 256; R384 30; reset 0] -/
  mscwin : Vector MscWin 8 := .replicate 8 {}
  /-- HWIN0 to HWIN15, words 0 and 1. [16 x 128; R412 32; reset 0] -/
  hwin : Vector (Word × Word) 16 := .replicate 16 (0, 0)
  /-- The context is being ended: answer 2 (R318). [R369 28; reset false] -/
  ending : Bool := false
deriving DecidableEq, Repr

/-- A peer port (R415, R416). -/
structure PeerPort where
  /-- The link is up. [R416 32; reset DC 1: up] -/
  up : Bool := true
  /-- Remote windows of the far device, words 0 and 1. [16 x 128; R415 32; reset 0] -/
  win : Vector (Word × Word) 16 := .replicate 16 (0, 0)
  /-- Memory of the far device, at far context times 2^64 plus far virtual address. [R415 32; reset DC 2] -/
  mem : Memory := []
  /-- Bytes that the last read or atomic of the far device was answered with; none for a refusal. [R415 32; reset none] -/
  reply : Option (List Byte) := none
deriving DecidableEq, Repr

/-- Stage of the boot (R373): no image checked yet (STAGE 0), a kind being checked, stopped at a kind, or up. -/
inductive Boot
  | start | checking (kind : Fin 4) | recovery (kind : Fin 4) (code : BitVec 8) | up
deriving DecidableEq, Repr

/-- An input of the machine: which step the device takes next. -/
inductive Action
  /-- The core issues from its next ready slot (R28). -/
  | issue (core : CoreId)
  /-- A step of the device beside the threads (the rows of the opcode table without bits). -/
  | event (e : Instr)
  /-- A die cycle of the die begins, when it is due (R366). -/
  | cycle (die : DieId)
  /-- Reference time passes, in the model's time unit, at most to the next clock edge or switch that is due. -/
  | time (n : Nat)
  /-- Time passes while a die's copy of the reference timer stands still (`slower`), or the copy takes up time that it
  lacks: it never steps back (R367). -/
  | timer (die : DieId) (n : Nat) (slower : Bool)
  /-- The host stores bytes into its own memory (R144). -/
  | hostStore (addr : Nat) (bytes : List Byte)
  /-- The fetch port of a cluster serves its oldest waiting thread (R351). -/
  | fetch (cluster : TileId)
  /-- The core's L1D writes a line back and drops it (R84: an eviction may come at any time). -/
  | evict (core : CoreId) (line : Nat)
  /-- The sequencer of a sub-array takes bytes of an operand ahead of their step (R273, R276): the operation's place
  in the queue, and what is taken. -/
  | tileAhead (cluster : TileId) (sub : Fin 4) (place step addr n : Nat) (glob : Bool)
  /-- A far device makes an access in a context of this package through a peer port (R415). -/
  | farAccess (port : Fin 16) (ctx : Ctx) (va : Word) (req : ExtReq)
deriving DecidableEq, Repr

/-- The whole machine. -/
structure State where
  /-- The 1,280 cores. [R9 00, R15 02] -/
  cores : Vector Core 1280
  /-- The 320 clusters. [R14 02] -/
  clusters : Vector Cluster 320
  /-- The 320 vault-die tiles. [R14 02] -/
  tiles : Vector Tile 320
  /-- The four compute dies. [R14 02] -/
  dies : Vector Die 4
  /-- The twelve stacks. [R14 02] -/
  hbm : Vector Stack 12
  /-- The 64 contexts. [R330 25] -/
  ctxs : Vector Context 64
  /-- Physical memory as the stacks and the far memory hold it, by physical address, decrypted.
  [R394 R396 31; reset DC 2: zero] -/
  mem : Memory
  /-- Sectors (PA >> 5) written under a key: context and generation. [R394 31; reset none] -/
  keyed : List (Nat × Ctx × Nat)
  /-- Sectors (PA >> 5) with a stored error: true when correctable. [R395 31; reset none] -/
  errors : List (Nat × Bool)
  /-- The vaults, by offset from 0x4000_0000 of the local map. [R99 R105 08; reset DC 2: zero] -/
  vault : Memory
  /-- Host memory, by host bus address. [R412 32; reset DC 2: zero] -/
  hostMem : Memory
  /-- Peer ports. [R415 32] -/
  peers : Vector PeerPort 16
  /-- Messages in flight. [R130 09; reset none] -/
  net : List Msg
  /-- Next message id. [model's own; reset 0] -/
  nextMsg : Nat
  /-- Operations of the majority units. [R402 R403 31; reset none] -/
  majOps : List MajOp
  /-- Rings. [R240 18; reset none] -/
  rings : List Ring
  /-- Pipeline installations. [R236 18; reset none] -/
  installs : List Install
  /-- Launches whose completion is watched. [R339 25; reset none] -/
  launches : List Launch
  /-- Next identity of a queue, ring, command, tile operation, packet, launch. [model's own; reset 0] -/
  nextId : Nat
  /-- Take order of the next launch-queue entry. [R334 25; reset 0] -/
  takeSeq : Nat
  /-- Context last served by the control die's rotation. [R334 25; reset DC 1: 0] -/
  lastCtx : Ctx
  /-- Elapsed time since package reset in units of 1/1,113,840 ns: 1,113,840 units are one reference tick, and every
  die cycle is a whole number of them. TIMEREF is the whole number of ticks. [R323 23, R367 28; reset 0] -/
  time : Nat
  /-- MAJCFG.RSIZE, and whether a dispatch has fixed it. [19; R400 31; reset 0, not fixed] -/
  rsize : BitVec 19
  majFixed : Bool
  /-- DCFG of the four stack domains and the link domain: TRED, TSUSP. [5 x (16, 17); R219 16;
  reset 256, 2,048] -/
  dcfg : Vector (BitVec 16 × BitVec 17) 5
  /-- MBCMD. [64; R410 32; reset 0] -/
  mbcmd : Word
  /-- MBARG. [64; R410 32; reset 0] -/
  mbarg : Word
  /-- Argument block of the command that runs: its address, and the bytes read when it started. [R410 32; reset none] -/
  mbblk : Nat × List Byte
  /-- MBSTAT.RESULT. [8; R410 32; reset 0] -/
  mbresult : BitVec 8
  /-- MBSTAT.BUSY. [1; R410 32; reset 0] -/
  mbbusy : Bool
  /-- MSI-X messages raised, oldest first. [72 vectors; R408 R409 32; reset none] -/
  msix : List (Fin 72)
  /-- Access table of the control die's register blocks. [64 x 128; R370 28; reset empty] -/
  ctlAcl : Vector AclEntry 64
  /-- Apertures of BAR2: context and virtual base. [16; R411 32; reset DC 1: context 0, base 0] -/
  apertures : Vector (Ctx × Word) 16
  /-- Bytes of the last host read that completed; none for Unsupported Request. [R411 32; reset DC 1: none] -/
  hostReply : Option (List Byte)
  /-- Refused host writes and lost stores logged by Kamgor. [R411 R415 R416 32; reset none] -/
  log : List (Nat × Nat)
  /-- Far-memory extents granted: number and bytes. [R414 32; reset none] -/
  extents : List (Nat × Nat)
  /-- Extents released by force: every access is refused. [R393 30; reset none] -/
  revoked : List Nat
  /-- AtomicOps are enabled on the host interface; CXL mode: as the host's link has come up (assumption 92). [R143 11, R408 32;
  reset DC 1: false] -/
  atomicOps : Bool
  cxl : Bool
  /-- Recovery tokens of the four stack domains and the link domain. [5; R220 16; reset DC 72: station 0 at time 0] -/
  tokens : Vector Token 5
  /-- Claims on sub-arrays that restored threads have yet to take again, in parking order: core, slot, place in the
  cluster's order, and the sub-arrays as saved. [R277 20; reset none] -/
  reclaims : List (CoreId × Slot × Nat × List (Fin 4 × SubArray))
  /-- The window of 32 ms in which rows are being captured: captured bits of earlier windows are clear. [R391 30; reset DC 1:
  0] -/
  captureWin : Nat
  /-- Modules in service on each die-to-die link. [8 x 12; R362 28; reset all] -/
  links : Vector (BitVec 12) 8
  /-- Boot: the image being checked (BOOTST.STAGE, CODE, UP). [R373 28; reset 0, 0, 0] -/
  boot : Boot
  /-- Running images by kind: security version and prehash. [R374 28; reset none] -/
  images : List (Nat × Word × List Byte)
  /-- Core whose cycle the machine takes when no input names a step. [model's own; reset 0] -/
  focus : CoreId
  /-- Core and slot of the instruction that issues. [model's own; reset (0, 0)] -/
  issuer : CoreId × Slot
  /-- Inputs still to take. [model's own; reset none] -/
  agenda : List Action
  /-- Next free value. [model's own; reset 0] -/
  free : Nat
deriving DecidableEq, Repr

/-- A fault that stops the machine. -/
inductive Fault
  /-- A die-to-die link has no working module: a fatal package error; the package does not run (R362).
  Raised by LINK_MODULE_FAIL. Safe: the spec says the package does not run. -/
  | fatalPackageError (link : Nat)
deriving DecidableEq, Repr

/-- A refusal of the model. -/
inductive Refusal
  /-- The instruction has no meaning in the model yet. Raised by `exec` alone. Safe. -/
  | notModelled (mnemonic : String)
deriving DecidableEq, Repr

/-- The slice map of a die at package reset (R377). -/
def resetDie (d : DieId) : Die :=
  { mscmap := .ofFn fun i => ⟨d.val * 80 + i.val, by omega⟩ }

/-- The machine right after package reset (R368, R373): no context exists, no slot holds a thread, the
boot ROM checks the first firmware image. -/
def State.reset : State where
  cores := .replicate 1280 {}
  clusters := .replicate 320 {}
  tiles := .replicate 320 {}
  dies := .ofFn resetDie
  hbm := .replicate 12 {}
  ctxs := .replicate 64 {}
  mem := []
  keyed := []
  errors := []
  vault := []
  hostMem := []
  peers := .replicate 16 {}
  net := []
  nextMsg := 0
  majOps := []
  rings := []
  installs := []
  launches := []
  nextId := 0
  takeSeq := 0
  lastCtx := 0
  time := 0
  rsize := 0
  majFixed := false
  dcfg := .replicate 5 (256, 2048)
  mbcmd := 0
  mbarg := 0
  mbblk := (0, [])
  mbresult := 0
  mbbusy := false
  msix := []
  ctlAcl := .replicate 64 {}
  apertures := .replicate 16 (0, 0)
  hostReply := none
  log := []
  extents := []
  revoked := []
  atomicOps := false
  cxl := false
  tokens := .replicate 5 {}
  reclaims := []
  captureWin := 0
  links := .replicate 8 0xFFF
  boot := .start
  images := []
  focus := 0
  issuer := (0, 0)
  agenda := []
  free := 0

end Sys2Proof.Machine
end

