-- ==== Sys2Proof/Machine/Bits.lean ====
section
/-! DEFINITION. Byte order, bit fields, memories and keyed lists: the plain operations on data that every
other file of the machine uses. Multi-byte values are little-endian (R3). -/

namespace Sys2Proof.Machine

/-- The `n` low bytes of a number, least significant first (R3). -/
def leBytes : Nat → Nat → List Byte
  | 0, _ => []
  | n + 1, v => BitVec.ofNat 8 v :: leBytes n (v / 256)

/-- The number that bytes spell, least significant first (R3). -/
def ofLe : List Byte → Nat
  | [] => 0
  | b :: t => b.toNat + 256 * ofLe t

/-- Bits `hi` to `lo` of a number (R3). -/
def bits (v hi lo : Nat) : Nat := v / 2 ^ lo % 2 ^ (hi + 1 - lo)

/-- Bit `i` of a number. -/
def bitAt (v i : Nat) : Bool := v / 2 ^ i % 2 == 1

/-- Bits `hi` to `lo` of a word (R3). -/
def wbits (v : Word) (hi lo : Nat) : Nat := bits v.toNat hi lo

/-- A number read as signed in `n` bits. -/
def toSigned (n v : Nat) : Int := if 2 * (v % 2 ^ n) < 2 ^ n then (v % 2 ^ n : Nat) else (v % 2 ^ n : Nat) - (2 ^ n : Nat)

/-- The `n` low bits of an integer, as a number. -/
def wrap (n : Nat) (v : Int) : Nat := (v % (2 ^ n : Nat)).toNat

/-- A value of `size` bytes widened to 64 bits by sign or by zeros (R5, R82). -/
def widen (signed : Bool) (size v : Nat) : Word :=
  if signed then BitVec.ofNat 64 (wrap 64 (toSigned (8 * size) v)) else BitVec.ofNat 64 (v % 2 ^ (8 * size))

/-- Bytes `off` to `off + n - 1` of a bit vector. -/
def bytesOf {w : Nat} (v : BitVec w) (off n : Nat) : List Byte :=
  (List.range n).map fun i => v.extractLsb' (8 * (off + i)) 8

/-- A bit vector with the bytes from `off` on replaced. -/
def putBytes {w : Nat} (v : BitVec w) (off : Nat) (b : List Byte) : BitVec w :=
  let mask : BitVec w := BitVec.ofNat w (2 ^ (8 * b.length) - 1) <<< (8 * off)
  (v &&& ~~~mask) ||| (BitVec.ofNat w (ofLe b) <<< (8 * off))

/-- The bit vector that bytes spell. -/
def ofBytes (w : Nat) (b : List Byte) : BitVec w := BitVec.ofNat w (ofLe b)

/-- One byte of a memory. -/
def Memory.read1 : Memory → Nat → Byte
  | [], _ => Memory.unlisted
  | (b, v) :: t, a => if a = b then v else if a < b then Memory.unlisted else Memory.read1 t a

/-- A memory with one byte written; the canonical form is kept. -/
def Memory.write1 : Memory → Nat → Byte → Memory
  | [], a, v => if v = Memory.unlisted then [] else [(a, v)]
  | (b, w) :: t, a, v =>
    if a < b then if v = Memory.unlisted then (b, w) :: t else (a, v) :: (b, w) :: t
    else if a = b then if v = Memory.unlisted then t else (a, v) :: t
    else (b, w) :: Memory.write1 t a v

/-- A memory in which every byte that `p` selects reads as one that nothing has written. -/
def Memory.clear (m : Memory) (p : Nat → Bool) : Memory := m.filter fun c => !p c.1

/-- `n` bytes of a memory from an address. -/
def Memory.read (m : Memory) (a : Nat) : Nat → List Byte
  | 0 => []
  | n + 1 => Memory.read1 m a :: Memory.read m (a + 1) n

/-- A memory with bytes written from an address on. -/
def Memory.write (m : Memory) (a : Nat) : List Byte → Memory
  | [] => m
  | b :: t => Memory.write (Memory.write1 m a b) (a + 1) t

/-- The entry of a key in a keyed list. -/
def assoc {α β : Type} [DecidableEq α] (l : List (α × β)) (k : α) : Option β :=
  (l.find? fun p => p.1 = k).map Prod.snd

/-- A keyed list with one entry set. -/
def assocSet {α β : Type} [DecidableEq α] (l : List (α × β)) (k : α) (v : β) : List (α × β) :=
  (k, v) :: l.filter fun p => p.1 ≠ k

/-- A keyed list without a key. -/
def assocDel {α β : Type} [DecidableEq α] (l : List (α × β)) (k : α) : List (α × β) :=
  l.filter fun p => p.1 ≠ k

/-- A list with the elements that satisfy `p` changed by `f`. -/
def mapIf {α : Type} (p : α → Bool) (f : α → α) (l : List α) : List α :=
  l.map fun a => if p a then f a else a

/-- The least number below `n` that satisfies `p`. -/
def leastBelow (n : Nat) (p : Nat → Bool) : Option Nat := (List.range n).find? p

/-- An element of `Fin n` from a number, reduced when it is out of range. -/
def finOf (n : Nat) [NeZero n] (v : Nat) : Fin n := Fin.ofNat n v

/-- Ceiling of a quotient. -/
def ceilDiv (a b : Nat) : Nat := (a + b - 1) / b

end Sys2Proof.Machine
end

