-- ==== Sys2Proof/Machine/Parts.lean ====
section
/-! DEFINITION. Accessors of the parts of the state, of registers (R5, R184) and of time (R363, R367). -/

namespace Sys2Proof.Machine

/-! ## Accessors -/

/-- A core. -/
def State.core (s : State) (c : CoreId) : Core := s.cores.get c

/-- The state with a core replaced. -/
def State.setCore (s : State) (c : CoreId) (x : Core) : State := { s with cores := s.cores.set c x }

/-- The state with a core changed. -/
def State.updCore (s : State) (c : CoreId) (f : Core → Core) : State := s.setCore c (f (s.core c))

/-- A thread slot of a core. -/
def Core.thread (x : Core) (k : Slot) : Thread := x.slots.get k

/-- A core with a thread slot replaced. -/
def Core.setThread (x : Core) (k : Slot) (t : Thread) : Core := { x with slots := x.slots.set k t }

/-- A thread slot. -/
def State.thread (s : State) (c : CoreId) (k : Slot) : Thread := (s.core c).thread k

/-- The state with a thread slot replaced. -/
def State.setThread (s : State) (c : CoreId) (k : Slot) (t : Thread) : State :=
  s.setCore c ((s.core c).setThread k t)

/-- The state with a thread slot changed. -/
def State.updThread (s : State) (c : CoreId) (k : Slot) (f : Thread → Thread) : State :=
  s.setThread c k (f (s.thread c k))

/-- The thread whose instruction issues. -/
def State.me (s : State) : Thread := s.thread s.issuer.1 s.issuer.2

/-- The core on which the instruction issues. -/
def State.here (s : State) : Core := s.core s.issuer.1

/-- The state with the issuing thread changed. -/
def State.updMe (s : State) (f : Thread → Thread) : State := s.updThread s.issuer.1 s.issuer.2 f

/-- The state with the issuing core changed. -/
def State.updHere (s : State) (f : Core → Core) : State := s.updCore s.issuer.1 f

/-- The state with a cluster changed. -/
def State.updCluster (s : State) (t : TileId) (f : Cluster → Cluster) : State :=
  { s with clusters := s.clusters.set t (f (s.clusters.get t)) }

/-- The state with a tile changed. -/
def State.updTile (s : State) (t : TileId) (f : Tile → Tile) : State :=
  { s with tiles := s.tiles.set t (f (s.tiles.get t)) }

/-- The state with a die changed. -/
def State.updDie (s : State) (d : DieId) (f : Die → Die) : State :=
  { s with dies := s.dies.set d (f (s.dies.get d)) }

/-- The state with a stack changed. -/
def State.updStack (s : State) (k : StackId) (f : Stack → Stack) : State :=
  { s with hbm := s.hbm.set k (f (s.hbm.get k)) }

/-- The state with a context changed. -/
def State.updCtx (s : State) (c : Ctx) (f : Context → Context) : State :=
  { s with ctxs := s.ctxs.set c (f (s.ctxs.get c)) }

/-- Cluster of a core (R9). -/
def clusterOf (c : CoreId) : TileId := ⟨c.val / 4, by omega⟩

/-- Die of a core (R9). -/
def dieOf (c : CoreId) : DieId := ⟨c.val / 320, by omega⟩

/-- Die of a tile (R9). -/
def dieOfTile (t : TileId) : DieId := ⟨t.val / 80, by omega⟩

/-- The core of a cluster with a given place (R9). -/
def coreIn (t : TileId) (i : Fin 4) : CoreId := ⟨t.val * 4 + i.val, by omega⟩

/-- A slot holds a thread (R22). -/
def Thread.present (t : Thread) : Bool := t.status != .absent

/-- An integer register; x0 reads 0 (R5). -/
def Thread.getX (t : Thread) (r : Reg) : Word := if r = 0 then 0 else t.x.get r.toFin

/-- An integer register written; a write to x0 is discarded (R5). -/
def Thread.setX (t : Thread) (r : Reg) (v : Word) : Thread :=
  if r = 0 then t else { t with x := t.x.set r.toFin v }

/-- A vector register. -/
def Thread.getV (t : Thread) (r : Reg) : VReg := t.v.get r.toFin

/-- A vector register written. -/
def Thread.setV (t : Thread) (r : Reg) (v : VReg) : Thread := { t with v := t.v.set r.toFin v }

/-- A mask register as an operand: k0 reads as all ones (R184). -/
def Thread.getK (t : Thread) (r : BitVec 3) : KReg := if r = 0 then BitVec.allOnes 512 else t.k.get r.toFin

/-- A mask register written; a write to k0 is discarded (R184). -/
def Thread.setK (t : Thread) (r : BitVec 3) (v : KReg) : Thread :=
  if r = 0 then t else { t with k := t.k.set r.toFin v }

/-! ## Registers that come back (R87, R88) -/

/-- The thread's registers before its present instruction. -/
def Thread.undo (t : Thread) : Undo :=
  { pc := t.pc, x := t.x, v := t.v, k := t.k, rows := t.rows, rbytes := t.rbytes, repcnt := t.repcnt, hint := t.hint
    srseed := t.srseed, gens := t.gens, instret := t.instret, ports := t.ports
    fmts := [t.fmta, t.fmtb, t.fmtc, t.scla, t.sclb, t.grpsz], inRep := t.inRep, ibuf := t.ibuf }

/-- A thread with registers that were kept. -/
def Thread.putBack (t : Thread) (u : Undo) : Thread :=
  { t with
    pc := u.pc, x := u.x, v := u.v, k := u.k, rows := u.rows, rbytes := u.rbytes, repcnt := u.repcnt, hint := u.hint
    srseed := u.srseed, gens := u.gens, instret := u.instret, ports := u.ports
    fmta := u.fmts.getD 0 0, fmtb := u.fmts.getD 1 0, fmtc := u.fmts.getD 2 0, scla := u.fmts.getD 3 0
    sclb := u.fmts.getD 4 0, grpsz := u.fmts.getD 5 0, inRep := u.inRep, ibuf := u.ibuf }

/-- A thread is parked at a full output with what it has to put there. -/
def Thread.atOutput (t : Thread) : Bool :=
  match t.status with
  | .parked (.queueOut _) | .parked (.ringPlace _ _) => true
  | _ => false

/-- A trap record of a thread is to be answered before it goes on (R304, R305). -/
def Thread.stands (t : Thread) : Bool := t.status == .trapped || t.status == .parked .kamgor

/-- What a thread that is stopped keeps of its present instruction: of one that is parked at a full output, or was when it was
trapped, its answer (R31, R138). -/
def Thread.keptProg (t : Thread) : Progress :=
  if (t.atOutput || t.stands) && (t.prog.data.isSome || t.prog.stage == 3) then
    { stage := t.prog.stage, data := t.prog.data }
  else {}

/-- A change of registers that an instruction older than all that execute again has made: it holds behind them too. -/
def Thread.behind (t : Thread) (f : Undo → Undo) : Thread :=
  { t with redo := t.redo.map (fun r => { r with undo := f r.undo }), after := t.after.map f }

/-- Registers with the result of an instruction that has executed again. -/
def Redo.carry (r : Redo) (t : Thread) (u : Undo) : Undo :=
  match r.dst with
  | .x d _ _ => if d = 0 then u else { u with x := u.x.set d.toFin (t.x.get d.toFin) }
  | .v d => { u with v := u.v.set d.toFin (t.v.get d.toFin) }
  | .hold => u

/-- An instruction that executes again has completed: the thread goes on at the next one, or behind them all, with the
registers that it had there and the result. Loads that are outstanding are older than what has been done since. -/
def Thread.rejoin (t : Thread) : Thread :=
  match t.redo with
  | [] => t
  | r :: rest =>
    let older : PendLoad → PendLoad := fun l => { l with passed := true }
    let t := { t with redo := rest, loads := t.loads.map older }.behind (r.carry t)
    match t.redo, t.after with
    | q :: _, _ => { t.putBack q.undo with inRep := false }
    | [], some u => { t.putBack u with after := none, inRep := false, prog := t.kept, kept := {} }
    | [], none => t

/-- An instruction among those that execute again, in program order, once. -/
def insertRedo (r : Redo) : List Redo → List Redo
  | [] => [r]
  | q :: rest =>
    if r.undo.instret == q.undo.instret then q :: rest
    else if r.undo.instret.toNat < q.undo.instret.toNat then r :: q :: rest
    else q :: insertRedo r rest

/-- A thread taken back to the first of instructions that execute again, none of its results outstanding; it goes on behind
them with the registers that it has now (assumption 60). -/
def Thread.stand (t : Thread) (rs : List Redo) : Thread :=
  if rs.isEmpty then t
  else
    let redo := rs.foldr insertRedo t.redo
    let kept := if t.after.isNone then t.keptProg else t.kept
    let after := t.after.getD { t.undo with inRep := false }
    let t := { t with redo := redo, after := some after, kept := kept, xpend := 0, vpend := 0, prog := {} }
    match redo with
    | q :: _ => t.putBack q.undo
    | [] => t

/-- A thread whose record has been answered, or that Kamgor lets go on, executes again what was cancelled while it stood
(R88; assumption 46). -/
def Thread.takeUp (t : Thread) : Thread := if t.after.isNone then { t with redo := [] }.stand t.redo else t

/-- Registers behind what executes again, with what another thread has written meanwhile: a register that nothing has changed
since takes the new value (R103; assumption 60). -/
def Undo.takeOver (old new : Thread) (u : Undo) : Undo :=
  { u with
    x := .ofFn fun i => if u.x.get i = old.x.get i then new.x.get i else u.x.get i
    v := .ofFn fun i => if u.v.get i = old.v.get i then new.v.get i else u.v.get i
    k := .ofFn fun i => if u.k.get i = old.k.get i then new.k.get i else u.k.get i
    rows := if u.rows = old.rows then new.rows else u.rows
    rbytes := if u.rbytes = old.rbytes then new.rbytes else u.rbytes
    hint := if u.hint = old.hint then new.hint else u.hint }

/-- A thread whose program counter is written goes on there, with nothing to execute again (R103) but what was cancelled
while it stood trapped. -/
def Thread.goTo (t : Thread) (pc : Word) : Thread :=
  { t with pc := pc, inRep := false, redo := if t.after.isNone then t.redo else [], after := none, kept := {} }

/-! ## Time -/

/-- Units of `State.time` in one reference tick of 1 ns. -/
def tickUnits : Nat := 1113840

/-- Units of `State.time` in one die cycle at a frequency step (R363). -/
def cycleUnits (step : Nat) : Nat := 11138400 / (12 + step)

/-- The reference timer of the control die, in ticks (R367). -/
def State.ticks (s : State) : Nat := s.time / tickUnits

/-- TIMEREF as a die reads it: its copy lags the control die's timer (R323, R367). -/
def State.timeref (s : State) (d : DieId) : Word := BitVec.ofNat 64 ((s.time - (s.dies.get d).skew) / tickUnits)

/-- The die cycle count of a die, as a number. -/
def State.cycleOf (s : State) (c : CoreId) : Nat := (s.dies.get (dieOf c)).cycle.toNat

end Sys2Proof.Machine
end

