-- ==== Sys2Proof/Machine/Translate.lean ====
section
/-! DEFINITION. Physical addresses (R396), page tables, permissions and translation caches (R106, R306 to
R311), access tables (R370, R371). -/

namespace Sys2Proof.Machine

/-- Where a physical address lies (R396). -/
inductive Region
  | hbm (stack : StackId) (off : Nat)
  | maj (triple : Fin 4) (off : Nat)
  | device (off : Nat)
  | far (extent : Nat) (off : Nat)
  | unbacked
deriving DecidableEq, Repr

/-- Majority data per stack, in bytes (R400). -/
def State.majR (s : State) : Nat := s.rsize.toNat * 65536

/-- The majority carve of a stack (R400). -/
def State.carve (s : State) : Nat := s.majR + s.majR / 8

/-- The region of a physical address (R396, R397, R414). -/
def State.region (s : State) (pa : Nat) : Region :=
  if pa < 12 * (2 ^ 36 - s.carve) then
    let g := pa / 4096
    .hbm (finOf 12 (g % 12)) (g / 12 * 4096 + pa % 4096)
  else if 2 ^ 48 ≤ pa ∧ pa < 2 ^ 48 + 2 ^ 36 then
    let o := pa % 2 ^ 34
    if o < s.majR then .maj (finOf 4 ((pa - 2 ^ 48) / 2 ^ 34)) o else .unbacked
  else if 2 ^ 49 ≤ pa ∧ pa < 2 ^ 49 + 2 ^ 32 then .device (pa - 2 ^ 49)
  else if 2 ^ 50 ≤ pa ∧ pa < 2 ^ 51 then
    let e := (pa - 2 ^ 50) / 2 ^ 40
    match s.extents.find? fun x => x.1 == e with
    | some (_, n) => if (pa - 2 ^ 50) % 2 ^ 40 < n then .far e ((pa - 2 ^ 50) % 2 ^ 40) else .unbacked
    | none => .unbacked
  else .unbacked

/-- The stacks of a triple (R400). -/
def tripleStacks (t : Fin 4) : List StackId :=
  match t with
  | 0 => [0, 4, 8]
  | 1 => [3, 7, 11]
  | 2 => [6, 10, 2]
  | 3 => [9, 1, 5]

/-- The channel of an offset within a stack (R396). -/
def channelOf (off : Nat) : Nat := bits off 12 8 ^^^ bits off 17 13

/-! ## Page-table entries (R306) -/

/-- Offset bits of a leaf at a level. -/
def levelShift (level : Nat) : Nat := match level with | 0 => 46 | 1 => 36 | 2 => 26 | _ => 16

/-- Page type of a leaf; the codes 110 and 111 are refused. -/
def leafType (e : Word) : Option PageType :=
  match wbits e 4 2 with
  | 0 => some .normal | 1 => some .maj | 2 => some .replica | 3 => some .device | 4 => some .host
  | 5 => some .peer | _ => none

/-- Permission bits of a leaf. -/
def leafRd (e : Word) : Bool := e.getLsbD 5
def leafWr (e : Word) : Bool := e.getLsbD 6
def leafEx (e : Word) : Bool := e.getLsbD 7
def leafA (e : Word) : Bool := e.getLsbD 8
def leafD (e : Word) : Bool := e.getLsbD 9
def leafTriple (e : Word) : Nat := wbits e 11 10
def leafPort (e : Word) : Nat := wbits e 59 56

/-- The frame or window offset of a leaf: ADDR as an address. -/
def leafAddr (e : Word) : Nat := wbits e 51 12 * 4096

/-- The bits of a leaf at a level that a walk refuses (R306). -/
def State.leafOk (s : State) (level : Nat) (e : Word) : Bool :=
  let pa := leafAddr e
  let size := 2 ^ levelShift level
  let last := pa + size - 1
  wbits e 63 60 == 0 && wbits e 55 52 == 0 && pa % size == 0 && level != 0 &&
  match leafType e with
  | none => false
  | some .normal | some .replica =>
    wbits e 59 56 == 0 && leafTriple e == 0 &&
    match s.region pa, s.region last with
    | .hbm _ _, .hbm _ _ => true
    | .far x _, .far y _ => x == y
    | _, _ => false
  | some .maj =>
    wbits e 59 56 == 0 &&
    match s.region pa, s.region last with
    | .maj t _, .maj u _ => t == u && t.val == leafTriple e
    | _, _ => false
  | some .device =>
    wbits e 59 56 == 0 && leafTriple e == 0 && level == 3 &&
    match s.region pa with
    | .device _ => true
    | _ => false
  | some .host => wbits e 59 56 == 0 && leafTriple e == 0
  | some .peer => leafTriple e == 0

/-- The fields of a non-leaf entry that must be 0, and the bits of ADDR below the alignment of the next table (R306). The
next table is that of the index path, since Kamgor alone writes tables and no context maps one (R309). -/
def nonLeafOk (level : Nat) (e : Word) : Bool :=
  level != 3 && wbits e 63 52 == 0 && wbits e 11 2 == 0 && leafAddr e % 8192 == 0

/-- The table index path of an address at a level: the key of an entry of `Context.pt`. -/
def ptKey (level va : Nat) : Nat × Nat := (level, va % 2 ^ 57 / 2 ^ levelShift level)

/-- The entry that a walk reads at a level (R306). -/
def Context.entry (x : Context) (level va : Nat) : Word := (assoc x.pt (ptKey level va)).getD 0

/-- How a walk ends. -/
inductive Walk
  | leaf (level : Nat) (e : Word)
  | fault (cause : Cause) (level : Nat) (e : Word)
deriving DecidableEq, Repr

/-- A walk of the four levels (R306). -/
def State.walkFrom (s : State) (ctx : Ctx) (va : Nat) : List Nat → Walk
  | [] => .fault .translation 3 0
  | level :: rest =>
    let e := (s.ctxs.get ctx).entry level va
    if !e.getLsbD 0 then .fault .pageFault level e
    else if e.getLsbD 1 then if s.leafOk level e then .leaf level e else .fault .translation level e
    else if nonLeafOk level e then s.walkFrom ctx va rest
    else .fault .translation level e

/-- The table walk of a context (R306). -/
def State.walk (s : State) (ctx : Ctx) (va : Nat) : Walk := s.walkFrom ctx va [0, 1, 2, 3]

/-- The bits that the walker sets in the leaf: A at the first access, D at the first write that the leaf
allows (R306). -/
def leafUsed (e : Word) (wr : Bool) : Word :=
  e ||| (1 <<< 8) ||| (if wr && leafWr e then 1 <<< 9 else 0)

/-! ## Translation caches (R308) -/

/-- An address is valid: bits 63:57 equal bit 56 (R106). -/
def vaValid (va : Nat) : Bool := va < 2 ^ 56 || (2 ^ 64 - 2 ^ 56 ≤ va && va < 2 ^ 64)

/-- An entry of a translation cache covers an address. -/
def TlbEntry.covers (t : TlbEntry) (ctx : Ctx) (va : Nat) : Bool :=
  t.ctx == ctx && t.vpn == va % 2 ^ 57 / 2 ^ levelShift t.level

/-- The dies that are not in reset. -/
def State.liveDies (s : State) : List DieId := (List.finRange 4).filter fun d => !(s.dies.get d).inReset

/-- The die whose second-level share holds a translation (R308). -/
def State.shareOf (s : State) (ctx : Ctx) (va : Nat) : DieId :=
  let g := bits va 56 26
  let d := (g % 4) ^^^ (g / 2 ^ 8 % 4) ^^^ (g / 2 ^ 16 % 4) ^^^ (g / 2 ^ 24 % 4) ^^^ (ctx.val % 4)
  if (s.dies.get (finOf 4 d)).inReset then s.liveDies.getD (g / 4 % s.liveDies.length) 0 else finOf 4 d

/-- Set the A and D bits of the leaf that maps an address (R306). -/
def State.markLeaf (s : State) (ctx : Ctx) (level va : Nat) (e : Word) : State :=
  s.updCtx ctx fun x => { x with pt := assocSet x.pt (ptKey level va) e }

/-- Two entries of a translation cache hold one leaf. -/
def TlbEntry.sameLeaf (t u : TlbEntry) : Bool := u.ctx == t.ctx && u.level == t.level && u.vpn == t.vpn

/-- A translation cache with an entry added first; the number of entries is limited. The entry replaced
when it is full is the oldest, DESIGN CHOICE (assumption 3). -/
def addTlb (n : Nat) (l : List TlbEntry) (t : TlbEntry) : List TlbEntry :=
  (t :: l.filter fun u => !t.sameLeaf u).take n

/-- The set of an entry in a second-level share of 4,096 sets: the low bits of the page number, DESIGN CHOICE (assumption
3). -/
def TlbEntry.set (t : TlbEntry) : Nat := t.vpn % 4096

/-- A second-level share, 16-way, with an entry added: the oldest entry of a full set leaves (R308). -/
def addShare (l : List TlbEntry) (t : TlbEntry) : List TlbEntry :=
  let others := l.filter fun u => !t.sameLeaf u
  let mine := others.filter fun u => u.set == t.set
  if mine.length < 16 then t :: others
  else match mine.getLast? with
    | some old => t :: others.filter fun u => !old.sameLeaf u
    | none => t :: others

/-- Fill the second level and the first from a walk (R308). -/
def State.fillTlb (s : State) (c : CoreId) (ctx : Ctx) (va : Nat) (t : TlbEntry) : State :=
  (s.updDie (s.shareOf ctx va) fun d => { d with l2 := addShare d.l2 t }).updCore c
    fun x => { x with tlb := addTlb 128 x.tlb t }

/-- The outcome of a translation. -/
inductive Xlate
  | ok (s : State) (level : Nat) (leaf : Word)
  | fault (s : State) (cause : Cause) (level : Nat) (e : Word)

/-- Translate an address for a core: first level, second level, walk (R17, R308). A write through a leaf
whose D bit is clear walks again, so that the walker sets it. -/
def State.translate (s : State) (c : CoreId) (ctx : Ctx) (va : Nat) (wr : Bool) : Xlate :=
  if !vaValid va then .fault s .translation 0 0
  else
    let use := fun t : TlbEntry => t.covers ctx va && !(wr && leafWr t.leaf && !leafD t.leaf)
    match (s.core c).tlb.find? use with
    | some t => .ok s t.level t.leaf
    | none =>
      match (s.dies.get (s.shareOf ctx va)).l2.find? use with
      | some t => .ok (s.updCore c fun x => { x with tlb := addTlb 128 x.tlb t }) t.level t.leaf
      | none =>
        match s.walk ctx va with
        | .fault cause level e => .fault s cause level e
        | .leaf level e =>
          let e' := leafUsed e wr
          let t : TlbEntry := { ctx := ctx, level := level, vpn := va % 2 ^ 57 / 2 ^ levelShift level, leaf := e' }
          .ok ((s.markLeaf ctx level va e').fillTlb c ctx va t) level e'

/-- A speculative translation: it sets no A or D bit and stops at a leaf whose A bit is clear (R310). -/
def State.translateSpec (s : State) (ctx : Ctx) (va : Nat) : Option (Nat × Word) :=
  if !vaValid va then none
  else match s.walk ctx va with
    | .leaf level e => if leafA e then some (level, e) else none
    | .fault _ _ _ => none

/-- The physical address, or the window offset, that a leaf gives an address. -/
def leafPa (level : Nat) (e : Word) (va : Nat) : Nat := leafAddr e + va % 2 ^ levelShift level

/-! ## Access tables (R370, R371) -/

/-- Classes of an access (R370). -/
inductive AclClass | core | engine | management | host | peer
deriving DecidableEq, Repr

/-- Code of a class (R370). -/
def AclClass.code : AclClass → Nat
  | .core => 0 | .engine => 1 | .management => 2 | .host => 3 | .peer => 4

/-- An entry of an access table allows an access at an offset within the target (R370). -/
def AclEntry.allows (e : AclEntry) (cls : AclClass) (ctx : Ctx) (off : Nat) (rd wr : Bool) : Bool :=
  e.w0.getLsbD 0 && wbits e.w1 11 9 == cls.code
    && ((cls != .core && cls != .engine) || e.w1.getLsbD 8 || wbits e.w1 5 0 == ctx.val)
    && wbits e.w0 63 12 ≤ off / 4096 && off / 4096 ≤ wbits e.w1 63 12
    && (!rd || e.w0.getLsbD 4) && (!wr || e.w0.getLsbD 5)

/-- An access table allows an access; management accesses are always allowed (R370). -/
def aclAllows (l : List AclEntry) (cls : AclClass) (ctx : Ctx) (off : Nat) (rd wr : Bool) : Bool :=
  cls == .management || l.any fun e => e.allows cls ctx off rd wr

/-- A write of the control die's register blocks. Kamgor's is of class management and always allowed. The host's goes to an
offset of BAR0, is checked by the control die's access table, and when that refuses it is discarded and logged (R370, R371,
R411); a register that no offset of BAR0 names it cannot reach (R408). -/
def State.controlWrite (s : State) (host : Bool) (off : Option Nat) (f : State → State) : State :=
  if !host then f s
  else match off with
    | none => s
    | some o => if aclAllows s.ctlAcl.toList .host 0 o false true then f s else { s with log := s.log ++ [(3, o)] }

/-- The controller of the stack that holds a physical address allows an access. Far memory has no stack:
an extent that is granted and not revoked is allowed (R393, R414). -/
def State.stackAllows (s : State) (cls : AclClass) (ctx : Ctx) (pa : Nat) (rd wr : Bool) : Bool :=
  match s.region pa with
  | .hbm k off => aclAllows (s.hbm.get k).acl.toList cls ctx off rd wr
  | .far e _ => !s.revoked.contains e
  | _ => false

end Sys2Proof.Machine
end

