-- ==== Sys2Proof/Machine/Memory.lean ====
section
/-! DEFINITION. The stacks' data path (R394, R395, R399), the home slices of the memory-side cache (R377
to R389) and the accesses that are performed there in one step (R108). -/

namespace Sys2Proof.Machine

/-! ## The stacks -/

/-- The state of the stack that holds a physical address; far memory is always in service. -/
def State.stackStateAt (s : State) (pa : Nat) : StackState :=
  match s.region pa with
  | .hbm k _ => (s.hbm.get k).state
  | _ => .in_

/-- Count an error of the stack that holds an address (R395, R398: the counters saturate). -/
def State.countError (s : State) (pa : Nat) (correctable : Bool) : State :=
  match s.region pa with
  | .hbm k _ => s.updStack k fun x =>
    if correctable then { x with cecnt := if x.cecnt = BitVec.allOnes 16 then x.cecnt else x.cecnt + 1 }
    else { x with uecnt := if x.uecnt = BitVec.allOnes 16 then x.uecnt else x.uecnt + 1 }
  | _ => s

/-- A sector was written under another key than the context's present one (R394). -/
def State.foreign (s : State) (ctx : Ctx) (sector : Nat) : Bool :=
  match assoc s.keyed sector with
  | some (c, g) => !(c == ctx && g == (s.ctxs.get ctx).keyGen)
  | none => false

/-- The copy of a granule on a stack; one that nothing has written since Kamgor zeroed it holds zero data, and the tag of
that write, or 0 (R400, R401). -/
def Stack.copy (x : Stack) (g : Nat) : MajCopy :=
  (x.maj.find? fun c => c.granule == g).getD { granule := g, tag := (assoc x.majTags (g / 1024)).getD 0 }

/-- A stack with a copy written. -/
def Stack.setCopy (x : Stack) (c : MajCopy) : Stack := { x with maj := c :: x.maj.filter fun d => d.granule != c.granule }

/-- The data of a majority copy as the controller decrypts it for a context (R394): under another key than the one that
wrote it, open data. -/
def State.copyData (s : State) (ctx : Ctx) (c : MajCopy) : BitVec 512 :=
  match c.key with
  | some (w, g) =>
    let now := (s.ctxs.get ctx).keyGen
    if w = ctx ∧ g = now then c.data else Config.otherKey w.val g ctx.val now c.data
  | none => c.data

/-- The bytes of a sector as the controller decrypts them for a context (R394). A sector written under
another key reads as free bytes. -/
def State.sectorBytes (s : State) (ctx : Ctx) (sector : Nat) : List Byte × State :=
  if s.foreign ctx sector then
    ((List.range 32).map fun i => Config.freeByte (32 * s.free + i), { s with free := s.free + 1 })
  else (s.mem.read (32 * sector) 32, s)

/-- Read a sector from its stack: bytes, or an uncorrectable error (R395, R399). A corrected error is
written back corrected and counted. -/
def State.readSector (s : State) (ctx : Ctx) (sector : Nat) : Option (List Byte) × State :=
  if s.stackStateAt (32 * sector) = .failed then (none, s.countError (32 * sector) false)
  else match assoc s.errors sector with
    | some false => (none, s.countError (32 * sector) false)
    | some true =>
      let s := ({ s with errors := assocDel s.errors sector }).countError (32 * sector) true
      let (b, s) := s.sectorBytes ctx sector
      (some b, s)
    | none =>
      let (b, s) := s.sectorBytes ctx sector
      (some b, s)

/-- Bytes that lie within one sector, written at the stack (R394, R395, R399): a whole sector clears an
uncorrectable error, a merge leaves it, and corrects and counts a correctable one. A write to an OFFLINE stack is held; to
a FAILED one it is lost and counted as an uncorrectable error. -/
def State.writeSector (s : State) (ctx : Ctx) (pa : Nat) (b : List Byte) : State :=
  let sector := pa / 32
  match s.stackStateAt pa with
  | .offline =>
    match s.region pa with
    | .hbm k _ => s.updStack k fun x => { x with held := x.held ++ [(pa, b, ctx)] }
    | _ => s
  | .failed => s.countError pa false
  | _ =>
    let whole := b.length == 32
    let fixed := !whole && assoc s.errors sector == some true
    let s := if whole || fixed then { s with errors := assocDel s.errors sector } else s
    let s := if fixed then s.countError pa true else s
    let (old, s) := if whole then (b, s) else s.sectorBytes ctx sector
    let new := if whole then b else old.take (pa % 32) ++ b ++ old.drop (pa % 32 + b.length)
    { s with
      mem := s.mem.write (32 * sector) new
      keyed := assocSet s.keyed sector (ctx, (s.ctxs.get ctx).keyGen) }

/-- Split bytes at sector boundaries. -/
def sectorRuns (pa : Nat) (b : List Byte) : Nat → List (Nat × List Byte)
  | 0 => []
  | fuel + 1 =>
    if b.isEmpty then []
    else
      let n := 32 - pa % 32
      (pa, b.take n) :: sectorRuns (pa + n) (b.drop n) fuel

/-- Bytes written at the stack, sector by sector. -/
def State.writeStack (s : State) (ctx : Ctx) (pa : Nat) (b : List Byte) : State :=
  (sectorRuns pa b (b.length + 1)).foldl (fun s p => s.writeSector ctx p.1 p.2) s

/-! ## Homes (R377, R384 to R387) -/

/-- The hash of a line number (R377). -/
def fold16 (l : Nat) : Nat := bits l 15 0 ^^^ bits l 31 16 ^^^ bits l 44 32

/-- Modes of a window (R384). -/
inductive WinMode | pin | replica | rpin
deriving DecidableEq, Repr

/-- The mode of a window word 0, when it is valid. -/
def MscWin.mode (w : MscWin) : Option WinMode :=
  if !w.w0.getLsbD 0 then none
  else match wbits w.w0 3 2 with | 1 => some .pin | 2 => some .replica | 3 => some .rpin | _ => none

/-- First line and number of lines of a window. -/
def MscWin.base (w : MscWin) : Nat := wbits w.w0 51 7
def MscWin.lines (w : MscWin) : Nat := wbits w.w1 28 0
def MscWin.slices (w : MscWin) : Nat := wbits w.w1 34 32 + 1

/-- Target slice k of a window. -/
def MscWin.slice (w : MscWin) (k : Nat) : TileId :=
  if k < 7 then finOf 320 (bits w.w2.toNat (9 * k + 8) (9 * k)) else finOf 320 (wbits w.w3 8 0)

/-- The window of a context that holds a line. -/
def State.windowOf (s : State) (ctx : Ctx) (line : Nat) : Option MscWin :=
  (s.ctxs.get ctx).mscwin.toList.find? fun w =>
    w.mode.isSome && w.base ≤ line && line < w.base + w.lines

/-- The die that a line belongs to outside windows (R377, R19). -/
def State.lineDie (s : State) (line : Nat) : DieId :=
  match s.region (128 * line) with
  | .hbm k _ => ⟨k.val / 3, by omega⟩
  | _ => finOf 4 (fold16 line % 4)

/-- The home slice of a line for a context's access from a die (R377, R386, R387). -/
def State.homeOf (s : State) (ctx : Ctx) (d : DieId) (line : Nat) : TileId :=
  let byMap := fun e : DieId => (s.dies.get e).mscmap.get (finOf 80 (fold16 line * 80 / 2 ^ 16))
  match s.windowOf ctx line with
  | none => byMap (s.lineDie line)
  | some w =>
    match w.mode with
    | some .pin => w.slice (fold16 line * w.slices / 2 ^ 16)
    | _ => byMap d

/-- A die's clock-crossing FIFOs pass nothing until its stall ends (R365). -/
def State.stalled (s : State) (c : CoreId) : Bool := (s.dies.get (dieOf c)).stallEnd.isSome

/-- Nothing passes from a die to another: the crossings of one of them are stalled, or those of a die on the way round the ring
of dies (R365, R215). -/
def State.stalledDies (s : State) (e d : DieId) : Bool :=
  (s.dies.get e).stallEnd.isSome || (s.dies.get d).stallEnd.isSome
    || ((d.val + 4 - e.val) % 4 == 2 && (s.dies.get (finOf 4 (e.val + 1))).stallEnd.isSome)

/-- Nothing passes between a core and a die: the crossings of the die of one of its ends are stalled, or those of a die on
its way round the ring of dies (R365, R215). -/
def State.stalledWay (s : State) (c : CoreId) (d : DieId) : Bool := s.stalled c || s.stalledDies (dieOf c) d

/-- Nothing passes between a core and the home slice of a line (R365). -/
def State.stalledHome (s : State) (c : CoreId) (ctx : Ctx) (line : Nat) : Bool :=
  s.stalledWay c (dieOfTile (s.homeOf ctx (dieOf c) line))

/-- The line is one of a window whose lines are pinned on insertion (R386, R387). -/
def State.pins (s : State) (ctx : Ctx) (line : Nat) : Bool :=
  match s.windowOf ctx line with
  | none => false
  | some w => w.mode == some .pin || w.mode == some .rpin

/-- The home tile that a thread's request for a physical address goes to. -/
def State.homeTile (s : State) (ctx : Ctx) (c : CoreId) (pa : Nat) : TileId := s.homeOf ctx (dieOf c) (pa / 128)

/-! ## A slice (R379 to R382) -/

/-- Set of a line within a slice (R377). -/
def mscSet (line : Nat) : Nat := line % 3072

/-- The line of a slice. -/
def Tile.find (t : Tile) (ctx : Ctx) (line : Nat) : Option MscLine :=
  t.msc.find? fun l => l.line == line && l.key == ctx

/-- A slice with a line changed. -/
def Tile.updLine (t : Tile) (ctx : Ctx) (line : Nat) (f : MscLine → MscLine) : Tile :=
  { t with msc := mapIf (fun l => l.line == line && l.key == ctx) f t.msc }

/-- The ways of a set. -/
def Tile.ways (t : Tile) (set : Nat) : List MscLine := t.msc.filter fun l => mscSet l.line == set

/-- A way that may be aged and evicted (R380). -/
def MscLine.eligible (l : MscLine) : Bool := !l.pinned && !l.captured

/-- Age of the oldest eligible way: how often the set ages before a victim is found (R380). -/
def maxAge (ws : List MscLine) : Nat := (ws.filter MscLine.eligible).foldl (fun a l => max a l.age.toNat) 0

/-- How a set takes a new line. -/
inductive Victim
  | free (way : Fin 16) | evict (way : Fin 16) | bypass
deriving DecidableEq, Repr

/-- The victim of a set (R380, R389). A way that holds no line is taken first, the lowest, DESIGN CHOICE
(assumption 4): the spec's victim rule speaks of full sets. -/
def Tile.victim (t : Tile) (set : Nat) : Victim :=
  let ws := t.ways set
  match (List.finRange 16).find? fun w => !(ws.any fun l => l.way == w) with
  | some w => .free w
  | none =>
    let m := maxAge ws
    match (List.finRange 16).find? fun w => ws.any fun l => l.way == w && l.eligible && l.age.toNat == m with
    | some w => .evict w
    | none => .bypass

/-- The ageing of a set before a victim is taken (R380). -/
def Tile.ageSet (t : Tile) (set : Nat) : Tile :=
  let d := 3 - maxAge (t.ways set)
  { t with msc := mapIf (fun l => mscSet l.line == set && l.eligible)
                    (fun l => { l with age := l.age + BitVec.ofNat 2 d }) t.msc }

/-- Write the dirty sectors of a slice's line to the stack. Its access table was checked when the bytes were written into
the slice (`writeRefused`). -/
def State.cleanLine (s : State) (l : MscLine) : State :=
  (List.range 4).foldl (fun s i =>
    if l.dirty.getLsbD i then s.writeSector l.key (128 * l.line + 32 * i) (bytesOf l.data (32 * i) 32) else s) s

/-- A pin of a context is released (R386). -/
def State.unpin (s : State) (l : MscLine) : State :=
  if l.pinned then s.updCtx l.key fun x => { x with pinuse := x.pinuse - 1 } else s

/-- Which policy a set follows for a context (R382, R383): true for B. -/
def State.policyB (s : State) (t : TileId) (ctx : Ctx) (set : Nat) : Bool :=
  if set % 96 = 0 then false
  else if set % 96 = 48 then true
  else match (s.ctxs.get ctx).pol with
    | 1 => false
    | 2 => true
    | _ => 512 ≤ ((s.tiles.get t).selectors.get ctx).toNat

/-- The age of a `norm` insertion, with the slice's count of policy-B insertions (R382). -/
def State.normAge (s : State) (t : TileId) (ctx : Ctx) (set : Nat) : BitVec 2 × State :=
  if s.policyB t ctx set then
    let n := (s.tiles.get t).bcount + 1
    (if n = 0 then 2 else 3, s.updTile t fun x => { x with bcount := n })
  else (2, s)

/-- A demand miss moves the context's selector in a leader set (R382: saturating). -/
def State.demandMiss (s : State) (t : TileId) (ctx : Ctx) (line : Nat) : State :=
  let set := mscSet line
  if (s.windowOf ctx line).isSome then s
  else if set % 96 = 0 then
    s.updTile t fun x =>
      let v := x.selectors.get ctx
      { x with selectors := x.selectors.set ctx (if v = 1023 then v else v + 1) }
  else if set % 96 = 48 then
    s.updTile t fun x =>
      let v := x.selectors.get ctx
      { x with selectors := x.selectors.set ctx (if v = 0 then v else v - 1) }
  else s

/-- Insert a line in a slice by the hint and the policies (R381, R382, R386); answers `none` when the set
has no eligible way (R389). A capture charges no context (R391). -/
def State.insert (s : State) (t : TileId) (ctx : Ctx) (line : Nat) (hint : Hint) (valid dirty : BitVec 4)
    (data : LineData) (captured : Bool := false) : Option State :=
  let set := mscSet line
  match (s.tiles.get t).victim set with
  | .bypass => none
  | v =>
    let (way, s) : Fin 16 × State := match v with
      | .evict w =>
        let s : State := s.updTile t fun x => x.ageSet set
        match (s.tiles.get t).msc.find? fun l => mscSet l.line == set && l.way == w with
        | some l =>
          (w, (s.cleanLine l).updTile t fun x =>
            { x with msc := x.msc.filter fun m => !(m.line == l.line && m.key == l.key) })
        | none => (w, s)
      | .free w => (w, s)
      | .bypass => (0, s)
    let pin := !captured && s.pins ctx line && (s.ctxs.get ctx).pinuse.toNat < (s.ctxs.get ctx).pinlim.toNat * 512
    let (age, s) : BitVec 2 × State :=
      if captured || pin then ((0 : BitVec 2), s)
      else if s.pins ctx line then s.normAge t ctx set
      else match hint with
        | .keep => (0, s)
        | .strm => (3, s)
        | .norm | .noal => s.normAge t ctx set
    let s := if pin then s.updCtx ctx fun x => { x with pinuse := x.pinuse + 1 } else s
    some (s.updTile t fun x => { x with msc := x.msc ++
      [{ line := line, way := way, valid := valid, dirty := dirty, data := data, key := ctx, age := age,
         pinned := pin, captured := captured }] })

/-- Read the sectors of a mask from the stack: the sectors read, and those with an uncorrectable error. -/
def State.readSectors (s : State) (ctx : Ctx) (line : Nat) (mask : BitVec 4) : BitVec 4 × LineData × State :=
  (List.range 4).foldl (fun r i =>
    let (ok, data, s) := r
    if mask.getLsbD i then
      match s.readSector ctx (4 * line + i) with
      | (some b, s) => (ok ||| (1 <<< i), putBytes data (32 * i) b, s)
      | (none, s) => (ok, data, s)
    else r) (0, 0, s)

/-- A read of the slice's line serves a hit with these sectors (R379). -/
def State.sliceHit (s : State) (t : TileId) (ctx : Ctx) (line : Nat) (mask : BitVec 4) : Bool :=
  match (s.tiles.get t).find ctx line with
  | some l => l.valid &&& mask == mask
  | none => false

/-- The age of a line that an access hits (R381). -/
def hitAge (hint : Hint) (l : MscLine) : MscLine := if hint = .noal then l else { l with age := 0 }

/-- The line held by a slice with data taken from the stack for its invalid sectors. -/
def MscLine.fillFrom (l : MscLine) (ok : BitVec 4) (data : LineData) : MscLine :=
  (List.range 4).foldl (fun l i =>
    if ok.getLsbD i && !l.valid.getLsbD i then
      { l with valid := l.valid ||| (1 <<< i), data := putBytes l.data (32 * i) (bytesOf data (32 * i) 32) }
    else l) l

/-- A read of sectors of a line at its home slice (R379, R381, R382, R389): data, and the sectors of the
mask that had an uncorrectable error. -/
def State.sliceRead (s : State) (t : TileId) (ctx : Ctx) (line : Nat) (mask : BitVec 4) (hint : Hint)
    (demand : Bool) : LineData × BitVec 4 × State :=
  match (s.tiles.get t).find ctx line with
  | some l =>
    let want := mask &&& ~~~l.valid
    let (ok, data, s) := s.readSectors ctx line want
    let l' := hitAge hint (l.fillFrom ok data)
    (l'.data, want &&& ~~~ok, s.updTile t fun x => x.updLine ctx line fun _ => l')
  | none =>
    let s := if demand && hint != .noal then s.demandMiss t ctx line else s
    if hint = .noal && !s.pins ctx line then
      let (ok, data, s) := s.readSectors ctx line mask
      (data, mask &&& ~~~ok, s)
    else
      let (ok, data, s) := s.readSectors ctx line 15
      match s.insert t ctx line hint ok 0 data with
      | some s => (data, mask &&& ~~~ok, s)
      | none => (data, mask &&& ~~~ok, s)

/-- The sectors of a line that `n` bytes at an offset touch. -/
def sectorMask (off n : Nat) : BitVec 4 :=
  (List.range 4).foldl (fun m i => if off < 32 * i + 32 ∧ 32 * i < off + n then m ||| (1 <<< i) else m) 0

/-- The sectors of a line that `n` bytes at an offset touch and do not cover. -/
def partMask (off n : Nat) : BitVec 4 :=
  (List.range 4).foldl (fun m i =>
    if off < 32 * i + 32 ∧ 32 * i < off + n ∧ !(off ≤ 32 * i ∧ 32 * i + 32 ≤ off + n) then m ||| (1 <<< i) else m) 0

/-- The bytes of a write that lie in the sectors of a mask, written at the stack. -/
def State.writeRest (s : State) (ctx : Ctx) (pa : Nat) (b : List Byte) (mask : BitVec 4) : State :=
  ((sectorRuns pa b (b.length + 1)).filter fun p => mask.getLsbD (p.1 % 128 / 32)).foldl
    (fun s p => s.writeSector ctx p.1 p.2) s

/-- A write of bytes of one line at its home slice: a sector write-back, a byte-masked update or an engine's packet (R286,
R379, R389). A miss allocates the line by the hint with the written sectors, and a sector that is written in part is
completed from the stack first, DEDUCED (assumption 84); one that cannot be, since its error is uncorrectable, is merged at
the stack (R395). A `noal` write that misses is merged there whole, but for a line that a window pins (R381, R386). -/
def State.sliceWrite (s : State) (t : TileId) (ctx : Ctx) (pa : Nat) (b : List Byte) (hint : Hint)
    (demand : Bool) : State :=
  let line := pa / 128
  let off := pa % 128
  let touched := sectorMask off b.length
  let part := partMask off b.length
  match (s.tiles.get t).find ctx line with
  | some l =>
    let (ok, data, s) := s.readSectors ctx line (part &&& ~~~l.valid)
    let l1 := l.fillFrom ok data
    let good := touched &&& (l1.valid ||| ~~~part)
    let l2 := hitAge hint { l1 with data := putBytes l1.data off b, valid := l1.valid ||| good
                                    dirty := l1.dirty ||| good }
    (s.updTile t fun x => x.updLine ctx line fun _ => l2).writeRest ctx pa b (touched &&& ~~~good)
  | none =>
    let s := if demand && hint != .noal then s.demandMiss t ctx line else s
    if hint = .noal && !s.pins ctx line then s.writeStack ctx pa b
    else
      let (ok, data, s) := s.readSectors ctx line part
      let good := touched &&& (ok ||| ~~~part)
      if good = 0 then s.writeStack ctx pa b
      else match s.insert t ctx line hint good good (putBytes data off b) with
        | some s => s.writeRest ctx pa b (touched &&& ~~~good)
        | none => s.writeStack ctx pa b

/-- An access to a line finds no eligible way in its set: it bypasses the slice (R389). -/
def State.bypasses (s : State) (t : TileId) (ctx : Ctx) (line : Nat) : Bool :=
  ((s.tiles.get t).find ctx line).isNone && (s.tiles.get t).victim (mscSet line) == .bypass

/-! ## Accesses performed at the home in one step -/

/-- The access needs the stack, and the stack is OFFLINE: it is held (R399). -/
def State.heldAtStack (s : State) (t : TileId) (ctx : Ctx) (line : Nat) (mask : BitVec 4) : Bool :=
  !s.sliceHit t ctx line mask && s.stackStateAt (128 * line) == .offline

/-- How a read at the home ends. -/
inductive HomeRead
  | ok (b : List Byte) (s : State)
  | error (pa : Nat) (s : State)
  | refused (s : State)
  | heldBack

/-- A write that its stack's access table refuses (R370, R371). A write that the slice takes reaches the stack later, with
the line: it is checked when it is made, under one state of the table, DESIGN CHOICE (assumption 5). -/
def State.writeRefused (s : State) (cls : AclClass) (ctx : Ctx) (pa : Nat) : Bool := !s.stackAllows cls ctx pa false true

/-- A write of `n` bytes within one line needs the line's stack: the bytes are merged there, since the slice does not hold
the line and does not take it, for the hint or for want of an eligible way, or they cover part of a sector that the slice
does not hold (R379, R389). -/
def State.needsStack (s : State) (ctx : Ctx) (d : DieId) (pa n : Nat) (hint : Hint) : Bool :=
  let line := pa / 128
  let t := s.homeOf ctx d line
  let merged := ((s.tiles.get t).find ctx line).isNone
    && ((hint == .noal && !s.pins ctx line) || (s.tiles.get t).victim (mscSet line) == .bypass)
  let part := partMask (pa % 128) n
  merged || (part != 0 && !s.sliceHit t ctx line part)

/-- A write that needs a stack which is OFFLINE is held at its controller (R399). -/
def State.writeHeld (s : State) (ctx : Ctx) (d : DieId) (pa n : Nat) (hint : Hint) : Bool :=
  s.stackStateAt pa == .offline && s.needsStack ctx d pa n hint

/-- A read of bytes within one line at the home slice: the access table is checked when the access reaches
the stack (R370), and for every access of the host or a peer (R411, R415); errors are reported (R395), an OFFLINE stack holds
it (R399). -/
def State.homeRead (s : State) (cls : AclClass) (ctx : Ctx) (d : DieId) (pa n : Nat) (hint : Hint)
    (demand : Bool) : HomeRead :=
  let line := pa / 128
  let t := s.homeOf ctx d line
  let mask := sectorMask (pa % 128) n
  if s.heldAtStack t ctx line mask then .heldBack
  else if (cls == .host || cls == .peer || !s.sliceHit t ctx line mask) && !s.stackAllows cls ctx pa true false then .refused s
  else
    let (data, bad, s) := s.sliceRead t ctx line mask hint demand
    match leastBelow 4 fun i => bad.getLsbD i with
    | some i => .error (128 * line + 32 * i) s
    | none => .ok (bytesOf data (pa % 128) n) s

/-- A read of bytes that an atomic or a `strl` then writes, in one step at the home (R112): one entry of the access table
gives it both permissions (R370, R371). -/
def State.homeUpdate (s : State) (ctx : Ctx) (d : DieId) (pa n : Nat) (demand : Bool) : HomeRead :=
  if !s.stackAllows .core ctx pa true true then .refused s else s.homeRead .core ctx d pa n .norm demand

/-- The state after a write of bytes within one line at the home slice; a write that reaches a stack whose
access table refuses it is discarded and logged (R371). Who made the access is told before (`writeRefused`). -/
def State.homeWrite (s : State) (cls : AclClass) (ctx : Ctx) (d : DieId) (pa : Nat) (b : List Byte)
    (hint : Hint) (demand : Bool) : State :=
  if s.writeRefused cls ctx pa then { s with log := s.log ++ [(0, pa)] }
  else s.sliceWrite (s.homeOf ctx d (pa / 128)) ctx pa b hint demand

/-- A line of every slice that holds it written back and dropped (R384, R388). -/
def State.flushLine (s : State) (p : MscLine → Bool) (write : Bool) (keepPinned : Bool) : State :=
  (List.finRange 320).foldl (fun s t =>
    let ls := (s.tiles.get t).msc.filter p
    ls.foldl (fun s l =>
      let s := if write then s.cleanLine l else s
      if keepPinned && l.pinned then
        s.updTile t fun x => x.updLine l.key l.line fun m => { m with dirty := 0 }
      else
        (s.unpin l).updTile t fun x =>
          { x with msc := x.msc.filter fun m => !(m.line == l.line && m.key == l.key) }) s) s

end Sys2Proof.Machine
end

