-- ==== Sys2Proof/Machine/Ops.lean ====
section
/-! DEFINITION. The named operations over the state that every instruction uses: the shape of an instruction's meaning
(`M`), waiting and parking (R27 to R32), taking a trap and returning from one (R302 to R305, R314), completing an
instruction, and sending a message (R122, R130). -/

namespace Sys2Proof.Machine

/-- What a step of the machine answers. -/
abbrev Result := Host.Outcome State Fault Refusal

/-! ## The shape of a meaning -/

/-- What a trap reports besides the thread (R302, R303). -/
structure TrapInfo where
  cause : Cause := .illegalOperand
  addr : Word := 0
  detail : Word := 0
  write : Bool := false
  fetch : Bool := false
  level : BitVec 8 := 0
deriving DecidableEq, Repr

/-- Why an instruction has not completed in this issue. `block` and `trap` leave the state as it was
before the issue (R31, R74); `keep` keeps the requests that the instruction has sent. -/
inductive Stop
  | block (b : Blocker) (parked : Bool)
  | trap (t : TrapInfo)
  | keep (s : State)

/-- A meaning: it changes the state step by step, or stops. -/
abbrev M := StateT State (Except Stop)

/-- Trap with a cause (R5). -/
def trapWith {α : Type} (cause : Cause) (addr : Word := 0) (detail : Word := 0) (write : Bool := false) : M α :=
  throw (.trap { cause := cause, addr := addr, detail := detail, write := write })

/-- Trap with a full report. -/
def trapInfo {α : Type} (t : TrapInfo) : M α := throw (.trap t)

/-- Trap with an illegal-operand cause. -/
def illegalOperand {α : Type} : M α := trapWith .illegalOperand

/-- Park the thread (R29): the instruction has not executed. -/
def parkOn {α : Type} (b : Blocker) : M α := throw (.block b true)

/-- Leave the thread waiting (R27): the instruction has not executed. -/
def waitOn {α : Type} (b : Blocker) : M α := throw (.block b false)

/-- Go on only when a condition holds; else trap with an illegal operand. -/
def require (p : Bool) : M Unit := if p then pure () else illegalOperand

/-- Go on only when a condition holds; else trap with a cause. -/
def requireOr (p : Bool) (cause : Cause) (addr : Word := 0) : M Unit :=
  if p then pure () else trapWith cause addr

/-- Two stops are for the same thing, so that a thread that stops again keeps its place (R32). -/
def Blocker.same (a b : Blocker) : Bool :=
  match a, b with
  | .ringIn i _, .ringIn j _ | .ringPlace i _, .ringPlace j _ => i == j
  | a, b => a == b

/-- The places that a thread's instruction has in orders of those that stop for a thing: the last one, and those that it
was woken for and has yet to use (R32). -/
def Thread.places (t : Thread) : List (Nat × Blocker) :=
  match t.prog.ticket, t.prog.queued with
  | some n, some q => (n, q) :: t.prog.held
  | _, _ => t.prog.held

/-- The thread's place in the order of those that stop for a thing that `p` selects; without one it comes last (R32). -/
def Thread.placeFor (t : Thread) (p : Blocker → Bool) : Nat :=
  t.places.foldl (fun n q => if p q.2 then min n q.1 else n) (2 ^ 64)

/-- The thread has its place in the order of those that stop for a thing. -/
def Thread.queuedFor (t : Thread) (b : Blocker) : Bool := t.places.any fun q => b.same q.2

/-- The thread stops for a thing: at once, or it was woken for it and its instruction has not completed (R32). -/
def Thread.stopsFor (t : Thread) (p : Blocker → Bool) : Bool :=
  (t.prog.held.any fun q => p q.2) || match t.status with
    | .parked b => p b
    | .waiting b => p b
    | _ => false

/-- The progress of an instruction that stops for a thing, with a new place in its order or with the one it has (R32). -/
def Progress.stopAt (g : Progress) (b : Blocker) (new since : Nat) : Progress :=
  let old := match g.ticket, g.queued with
    | some n, some q => (n, q) :: g.held
    | _, _ => g.held
  match old.find? fun q => b.same q.2 with
  | some q => { g with ticket := some q.1, queued := some b, held := old.filter fun q => !b.same q.2 }
  | none => { g with ticket := some new, queued := some b, held := old, since := since }

/-- The state with the issuing thread waiting or parked. A thread that parks takes its place in the order
of parking (R32). -/
def State.blockMe (s : State) (b : Blocker) (parked : Bool) : State :=
  let n := s.here.ticket
  let fresh := !s.me.queuedFor b
  let s := s.updMe fun t =>
    { t with
      status := if parked then .parked b else .waiting b
      prog := t.prog.stopAt b n (s.cycleOf s.issuer.1) }
  if fresh then s.updHere fun c => { c with ticket := n + 1 } else s

/-- Stop, keeping the requests sent: the thread waits or is parked (R31). -/
def keepOn {α : Type} (b : Blocker) (parked : Bool) : M α := do
  let s ← get
  throw (.keep (s.blockMe b parked))

/-! ## Traps -/

/-- Code of a cause (R303). -/
def Cause.code : Cause → Nat
  | .illegalInstruction => 0x01 | .illegalOperand => 0x02 | .privilege => 0x03 | .misaligned => 0x04
  | .misalignedFetch => 0x05 | .fetchFault => 0x06 | .translation => 0x07 | .pageFault => 0x08
  | .accessFault => 0x09 | .localAddress => 0x0A | .memoryError => 0x0B | .majorityUnresolved => 0x0C
  | .queueToken => 0x0D | .sendTarget => 0x0E | .ecall => 0x10 | .ebreak => 0x11 | .step => 0x12

/-- Code of an engine kind (R302). -/
def EngineKind.code : EngineKind → Nat
  | .own => 0 | .copy => 1 | .gather => 2 | .accel => 3 | .scan => 4 | .tile => 5

/-- A trap record's 64 bytes (R302). -/
def TrapRecord.bytes (r : TrapRecord) : List Byte :=
  leBytes 4 r.tid.toNat
    ++ [BitVec.ofNat 8 r.cause.code, BitVec.ofNat 8 r.engine.code,
        BitVec.ofNat 8 (r.write.toNat + 2 * r.fetch.toNat + 4 * r.held.toNat + 8 * r.rep.toNat), r.level]
    ++ leBytes 8 r.pc.toNat ++ leBytes 8 r.addr.toNat ++ leBytes 8 r.pos.toNat ++ leBytes 8 r.detail.toNat
    ++ leBytes 4 r.word.toNat ++ [r.repcnt, 0, 0, 0] ++ leBytes 8 r.time.toNat ++ leBytes 8 0

/-- The word that a thread's fetched block holds at an address. -/
def Thread.wordAt (t : Thread) (va : Nat) : Option (BitVec 32) :=
  match t.ibuf with
  | none => none
  | some (base, b) =>
    if base ≤ va ∧ va + 4 ≤ base + b.length then some (ofBytes 32 ((b.drop (va - base)).take 4)) else none

/-- The word is a `rep` prefix (R185). -/
def isRepWord (w : BitVec 32) : Bool :=
  w.extractLsb' 0 7 == 0x7B#7 && w.extractLsb' 12 3 == 0#3 && w.extractLsb' 15 6 == 0#6 && w.extractLsb' 7 5 == 0#5

/-- The instruction word at an address as a thread of a slot would fetch it: from its block, its cluster's instruction cache
or its home; none when it cannot be fetched (R302). -/
def State.fetchWord (s : State) (c : CoreId) (k : Slot) (va : Nat) : Option (BitVec 32) :=
  let ctx := (s.thread c k).hctx
  match (s.thread c k).wordAt va with
  | some w => some w
  | none =>
    if !vaValid va then none
    else match s.walk ctx va with
      | .fault _ _ _ => none
      | .leaf level e =>
        let pa := leafPa level e va
        if !leafEx e || !(leafType e == some .normal || leafType e == some .replica) || !(s.ctxs.get ctx).keyLive then none
        else match assoc (s.clusters.get (clusterOf c)).icache (pa / 128) with
          | some data => some (ofBytes 32 (bytesOf data (pa % 128) 4))
          | none =>
            match s.homeRead .core ctx (dieOf c) pa 4 .norm false with
            | .ok b _ => some (ofBytes 32 b)
            | _ => none

/-- The thread of a slot stands inside a `rep` pair: in a repetition, or between two (R187, R302). -/
def State.inPair (s : State) (c : CoreId) (k : Slot) : Bool :=
  let t := s.thread c k
  t.inRep || (t.repcnt != 0 && isRepWord ((s.fetchWord c k t.pc.toNat).getD 0))

/-- The word at a thread's program counter, or behind a `rep` there, wherever it can be fetched from; 0 for none (R302). -/
def State.recordWord (s : State) (c : CoreId) (k : Slot) : BitVec 32 :=
  (s.fetchWord c k ((s.thread c k).pc.toNat + if s.inPair c k then 4 else 0)).getD 0

/-- The record of a trap of the thread in a slot (R302). -/
def State.record (s : State) (c : CoreId) (k : Slot) (i : TrapInfo) : TrapRecord :=
  let t := s.thread c k
  { tid := t.tid.setWidth 32, cause := i.cause, write := i.write, fetch := i.fetch, rep := s.inPair c k
    level := i.level, pc := t.pc, addr := i.addr, detail := i.detail
    word := s.recordWord c k, repcnt := t.repcnt.setWidth 8, time := s.timeref (dieOf c) }

/-- The saturating high-water mark of TRAPQ (R327). -/
def Core.raiseHigh (x : Core) : Core :=
  { x with trapHigh := if x.trapHigh.toNat < x.trapq.length then BitVec.ofNat 8 (min 255 x.trapq.length)
                       else x.trapHigh }

/-- The order of records posted in one cycle: ascending slot, then ENGINE (R304). -/
def TrapRecord.rank (r : TrapRecord) : Nat := r.tid.toNat % 16 * 8 + r.engine.code

/-- A core's trap queue with a record posted in a die cycle (R304). -/
def Core.postAt (x : Core) (now : Nat) (r : TrapRecord) : Core :=
  let n := if x.posts.1 = now then min x.posts.2 x.trapq.length else 0
  let older := x.trapq.take (x.trapq.length - n)
  let same := x.trapq.drop (x.trapq.length - n)
  let before := same.filter fun q => q.rank ≤ r.rank
  let after := same.filter fun q => r.rank < q.rank
  Core.raiseHigh { x with trapq := older ++ before ++ r :: after, posts := (now, n + 1) }

/-- Post a record to a core's trap queue (R304). -/
def State.post (s : State) (c : CoreId) (r : TrapRecord) : State := s.updCore c fun x => x.postAt (s.cycleOf c) r

/-- The monitor registrations of a thread are freed (R32). -/
def State.freeMonitors (s : State) (c : CoreId) (k : Slot) : State :=
  { s with tiles := s.tiles.map fun t =>
    { t with monitors := t.monitors.filter fun r => !(r.core == c && r.slot == k) } }

/-- A `waita` on its way to its home. -/
def Msg.isWaita (m : Msg) : Bool :=
  match m.body with
  | .waita _ _ _ _ _ => true
  | _ => false

/-- A ring claim on its way. -/
def Msg.isClaim (m : Msg) : Bool :=
  match m.body with
  | .claim _ => true
  | _ => false

/-- Messages of a thread that `p` selects are not awaited any longer. -/
def State.forsake (s : State) (c : CoreId) (k : Slot) (p : Msg → Bool) : State :=
  { s with net := mapIf (fun m => m.core == c && m.slot == k && p m) (fun m => { m with orphan := true }) s.net }

/-- A thread that is taken from the `waita` or the `rseq` at which it is parked has not executed it: its registration is
freed, and a registration or a claim that is on its way is not made (R31, R152, R263). -/
def State.unwait (s : State) (c : CoreId) (k : Slot) : State :=
  match (s.thread c k).status with
  | .parked .registered => (s.freeMonitors c k).forsake c k Msg.isWaita
  | .parked .ringClaim => s.forsake c k Msg.isClaim
  | _ => s

/-- Taking a trap, the one shared operation: the thread stops at its instruction and its record is posted
(R304); in slot 15 no record is posted, the supervisor parks and Kamgor is told (R305, R319). -/
def State.takeTrap (s : State) (c : CoreId) (k : Slot) (i : TrapInfo) : State :=
  let r := s.record c k i
  let s := s.unwait c k
  if k = 15 then
    (s.updThread c k fun t => { t with status := .parked .kamgor, stepping := false, prog := {} }).updCore c
      fun x => { x with kamgor := some (.stopped r) }
  else
    (s.updThread c k fun t =>
      { t with status := .trapped, stepping := false, prog := {}, inRep := false }).post c r

/-- A record that names the thread of a slot. -/
def TrapRecord.names (r : TrapRecord) (k : Slot) : Bool := r.tid.toNat % 16 == k.val

/-- Some record that names the thread of a slot is unanswered (R304). -/
def Core.unanswered (x : Core) (k : Slot) : Bool :=
  x.trapq.any (·.names k) || x.taken.any (·.names k)

/-- Return from a trap, the one shared operation: the thread runs again from its program counter once no
record that names it remains (R304, R314). -/
def State.returnFromTrap (s : State) (c : CoreId) (k : Slot) (stepping : Bool) : State :=
  if (s.core c).unanswered k then s
  else s.updThread c k fun t =>
    if t.status = .trapped then
      let t := t.takeUp
      { t with status := .ready, stepping := stepping, inRep := false, prog := { t.prog with since := s.cycleOf c } }
    else t

/-! ## Completing an instruction -/

/-- A thread that has completed an instruction and goes on at `pc` (R323: each repetition counts). -/
def Thread.complete (t : Thread) (pc : Word) : Thread :=
  { t with pc := pc, instret := t.instret + 1, status := .ready, prog := {}, inRep := false }

/-- A thread that has completed a jump goes on at `pc`, with nothing to execute again. -/
def Thread.jump (t : Thread) (pc : Word) : Thread := { t with redo := [], after := none, kept := {} }.complete pc

/-- The program counter after an instruction that does not jump; inside a `rep` pair the count of
repetitions falls by one and the pair ends at the last (R185). An instruction that executes again ends where the thread had
got to (`Thread.rejoin`). -/
def Thread.advance (t : Thread) : Thread :=
  Thread.rejoin (
    if t.inRep then
      let left := t.repcnt - 1
      { t with repcnt := left }.complete (if left = 0 then t.pc + 8 else t.pc)
    else t.complete (t.pc + 4))

/-- The end of a single step granted by `tstep` (R315). -/
def State.endStep (s : State) (c : CoreId) (k : Slot) : State :=
  if (s.thread c k).stepping then s.takeTrap c k { cause := .step } else s

/-- A thread whose wait for its next instruction begins at a die cycle. -/
def Thread.sinceNow (n : Nat) (t : Thread) : Thread := { t with prog := { t.prog with since := n } }

/-- Complete the instruction and go on at the next word. -/
def State.retire (s : State) : State :=
  (s.updMe fun t => t.advance.sinceNow (s.cycleOf s.issuer.1)).endStep s.issuer.1 s.issuer.2

/-- Complete the instruction and go on at an address. -/
def State.jumpTo (s : State) (pc : Word) : State :=
  (s.updMe fun t => (t.jump pc).sinceNow (s.cycleOf s.issuer.1)).endStep s.issuer.1 s.issuer.2

/-- Complete the instruction and go on at the next word. -/
def retire : M Unit := modify State.retire

/-- Complete the instruction and go on at an address. -/
def jumpTo (pc : Word) : M Unit := modify fun s => s.jumpTo pc

/-! ## Messages -/

/-- The TBM bit of a target (R122). -/
def Target.tbmBit : Target → Nat
  | .tile t => t.val % 63
  | .host _ => 63
  | .peer _ => 63

/-- One more request of a core to a target (R122). -/
def Core.countSent (x : Core) (t : Target) : Core :=
  { x with sent := assocSet x.sent t ((assoc x.sent t).getD 0 + 1) }

/-- Requests that a core has sent to a target. -/
def Core.sentTo (x : Core) (t : Target) : Nat := (assoc x.sent t).getD 0

/-- A message on its way, under the next id. -/
def State.putMsg (s : State) (m : Msg) : State :=
  { s with net := s.net ++ [{ m with id := s.nextMsg }], nextMsg := s.nextMsg + 1 }

/-- A request that a thread may post: it goes on while the request is on its way, and the request may fail (R84, R105,
R139, R147). -/
def Body.posted (b : Body) : Bool :=
  match b with
  | .update _ _ | .atomic _ _ _ _ _ _ _ _ _ _ | .strl _ _ _ _ _ | .notify _ _ _ _ | .vaultWrite _ _ | .spadWrite _ _ _
  | .device _ (some _) | .majCopy _ _ _ _ _ _ => true
  | .host _ _ (.write _) _ | .host _ _ (.atomic _ _ _ _) _ | .peer _ _ (.write _) _ | .peer _ _ (.atomic _ _ _ _) _ => true
  | _ => false

/-- Put a message on its way for a thread; a counted one raises the core's count and sets the thread's
TBM bit (R122). Answers its id. -/
def State.post1 (s : State) (c : CoreId) (k : Slot) (target : Option Target) (body : Body) (va : Nat := 0) :
    Nat × State :=
  let t := s.thread c k
  let m : Msg := { core := c, slot := k, ctx := t.hctx, target := target, body := body
                   launch := t.launch, undo := if body.posted then some t.undo else none, pc := t.pc
                   va := BitVec.ofNat 64 va }
  let n := s.nextMsg
  let s := s.putMsg m
  match target with
  | none => (n, s)
  | some g =>
    (n, (s.updCore c fun x => x.countSent g).updThread c k fun t =>
      { t with tbm := t.tbm ||| (1 <<< g.tbmBit) })

/-- A producer that parks on a ring is sent the consumer's head (R241). -/
def State.parkNotice (s : State) (b : Blocker) : State :=
  match b with
  | .ringPlace id _ =>
    match s.rings.find? fun r => r.id == id with
    | some r => if r.land.isSome then (s.post1 s.issuer.1 s.issuer.2 none (.head id s.issuer.1 r.head)).2 else s
    | none => s
  | _ => s

/-- Run a meaning for the issuing thread. -/
def runM (m : M Unit) (s : State) : Result :=
  match m s with
  | .ok ((), s') => .next s'
  | .error (.block b parked) => .next ((s.blockMe b parked).parkNotice b)
  | .error (.trap t) => .next (s.takeTrap s.issuer.1 s.issuer.2 t)
  | .error (.keep s') => .next s'

/-- The issuing thread sends a message. -/
def sendMsg (target : Option Target) (body : Body) (va : Nat := 0) : M Nat := do
  let s ← get
  let (id, s') := s.post1 s.issuer.1 s.issuer.2 target body va
  set s'
  pure id

/-- A message in flight. -/
def State.msg (s : State) (id : Nat) : Option Msg := s.net.find? fun m => m.id == id

/-- The message is no longer in flight. -/
def State.gone (s : State) (id : Nat) : Bool := (s.msg id).isNone

/-- The state without a message. -/
def State.drop (s : State) (id : Nat) : State := { s with net := s.net.filter fun m => m.id != id }

/-- The state with a message changed. -/
def State.updMsg (s : State) (id : Nat) (f : Msg → Msg) : State :=
  { s with net := mapIf (fun m => m.id == id) f s.net }

/-- A message answered with data. -/
def State.answer (s : State) (id : Nat) (data : List Byte) (sig : Sig := 0) (err : ReplyErr := .none) : State :=
  s.updMsg id fun m => { m with stage := .reply data sig err, suspect := none, rescue := .no }

/-- The message is counted for its target: an instruction fetch is sent by the cluster's fetch port, not by the core
(R122, R214; assumption 44). -/
def Msg.counted (m : Msg) : Bool :=
  match m.body with
  | .ifetch _ => false
  | _ => true

/-- A `send` that its target has refused: it has not been performed, and nothing of it is on its way (R256, R263). -/
def Msg.refusedSend (m : Msg) : Bool :=
  match m.body with
  | .send _ _ _ => m.stage == .reply [] 0 .refused
  | _ => false

/-- The target has received a request of a core (R123). -/
def State.receive (s : State) (m : Msg) : State :=
  match m.target with
  | some (.tile t) =>
    if m.counted then
      s.updTile t fun x => { x with received := assocSet x.received m.core.val ((assoc x.received m.core.val).getD 0 + 1) }
    else s
  | _ => s

/-- A fresh identity. -/
def State.fresh (s : State) : Nat × State := (s.nextId, { s with nextId := s.nextId + 1 })

end Sys2Proof.Machine
end

