-- ==== Sys2Proof/Machine/Operands.lean ====
section
/-! DEFINITION. Register operands: the scoreboard (R27, R80), port registers bound to queues and rings
(R49 to R51, R77, R237 to R244), and completing an instruction with a result. A source read looks at the
entry; the entry is dequeued when the instruction completes, so that an instruction that has to wait or
traps moves none (R31, R77). -/

namespace Sys2Proof.Machine

/-- The binding of a port register (R49). -/
def Thread.binding (t : Thread) (r : Reg) : Option Binding :=
  if 24 ≤ r.toNat then t.ports.get (finOf 8 (r.toNat - 24)) else none

/-- A register queue of a core. -/
def Core.queue (x : Core) (id : Nat) : Option RQueue := x.queues.find? fun q => q.id == id

/-- A core with a queue changed. -/
def Core.updQueue (x : Core) (id : Nat) (f : RQueue → RQueue) : Core :=
  { x with queues := mapIf (fun q => q.id == id) f x.queues }

/-- A stage allotment of a core. -/
def Core.stage (x : Core) (id : Nat) : StageAlloc := (x.stages.find? fun g => g.id == id).getD {}

/-- The stage allotment of the issuing thread; a supervisor has none (R321). -/
def State.myStage (s : State) : StageAlloc := if s.issuer.2 = 15 then {} else s.here.stage s.me.stage

/-- A ring. -/
def State.ring (s : State) (id : Nat) : Option Ring := s.rings.find? fun r => r.id == id

/-- The state with a ring changed. -/
def State.updRing (s : State) (id : Nat) (f : Ring → Ring) : State :=
  { s with rings := mapIf (fun r => r.id == id) f s.rings }

/-- Token level of a kind (R237). -/
def EntKind.level : EntKind → Nat
  | .data => 0 | .end1 => 1 | .end2 => 2 | .end3 => 3

/-- Kind of a token level. -/
def EntKind.ofLevel : Nat → EntKind
  | 1 => .end1 | 2 => .end2 | 3 => .end3 | _ => .data

/-! ## Ring cells (R240 to R242) -/

/-- Slots of a ring. -/
def Ring.slots (r : Ring) : Nat := 2 ^ r.slotsLog

/-- Landing cells of a ring (R241). -/
def Ring.landCells (r : Ring) : Nat := min r.slots (r.landSize / 128)

/-- A cell header (R240). -/
def cellHeader (valid skip : Bool) (kind : EntKind) (seq : Nat) : Nat :=
  seq % 2 ^ 40 + kind.level * 2 ^ 40 + skip.toNat * 2 ^ 62 + valid.toNat * 2 ^ 63

/-- The header of a cell's bytes. -/
def headerOf (cell : List Byte) : Nat := ofLe (cell.take 8)

/-- A cell is full for a sequence (R240). -/
def cellFull (cell : List Byte) (seq : Nat) : Bool :=
  bitAt (headerOf cell) 63 && bits (headerOf cell) 39 0 == seq % 2 ^ 40

/-- The cell carries no entry (R240). -/
def cellSkip (cell : List Byte) : Bool := bitAt (headerOf cell) 62

/-- Kind of a cell's entry. -/
def cellKind (cell : List Byte) : EntKind := EntKind.ofLevel (bits (headerOf cell) 41 40)

/-- The value of a cell: bytes 8 to 15 (R240). -/
def cellVal (cell : List Byte) : Word := BitVec.ofNat 64 (ofLe ((cell.drop 8).take 8))

/-- The full cell of a sequence in the landing. -/
def State.landCell (s : State) (r : Ring) (seq : Nat) : Option (List Byte) :=
  match r.land with
  | none => none
  | some (c, base) =>
    let cell := (s.core c).spad.read (base + 128 * (seq % r.landCells)) 128
    if r.landCells != 0 && cellFull cell seq then some cell else none

/-- A boom cell as the ring engine accesses it for a core: translated, on a normal page of a live key that allows the access
(R241, R306, R307). An access that is not allowed is not made, DESIGN CHOICE (assumption 86): the ring engine is none of the
engines that post a record (R300). -/
def State.boomAt (s : State) (r : Ring) (c : CoreId) (seq : Nat) (wr : Bool) : Option (Nat × State) :=
  let va := r.boom + 128 * (seq % r.slots)
  match s.translate c r.ctx va wr with
  | .fault _ _ _ _ => none
  | .ok s' level e =>
    let pa := leafPa level e va
    if leafType e == some .normal && (if wr then leafWr e else leafRd e) && (s.ctxs.get r.ctx).keyLive
        && !(wr && s.writeRefused .engine r.ctx pa) then some (pa, s')
    else none

/-- The cell of a sequence in the boom: as the ring engine has read it ahead, or at its home, where the consumer reads it
(R242). The read allocates nothing. -/
def State.boomCell (s : State) (r : Ring) (seq : Nat) : Option (List Byte) :=
  match assoc r.ahead seq, r.land with
  | some b, _ => some b
  | none, none => none
  | none, some (c, _) =>
    if r.slots ≤ r.landCells then none
    else
      match s.boomAt r c seq false with
      | none => none
      | some (pa, s) =>
        if s.stalledHome c r.ctx (pa / 128) then none
        else match s.homeRead .engine r.ctx (dieOf c) pa 128 .noal false with
          | .ok b _ => some b
          | _ => none

/-- The full cell of a sequence as the consumer sees it: in the landing or in the boom (R242). -/
def State.ringCell (s : State) (r : Ring) (seq : Nat) : Option (List Byte) :=
  match s.landCell r seq with
  | some cell => some cell
  | none => (s.boomCell r seq).filter fun b => cellFull b seq

/-- The next `n` entries from a sequence, SKIP cells passed over (R242): sequence and cell of each, or none
while one of them is not there. -/
def State.ringEntries (s : State) (r : Ring) : Nat → Nat → Nat → Option (List (Nat × List Byte))
  | 0, _, _ => none
  | _ + 1, _, 0 => some []
  | fuel + 1, seq, n + 1 =>
    match s.ringCell r seq with
    | none => none
    | some cell =>
      if cellSkip cell then s.ringEntries r fuel (seq + 1) (n + 1)
      else (s.ringEntries r fuel (seq + 1) n).map fun l => (seq, cell) :: l

/-- The next `n` entries at the consumer's head. -/
def State.headEntries (s : State) (r : Ring) (n : Nat) : Option (List (Nat × List Byte)) :=
  s.ringEntries r (r.slots + n + 1) r.head n

/-- Add a granule to a list of written granules. -/
def addGranule (n : Nat) (l : List Nat) (g : Nat) : List Nat := if n = 0 ∨ l.contains g then l else g :: l

/-- Mark granules of a scratchpad as written (R356). -/
def Core.markGranules (x : Core) (a n : Nat) : Core :=
  let gs := (List.range ((a + n - 1) / 64 - a / 64 + 1)).map fun i => a / 64 + i
  { x with dirtyGran := gs.foldl (addGranule n) x.dirtyGran }

/-- Bytes written into a core's scratchpad. -/
def Core.writeSpad (x : Core) (a : Nat) (b : List Byte) : Core :=
  Core.markGranules { x with spad := x.spad.write a b } a b.length

/-- Clear VALID of a cell that has been taken (R242): in the landing, or in the boom at its home. -/
def State.clearCell (s : State) (r : Ring) (seq : Nat) : State :=
  match r.land with
  | none => s
  | some (c, base) =>
    let full := (s.ringCell r seq).isSome
    let a := base + 128 * (seq % r.landCells)
    let s := match s.landCell r seq with
      | some cell => s.updCore c fun x => x.writeSpad a (leBytes 8 (headerOf cell % 2 ^ 63))
      | none =>
        match (s.boomCell r seq).filter fun b => cellFull b seq with
        | none => s
        | some b =>
          match s.boomAt r c seq true with
          | some (pa, s) => s.homeWrite .engine r.ctx (dieOf c) pa (leBytes 8 (headerOf b % 2 ^ 63)) .noal false
          | none => s
    let n := if full then 1 else 0
    s.updRing r.id fun q => { q with ahead := assocDel q.ahead seq, count := q.count - n }

/-- Cores that run a thread of the producing stage of a ring (R241). -/
def State.producers (s : State) (r : Ring) : List CoreId :=
  (List.finRange 1280).filter fun c => (s.core c).stages.any fun g => g.inst == some r.inst && g.stno == r.prodStage

/-- A producer is parked on a ring (R241). -/
def State.producerParked (s : State) (r : Ring) : Bool :=
  (s.producers r).any fun c => (s.core c).slots.toList.any fun t =>
    match t.status with
    | .parked (.ringPlace id _) => id == r.id
    | _ => false

/-- Send the consumer's head to every producing core (R241). -/
def State.sendHead (s : State) (r : Ring) (c : CoreId) (k : Slot) : State :=
  (s.producers r).foldl (fun s p => (s.post1 c k none (.head r.id p r.head)).2) s

/-- The first sequence from `h` on that has not been freed. -/
def firstKept (freed : List Nat) : Nat → Nat → Nat
  | 0, h => h
  | n + 1, h => if freed.contains h then firstKept freed n (h + 1) else h

/-- Free the cell of one claimed sequence; the head passes what has been freed in order (R241, R243). -/
def State.freeSeq (s : State) (id seq : Nat) (c : CoreId) (k : Slot) : State :=
  match s.ring id with
  | none => s
  | some r =>
    let freed := seq :: r.freed
    let head := firstKept freed freed.length r.head
    let s := (s.clearCell r seq).updRing id fun q =>
      { q with head := head, freed := freed.filter fun n => head ≤ n
               claimed := q.claimed.filter fun p => p.1 != seq }
    if head / 8 != r.head / 8 || (head != r.head && s.producerParked r) then s.sendHead { r with head := head } c k
    else s

/-- The replica limit of a ring's consuming stage (R235, R331). -/
def State.ringRepl (s : State) (r : Ring) : Nat :=
  ((s.installs.find? fun i => i.id == r.inst).bind fun i => i.stages[r.consStage]?).elim 1 Packet.repl

/-- Two rings are inputs of one stage. -/
def Ring.sameInput (r q : Ring) : Bool := q.inst == r.inst && q.consStage == r.consStage

/-- The input rings of the stage that consumes a ring, changed. -/
def State.updInputs (s : State) (r : Ring) (f : Ring → Ring) : State := { s with rings := mapIf r.sameInput f s.rings }

/-- A token on some input of the stage that consumes a ring awaits its replicas (R245). -/
def State.inputTokens (s : State) (r : Ring) : Bool := s.rings.any fun q => r.sameInput q && !q.tokens.isEmpty

/-- A token stands at the claim head: it is owed to every replica that is live now (R243). -/
def Ring.reach (r : Ring) (seq : Nat) : Ring :=
  { r with claimHead := seq + 1, tokens := r.tokens ++ [(seq, r.replicas.map fun p => (p.1, p.2.1))] }

/-- What the ring engine does with the cell at the claim head by itself: a SKIP cell is passed (R242), and a token of a
replicated stage is owed to the live replicas (R243). -/
def State.ringStep (s : State) (id : Nat) : Option State :=
  match s.ring id with
  | none => none
  | some r =>
    let h := max r.claimHead r.head
    match r.land, s.ringCell r h with
    | some (c, _), some cell =>
      if cellSkip cell then some ((s.updRing id fun q => { q with claimHead := h + 1 }).freeSeq id h c 15)
      else if cellKind cell != .data && 1 < s.ringRepl r && !r.replicas.isEmpty then some (s.updRing id fun q => q.reach h)
      else none
    | _, _ => none

/-- The ring engine passes what it can at the claim head. -/
def State.settleRing (s : State) (id : Nat) : Nat → State
  | 0 => s
  | n + 1 =>
    match s.ringStep id with
    | some s' => s'.settleRing id n
    | none => s

/-- A cell of a ring has been written or freed, or an entry claimed: the ring engine passes the SKIP cells and the tokens
at the claim head. -/
def State.settleHead (s : State) (id : Nat) : State := s.settleRing id (((s.ring id).map Ring.slots).getD 0)

/-- A replica has used a claimed entry: its cell is freed, and the ring engine goes on at the claim head (R242, R243). -/
def State.freeClaimed (s : State) (id seq : Nat) (c : CoreId) (k : Slot) : State := (s.freeSeq id seq c k).settleHead id

/-- Move the consumer's head of a ring to a sequence, clearing the cells passed, and send it when it has
passed a multiple of 8 or a producer is parked on the ring (R241, R242). -/
def State.advanceHead (s : State) (id : Nat) (seq : Nat) (c : CoreId) (k : Slot) : State :=
  match s.ring id with
  | none => s
  | some r =>
    let s := (List.range (seq - r.head)).foldl
      (fun s i => match s.ring id with | some q => s.clearCell q (r.head + i) | none => s) s
    let s := s.updRing id fun q => { q with head := seq }
    let s := if seq / 8 != r.head / 8 || s.producerParked r then s.sendHead { r with head := seq } c k else s
    s.settleHead id

/-! ## The order of parked threads (R32) -/

/-- A stop at a ring's entries. -/
def Blocker.atEntries (id : Nat) (b : Blocker) : Bool :=
  match b with
  | .ringIn i _ => i == id
  | _ => false

/-- A stop at a ring's places. -/
def Blocker.atPlaces (id : Nat) (b : Blocker) : Bool :=
  match b with
  | .ringPlace i _ => i == id
  | _ => false

/-- A thread of the core that has stopped earlier than the issuing one finds the entries that it stopped for at a ring's
head: they are held for it until its instruction completes (R32). -/
def State.ringHeld (s : State) (r : Ring) : Bool :=
  let me := s.me.placeFor (Blocker.atEntries r.id)
  (List.finRange 16).any fun j =>
    j != s.issuer.2 && (s.thread s.issuer.1 j).places.any fun q => match q.2 with
      | .ringIn id n => id == r.id && q.1 < me && (s.headEntries r n).isSome
      | _ => false

/-! ## Reading sources -/

/-- The thread's last claim on a ring. -/
def Thread.claim (t : Thread) (ring : Nat) : Option Claim := t.claims.find? fun c => c.ring == ring

/-- What a read of an in-bound port finds: the k-th entry from the head, the claimed cell in claim mode
(R51, R255), or a reason to stop. -/
def peekPort (b : Binding) (k : Nat) : M QEntry := do
  let s ← get
  if b.ring then
    match s.ring b.obj with
    | none => illegalOperand
    | some r =>
      match s.me.claim b.obj with
      | some c =>
        if c.readUsed || k != 0 then illegalOperand else pure { val := cellVal c.cell, kind := c.kind }
      | none =>
        if 1 < s.myStage.repl then illegalOperand
        else if s.ringHeld r then parkOn (.ringIn b.obj (k + 1))
        else match s.headEntries r (k + 1) with
          | none => parkOn (.ringIn b.obj (k + 1))
          | some l =>
            let cell := (l.getD k (0, [])).2
            pure { val := cellVal cell, kind := cellKind cell }
  else
    match s.here.queue b.obj with
    | none => illegalOperand
    | some q =>
      match q.entries[k]? with
      | none => parkOn (.queueIn b.obj)
      | some e => pure e

/-- The value of a source register: a register's value, or the entry that a port read takes. A token at the
head traps (R50, R239). -/
def source (r : Reg) (k : Nat) : M Word := do
  let s ← get
  match s.me.binding r with
  | none => pure (s.me.getX r)
  | some b =>
    let e ← peekPort b k
    if e.kind = .data then pure e.val
    else trapWith .queueToken 0 (BitVec.ofNat 64 e.kind.level)

/-- A port register is bound in a given direction. -/
def Thread.boundAs (t : Thread) (r : Reg) (out : Bool) : Bool :=
  match t.binding r with
  | some b => b.out == out
  | none => false

/-- The port cases that trap before any entry moves (R49, R77). -/
def Thread.portMisuse (t : Thread) (srcs : List Reg) (dst : Option Reg) (rmw : Bool) : Bool :=
  srcs.any (fun r => t.boundAs r true) ||
  match dst with
  | none => false
  | some d => t.boundAs d false || (rmw && (t.binding d).isSome)

/-- The registers named whose value is still outstanding (R27, R80). -/
def Thread.pendingOf (t : Thread) (rs : List Reg) : BitVec 32 :=
  rs.foldl (fun m r => if t.xpend.getLsbD r.toNat && (t.binding r).isNone && r != 0
                       then m ||| (1 <<< r.toNat) else m) 0

/-- The checks before any source is read: ports, then outstanding results. -/
def checkRegs (srcs : List Reg) (dst : Option Reg) (rmw : Bool := false) : M Unit := do
  let s ← get
  if s.me.portMisuse srcs dst rmw then illegalOperand
  else
    let p := s.me.pendingOf (srcs ++ dst.toList)
    if p = 0 then pure () else waitOn (.regs p 0)

/-- Read one source register. -/
def read1 (a : Reg) (d : Option Reg) : M Word := do
  checkRegs [a] d
  source a 0

/-- Read two source registers, rs1 then rs2 (R77). -/
def read2 (a b : Reg) (d : Option Reg) (rmw : Bool := false) : M (Word × Word) := do
  checkRegs [a, b] d rmw
  let x ← source a 0
  let y ← source b (if a = b then 1 else 0)
  pure (x, y)

/-! ## Completing with a result -/

/-- The thread has stores to a vault or another core's scratchpad outstanding (R105, R124). -/
def State.localStoresOut (s : State) (c : CoreId) (k : Slot) : Bool :=
  s.net.any fun m => m.core == c && m.slot == k && !m.orphan && match m.body with
    | .vaultWrite _ _ => true
    | .spadWrite _ _ _ => true
    | _ => false

/-- The thread has loads from a vault or another core's scratchpad that are not yet performed (R108, R111). -/
def State.localReadsOut (s : State) (c : CoreId) (k : Slot) : Bool :=
  s.net.any fun m => m.core == c && m.slot == k && !m.orphan && m.stage == .sent && match m.body with
    | .vaultRead _ _ => true
    | .spadRead _ _ _ => true
    | _ => false

/-- Wait until the thread's local stores to other places are performed (R238, R256, R257, R279). -/
def awaitLocalStores : M Unit := do
  let s ← get
  if s.localStoresOut s.issuer.1 s.issuer.2 then waitOn .vault else pure ()

/-- Dequeue the entry that one source read took (R49). -/
def State.dequeue (s : State) (r : Reg) : State :=
  match s.me.binding r with
  | none => s
  | some b =>
    if b.out then s
    else if b.ring then
      match s.me.claim b.obj with
      | some cl =>
        (s.updMe fun t =>
          { t with claims := mapIf (fun c => c.ring == b.obj) (fun c => { c with readUsed := true }) t.claims }).freeClaimed
          b.obj cl.seq s.issuer.1 s.issuer.2
      | none =>
        match s.ring b.obj with
        | none => s
        | some q =>
          match s.headEntries q 1 with
          | some [(seq, _)] => s.advanceHead b.obj (seq + 1) s.issuer.1 s.issuer.2
          | _ => s
    else s.updHere fun x => x.updQueue b.obj fun q => { q with entries := q.entries.drop 1 }

/-- Dequeue the entries that the sources took, rs1 before rs2 (R49). -/
def commitReads (srcs : List Reg) : M Unit := modify fun s => srcs.foldl State.dequeue s

/-- The sequence at which a thread's write to a ring is placed: the producer's next for a plain ring, the
sequence of its current unused claim for a sequenced one (R244, R250). With several input rings that is the latest claim on
any of them, DESIGN CHOICE (assumption 80; R51). -/
def State.placeSeq (s : State) (r : Ring) : Option Nat :=
  if r.sequenced then
    match s.me.claims.head? with
    | some c => if c.outUsed.contains r.id then none else some c.seq
    | none => none
  else some r.next

/-- The largest head that a core has received on a ring (R241). -/
def Ring.headAt (r : Ring) (c : CoreId) : Nat := (assoc r.heads c).getD 0

/-- A thread of the core that has stopped earlier than the issuing one may now place the sequence that it stopped for in a
plain ring: the place is held for it (R32). In a sequenced ring each thread has places of its own. -/
def State.placeHeld (s : State) (r : Ring) : Bool :=
  let me := s.me.placeFor (Blocker.atPlaces r.id)
  !r.sequenced && (List.finRange 16).any fun j =>
    j != s.issuer.2 && (s.thread s.issuer.1 j).places.any fun q => match q.2 with
      | .ringPlace id seq => id == r.id && q.1 < me && seq < r.headAt s.issuer.1 + r.slots
      | _ => false

/-- Place an entry in a ring (R241, R244): the cell is sent to the landing core or the boom's home. -/
def ringPut (id : Nat) (kind : EntKind) (skip : Bool) (payload : List Byte) : M Unit := do
  let s ← get
  match s.ring id with
  | none => illegalOperand
  | some r =>
    match s.placeSeq r with
    | none => illegalOperand
    | some seq =>
      if r.land.isNone || r.headAt s.issuer.1 + r.slots ≤ seq || s.placeHeld r then
        parkOn (.ringPlace id seq)
      else
        let boom := r.landCells ≤ seq - r.headAt s.issuer.1
        let _ ← sendMsg none (.cell id seq kind skip boom payload)
        modify fun s =>
          (s.updRing id fun q => if q.sequenced then q else { q with next := seq + 1 }).updMe fun t =>
            { t with claims := if r.sequenced then
                (match t.claims with
                 | c :: rest => { c with outUsed := id :: c.outUsed } :: rest
                 | [] => []) else t.claims }

/-- Write an entry to an out-bound port (R49, R238, R250). -/
def putPort (b : Binding) (kind : EntKind) (v : Word) : M Unit := do
  awaitLocalStores
  let s ← get
  if b.ring then ringPut b.obj kind false (leBytes 8 v.toNat ++ List.replicate 112 0)
  else
    match s.here.queue b.obj with
    | none => illegalOperand
    | some q =>
      if q.entries.length < q.depth then
        set (s.updHere fun x => x.updQueue b.obj fun q => { q with entries := q.entries ++ [{ val := v, kind := kind }] })
      else parkOn (.queueOut b.obj)

/-- Write an integer destination: a register, or an entry for an out-bound port (R49, R77). -/
def writeX (d : Reg) (v : Word) : M Unit := do
  let s ← get
  match s.me.binding d with
  | some b => putPort b .data v
  | none => set (s.updMe fun t => t.setX d v)

/-- Complete an instruction that read `srcs` and writes `v` to rd. -/
def finishX (srcs : List Reg) (d : Reg) (v : Word) : M Unit := do
  commitReads srcs
  writeX d v
  retire

/-- Complete an instruction that read `srcs` and writes no register. -/
def finish (srcs : List Reg) : M Unit := do
  commitReads srcs
  retire

/-! ## Vector operands (R182 to R184) -/

/-- The footprint of the thread's shape (R180). -/
def Thread.footprint (t : Thread) : Nat := t.rows.toNat * t.rbytes.toNat

/-- A group of `g` registers at a register number lies in the allotment (R183). -/
def Thread.groupOk (t : Thread) (r : Reg) (g : Nat) : Bool :=
  (g == 1 || g == 2 || g == 4) && r.toNat % g == 0 && r.toNat + g ≤ t.vcount.toNat

/-- Registers of a group. -/
def groupRegs (r : Reg) (g : Nat) : List Reg := (List.range g).map fun i => r + BitVec.ofNat 5 i

/-- The registers of a group that are still outstanding. -/
def Thread.vpendingOf (t : Thread) (rs : List Reg) : BitVec 32 :=
  rs.foldl (fun m r => if t.vpend.getLsbD r.toNat then m ||| (1 <<< r.toNat) else m) 0

/-- Wait for outstanding vector registers (R27). -/
def awaitV (rs : List Reg) : M Unit := do
  let s ← get
  let p := s.me.vpendingOf rs
  if p = 0 then pure () else waitOn (.regs 0 p)

end Sys2Proof.Machine
end

