-- ==== Sys2Proof/Machine/Flags.lean ====
section
/-! DEFINITION. This hardware has no arithmetic flags (R78, R189). What it computes beside a result stands
here: signatures (R118 to R121), control-register views (R72, R180, R185, R322 to R327) and the codes that
their fields hold (R64). -/

namespace Sys2Proof.Machine

/-! ## Signatures (R120, R121) -/

/-- XOR of the nine-bit slices of a 45-bit value (R120). -/
def fold9 (v : Nat) : Nat := bits v 8 0 ^^^ bits v 17 9 ^^^ bits v 26 18 ^^^ bits v 35 27 ^^^ bits v 44 36

/-- First hash of a line number (R120). -/
def h1 (l : Nat) : Nat := fold9 (l % 2 ^ 45)

/-- Second hash of a line number (R120). -/
def h2 (l : Nat) : Nat := fold9 (l * 37 % 2 ^ 45)

/-- The bits of a line in a signature (R118). -/
def lineSig (l : Nat) : Sig := (1 <<< h1 l) ||| (1 <<< h2 l)

/-- Number of bits set. -/
def popcount {w : Nat} (v : BitVec w) : Nat := (List.range w).foldl (fun n i => n + (v.getLsbD i).toNat) 0

/-- A signature with more than 192 bits set is full (R121). -/
def sigFull (g : Sig) : Bool := 192 < popcount g

/-- A signature matches a line (R119, R121). -/
def sigMatches (g : Sig) (l : Nat) : Bool := sigFull g || (g.getLsbD (h1 l) && g.getLsbD (h2 l))

/-- The tier of a scope holds a home tile, for a core (R113). -/
def inTier (scope : Scope) (c : CoreId) (t : TileId) : Bool :=
  match scope with
  | .thr => false
  | .core => false
  | .clu => t == clusterOf c
  | .die => dieOfTile t == dieOf c
  | .pkg => true
  | .sys => true

/-- The scope of an atomic (R64). -/
def AmoScope.scope : AmoScope → Scope
  | .clu => .clu | .die => .die | .pkg => .pkg | .sys => .sys

/-! ## Codes of fields -/

/-- Hint of a code (R64). -/
def hintOfCode (n : Nat) : Hint := match n with | 0 => .norm | 1 => .keep | 2 => .strm | _ => .noal

/-- Code of a hint (R64). -/
def hintCode : Hint → Nat | .norm => 0 | .keep => 1 | .strm => 2 | .noal => 3

/-- Tile type of a code (R64). -/
def tileTypeOf (n : Nat) : Option TileType :=
  match n with
  | 0 => some .e2m1 | 1 => some .e3m2 | 2 => some .e2m3 | 3 => some .e4m3 | 4 => some .e5m2
  | 5 => some .i4 | 6 => some .i8 | 7 => some .bf16 | 8 => some .f16 | 9 => some .f32
  | 10 => some .q4g | 11 => some .q8g | 15 => some .fmt | _ => none

/-- Conversion of a code (R64). -/
def convOf (n : Nat) : Option Conv :=
  match n with
  | 0 => some .rne | 1 => some .rtz | 2 => some .rs | 4 => some .rnen | 5 => some .rtzn | 6 => some .rsn
  | _ => none

/-! ## Stochastic generators (R168) -/

/-- The seed state of a lane (R168). -/
def seedGen (seed : BitVec 32) (i : Nat) : BitVec 32 :=
  let x := seed ^^^ BitVec.ofNat 32 i
  if x = 0 then 0x9E3779B9 else x

/-- All lanes seeded (R168). -/
def seedGens (seed : BitVec 32) : Vector (BitVec 32) 128 := .ofFn fun i => seedGen seed i.val

/-- The next state of a generator; its output is bits 15:0 (R168). -/
def nextGen (x : BitVec 32) : BitVec 32 :=
  let x := x ^^^ (x <<< 13)
  let x := x ^^^ (x >>> 17)
  x ^^^ (x <<< 5)

/-- One draw of the lane that serves an element (R168). -/
def drawGen (g : Vector (BitVec 32) 128) (j : Nat) : BitVec 16 × Vector (BitVec 32) 128 :=
  let i := finOf 128 j
  let x := nextGen (g.get i)
  (x.setWidth 16, g.set i x)

/-! ## Control registers -/

/-- SHAPE as a word (R180). -/
def Thread.shapeWord (t : Thread) : Word := BitVec.ofNat 64 (t.rows.toNat + t.rbytes.toNat * 2 ^ 16)

/-- A value that SHAPE accepts; the reserved bits are RO (R180, R92). -/
def shapeOk (v : Word) : Bool :=
  let rows := wbits v 7 0
  let rb := wbits v 25 16
  1 ≤ rows && rows ≤ 128 && 4 ≤ rb && rb ≤ 512 && rb % 4 == 0 && rows * rb ≤ 512

/-- SHAPE written. -/
def Thread.setShape (t : Thread) (v : Word) : Thread :=
  { t with rows := BitVec.ofNat 8 (wbits v 7 0), rbytes := BitVec.ofNat 10 (wbits v 25 16) }

/-- A value that REPCNT accepts (R185). -/
def repcntOk (v : Word) : Bool := wbits v 6 0 ≤ 64

/-- REPCNT written. -/
def Thread.setRepcnt (t : Thread) (v : Word) : Thread := { t with repcnt := BitVec.ofNat 7 (wbits v 6 0) }

/-- HINT written (R93). -/
def Thread.setHint (t : Thread) (v : Word) : Thread := { t with hint := hintOfCode (wbits v 1 0) }

/-- SRSEED written: every lane is reseeded (R168, R323). -/
def Thread.setSeed (t : Thread) (v : Word) : Thread :=
  let seed : BitVec 32 := v.setWidth 32
  { t with srseed := seed, gens := seedGens seed }

/-- One byte of QPORTS (R325). -/
def portByte : Option Binding → Nat
  | none => 0
  | some b => 128 + 64 * b.out.toNat + 32 * b.ring.toNat + b.num.toNat

/-- QPORTS (R325). -/
def Thread.qports (t : Thread) : Word := BitVec.ofNat 64 (ofLe (t.ports.toList.map fun b => BitVec.ofNat 8 (portByte b)))

/-- TRAPQ of a core (R327). -/
def Core.trapqWord (x : Core) : Word :=
  BitVec.ofNat 64 (min 255 x.trapq.length + min 255 x.taken.length * 2 ^ 16 + x.trapHigh.toNat * 2 ^ 32)

/-- SVSTATE of a core (R327). -/
def Core.svstate (x : Core) : Word :=
  let trapped := (List.finRange 15).foldl (fun n i =>
    n + if (x.thread i.castSucc).status = .trapped then 2 ^ (16 + i.val) else 0) 0
  BitVec.ofNat 64 (x.hold.toNat + trapped)

/-- The control registers of R72. -/
inductive Csr
  | shape | repcnt | hint | srseed | cycle | timeref | instret
  | fmta | fmtb | fmtc | scla | sclb | grpsz | qports | tbm | sigacq (i : Fin 8) | ncycle
  | tid | core | clust | die | hctx | prio | vcount | spbase | spsize | slip | rescue | trapq | svstate
deriving DecidableEq, Repr

/-- The register of a number (R72). -/
def Csr.ofNumber (n : BitVec 12) : Option Csr :=
  if n = 0x800 then some .shape else if n = 0x801 then some .repcnt else if n = 0x802 then some .hint
  else if n = 0x803 then some .srseed else if n = 0xC00 then some .cycle else if n = 0xC01 then some .timeref
  else if n = 0xC02 then some .instret else if n = 0xCC0 then some .fmta else if n = 0xCC1 then some .fmtb
  else if n = 0xCC2 then some .fmtc else if n = 0xCC3 then some .scla else if n = 0xCC4 then some .sclb
  else if n = 0xCC5 then some .grpsz else if n = 0xCC6 then some .qports else if n = 0xCC7 then some .tbm
  else if 0xCC8 ≤ n.toNat ∧ n.toNat ≤ 0xCCF then some (.sigacq (finOf 8 (n.toNat - 0xCC8)))
  else if n = 0xCD0 then some .ncycle else if n = 0xCD1 then some .tid else if n = 0xCD2 then some .core
  else if n = 0xCD3 then some .clust else if n = 0xCD4 then some .die else if n = 0xCD5 then some .hctx
  else if n = 0xCD6 then some .prio else if n = 0xCD7 then some .vcount else if n = 0xCD8 then some .spbase
  else if n = 0xCD9 then some .spsize else if n = 0xCDA then some .slip else if n = 0xCDB then some .rescue
  else if n = 0x5C0 then some .trapq else if n = 0x5C1 then some .svstate else none

/-- A register that a Zicsr instruction may write (R72). -/
def Csr.writable : Csr → Bool
  | .shape | .repcnt | .hint | .srseed | .trapq | .svstate => true
  | _ => false

/-- A register reached only from slot 15 (R73). -/
def Csr.supervisor : Csr → Bool
  | .trapq | .svstate => true
  | _ => false

/-- The value of a control register as the issuing thread reads it (R92, R322 to R327). -/
def State.readCsr (s : State) (r : Csr) : Word :=
  let t := s.me
  let d := dieOf s.issuer.1
  match r with
  | .shape => t.shapeWord
  | .repcnt => t.repcnt.setWidth 64
  | .hint => BitVec.ofNat 64 (hintCode t.hint)
  | .srseed => t.srseed.setWidth 64
  | .cycle => (s.dies.get d).cycle
  | .timeref => s.timeref d
  | .instret => t.instret
  | .fmta => t.fmta
  | .fmtb => t.fmtb
  | .fmtc => t.fmtc
  | .scla => t.scla
  | .sclb => t.sclb
  | .grpsz => t.grpsz
  | .qports => t.qports
  | .tbm => t.tbm
  | .sigacq i => t.sigacq.extractLsb' (64 * i.val) 64
  | .ncycle => (s.dies.get d).ncycle
  | .tid => t.tid.setWidth 64
  | .core => t.coreNo.setWidth 64
  | .clust => t.clust.setWidth 64
  | .die => t.dieNo.setWidth 64
  | .hctx => BitVec.ofNat 64 t.hctx.val
  | .prio => t.prio.setWidth 64
  | .vcount => t.vcount.setWidth 64
  | .spbase => t.spbase.setWidth 64
  | .spsize => t.spsize.setWidth 64
  | .slip => t.slip.setWidth 64
  | .rescue => s.here.rescue.setWidth 64
  | .trapq => s.here.trapqWord
  | .svstate => s.here.svstate

/-- A control register written by the issuing thread; a value that SHAPE or REPCNT refuses traps with an
illegal operand, and RO bits keep their value (R92). -/
def writeCsr (r : Csr) (v : Word) : M Unit := do
  match r with
  | .shape => if shapeOk v then modify fun s => s.updMe fun t => t.setShape v else illegalOperand
  | .repcnt => if repcntOk v then modify fun s => s.updMe fun t => t.setRepcnt v else illegalOperand
  | .hint => modify fun s => s.updMe fun t => t.setHint v
  | .srseed => modify fun s => s.updMe fun t => t.setSeed v
  | .trapq => modify fun s => s.updHere fun x => { x with trapHigh := v.extractLsb' 32 8 }
  | .svstate => modify fun s => s.updHere fun x => { x with hold := v.setWidth 15 }
  | _ => pure ()

end Sys2Proof.Machine
end

