-- ==== Sys2Proof/Machine/Local.lean ====
section
/-! DEFINITION. The local space (R97, R99 to R105): the map, the allotment checks, the register file map,
the message registers, and accesses that leave the core. -/

namespace Sys2Proof.Machine

/-- What a local address names (R99, R100). -/
inductive LocPlace
  | spad (core : CoreId) (off : Nat)
  | regs (slot : Slot) (off : Nat)
  | message (slot : Slot) (off : Nat)
  | vault (off : Nat)
deriving DecidableEq, Repr

/-- The map under `.own` (R99). -/
def ownPlace (c : CoreId) (a : Nat) : Option LocPlace :=
  if a < 0x80000 then some (.spad c a)
  else if 0x100000 ≤ a ∧ a < 0x110000 then some (.regs (finOf 16 ((a - 0x100000) / 0x1000)) (a % 0x1000))
  else if 0x200000 ≤ a ∧ a < 0x201000 then some (.message (finOf 16 ((a - 0x200000) / 0x100)) (a % 0x100))
  else if 0x40000000 ≤ a ∧ a < 0x90000000 then some (.vault (a - 0x40000000))
  else none

/-- The map under a mode (R99, R100). -/
def locPlace (mode : LocMode) (c : CoreId) (a : Nat) : Option LocPlace :=
  match mode with
  | .own => ownPlace c a
  | .csel =>
    if bits a 29 19 = 0 then some (.spad (coreIn (clusterOf c) (finOf 4 (bits a 31 30))) (bits a 18 0)) else none
  | .ilv =>
    if bits a 31 21 = 0 then
      some (.spad (coreIn (clusterOf c) (finOf 4 (bits a 7 6))) (bits a 20 8 * 64 + bits a 5 0))
    else none

/-- The tile whose vault holds an offset (R99). -/
def vaultTile (off : Nat) : TileId := finOf 320 (off / 0x400000)

/-- `n` bytes lie within a thread's scratchpad allotment; the supervisor reaches the whole scratchpad
(R99). -/
def Thread.allots (t : Thread) (k : Slot) (a n : Nat) : Bool :=
  if k = 15 then a + n ≤ 0x80000
  else t.spbase.toNat ≤ a && a + n ≤ t.spbase.toNat + t.spsize.toNat

/-- The allotment that the issuing thread's stage holds on a core of the cluster (R100). Where a stage holds several on one
core, it is the thread's own on its own core and the first one elsewhere; a task thread has the allotment of the stage
that it counts for, on its spawning core alone, and a stolen or migrated one has none (R350). The spec does not say
which: DESIGN CHOICE (assumption 74). -/
def State.stageOn (s : State) (c : CoreId) : Option StageAlloc :=
  let g := s.myStage
  if c = s.issuer.1 then s.here.stages.find? fun x => x.id == g.id
  else if g.inst.isNone then none
  else (s.core c).stages.find? fun x => x.inst == g.inst && x.stno == g.stno

/-- The issuing thread may reach `n` bytes of a core's scratchpad (R99, R100). A `.csel` or `.ilv` access of
the supervisor reaches its own core only, DEDUCED (assumption 6): it has no stage. -/
def State.spadAllowed (s : State) (mode : LocMode) (c : CoreId) (a n : Nat) : Bool :=
  match mode with
  | .own => s.me.allots s.issuer.2 a n
  | _ =>
    if s.issuer.2 = 15 then c == s.issuer.1 && a + n ≤ 0x80000
    else (s.core c).ctx == s.here.ctx &&
      match s.stageOn c with
      | some g => g.spad.1 ≤ a && a + n ≤ g.spad.1 + g.spad.2
      | none => false

/-- Bytes that overlap a landing of the core (R241). -/
def Core.inLanding (x : Core) (a n : Nat) : Bool := x.landings.any fun l => a < l.1 + l.2 && l.1 < a + n

/-- The supervisor may not write these bytes of its own scratchpad: they lie in a landing (R99, R241). A work thread's
allotment holds none. -/
def State.intoLanding (s : State) (a n : Nat) : Bool := s.issuer.2 = 15 && s.here.inLanding a n

/-! ## The register file map (R102, R103) -/

/-- A location of a register file page. -/
inductive MapPlace
  | x (r : Reg) | k (r : BitVec 3) (w : Nat) | pc | shape | repcnt | hint | select | window (off : Nat)
deriving DecidableEq, Repr

/-- The location at a page offset for an access size (R102). -/
def mapPlace (off size : Nat) : Option MapPlace :=
  if off < 0x100 then if size = 8 then some (.x (BitVec.ofNat 5 (off / 8))) else none
  else if off < 0x300 then
    if size = 8 then some (.k (BitVec.ofNat 3 ((off - 0x100) / 64)) ((off - 0x100) % 64 / 8)) else none
  else if 0x400 ≤ off ∧ off < 0x600 then some (.window (off - 0x400))
  else if size ≠ 8 then none
  else match off with
    | 0x380 => some .pc
    | 0x388 => some .shape
    | 0x390 => some .repcnt
    | 0x398 => some .hint
    | 0x3F8 => some .select
    | _ => none

/-- A map read of a thread (R103). -/
def Thread.mapRead (t : Thread) (p : MapPlace) (size : Nat) : Nat :=
  match p with
  | .x r => (t.getX r).toNat
  | .k r w => ((t.getK r).extractLsb' (64 * w) 64).toNat
  | .pc => t.pc.toNat
  | .shape => t.shapeWord.toNat
  | .repcnt => t.repcnt.toNat
  | .hint => hintCode t.hint
  | .select => t.vsel.toNat
  | .window off => ofLe (bytesOf (t.getV t.vsel) off size)

/-- A parked or trapped thread. -/
def Thread.stopped (t : Thread) : Bool :=
  match t.status with
  | .parked _ => true
  | .trapped => true
  | .halted p => p
  | _ => false

/-- A map write to a thread, or the cause with which the write is refused (R103): SHAPE and REPCNT with an illegal
operand, the program counter with LOCAL_ADDRESS. -/
def Thread.mapWrite (t : Thread) (p : MapPlace) (size v : Nat) : Except Cause Thread :=
  match p with
  | .x r => .ok (t.setX r (BitVec.ofNat 64 v))
  | .k r w => .ok (t.setK r (putBytes (t.getK r) (8 * w) (leBytes 8 v)))
  | .pc =>
    if t.stopped && v % 4 == 0 then .ok (t.goTo (BitVec.ofNat 64 v)) else .error .localAddress
  | .shape => if shapeOk (BitVec.ofNat 64 v) then .ok (t.setShape (BitVec.ofNat 64 v)) else .error .illegalOperand
  | .repcnt =>
    if repcntOk (BitVec.ofNat 64 v) then .ok (t.setRepcnt (BitVec.ofNat 64 v)) else .error .illegalOperand
  | .hint => .ok (t.setHint (BitVec.ofNat 64 v))
  | .select => .ok { t with vsel := BitVec.ofNat 5 v }
  | .window off => .ok (t.setV t.vsel (putBytes (t.getV t.vsel) off (leBytes size v)))

/-- A thread whose program counter another thread has written leaves the instruction at which it stood: what that had in
flight concerns it no longer, and a parked thread runs on from the new address, DESIGN CHOICE (assumption 75). A record
that is unanswered still holds a trapped thread (R304). -/
def State.redirect (s : State) (c : CoreId) (k : Slot) : State :=
  let mine := fun (m : Msg) => m.core == c && m.slot == k && match m.body with
    | .waita _ _ _ _ _ | .send _ _ _ | .claim _ => true
    | _ => false
  let s := s.unwait c k
  let go := fun (t : Thread) => match t.status with
    | .parked .kamgor => t
    | .parked _ => { t with status := .ready, prog := { since := s.cycleOf c } }
    | _ => { t with prog := { since := s.cycleOf c } }
  let kept := s.net.filter fun m => !(mine m && m.refusedSend)
  { s with net := mapIf mine (fun m => { m with orphan := true }) kept }.updThread c k go

/-- Another thread has looked at a thread or changed it: its outstanding loads no longer take it back (assumption 60). -/
def Thread.seen (t : Thread) : Thread := { t with loads := t.loads.map fun l => { l with passed := true } }

/-- The checks of a map access (R102): size, and the window's register below VCOUNT. -/
def State.mapCheck (s : State) (slot : Slot) (off size : Nat) : Option MapPlace :=
  match mapPlace off size with
  | some (.window o) =>
    let t := s.thread s.issuer.1 slot
    if t.present && t.vcount.toNat ≤ t.vsel.toNat then none else some (.window o)
  | p => p

/-- The registers of a thread that a map access waits for: their values have not yet arrived (R103: the access falls
between two instructions of the thread, and each has its whole effect). -/
def Thread.pagePending (t : Thread) (p : MapPlace) : BitVec 32 × BitVec 32 :=
  match p with
  | .x r => (if t.xpend.getLsbD r.toNat && r != 0 then 1#32 <<< r.toNat else 0, 0)
  | .window _ => (0, t.vpendingOf [t.vsel])
  | _ => (0, 0)

/-- An instruction fetch. -/
def Msg.isFetch (m : Msg) : Bool :=
  match m.body with
  | .ifetch _ => true
  | _ => false

/-- The thread of a slot is inside an instruction, which is neither parked nor trapped: it has sent requests whose answers
it waits for, or has used an answer (R103). -/
def State.inside (s : State) (c : CoreId) (k : Slot) : Bool :=
  let t := s.thread c k
  match t.status with
  | .ready | .waiting _ =>
    t.prog.data.isSome || t.prog.stage != 0 || t.prog.msgs.any fun id => s.net.any fun m => m.id == id && !m.isFetch
  | _ => false

/-- Wait until a thread of the core stands between two instructions, with the registers of the page that it accesses there
(R103). -/
def awaitPage (slot : Slot) (p : MapPlace) : M Unit := do
  let s ← get
  if slot ≠ s.issuer.2 ∧ s.inside s.issuer.1 slot then waitOn (.inside slot)
  let (x, v) := (s.thread s.issuer.1 slot).pagePending p
  if x = 0 ∧ v = 0 then pure () else waitOn (.page slot x v)

/-- A load from a register file page (R103). A slot without a thread reads 0. -/
def mapLoad (a : Nat) (slot : Slot) (off size : Nat) : M Nat := do
  let s ← get
  match s.mapCheck slot off size with
  | none => trapWith .localAddress (BitVec.ofNat 64 a)
  | some p =>
    awaitPage slot p
    let t := s.thread s.issuer.1 slot
    if slot ≠ s.issuer.2 then set (s.setThread s.issuer.1 slot t.seen)
    pure (if t.present then t.mapRead p size else 0)

/-- A store to a register file page (R103). A write to a slot without a thread is discarded. -/
def mapStore (a : Nat) (slot : Slot) (off size v : Nat) : M Unit := do
  let s ← get
  match s.mapCheck slot off size with
  | none => trapWith .localAddress (BitVec.ofNat 64 a) 0 true
  | some p =>
    awaitPage slot p
    let t := s.thread s.issuer.1 slot
    if !t.present then pure ()
    else match t.mapWrite p size v with
      | .error cause => trapWith cause (if cause = .localAddress then BitVec.ofNat 64 a else 0) 0 true
      | .ok t' =>
        let s := s.setThread s.issuer.1 slot (if slot = s.issuer.2 then t' else (t'.seen).behind (Undo.takeOver t t'))
        set (if p = .pc then s.redirect s.issuer.1 slot else s)

/-! ## Message registers (R104) -/

/-- A load from a slot's message registers, whether or not a thread stands in the slot (R104): mi as 8 bytes, the full
byte as 1 byte. -/
def messageLoad (a : Nat) (slot : Slot) (off size : Nat) : M Nat := do
  let s ← get
  let t := s.thread s.issuer.1 slot
  if off < 0x40 ∧ size = 8 then pure (t.m.get (finOf 8 (off / 8))).toNat
  else if off = 0x40 ∧ size = 1 then pure t.mfull.toNat
  else trapWith .localAddress (BitVec.ofNat 64 a)

/-- A store to a slot's message registers: mi sets its full bit, the full byte clears bits (R104). -/
def messageStore (a : Nat) (slot : Slot) (off size v : Nat) : M Unit := do
  let s ← get
  let t := s.thread s.issuer.1 slot
  let i := finOf 8 (off / 8)
  if off < 0x40 ∧ size = 8 then
    set (s.setThread s.issuer.1 slot { t with m := t.m.set i (BitVec.ofNat 64 v), mfull := t.mfull ||| (1 <<< i.val) })
  else if off = 0x40 ∧ size = 1 then
    set (s.setThread s.issuer.1 slot { t with mfull := t.mfull &&& ~~~(BitVec.ofNat 8 v) })
  else trapWith .localAddress (BitVec.ofNat 64 a) 0 true

/-! ## Accesses that leave the core -/

/-- A vault store of the thread to a vault line is not yet acknowledged (R105). -/
def State.vaultLineBusy (s : State) (c : CoreId) (k : Slot) (line : Nat) : Bool :=
  s.net.any fun m => m.core == c && m.slot == k && !m.orphan && match m.body with
    | .vaultWrite a _ => a / 128 == line
    | _ => false

/-- An access of the thread to another core's scratchpad is not yet performed, or a load's bytes have not come back, so
that it may still run again (R97: program order). -/
def State.spadBusy (s : State) (c : CoreId) (k : Slot) (dst : CoreId) : Bool :=
  s.net.any fun m => m.core == c && m.slot == k && !m.orphan && match m.body with
    | .spadWrite d _ _ => d == dst && m.stage == .sent
    | .spadRead d _ _ => d == dst
    | _ => false

/-- Wait until a vault line may be accessed (R105). -/
def awaitVaultLine (off : Nat) : M Unit := do
  let s ← get
  if s.vaultLineBusy s.issuer.1 s.issuer.2 (off / 128) then waitOn (.vaultLine (off / 128)) else pure ()

/-- Wait until another core's scratchpad may be accessed (R97). -/
def awaitSpad (dst : CoreId) : M Unit := do
  let s ← get
  if s.spadBusy s.issuer.1 s.issuer.2 dst then waitOn (.spadOf dst) else pure ()

/-! ## One local access -/

/-- What a local load finds: bytes at once, or the message that will bring them. -/
inductive LocLoad
  | now (b : List Byte) | later (msg : Nat)

/-- The checks of a local access (R97, R99, R100), in the order of the spec's text. -/
def localCheck (mode : LocMode) (a size : Nat) (wr : Bool) : M LocPlace := do
  let s ← get
  if 2 ^ 32 ≤ a then trapWith .localAddress (BitVec.ofNat 64 a) 0 wr
  else if a % size ≠ 0 then trapWith .misaligned (BitVec.ofNat 64 a) 0 wr
  else match locPlace mode s.issuer.1 a with
    | none => trapWith .localAddress (BitVec.ofNat 64 a) 0 wr
    | some (.spad c off) =>
      if !s.spadAllowed mode c off size || (wr && s.issuer.2 = 15 && (s.core c).inLanding off size) then
        trapWith .localAddress (BitVec.ofNat 64 a) 0 wr
      else pure (.spad c off)
    | some p => pure p

/-- A local load of `size` bytes (R97). -/
def localLoad (mode : LocMode) (a size : Nat) : M LocLoad := do
  let p ← localCheck mode a size false
  let s ← get
  match p with
  | .spad c off =>
    if c = s.issuer.1 then pure (.now (s.here.spad.read off size))
    else
      awaitSpad c
      let id ← sendMsg none (.spadRead c off size) a
      pure (.later id)
  | .regs slot off =>
    let v ← mapLoad a slot off size
    pure (.now (leBytes size v))
  | .message slot off =>
    let v ← messageLoad a slot off size
    pure (.now (leBytes size v))
  | .vault off =>
    awaitVaultLine off
    let id ← sendMsg none (.vaultRead off size) a
    pure (.later id)

/-- A local store (R97). -/
def localStore (mode : LocMode) (a size v : Nat) : M Unit := do
  let p ← localCheck mode a size true
  let s ← get
  match p with
  | .spad c off =>
    if c = s.issuer.1 then modify fun s => s.updHere fun x => x.writeSpad off (leBytes size v)
    else
      awaitSpad c
      let _ ← sendMsg none (.spadWrite c off (leBytes size v)) a
      pure ()
  | .regs slot off => mapStore a slot off size v
  | .message slot off => messageStore a slot off size v
  | .vault off =>
    awaitVaultLine off
    let _ ← sendMsg none (.vaultWrite off (leBytes size v)) a
    pure ()

/-- Own scratchpad of the issuing thread, `n` bytes within its allotment, or LOCAL_ADDRESS. -/
def ownSpad (a : Word) (n : Nat) (wr : Bool) : M Nat := do
  let s ← get
  if a.toNat + n ≤ 0x80000 && s.me.allots s.issuer.2 a.toNat n && !(wr && s.intoLanding a.toNat n) then pure a.toNat
  else trapWith .localAddress a 0 wr

end Sys2Proof.Machine
end

