-- ==== Sys2Proof/Machine/Access.lean ====
section
/-! DEFINITION. Global accesses of a thread: translation and types (R83, R106, R307), the L1D (R84, R85,
R418), outstanding loads, stores, updates, majority accesses (R402 to R404), host and peer accesses (R412,
R415). -/

namespace Sys2Proof.Machine

/-! ## The L1D (R84, R418) -/

/-- The line a core's L1D holds. -/
def Core.l1 (x : Core) (line : Nat) : Option L1Line := x.l1d.find? fun l => l.line == line

/-- The sector is valid in the L1D. -/
def Core.l1Valid (x : Core) (line sec : Nat) : Bool :=
  match x.l1 line with
  | some l => l.valid.getLsbD sec
  | none => false

/-- The line becomes the most recently used (R418). -/
def Core.l1Touch (x : Core) (line : Nat) : Core :=
  { x with l1d := (x.l1d.filter fun l => l.line == line) ++ x.l1d.filter fun l => l.line != line }

/-- A line of the L1D changed. -/
def Core.l1Upd (x : Core) (line : Nat) (f : L1Line → L1Line) : Core :=
  { x with l1d := mapIf (fun l => l.line == line) f x.l1d }

/-- A fill of the line that is still in flight must not enter the L1D: its bytes may be older than what the
core has since sent or been told to drop (R85, R111, R119). -/
def State.killFills (s : State) (c : CoreId) (line : Nat) : State :=
  let f : Msg → Msg := fun m => match m.body with
    | .fill l sec h _ st => if m.core == c && l == line then { m with body := .fill l sec h false st } else m
    | _ => m
  let g : Thread → Thread := fun t => { t with prog := { t.prog with got := t.prog.got.filter fun p => p.1 != line } }
  { s with net := s.net.map f }.updCore c fun x => { x with slots := x.slots.map g }

/-- A virtual address at which a context maps a physical one, by the first leaf of its tables that does; 0 for none.
Which one of several, DESIGN CHOICE (assumption 73). -/
def State.vaOf (s : State) (ctx : Ctx) (pa : Nat) : Nat :=
  let maps := fun (p : (Nat × Nat) × Word) =>
    p.2.getLsbD 0 && p.2.getLsbD 1 && leafAddr p.2 ≤ pa && pa < leafAddr p.2 + 2 ^ levelShift p.1.1
  match (s.ctxs.get ctx).pt.find? maps with
  | some p => (p.1.2 * 2 ^ levelShift p.1.1 + (pa - leafAddr p.2)) % 2 ^ 64
  | none => 0

/-- Send one sector of a line back to its home (R84), in the core's context. The line keeps its hint (R418). The core
counts it; it sets the touched-bank bit of the thread that sends it, when there is one (R85, R122; assumption 73). -/
def State.sendWriteback (s : State) (c : CoreId) (k : Option Slot) (quiet : Bool) (l : L1Line) (sec : Nat) : State :=
  let t := s.thread c (k.getD 0)
  let ctx := ((s.core c).ctx).getD t.hctx
  let g : Target := .tile (s.homeTile ctx c (128 * l.line))
  let data : BitVec 256 := l.data.extractLsb' (256 * sec) 256
  let m : Msg := { core := c, slot := k.getD 0, ctx := ctx, target := some g
                   body := .writeback l.line sec data l.hint, quiet := quiet || k.isNone
                   launch := if k.isNone then none else t.launch, pc := t.pc
                   va := BitVec.ofNat 64 (s.vaOf ctx (128 * l.line + 32 * sec)) }
  let s := (s.putMsg m).updCore c fun x => x.countSent g
  let touch := fun (u : Thread) => { u with tbm := u.tbm ||| (1 <<< g.tbmBit) }
  let s := match k with
    | some k => s.updThread c k touch
    | none => s
  s.killFills c l.line

/-- Write back the dirty sectors of a line that `p` selects; they become clean. -/
def State.cleanL1 (s : State) (c : CoreId) (k : Option Slot) (quiet : Bool) (line : Nat) (p : Nat → Bool) : State :=
  match (s.core c).l1 line with
  | none => s
  | some l =>
    (List.range 4).foldl (fun s i =>
      if l.dirty.getLsbD i && p i then
        (s.sendWriteback c k quiet l i).updCore c fun x =>
          x.l1Upd line fun m => { m with dirty := m.dirty &&& ~~~(1#4 <<< i) }
      else s) s

/-- Evict a line: its dirty sectors are written back (R418). -/
def State.evictL1 (s : State) (c : CoreId) (k : Option Slot) (line : Nat) : State :=
  (s.cleanL1 c k true line fun _ => true).updCore c fun x => { x with l1d := x.l1d.filter fun l => l.line != line }

/-- Allocate a line: a full set evicts its least recently used line (R418). -/
def State.allocL1 (s : State) (c : CoreId) (k : Slot) (line : Nat) (hint : Hint) : State :=
  if ((s.core c).l1 line).isSome then s
  else
    let set := (s.core c).l1d.filter fun l => l.line % 128 == line % 128
    let s := if set.length < 20 then s else
      match set.getLast? with
      | some v => s.evictL1 c (some k) v.line
      | none => s
    s.updCore c fun x => { x with l1d := { line := line, hint := hint } :: x.l1d }

/-- Put a fetched sector into the L1D; a sector that is valid keeps its bytes (R84, R418). -/
def State.fillL1 (s : State) (c : CoreId) (k : Slot) (line sec : Nat) (data : BitVec 256) (hint : Hint) : State :=
  (s.allocL1 c k line hint).updCore c fun x =>
    (x.l1Upd line fun l =>
      if l.valid.getLsbD sec then l
      else { l with valid := l.valid ||| (1 <<< sec)
                    data := putBytes l.data (32 * sec) (bytesOf data 0 32) }).l1Touch line

/-- Write bytes into a valid sector of the L1D, which becomes dirty (R84). -/
def Core.l1Write (x : Core) (pa : Nat) (b : List Byte) : Core :=
  (x.l1Upd (pa / 128) fun l =>
    { l with data := putBytes l.data (pa % 128) b, dirty := l.dirty ||| (1 <<< (pa % 128 / 32)) }).l1Touch (pa / 128)

/-- An access of the core to the line is in flight that later accesses to it wait for (R85, R140). -/
def Msg.holdsLine (m : Msg) (line : Nat) : Bool :=
  match m.body with
  | .writeback l _ _ _ => l == line
  | .update l _ => l == line
  | .atomic _ pa _ _ _ _ _ _ _ _ => pa / 128 == line
  | .ldaq pa _ _ _ => pa / 128 == line
  | .strl pa _ _ _ _ => pa / 128 == line
  | .notify pa _ _ _ => pa / 128 == line
  | .waita pa _ _ _ _ => pa / 128 == line && m.stage == .sent
  | _ => false

/-- Some access of the core holds the line (R85, R140). -/
def State.lineBusy (s : State) (c : CoreId) (line : Nat) : Bool := s.net.any fun m => m.core == c && m.holdsLine line

/-- A fetch of a sector of a line. -/
def Msg.fetches (m : Msg) (line sec : Nat) : Bool :=
  match m.body with
  | .fill l mask _ _ _ => l == line && mask.getLsbD sec
  | _ => false

/-- A fetch of the sector is under way for the core. No second one is sent meanwhile, so that two reads of one sector by
one core never pass each other (R111). -/
def State.sectorBusy (s : State) (c : CoreId) (line sec : Nat) : Bool :=
  s.net.any fun m => m.core == c && m.fetches line sec

/-- A fetch of the sector that a load of a thread may share: a load of the same thread sent it, and no acquire or
write-back has come between (R84, R111, R119), or the present instruction sent it (`n`: the first id that it gave). -/
def State.sharedFill (s : State) (c : CoreId) (k : Slot) (line sec n : Nat) : Option Nat :=
  (s.net.find? fun m => m.core == c && m.slot == k && !m.orphan && m.fetches line sec && match m.body with
    | .fill _ _ _ alloc store => !store && (alloc || n ≤ m.id)
    | _ => false).map Msg.id

/-- Wait until no access of the core holds the line (R85, R140). -/
def awaitLine (line : Nat) : M Unit := do
  let s ← get
  if s.lineBusy s.issuer.1 line then waitOn (.lineBusy line) else pure ()

/-! ## Translation and memory types -/

/-- A device access of the thread is in flight (R83). -/
def State.deviceBusy (s : State) (c : CoreId) (k : Slot) : Bool :=
  s.net.any fun m => m.core == c && m.slot == k && !m.orphan && match m.body with
    | .device _ _ => true
    | _ => false

/-- A translated access. -/
structure Mapped where
  pa : Nat := 0
  leaf : Word := 0
  ty : PageType := .normal
deriving DecidableEq, Repr

/-- Translate an address for the issuing thread and check its permissions (R106, R307), waiting for a device
access in flight (R83). A page of a context whose key slot is dead is refused (R394). -/
def mapGlobal (va : Nat) (rd wr ex : Bool) : M Mapped := do
  let s ← get
  let (c, k) := s.issuer
  if s.deviceBusy c k then waitOn .device
  else
    let w := BitVec.ofNat 64 va
    match s.translate c s.me.hctx va wr with
    | .fault _ cause level e =>
      trapInfo { cause := cause, addr := w, detail := e, write := wr, level := BitVec.ofNat 8 level }
    | .ok s' level e =>
      if (rd && !leafRd e) || (wr && !leafWr e) || (ex && !leafEx e) then trapWith .accessFault w e wr
      else
        match leafType e with
        | none => trapWith .translation w e wr
        | some ty =>
          let cached := ty = .normal ∨ ty = .replica ∨ ty = .maj
          if cached ∧ !(s.ctxs.get s.me.hctx).keyLive then trapWith .accessFault w e wr
          else
            set s'
            pure { pa := leafPa level e va, leaf := e, ty := ty }

/-! ## Outstanding loads -/

/-- Bytes of a load that has all its pieces. -/
def assemble (ps : List Piece) (n : Nat) : List Byte :=
  ps.foldl (fun b p => b.take p.pos ++ p.data ++ b.drop (p.pos + p.data.length)) (List.replicate n 0)

/-- The number of bytes that the pieces make up. -/
def piecesEnd (ps : List Piece) : Nat := ps.foldl (fun n p => max n (p.pos + p.len)) 0

/-- An integer register written by the answer to a request other than a load, also in what outstanding loads keep: those
that came before the request no longer take the thread back (`passed`); and behind what executes again. -/
def Thread.answerX (t : Thread) (r : Reg) (v : Word) : Thread :=
  if r = 0 then t
  else
    let put : Undo → Undo := fun u => { u with x := u.x.set r.toFin v }
    let keep : PendLoad → PendLoad := fun l => { l with undo := put l.undo }
    { (t.setX r v).behind put with xpend := t.xpend &&& ~~~(1#32 <<< r.toNat), loads := t.loads.map keep }

/-- Bytes that a load has brought. -/
def PendLoad.bytes (l : PendLoad) : List Byte := assemble l.pieces (piecesEnd l.pieces)

/-- Registers with a load's bytes in its destination (R82, R192). -/
def PendLoad.into (l : PendLoad) (u : Undo) : Undo :=
  match l.dst with
  | .x r size signed => if r = 0 then u else { u with x := u.x.set r.toFin (widen signed size (ofLe l.bytes)) }
  | .v r => { u with v := u.v.set r.toFin (putBytes (u.v.get r.toFin) 0 l.bytes) }
  | .hold => u

/-- Give a load's bytes to its destination (R82, R192), also behind what executes again. -/
def Thread.takeLoad (t : Thread) (l : PendLoad) : Thread :=
  match l.dst with
  | .x r size signed =>
    { (t.setX r (widen signed size (ofLe l.bytes))).behind l.into with xpend := t.xpend &&& ~~~(1#32 <<< r.toNat) }
  | .v r => { (t.setV r (putBytes (t.getV r) 0 l.bytes)).behind l.into with vpend := t.vpend &&& ~~~(1#32 <<< r.toNat) }
  | .hold => { t with prog := { t.prog with data := some l.bytes, msgs := [] } }

/-- What a younger load keeps of the thread's registers, once an older one has brought its bytes. -/
def PendLoad.learn (old l : PendLoad) : PendLoad := { l with undo := old.into l.undo }

/-- Every piece of a load is there. -/
def PendLoad.ready (l : PendLoad) : Bool := l.pieces.all fun p => p.msg.isNone

/-- Loads in program order, those whose pieces are all there left out: what these brought, the younger ones keep. -/
def stillOut (ls : List PendLoad) : List PendLoad :=
  ls.foldr (fun l rest => if l.ready then rest.map l.learn else l :: rest) []

/-- Give a reply's bytes to the loads of a thread that wait for the message. -/
def Thread.deliver (t : Thread) (id : Nat) (b : List Byte) : Thread :=
  let fill : Piece → Piece := fun p =>
    if p.msg == some id then { p with msg := none, data := (b.drop p.off).take p.len } else p
  let ls := t.loads.map fun l => { l with pieces := l.pieces.map fill }
  (ls.filter PendLoad.ready).foldl Thread.takeLoad { t with loads := stillOut ls }

/-- Loads given up: their destinations are no longer outstanding. -/
def Thread.release (t : Thread) (ls : List PendLoad) : Thread :=
  ls.foldl (fun t l => match l.dst with
    | .x r _ _ => { t with xpend := t.xpend &&& ~~~(1#32 <<< r.toNat) }
    | .v r => { t with vpend := t.vpend &&& ~~~(1#32 <<< r.toNat) }
    | .hold => t) t

/-- A thread put back to before its `n`-th outstanding load, as if that load and all that followed it had not executed
(R87, R88). -/
def Thread.backTo (t : Thread) (n : Nat) : Thread :=
  match t.loads[n]? with
  | none => t
  | some l => ({ t with loads := t.loads.take n }.release (t.loads.drop n)).putBack l.undo

/-- An outstanding load as an instruction that executes again. -/
def PendLoad.redo (l : PendLoad) : Redo := { undo := l.undo, dst := l.dst }

/-- A thread whose outstanding loads are given up, with requests that it had posted (`own`): they execute again. It stands
at the first of them. Where no later instruction has had an effect outside the thread's registers, nothing behind it has
executed; else the thread goes on, when they have executed again, where it is now (R87, R88; assumption 60). -/
def Thread.giveUp (t : Thread) (own : List Redo) : Thread :=
  let n := (t.loads.findIdx? fun l => !l.passed).getD t.loads.length
  let t := t.backTo n
  ({ t with loads := [] }.release t.loads).stand (own ++ t.loads.map PendLoad.redo)

/-- The oldest load of a thread that waits for a message. -/
def Thread.loadOf (t : Thread) (id : Nat) : Option Nat :=
  t.loads.findIdx? fun l => l.pieces.any fun p => p.msg == some id

/-- The messages that a thread's outstanding loads wait for. -/
def Thread.loadMsgs (t : Thread) : List Nat := t.loads.flatMap fun l => l.pieces.filterMap Piece.msg

/-- A load must have its bytes before the thread goes on: one that takes an entry from a port (R31, R77), or a single
step (R315). -/
def Thread.holdsAt (t : Thread) (srcs : List Reg) : Bool := t.stepping || srcs.any fun r => (t.binding r).isSome

/-- Complete a load: at once when every piece is there, else its destination stays outstanding (R80). A
destination that is an out-bound port, or a load that must resolve first, leaves the thread waiting. -/
def completeLoad (ps : List Piece) (dst : LoadDst) (va : Nat) (srcs : List Reg) : M Unit := do
  let s ← get
  let dst := if s.me.holdsAt srcs && !(ps.all fun p => p.msg.isNone) then LoadDst.hold else dst
  let l : PendLoad := { dst := dst, pieces := ps, pc := s.me.pc, va := BitVec.ofNat 64 va, undo := s.me.undo }
  if ps.all fun p => p.msg.isNone then
    match dst with
    | .x d size signed => finishX srcs d (widen signed size (ofLe (assemble ps (piecesEnd ps))))
    | _ =>
      set (s.updMe fun t => t.takeLoad l)
      finish srcs
  else
    match dst with
    | .hold =>
      set (s.updMe fun t => { t with loads := t.loads ++ [l], prog := { t.prog with msgs := ps.filterMap (·.msg) } })
      keepOn .msgs false
    | .x d _ _ =>
      set (s.updMe fun t => { t with
        loads := t.loads ++ [l], xpend := if d = 0 then t.xpend else t.xpend ||| (1 <<< d.toNat) })
      finish srcs
    | .v d =>
      set (s.updMe fun t => { t with loads := t.loads ++ [l], vpend := t.vpend ||| (1 <<< d.toNat) })
      finish srcs

/-- The destination of a load that may stay outstanding: not so for an out-bound port. -/
def Thread.loadDst (t : Thread) (d : Reg) (size : Nat) (signed : Bool) : LoadDst :=
  if (t.binding d).isSome then .hold else .x d size signed

/-- A piece of a load on a normal or REPLICA page, within one sector: from the L1D, or by a request to the
home slice, or with a request that is already under way (R84, R17). `n` is the first message id of the instruction. -/
def loadPart (hint : Hint) (n va pa pos len : Nat) : M Piece := do
  let line := pa / 128
  awaitLine line
  let s ← get
  let sec := pa % 128 / 32
  if s.here.l1Valid line sec then
    let b := match s.here.l1 line with
      | some l => bytesOf l.data (pa % 128) len
      | none => []
    set (s.updHere fun x => x.l1Touch line)
    pure { pos := pos, len := len, data := b, va := va }
  else match s.sharedFill s.issuer.1 s.issuer.2 line sec n with
  | some id => pure { msg := some id, pos := pos, len := len, off := pa % 32, va := va }
  | none =>
    if s.sectorBusy s.issuer.1 line sec then waitOn (.sectorBusy line sec)
    else
      let t := s.homeTile s.me.hctx s.issuer.1 pa
      let id ← sendMsg (some (.tile t)) (.fill line (1 <<< sec) hint (hint != .noal) false) va
      pure { msg := some id, pos := pos, len := len, off := pa % 32, va := va }

/-! ## Host and peer targets (R412, R415) -/

/-- The window of a host-type offset, when the access is within it (R412). -/
def State.hostWindow (s : State) (ctx : Ctx) (o : Nat) : Option (Fin 16) :=
  let w := finOf 16 (bits o 43 40)
  let (w0, w1) := (s.ctxs.get ctx).hwin.get w
  if w0.getLsbD 0 && bits o 39 12 ≤ wbits w1 39 12 then some w else none

/-- The port and window of a peer-type offset, when the access is within it and the port is up (R415,
R416). -/
def State.peerWindow (s : State) (port : Nat) (o : Nat) : Option (Fin 16) :=
  let p := finOf 16 port
  let (w0, w1) := (s.peers.get p).win.get (finOf 16 (bits o 43 40))
  if (s.peers.get p).up && w0.getLsbD 0 && bits o 39 12 ≤ wbits w1 39 12 then some p else none

/-- Send a request to a host or peer target; refused windows are an access fault (R412, R415). -/
def sendExternal (m : Mapped) (va : Nat) (req : ExtReq) (rd : Option (Reg × Option Scope)) : M Nat := do
  let s ← get
  let wr := match req with | .read _ => false | _ => true
  if m.ty = .host then
    match s.hostWindow s.me.hctx m.pa with
    | some w => sendMsg (some (.host w)) (.host w (bits m.pa 39 0) req rd) va
    | none => trapWith .accessFault (BitVec.ofNat 64 va) m.leaf wr
  else
    match s.peerWindow (leafPort m.leaf) m.pa with
    | some p => sendMsg (some (.peer p)) (.peer p (bits m.pa 43 0) req rd) va
    | none => trapWith .accessFault (BitVec.ofNat 64 va) m.leaf wr

/-! ## Majority accesses (R402, R403) -/

/-- The stacks of a triple that are IN. -/
def State.inStacks (s : State) (t : Fin 4) : List StackId :=
  (tripleStacks t).filter fun k => (s.hbm.get k).state == .in_

/-- Physical address of a granule of a triple. -/
def majPa (t : Fin 4) (g : Nat) : Nat := 2 ^ 48 + t.val * 2 ^ 34 + 64 * g

/-- A majority access needs two stacks that are IN, and their access tables must allow it (R371, R402, R403). `wr` is
what a trap reports, `stores` what is asked of the tables: the read of a store's granule is a read. -/
def majCheck (m : Mapped) (va : Nat) (wr stores : Bool) : M Unit := do
  let s ← get
  let t := finOf 4 (leafTriple m.leaf)
  let g := m.pa % 2 ^ 34 / 64
  let off := 2 ^ 36 - s.carve + 64 * g
  if (s.inStacks t).length < 2 then trapWith .majorityUnresolved (BitVec.ofNat 64 va) (BitVec.ofNat 64 (majPa t g)) wr
  else if (s.inStacks t).any fun k => !aclAllows (s.hbm.get k).acl.toList .core s.me.hctx off (!stores) stores
  then trapWith .accessFault (BitVec.ofNat 64 va) m.leaf wr
  else pure ()

def majRead (m : Mapped) (va : Nat) (wr : Bool) : M Nat := do
  majCheck m va wr false
  let s ← get
  let t := finOf 4 (leafTriple m.leaf)
  let g := m.pa % 2 ^ 34 / 64
  let ins := s.inStacks t
  let id := s.nextMsg
  let op : MajOp := { id := id, core := s.issuer.1, slot := s.issuer.2, ctx := s.me.hctx, va := BitVec.toNat (BitVec.ofNat 64 va)
                      triple := t, granule := g, asked := ins, write := wr }
  set { s with majOps := s.majOps ++ [op], nextMsg := id + 1 }
  ins.forM fun k => do
    let _ ← sendMsg none (.majRead id k g)
  pure id

/-- The unit of the thread's cluster has stamped a store in this tick (R402). -/
def State.stampedNow (s : State) : Bool :=
  (s.clusters.get (clusterOf s.issuer.1)).lastStamp == some ((s.timeref (dieOf s.issuer.1)).setWidth 49)

/-- Wait until the unit may stamp (R402). -/
def awaitStamp : M Unit := do
  let s ← get
  if s.stampedNow then waitOn .majStamp else pure ()

/-- Stamp a store at the majority unit and send its copies (R402). A unit stamps once in a tick. -/
def majStore (m : Mapped) (va : Nat) (data : BitVec 512) : M Unit := do
  let s ← get
  let t := finOf 4 (leafTriple m.leaf)
  let g := m.pa % 2 ^ 34 / 64
  let ins := s.inStacks t
  let cl := clusterOf s.issuer.1
  let now : BitVec 49 := (s.timeref (dieOf s.issuer.1)).setWidth 49
  if s.stampedNow then keepOn .majStamp false
  else
    let id := s.nextMsg
    let tag : Word := BitVec.ofNat 64 (now.toNat * 2 ^ 15 + s.me.tid.toNat)
    let op : MajOp := { id := id, core := s.issuer.1, slot := s.issuer.2, ctx := s.me.hctx, va := va, triple := t
                        granule := g, asked := ins, stamped := some tag }
    set ({ s with majOps := s.majOps ++ [op], nextMsg := id + 1 }.updCluster cl fun x => { x with lastStamp := some now })
    ((tripleStacks t).filter fun k => (s.hbm.get k).state == .in_ || (s.hbm.get k).state == .catchup).forM fun k => do
      let _ ← sendMsg none (.majCopy id k g tag data false) va

/-- A MAJ store of the thread has not completed (R128). -/
def State.majOut (s : State) (c : CoreId) (k : Slot) : Bool :=
  s.majOps.any fun o => o.core == c && o.slot == k && o.stamped.isSome && !o.done

/-! ## Loads -/

/-- A load of 1, 2, 4 or 8 bytes from the global space (R82, R83, R84, R87). -/
def loadGlobal (va size : Nat) (signed : Bool) (hint : Hint) (srcs : List Reg) (d : Reg) : M Unit := do
  let s ← get
  if va % size ≠ 0 then trapWith .misaligned (BitVec.ofNat 64 va)
  else match s.me.prog.data with
  | some b => finishX srcs d (widen signed size (ofLe b))
  | none =>
    let m ← mapGlobal va true false false
    let dst := s.me.loadDst d size signed
    match m.ty with
    | .normal | .replica =>
      let p ← loadPart hint s.nextMsg va m.pa 0 size
      if p.msg.isNone then finishX srcs d (widen signed size (ofLe p.data)) else completeLoad [p] dst va srcs
    | .maj =>
      let id ← majRead m va false
      completeLoad [{ msg := some id, pos := 0, len := size, off := m.pa % 64, va := va }] .hold va srcs
    | .device =>
      if size ≠ 8 ∨ 0x40000 ≤ m.pa - 2 ^ 49 then trapWith .accessFault (BitVec.ofNat 64 va) m.leaf
      else
        let id ← sendMsg none (.device (m.pa - 2 ^ 49) none) va
        completeLoad [{ msg := some id, pos := 0, len := 8, va := va }] dst va srcs
    | .host | .peer =>
      let id ← sendExternal m va (.read size) none
      completeLoad [{ msg := some id, pos := 0, len := size, va := va }] dst va srcs

/-! ## Stores -/

/-- A part of a store within one sector, with its translation. -/
structure StorePart where
  va : Nat := 0
  m : Mapped := {}
  bytes : List Byte := []
deriving DecidableEq, Repr

/-- A sector that the current store has fetched. -/
def Progress.fetched (p : Progress) (line sec : Nat) : Option (BitVec 256) :=
  (p.got.find? fun g => g.1 == line && g.2.1 == sec).map fun g => g.2.2

/-- Sectors that must be fetched before the parts can be written into the L1D (R84). -/
def State.missing (s : State) (hint : Hint) (ps : List StorePart) : List (Nat × Nat) :=
  ((ps.filter fun p => p.m.ty = .normal).map fun p => (p.m.pa / 128, p.m.pa % 128 / 32)).eraseDups.filter fun (l, i) =>
    !s.here.l1Valid l i && hint != .noal && (s.me.prog.fetched l i).isNone

/-- A fetch for the current store is in flight. -/
def State.fetching (s : State) (line sec : Nat) : Bool :=
  s.net.any fun m => m.core == s.issuer.1 && s.me.prog.msgs.contains m.id && match m.body with
    | .fill l mask _ _ true => l == line && mask.getLsbD sec
    | _ => false

/-- Fetch the sectors that a store must have first, and wait for them (R84). -/
def fetchForStore (hint : Hint) (ps : List StorePart) : M Unit := do
  let s ← get
  let need := s.missing hint ps
  if need.isEmpty then pure ()
  else
    match need.find? fun p => s.lineBusy s.issuer.1 p.1, need.find? fun p => !s.fetching p.1 p.2 && s.sectorBusy s.issuer.1 p.1 p.2 with
    | some p, _ => waitOn (.lineBusy p.1)
    | none, some p => waitOn (.sectorBusy p.1 p.2)
    | none, none =>
      (need.filter fun p => !s.fetching p.1 p.2).forM fun (l, i) => do
        let s ← get
        let t := s.homeTile s.me.hctx s.issuer.1 (128 * l)
        let va := (ps.find? fun p => p.m.pa / 32 == 4 * l + i).map StorePart.va
        let id ← sendMsg (some (.tile t)) (.fill l (1 <<< i) hint true true) (va.getD 0)
        modify fun s => s.updMe fun t => { t with prog := { t.prog with msgs := id :: t.prog.msgs } }
      keepOn .msgs false

/-- The bytes of a sector that the store may write into: fetched for it, or valid in the L1D. -/
def State.sectorFor (s : State) (line sec : Nat) : BitVec 256 :=
  match s.here.l1 line with
  | some l => if l.valid.getLsbD sec then l.data.extractLsb' (256 * sec) 256 else (s.me.prog.fetched line sec).getD 0
  | none => (s.me.prog.fetched line sec).getD 0

/-- Write one part into the L1D; a sector fetched for the store enters the L1D first, and so does one that an earlier part
of the same store has driven out, with the bytes that it had at the start (`o`) and those that earlier parts have put
there. -/
def State.storePart (o : State) (hint : Hint) (r : State × List StorePart) (p : StorePart) : State × List StorePart :=
  let (s, before) := r
  let line := p.m.pa / 128
  let sec := p.m.pa % 128 / 32
  let earlier := before.filter fun q => q.m.pa / 32 == p.m.pa / 32
  let old := earlier.foldl (fun (d : BitVec 256) q => putBytes d (q.m.pa % 32) q.bytes) (o.sectorFor line sec)
  let s := if s.here.l1Valid line sec then s else s.fillL1 s.issuer.1 s.issuer.2 line sec old hint
  (s.updHere fun x => x.l1Write p.m.pa p.bytes, before ++ [p])

/-- Perform the parts of a store on normal pages: into the L1D, or as byte-masked updates of one line each
(R84, R85, R109, R118). -/
def storeNormal (hint : Hint) (ps : List StorePart) : M Unit := do
  let s ← get
  let direct := fun p : StorePart => hint != .noal || s.here.l1Valid (p.m.pa / 128) (p.m.pa % 128 / 32)
  let upd := ps.filter fun p => !direct p
  match upd.find? fun p => s.lineBusy s.issuer.1 (p.m.pa / 128) with
  | some p => waitOn (.lineBusy (p.m.pa / 128))
  | none =>
    modify fun s => ((ps.filter direct).foldl (s.storePart hint) (s, [])).1
    ((upd.map fun p => p.m.pa / 128).eraseDups).forM fun l => do
      let s ← get
      let t := s.homeTile s.me.hctx s.issuer.1 (128 * l)
      let here := upd.filter fun p => p.m.pa / 128 == l
      let _ ← sendMsg (some (.tile t)) (.update l (here.map fun p => (p.m.pa, p.bytes))) ((here.head?.map StorePart.va).getD 0)
      modify fun s => s.killFills s.issuer.1 l
    modify fun s => s.updMe fun t => { t with wsig := ps.foldl (fun g p => g ||| lineSig (p.m.pa / 128)) t.wsig }

/-- A translated part cut at sector boundaries; a majority part stays whole (R84, R192). -/
def cutPart (va : Nat) (m : Mapped) (b : List Byte) : List StorePart :=
  if m.ty = .maj then [{ va := va, m := m, bytes := b }]
  else
    (sectorRuns m.pa b (b.length + 1)).map fun r =>
      { va := va + (r.1 - m.pa), m := { m with pa := r.1 }, bytes := r.2 }

/-- Translate the parts of a store, each within one granule, all before any effect (R87, R192): REPLICA pages
are refused; majority pages where `maj` allows, device, host and peer pages only where `ext` allows. -/
def mapStores (ext maj : Bool) (parts : List (Nat × List Byte)) : M (List StorePart) := do
  let l ← parts.mapM fun (va, b) => do
    let m ← mapGlobal va false true false
    let ok : Bool := match m.ty with
      | .normal => true
      | .maj => maj
      | .replica => false
      | .device => ext && b.length == 8 && m.pa - 2 ^ 49 < 0x40000
      | _ => ext
    if ok then pure (cutPart va m b)
    else trapWith .accessFault (BitVec.ofNat 64 va) m.leaf true
  pure l.flatten

/-- Split the parts of a store on majority pages by granule: granule's part, its offset and bytes; the bytes
that one row leaves in one granule are one piece (R192). -/
def majPieces (ps : List StorePart) : List (StorePart × Nat × List Byte) :=
  (ps.filter fun p => p.m.ty = .maj).map fun p => (p, p.m.pa % 64, p.bytes)

/-- Merge a piece into a granule. -/
def mergeGranule (old : BitVec 512) (off : Nat) (b : List Byte) : BitVec 512 := putBytes old off b

/-- Every granule that is not stored whole is read first (R404). -/
def readGranules : List (StorePart × Nat × List Byte) → Nat → M (List Piece)
  | [], _ => pure []
  | p :: rest, n => do
    let id ← majRead p.1.m p.1.va true
    let l ← readGranules rest (n + 1)
    pure ({ msg := some id, pos := 64 * n, len := 64, va := p.1.va } :: l)

/-- The pieces of a majority store from the one of a number on: each is stamped and sent, one in a tick (R402). `stage`
counts the pieces sent; `n` counts the granules that were read. A later piece of a granule goes into what an earlier piece of
the store has made of it (`known`, R192: the rows in order). -/
def sendGranules (old : List Byte) (known : List (Nat × BitVec 512)) :
    List (StorePart × Nat × List Byte) → Nat → Nat → M Unit
  | [], _, _ => pure ()
  | p :: rest, i, n => do
    let s ← get
    let whole := p.2.2.length == 64
    let read : BitVec 512 := if whole then 0 else ofBytes 512 ((old.drop (64 * n)).take 64)
    let new := mergeGranule ((assoc known (p.1.m.pa / 64)).getD read) p.2.1 p.2.2
    if s.me.prog.stage ≤ i then
      majStore p.1.m p.1.va new
      modify fun s => s.updMe fun t => { t with prog := { t.prog with stage := i + 1, data := some old } }
    sendGranules old ((p.1.m.pa / 64, new) :: known) rest (i + 1) (if whole then n else n + 1)

/-- The majority parts of a store, with its normal parts (R191, R192, R402, R404): the granules that are not stored whole
are read, every piece is checked, and the normal parts are written with the first piece. From then on the store goes to
its end, a halt notwithstanding (`prog.data` is held, R88, R191). A store of several pieces, or of rows (`wait`),
completes with the last of them. -/
def storeMaj (hint : Hint) (normal : List StorePart) (pieces : List (StorePart × Nat × List Byte)) (wait : Bool) : M Unit := do
  let s ← get
  let partial_ := pieces.filter fun p => p.2.2.length != 64
  if s.me.prog.stage = 0 ∧ s.me.prog.data.isNone ∧ !partial_.isEmpty then
    let l ← readGranules partial_ 0
    completeLoad l .hold 0 []
  else
    let old := s.me.prog.data.getD []
    if s.me.prog.stage = 0 then
      pieces.forM fun p => majCheck p.1.m p.1.va true true
      awaitStamp
      storeNormal hint normal
    sendGranules old [] pieces 0 0
    let s ← get
    if wait && s.majOut s.issuer.1 s.issuer.2 then keepOn .majOut false

/-- A store of parts, each within one sector and one granule (R82 to R87, R192). `wait`: it completes with its last
majority piece. -/
def storeGlobal (ext maj : Bool) (hint : Hint) (parts : List (Nat × List Byte)) (srcs : List Reg) (wait : Bool := false) :
    M Unit := do
  let ps ← mapStores ext maj parts
  let normal := ps.filter fun p => p.m.ty = .normal
  let s ← get
  if s.me.prog.stage = 0 then fetchForStore hint normal
  if (majPieces ps).isEmpty then storeNormal hint normal else storeMaj hint normal (majPieces ps) wait
  (ps.filter fun p => p.m.ty = .device).forM fun p => do
    let _ ← sendMsg none (.device (p.m.pa - 2 ^ 49) (some (BitVec.ofNat 64 (ofLe p.bytes)))) p.va
  (ps.filter fun p => p.m.ty = .host ∨ p.m.ty = .peer).forM fun p => do
    let _ ← sendExternal p.m p.va (.write p.bytes) none
  finish srcs

end Sys2Proof.Machine
end

