-- ==== Sys2Proof/Machine/Command.lean ====
section
/-! DEFINITION. Barrier objects (R149) and the geometry of engine commands (R286 to R297). -/

namespace Sys2Proof.Machine

/-! ## Barrier objects (R149) -/

/-- The fields of a barrier object. -/
structure BarrierObj where
  expected : Nat := 0
  arrived : Nat := 0
  phase : Byte := 0
  armed : Byte := 0
deriving DecidableEq, Repr

/-- A barrier object in a core's scratchpad. -/
def Core.barrier (x : Core) (a : Nat) : BarrierObj :=
  { expected := ofLe (x.spad.read a 4), arrived := ofLe (x.spad.read (a + 4) 4)
    phase := x.spad.read1 (a + 8), armed := x.spad.read1 (a + 9) }

/-- Write a barrier object's bytes 0 to 9. -/
def Core.setBarrier (x : Core) (a : Nat) (b : BarrierObj) : Core :=
  x.writeSpad a (leBytes 4 b.expected ++ leBytes 4 b.arrived ++ [b.phase, b.armed])

/-- A flip, when it is due (R149). -/
def BarrierObj.flip (b : BarrierObj) : BarrierObj :=
  if b.armed = 1 ∧ b.expected ≤ b.arrived then
    { b with arrived := b.arrived - b.expected, phase := b.phase + 1, armed := 0 }
  else b

/-- Bytes counted: ARRIVED stays at 2^32 - 1 when the count would pass it, and then no flip is made by the
bytes beyond (R149). -/
def BarrierObj.count (b : BarrierObj) (n : Nat) : BarrierObj :=
  BarrierObj.flip { b with arrived := min (2 ^ 32 - 1) (b.arrived + n) }

/-- Count bytes into a barrier object of a core, in one step (R149). -/
def Core.countBytes (x : Core) (a n : Nat) : Core := if n = 0 then x else x.setBarrier a ((x.barrier a).count n)

/-! ## Commands -/

/-- Pieces of a range that is cut at every 128-byte boundary (R286). -/
def linesOf (a n : Nat) : Nat := ceilDiv (a % 128 + n) 128

/-- The cores that a mask names. -/
def maskCores (m : BitVec 4) : List (Fin 4) := (List.finRange 4).filter fun i => m.getLsbD i.val

/-- The address that a copy's destination is cut by. -/
def Place.addr : Place → Nat
  | .loc a => a
  | .glob a => a

/-- Pieces that a command consists of: packets, elements or lines (R286, R290 to R292). A scan has no pieces
of its own: its channels are counted in `done`. -/
def CmdKind.pieces : CmdKind → Nat
  | .copy dst _ len _ _ => linesOf dst.addr len
  | .multicast mask dst _ len => (maskCores mask).length * linesOf dst len
  | .gather _ _ _ count _ => count
  | .scan _ _ _ _ _ _ _ _ _ => 0
  | .prefetch _ _ rows lines _ => rows * lines
  | .clean base len _ => if len = 0 then 0 else linesOf base len

/-- A command of the core's copy engine (R286). -/
def CmdKind.isCopy : CmdKind → Bool
  | .copy _ _ _ _ _ => true
  | .multicast _ _ _ _ => true
  | _ => false

/-- Every source byte of a command has been read, every line requested or handled (R145, R290, R291). -/
def Cmd.sourcesRead (m : Cmd) : Bool :=
  match m.kind with
  | .scan _ _ _ _ _ _ _ _ _ => false
  | .gather _ _ _ count _ => count ≤ m.done.length + m.chans.length
  | k => k.pieces ≤ m.done.length

/-- Copy commands that hold a queue entry (R286). -/
def Core.copies (x : Core) : Nat := (x.cmds.filter fun m => m.kind.isCopy).length

/-- A command of the slot that a fence of class `.eng` waits for (R145). -/
def Core.engineBusy (x : Core) (k : Slot) : Bool := x.cmds.any fun m => m.slot == k && !m.gone && !m.sourcesRead

/-- A command of a core. -/
def Core.cmd (x : Core) (id : Nat) : Option Cmd := x.cmds.find? fun m => m.id == id

/-- A core with a command changed. -/
def Core.updCmd (x : Core) (id : Nat) (f : Cmd → Cmd) : Core := { x with cmds := mapIf (fun m => m.id == id) f x.cmds }

/-- A core without a command. -/
def Core.dropCmd (x : Core) (id : Nat) : Core := { x with cmds := x.cmds.filter fun m => m.id != id }

end Sys2Proof.Machine
end

