-- ==== Sys2Proof/Decode.lean ====
section
/-! DEFINITION. The decoder, total on any bytes and rejecting by name, and the encoder, both from the
encoding tables of 06_encoding_and_opcode_map.md. A word is six fields (R60): bits 31:25, 24:20, 19:15,
14:12, 11:7 and 6:0. -/

namespace Sys2Proof

/-- Why a word is no instruction (R74 steps 1 to 3): each is an illegal instruction. -/
inductive DecodeError
  | bytes        -- fewer than four bytes
  | major        -- bits 1:0 or the major opcode (R61)
  | funct        -- an unassigned funct3, op or sub-op
  | zeroField    -- a field that must be zero is not
  | subField     -- a sub-field code that R64 to R71 mark illegal
deriving DecidableEq, Repr

/-- Bits `lo + n - 1 : lo` of a bit vector. -/
@[reducible] def fld {w : Nat} (x : BitVec w) (lo n : Nat) : BitVec n := x.extractLsb' lo n

/-- One bit from a Boolean. -/
def bit (b : Bool) : BitVec 1 := BitVec.ofBool b

/-- A word from its six fields (R60). -/
def mk (f7 : BitVec 7) (rs2 rs1 : Reg) (f3 : BitVec 3) (rd : Reg) (op : BitVec 7) : BitVec 32 :=
  f7 ++ rs2 ++ rs1 ++ f3 ++ rd ++ op

def Scope.code : Scope → BitVec 3
  | .thr => 0 | .core => 1 | .clu => 2 | .die => 3 | .pkg => 4 | .sys => 5
def Scope.ofCode : BitVec 3 → Option Scope
  | 0b000 => some .thr | 0b001 => some .core | 0b010 => some .clu | 0b011 => some .die
  | 0b100 => some .pkg | 0b101 => some .sys | _ => none
def AmoScope.code : AmoScope → BitVec 2
  | .clu => 0 | .die => 1 | .pkg => 2 | .sys => 3
def AmoScope.ofCode : BitVec 2 → AmoScope
  | 0b00 => .clu | 0b01 => .die | 0b10 => .pkg | 0b11 => .sys
def Hint.code : Hint → BitVec 2
  | .norm => 0 | .keep => 1 | .strm => 2 | .noal => 3
def Hint.ofCode : BitVec 2 → Hint
  | 0b00 => .norm | 0b01 => .keep | 0b10 => .strm | 0b11 => .noal
def ElemFmt.code : ElemFmt → BitVec 5
  | .f32 => 0 | .bf16 => 1 | .f16 => 2 | .e4m3 => 3 | .e5m2 => 4 | .e3m2 => 5 | .e2m3 => 6
  | .e2m1 => 7 | .i32 => 8 | .i16 => 9 | .i8 => 10 | .i4 => 11
def ElemFmt.ofCode : BitVec 5 → Option ElemFmt
  | 0b00000 => some .f32 | 0b00001 => some .bf16 | 0b00010 => some .f16 | 0b00011 => some .e4m3
  | 0b00100 => some .e5m2 | 0b00101 => some .e3m2 | 0b00110 => some .e2m3 | 0b00111 => some .e2m1
  | 0b01000 => some .i32 | 0b01001 => some .i16 | 0b01010 => some .i8 | 0b01011 => some .i4
  | _ => none
def NarrowFmt.code : NarrowFmt → BitVec 3
  | .e4m3 => 0 | .e5m2 => 1 | .e3m2 => 2 | .e2m3 => 3 | .e2m1 => 4
def NarrowFmt.ofCode : BitVec 3 → Option NarrowFmt
  | 0b000 => some .e4m3 | 0b001 => some .e5m2 | 0b010 => some .e3m2 | 0b011 => some .e2m3
  | 0b100 => some .e2m1 | _ => none
def WideType.code : WideType → BitVec 2
  | .f32 => 0 | .bf16 => 1 | .f16 => 2
def WideType.ofCode : BitVec 2 → Option WideType
  | 0b00 => some .f32 | 0b01 => some .bf16 | 0b10 => some .f16 | _ => none
def Conv.code : Conv → BitVec 3
  | .rne => 0 | .rtz => 1 | .rs => 2 | .rnen => 4 | .rtzn => 5 | .rsn => 6
def Conv.ofCode : BitVec 3 → Option Conv
  | 0b000 => some .rne | 0b001 => some .rtz | 0b010 => some .rs | 0b100 => some .rnen
  | 0b101 => some .rtzn | 0b110 => some .rsn | _ => none
def TileType.code : TileType → BitVec 4
  | .e2m1 => 0 | .e3m2 => 1 | .e2m3 => 2 | .e4m3 => 3 | .e5m2 => 4 | .i4 => 5 | .i8 => 6 | .bf16 => 7
  | .f16 => 8 | .f32 => 9 | .q4g => 10 | .q8g => 11 | .fmt => 15
def TileType.ofCode : BitVec 4 → Option TileType
  | 0b0000 => some .e2m1 | 0b0001 => some .e3m2 | 0b0010 => some .e2m3 | 0b0011 => some .e4m3
  | 0b0100 => some .e5m2 | 0b0101 => some .i4 | 0b0110 => some .i8 | 0b0111 => some .bf16
  | 0b1000 => some .f16 | 0b1001 => some .f32 | 0b1010 => some .q4g | 0b1011 => some .q8g
  | 0b1111 => some .fmt | _ => none
def ElemSize.code : ElemSize → BitVec 2
  | .b8 => 0 | .b16 => 1 | .b32 => 2 | .b64 => 3
def ElemSize.ofCode : BitVec 2 → ElemSize
  | 0b00 => .b8 | 0b01 => .b16 | 0b10 => .b32 | 0b11 => .b64
def VType.code : VType → BitVec 3
  | .f32 => 0 | .bf16 => 1 | .f16 => 2 | .i32 => 4 | .i16 => 5 | .i8 => 6
def VType.ofCode : BitVec 3 → Option VType
  | 0b000 => some .f32 | 0b001 => some .bf16 | 0b010 => some .f16 | 0b100 => some .i32
  | 0b101 => some .i16 | 0b110 => some .i8 | _ => none
def LocMode.code : LocMode → BitVec 2
  | .own => 0 | .csel => 1 | .ilv => 2
def LocMode.ofCode : BitVec 2 → Option LocMode
  | 0b00 => some .own | 0b01 => some .csel | 0b10 => some .ilv | _ => none
def MemSize.code : MemSize → BitVec 2
  | .b => 0 | .h => 1 | .w => 2 | .d => 3
def MemSize.ofCode : BitVec 2 → MemSize
  | 0b00 => .b | 0b01 => .h | 0b10 => .w | 0b11 => .d
def AmoOrd.code : AmoOrd → BitVec 3
  | .relaxed => 0 | .wk1 => 1 | .wkall => 2 | .acq => 3 | .rel => 4 | .relWk1 => 5 | .relWkall => 6
def AmoOrd.ofCode : BitVec 3 → Option AmoOrd
  | 0b000 => some .relaxed | 0b001 => some .wk1 | 0b010 => some .wkall | 0b011 => some .acq
  | 0b100 => some .rel | 0b101 => some .relWk1 | 0b110 => some .relWkall | _ => none
def FenceClass.code : FenceClass → BitVec 3
  | .all => 7 | .ld => 1 | .st => 2 | .mem => 3 | .eng => 4
def FenceClass.ofCode : BitVec 3 → Option FenceClass
  | 0b111 => some .all | 0b001 => some .ld | 0b010 => some .st | 0b011 => some .mem
  | 0b100 => some .eng | _ => none
def TokLevel.code : TokLevel → BitVec 2
  | .end1 => 1 | .end2 => 2 | .end3 => 3
def TokLevel.ofCode : BitVec 2 → Option TokLevel
  | 0b01 => some .end1 | 0b10 => some .end2 | 0b11 => some .end3 | _ => none
def Cond.code : Cond → BitVec 2
  | .eq => 0 | .ne => 1 | .lt => 2 | .le => 3
def Cond.ofCode : BitVec 2 → Cond
  | 0b00 => .eq | 0b01 => .ne | 0b10 => .lt | 0b11 => .le
def RedOp.code : RedOp → BitVec 2
  | .add => 0 | .min => 1 | .max => 2
def RedOp.ofCode : BitVec 2 → Option RedOp
  | 0b00 => some .add | 0b01 => some .min | 0b10 => some .max | _ => none
def Affinity.code : Affinity → BitVec 3
  | .core => 1 | .clu => 2 | .die => 3 | .pkg => 4
def Affinity.ofCode : BitVec 3 → Option Affinity
  | 0b001 => some .core | 0b010 => some .clu | 0b011 => some .die | 0b100 => some .pkg | _ => none

/-- The word of an instruction, from the layouts of R60 and the tables of R62, R65 to R71; a device step
has no word. -/
def encode : Instr → Option (BitVec 32)
  | .lui d imm => some (mk (fld imm 13 7) (fld imm 8 5) (fld imm 3 5) (fld imm 0 3) (d) 0b0110111#7)
  | .auipc d imm => some (mk (fld imm 13 7) (fld imm 8 5) (fld imm 3 5) (fld imm 0 3) (d) 0b0010111#7)
  | .jal d off => some (mk (fld off 19 1 ++ fld off 4 6) (fld off 0 4 ++ fld off 10 1) (fld off 14 5) (fld off 11 3) (d) 0b1101111#7)
  | .jalr d a imm => some (mk (fld imm 5 7) (fld imm 0 5) (a) (0#3) (d) 0b1100111#7)
  | .beq a b off => some (mk (fld off 11 1 ++ fld off 4 6) (b) (a) (0#3) (fld off 0 4 ++ fld off 10 1) 0b1100011#7)
  | .bne a b off => some (mk (fld off 11 1 ++ fld off 4 6) (b) (a) (1#3) (fld off 0 4 ++ fld off 10 1) 0b1100011#7)
  | .blt a b off => some (mk (fld off 11 1 ++ fld off 4 6) (b) (a) (4#3) (fld off 0 4 ++ fld off 10 1) 0b1100011#7)
  | .bge a b off => some (mk (fld off 11 1 ++ fld off 4 6) (b) (a) (5#3) (fld off 0 4 ++ fld off 10 1) 0b1100011#7)
  | .bltu a b off => some (mk (fld off 11 1 ++ fld off 4 6) (b) (a) (6#3) (fld off 0 4 ++ fld off 10 1) 0b1100011#7)
  | .bgeu a b off => some (mk (fld off 11 1 ++ fld off 4 6) (b) (a) (7#3) (fld off 0 4 ++ fld off 10 1) 0b1100011#7)
  | .lb d a imm => some (mk (fld imm 5 7) (fld imm 0 5) (a) (0#3) (d) 0b0000011#7)
  | .lh d a imm => some (mk (fld imm 5 7) (fld imm 0 5) (a) (1#3) (d) 0b0000011#7)
  | .lw d a imm => some (mk (fld imm 5 7) (fld imm 0 5) (a) (2#3) (d) 0b0000011#7)
  | .ld d a imm => some (mk (fld imm 5 7) (fld imm 0 5) (a) (3#3) (d) 0b0000011#7)
  | .lbu d a imm => some (mk (fld imm 5 7) (fld imm 0 5) (a) (4#3) (d) 0b0000011#7)
  | .lhu d a imm => some (mk (fld imm 5 7) (fld imm 0 5) (a) (5#3) (d) 0b0000011#7)
  | .lwu d a imm => some (mk (fld imm 5 7) (fld imm 0 5) (a) (6#3) (d) 0b0000011#7)
  | .sb a b imm => some (mk (fld imm 5 7) (b) (a) (0#3) (fld imm 0 5) 0b0100011#7)
  | .sh a b imm => some (mk (fld imm 5 7) (b) (a) (1#3) (fld imm 0 5) 0b0100011#7)
  | .sw a b imm => some (mk (fld imm 5 7) (b) (a) (2#3) (fld imm 0 5) 0b0100011#7)
  | .sd a b imm => some (mk (fld imm 5 7) (b) (a) (3#3) (fld imm 0 5) 0b0100011#7)
  | .addi d a imm => some (mk (fld imm 5 7) (fld imm 0 5) (a) (0#3) (d) 0b0010011#7)
  | .slti d a imm => some (mk (fld imm 5 7) (fld imm 0 5) (a) (2#3) (d) 0b0010011#7)
  | .sltiu d a imm => some (mk (fld imm 5 7) (fld imm 0 5) (a) (3#3) (d) 0b0010011#7)
  | .xori d a imm => some (mk (fld imm 5 7) (fld imm 0 5) (a) (4#3) (d) 0b0010011#7)
  | .ori d a imm => some (mk (fld imm 5 7) (fld imm 0 5) (a) (6#3) (d) 0b0010011#7)
  | .andi d a imm => some (mk (fld imm 5 7) (fld imm 0 5) (a) (7#3) (d) 0b0010011#7)
  | .slli d a sh => some (mk (0#6 ++ fld sh 5 1) (fld sh 0 5) (a) (1#3) (d) 0b0010011#7)
  | .srli d a sh => some (mk (0#6 ++ fld sh 5 1) (fld sh 0 5) (a) (5#3) (d) 0b0010011#7)
  | .srai d a sh => some (mk (16#6 ++ fld sh 5 1) (fld sh 0 5) (a) (5#3) (d) 0b0010011#7)
  | .add d a b => some (mk (0#7) (b) (a) (0#3) (d) 0b0110011#7)
  | .sll d a b => some (mk (0#7) (b) (a) (1#3) (d) 0b0110011#7)
  | .slt d a b => some (mk (0#7) (b) (a) (2#3) (d) 0b0110011#7)
  | .sltu d a b => some (mk (0#7) (b) (a) (3#3) (d) 0b0110011#7)
  | .xor d a b => some (mk (0#7) (b) (a) (4#3) (d) 0b0110011#7)
  | .srl d a b => some (mk (0#7) (b) (a) (5#3) (d) 0b0110011#7)
  | .or d a b => some (mk (0#7) (b) (a) (6#3) (d) 0b0110011#7)
  | .and d a b => some (mk (0#7) (b) (a) (7#3) (d) 0b0110011#7)
  | .sub d a b => some (mk (32#7) (b) (a) (0#3) (d) 0b0110011#7)
  | .sra d a b => some (mk (32#7) (b) (a) (5#3) (d) 0b0110011#7)
  | .mul d a b => some (mk (1#7) (b) (a) (0#3) (d) 0b0110011#7)
  | .mulh d a b => some (mk (1#7) (b) (a) (1#3) (d) 0b0110011#7)
  | .mulhsu d a b => some (mk (1#7) (b) (a) (2#3) (d) 0b0110011#7)
  | .mulhu d a b => some (mk (1#7) (b) (a) (3#3) (d) 0b0110011#7)
  | .div d a b => some (mk (1#7) (b) (a) (4#3) (d) 0b0110011#7)
  | .divu d a b => some (mk (1#7) (b) (a) (5#3) (d) 0b0110011#7)
  | .rem d a b => some (mk (1#7) (b) (a) (6#3) (d) 0b0110011#7)
  | .remu d a b => some (mk (1#7) (b) (a) (7#3) (d) 0b0110011#7)
  | .addiw d a imm => some (mk (fld imm 5 7) (fld imm 0 5) (a) (0#3) (d) 0b0011011#7)
  | .slliw d a sh => some (mk (0#7) (sh) (a) (1#3) (d) 0b0011011#7)
  | .srliw d a sh => some (mk (0#7) (sh) (a) (5#3) (d) 0b0011011#7)
  | .sraiw d a sh => some (mk (32#7) (sh) (a) (5#3) (d) 0b0011011#7)
  | .addw d a b => some (mk (0#7) (b) (a) (0#3) (d) 0b0111011#7)
  | .sllw d a b => some (mk (0#7) (b) (a) (1#3) (d) 0b0111011#7)
  | .srlw d a b => some (mk (0#7) (b) (a) (5#3) (d) 0b0111011#7)
  | .subw d a b => some (mk (32#7) (b) (a) (0#3) (d) 0b0111011#7)
  | .sraw d a b => some (mk (32#7) (b) (a) (5#3) (d) 0b0111011#7)
  | .mulw d a b => some (mk (1#7) (b) (a) (0#3) (d) 0b0111011#7)
  | .divw d a b => some (mk (1#7) (b) (a) (4#3) (d) 0b0111011#7)
  | .divuw d a b => some (mk (1#7) (b) (a) (5#3) (d) 0b0111011#7)
  | .remw d a b => some (mk (1#7) (b) (a) (6#3) (d) 0b0111011#7)
  | .remuw d a b => some (mk (1#7) (b) (a) (7#3) (d) 0b0111011#7)
  | .fence imm a d => some (mk (fld imm 5 7) (fld imm 0 5) (a) (0#3) (d) 0b0001111#7)
  | .fenceI imm a d => some (mk (fld imm 5 7) (fld imm 0 5) (a) (1#3) (d) 0b0001111#7)
  | .ecall => some (mk (0#7) (0#5) (0#5) (0#3) (0#5) 0b1110011#7)
  | .ebreak => some (mk (0#7) (1#5) (0#5) (0#3) (0#5) 0b1110011#7)
  | .csrrw d a csr => some (mk (fld csr 5 7) (fld csr 0 5) (a) (1#3) (d) 0b1110011#7)
  | .csrrs d a csr => some (mk (fld csr 5 7) (fld csr 0 5) (a) (2#3) (d) 0b1110011#7)
  | .csrrc d a csr => some (mk (fld csr 5 7) (fld csr 0 5) (a) (3#3) (d) 0b1110011#7)
  | .csrrwi d u csr => some (mk (fld csr 5 7) (fld csr 0 5) (u) (5#3) (d) 0b1110011#7)
  | .csrrsi d u csr => some (mk (fld csr 5 7) (fld csr 0 5) (u) (6#3) (d) 0b1110011#7)
  | .csrrci d u csr => some (mk (fld csr 5 7) (fld csr 0 5) (u) (7#3) (d) 0b1110011#7)
  | .rep count mask step => some (mk (count ++ fld mask 2 1) (fld mask 0 2 ++ step ++ 0#1) (0#5) (0#3) (0#5) 0b1111011#7)
  | .bfx d a b => some (mk (0#7) (b) (a) (1#3) (d) 0b1111011#7)
  | .bfxu d a b => some (mk (1#7) (b) (a) (1#3) (d) 0b1111011#7)
  | .bfi d a b => some (mk (2#7) (b) (a) (1#3) (d) 0b1111011#7)
  | .clz d a => some (mk (0#7) (0#5) (a) (2#3) (d) 0b1111011#7)
  | .ctz d a => some (mk (1#7) (0#5) (a) (2#3) (d) 0b1111011#7)
  | .cpop d a => some (mk (2#7) (0#5) (a) (2#3) (d) 0b1111011#7)
  | .rev8 d a => some (mk (3#7) (0#5) (a) (2#3) (d) 0b1111011#7)
  | .ldl d a size mode u => some (mk (0#2 ++ size.code ++ mode.code ++ bit u) (0#5) (a) (3#3) (d) 0b1111011#7)
  | .stl a b size mode => some (mk (1#2 ++ size.code ++ mode.code ++ 0#1) (b) (a) (3#3) (0#5) 0b1111011#7)
  | .ldh d a size hint u => some (mk (2#2 ++ size.code ++ hint.code ++ bit u) (0#5) (a) (3#3) (d) 0b1111011#7)
  | .sth a b size hint => some (mk (3#2 ++ size.code ++ hint.code ++ 0#1) (b) (a) (3#3) (0#5) 0b1111011#7)
  | .amoadd d b a dbl ord scope => some (mk (0#4 ++ ord.code) (scope.code ++ fld (b : BitVec 4) 1 3) (fld (b : BitVec 4) 0 1 ++ a) (4#3) (bit dbl ++ d) 0b1111011#7)
  | .amoand d b a dbl ord scope => some (mk (1#4 ++ ord.code) (scope.code ++ fld (b : BitVec 4) 1 3) (fld (b : BitVec 4) 0 1 ++ a) (4#3) (bit dbl ++ d) 0b1111011#7)
  | .amoor d b a dbl ord scope => some (mk (2#4 ++ ord.code) (scope.code ++ fld (b : BitVec 4) 1 3) (fld (b : BitVec 4) 0 1 ++ a) (4#3) (bit dbl ++ d) 0b1111011#7)
  | .amoxor d b a dbl ord scope => some (mk (3#4 ++ ord.code) (scope.code ++ fld (b : BitVec 4) 1 3) (fld (b : BitVec 4) 0 1 ++ a) (4#3) (bit dbl ++ d) 0b1111011#7)
  | .amomin d b a dbl ord scope => some (mk (4#4 ++ ord.code) (scope.code ++ fld (b : BitVec 4) 1 3) (fld (b : BitVec 4) 0 1 ++ a) (4#3) (bit dbl ++ d) 0b1111011#7)
  | .amomax d b a dbl ord scope => some (mk (5#4 ++ ord.code) (scope.code ++ fld (b : BitVec 4) 1 3) (fld (b : BitVec 4) 0 1 ++ a) (4#3) (bit dbl ++ d) 0b1111011#7)
  | .amominu d b a dbl ord scope => some (mk (6#4 ++ ord.code) (scope.code ++ fld (b : BitVec 4) 1 3) (fld (b : BitVec 4) 0 1 ++ a) (4#3) (bit dbl ++ d) 0b1111011#7)
  | .amomaxu d b a dbl ord scope => some (mk (7#4 ++ ord.code) (scope.code ++ fld (b : BitVec 4) 1 3) (fld (b : BitVec 4) 0 1 ++ a) (4#3) (bit dbl ++ d) 0b1111011#7)
  | .amoswap d b a dbl ord scope => some (mk (8#4 ++ ord.code) (scope.code ++ fld (b : BitVec 4) 1 3) (fld (b : BitVec 4) 0 1 ++ a) (4#3) (bit dbl ++ d) 0b1111011#7)
  | .amocas d b a dbl ord scope => some (mk (9#4 ++ ord.code) (scope.code ++ fld (b : BitVec 4) 1 3) (fld (b : BitVec 4) 0 1 ++ a) (4#3) (bit dbl ++ d) 0b1111011#7)
  | .amodecp d a dbl ord scope => some (mk (10#4 ++ ord.code) (scope.code ++ fld (0#4 : BitVec 4) 1 3) (fld (0#4 : BitVec 4) 0 1 ++ a) (4#3) (bit dbl ++ d) 0b1111011#7)
  | .amofadd d b a dbl ord scope => some (mk (11#4 ++ ord.code) (scope.code ++ fld (b : BitVec 4) 1 3) (fld (b : BitVec 4) 0 1 ++ a) (4#3) (bit dbl ++ d) 0b1111011#7)
  | .fnc scope cls => some (mk (0#4 ++ scope.code) (0#2 ++ cls.code) (0#5) (5#3) (0#5) 0b1111011#7)
  | .ldaq d a dbl scope => some (mk (1#3 ++ bit dbl ++ scope.code) (0#5) (a) (5#3) (d) 0b1111011#7)
  | .strl a b dbl scope => some (mk (2#3 ++ bit dbl ++ scope.code) (b) (a) (5#3) (0#5) 0b1111011#7)
  | .l1wb a b scope => some (mk (3#3 ++ 0#1 ++ scope.code) (b) (a) (5#3) (0#5) 0b1111011#7)
  | .l1inv a b scope => some (mk (4#3 ++ 0#1 ++ scope.code) (b) (a) (5#3) (0#5) 0b1111011#7)
  | .boinit a b => some (mk (0#7) (b) (a) (6#3) (0#5) 0b1111011#7)
  | .boexp a b => some (mk (1#7) (b) (a) (6#3) (0#5) 0b1111011#7)
  | .boarr a b => some (mk (2#7) (b) (a) (6#3) (0#5) 0b1111011#7)
  | .trecv d a => some (mk (0#7) (0#5) (a) (7#3) (d) 0b1111011#7)
  | .tresume a => some (mk (1#7) (0#5) (a) (7#3) (0#5) 0b1111011#7)
  | .tkill a => some (mk (2#7) (0#5) (a) (7#3) (0#5) 0b1111011#7)
  | .tstep a => some (mk (3#7) (0#5) (a) (7#3) (0#5) 0b1111011#7)
  | .qmap p ring out num => some (mk (0#4 ++ bit ring ++ bit out ++ 0#1) (0#5) (num) (0#3) (p) 0b0001011#7)
  | .qunmap p => some (mk (1#4 ++ 0#3) (0#5) (0#5) (0#3) (p) 0b0001011#7)
  | .qtok p level => some (mk (2#4 ++ 0#3) (0#3 ++ level.code) (0#5) (0#3) (p) 0b0001011#7)
  | .qpeek d p => some (mk (3#4 ++ 0#3) (0#5) (p) (0#3) (d) 0b0001011#7)
  | .qstat d p => some (mk (4#4 ++ 0#3) (0#5) (p) (0#3) (d) 0b0001011#7)
  | .qbtok p level off => some (mk (fld off 11 1 ++ fld off 4 6) (0#3 ++ level.code) (p) (1#3) (fld off 0 4 ++ fld off 10 1) 0b0001011#7)
  | .rwaitf h c => some (mk (0#4 ++ 0#3) (c) (0#2 ++ h) (2#3) (0#5) 0b0001011#7)
  | .rwaite h c => some (mk (1#4 ++ 0#3) (c) (0#2 ++ h) (2#3) (0#5) 0b0001011#7)
  | .radvc h c => some (mk (2#4 ++ 0#3) (c) (0#2 ++ h) (2#3) (0#5) 0b0001011#7)
  | .radvp h c => some (mk (3#4 ++ 0#3) (c) (0#2 ++ h) (2#3) (0#5) 0b0001011#7)
  | .rslot d h c => some (mk (4#4 ++ 0#3) (c) (0#2 ++ h) (2#3) (d) 0b0001011#7)
  | .rseq d h => some (mk (5#4 ++ 0#3) (0#5) (0#2 ++ h) (2#3) (d) 0b0001011#7)
  | .send m a b => some (mk (0#7) (b) (a) (3#3) (0#2 ++ m) 0b0001011#7)
  | .mrecv d m => some (mk (1#7) (0#5) (0#2 ++ m) (3#3) (d) 0b0001011#7)
  | .mtest d m => some (mk (2#7) (0#5) (0#2 ++ m) (3#3) (d) 0b0001011#7)
  | .spawn d a aff => some (mk (0#4 ++ aff.code) (0#5) (a) (4#3) (d) 0b0001011#7)
  | .tret => some (mk (1#4 ++ 0#3) (0#5) (0#5) (4#3) (0#5) 0b0001011#7)
  | .yield => some (mk (2#4 ++ 0#3) (0#5) (0#5) (4#3) (0#5) 0b0001011#7)
  | .waita d a b dbl => some (mk (0#4 ++ bit dbl ++ 0#2) (b) (a) (5#3) (d) 0b0001011#7)
  | .notify d a all => some (mk (1#4 ++ 0#1 ++ bit all ++ 0#1) (0#5) (a) (5#3) (d) 0b0001011#7)
  | .bowait a b => some (mk (2#4 ++ 0#3) (b) (a) (5#3) (0#5) 0b0001011#7)
  | .reduce v tree a => some (mk (0#7) (0#1 ++ tree) (a) (6#3) (v) 0b0001011#7)
  | .align id => some (mk (0#4 ++ 0#3) (0#1 ++ id) (0#5) (7#3) (0#5) 0b0001011#7)
  | .ipf a count => some (mk (1#4 ++ 0#3) (0#1 ++ count) (a) (7#3) (0#5) 0b0001011#7)
  | .vadd ty d a b k => some (mk (0#4 ++ k) (b) (a) (ty.code) (d) 0b0101011#7)
  | .vsub ty d a b k => some (mk (1#4 ++ k) (b) (a) (ty.code) (d) 0b0101011#7)
  | .vmul ty d a b k => some (mk (2#4 ++ k) (b) (a) (ty.code) (d) 0b0101011#7)
  | .vma ty d a b k => some (mk (3#4 ++ k) (b) (a) (ty.code) (d) 0b0101011#7)
  | .vmin ty d a b k => some (mk (4#4 ++ k) (b) (a) (ty.code) (d) 0b0101011#7)
  | .vmax ty d a b k => some (mk (5#4 ++ k) (b) (a) (ty.code) (d) 0b0101011#7)
  | .vdiv d a b k => some (mk (6#4 ++ k) (b) (a) (0#3) (d) 0b0101011#7)
  | .vsll ty d a b k => some (mk (7#4 ++ k) (b) (a) (ty.code) (d) 0b0101011#7)
  | .vsrl ty d a b k => some (mk (8#4 ++ k) (b) (a) (ty.code) (d) 0b0101011#7)
  | .vsra ty d a b k => some (mk (9#4 ++ k) (b) (a) (ty.code) (d) 0b0101011#7)
  | .vcmp ty cond kd a b k => some (mk (10#4 ++ k) (b) (a) (ty.code) (cond.code ++ kd) 0b0101011#7)
  | .vsel ty d a b ks => some (mk (11#4 ++ ks) (b) (a) (ty.code) (d) 0b0101011#7)
  | .vred ty op d a k => some (mk (12#4 ++ k) (0#3 ++ op.code) (a) (ty.code) (d) 0b0101011#7)
  | .vscan ty op d a k => some (mk (13#4 ++ k) (0#3 ++ op.code) (a) (ty.code) (d) 0b0101011#7)
  | .vcvt ty conv src d a => some (mk (14#4 ++ conv.code) (src.code) (a) (ty.code) (d) 0b0101011#7)
  | .vabs ty d a k => some (mk (15#4 ++ k) (0#5) (a) (ty.code) (d) 0b0101011#7)
  | .vneg ty d a k => some (mk (15#4 ++ k) (1#5) (a) (ty.code) (d) 0b0101011#7)
  | .vsqrt d a k => some (mk (15#4 ++ k) (2#5) (a) (0#3) (d) 0b0101011#7)
  | .vrcp d a k => some (mk (15#4 ++ k) (3#5) (a) (0#3) (d) 0b0101011#7)
  | .vrsqrt d a k => some (mk (15#4 ++ k) (4#5) (a) (0#3) (d) 0b0101011#7)
  | .vexp2 d a k => some (mk (15#4 ++ k) (5#5) (a) (0#3) (d) 0b0101011#7)
  | .vlog2 d a k => some (mk (15#4 ++ k) (6#5) (a) (0#3) (d) 0b0101011#7)
  | .vsort ty d a k => some (mk (15#4 ++ k) (7#5) (a) (ty.code) (d) 0b0101011#7)
  | .vtrn ty d a k => some (mk (15#4 ++ k) (8#5) (a) (ty.code) (d) 0b0101011#7)
  | .vcomp ty d a k => some (mk (15#4 ++ k) (9#5) (a) (ty.code) (d) 0b0101011#7)
  | .vexpd ty d a k => some (mk (15#4 ++ k) (10#5) (a) (ty.code) (d) 0b0101011#7)
  | .vcvtNarrow nfmt conv wide d a => some (mk (0#4 ++ conv.code) (nfmt.code ++ wide.code) (a) (3#3) (d) 0b0101011#7)
  | .vqnt nfmt conv wide d a => some (mk (1#4 ++ conv.code) (nfmt.code ++ wide.code) (a) (3#3) (d) 0b0101011#7)
  | .vdq nfmt conv wide d a => some (mk (2#4 ++ conv.code) (nfmt.code ++ wide.code) (a) (3#3) (d) 0b0101011#7)
  | .vshape a b => some (mk (0#4 ++ 0#3) (b) (a) (7#3) (0#5) 0b0101011#7)
  | .vld v a b hint loc => some (mk (1#4 ++ hint.code ++ bit loc) (b) (a) (7#3) (v) 0b0101011#7)
  | .vst v a b hint loc => some (mk (2#4 ++ hint.code ++ bit loc) (b) (a) (7#3) (v) 0b0101011#7)
  | .vldx v a b hint loc => some (mk (3#4 ++ hint.code ++ bit loc) (b) (a) (7#3) (v) 0b0101011#7)
  | .vstx v a b hint loc => some (mk (4#4 ++ hint.code ++ bit loc) (b) (a) (7#3) (v) 0b0101011#7)
  | .vbc size d a => some (mk (5#4 ++ size.code ++ 0#1) (0#5) (a) (7#3) (d) 0b0101011#7)
  | .vins size d a b => some (mk (6#4 ++ size.code ++ 0#1) (b) (a) (7#3) (d) 0b0101011#7)
  | .vext size u d a b => some (mk (7#4 ++ size.code ++ bit u) (b) (a) (7#3) (d) 0b0101011#7)
  | .vmv d a k => some (mk (8#4 ++ k) (0#5) (a) (7#3) (d) 0b0101011#7)
  | .vand d a b k => some (mk (9#4 ++ k) (b) (a) (7#3) (d) 0b0101011#7)
  | .vor d a b k => some (mk (10#4 ++ k) (b) (a) (7#3) (d) 0b0101011#7)
  | .vxor d a b k => some (mk (11#4 ++ k) (b) (a) (7#3) (d) 0b0101011#7)
  | .vrot size d a b => some (mk (12#4 ++ size.code ++ 0#1) (b) (a) (7#3) (d) 0b0101011#7)
  | .vmatch size d a b => some (mk (13#4 ++ size.code ++ 0#1) (b) (a) (7#3) (d) 0b0101011#7)
  | .kand kd ka kb => some (mk (14#4 ++ 0#3) (0#2 ++ kb) (0#2 ++ ka) (7#3) (0#2 ++ kd) 0b0101011#7)
  | .kor kd ka kb => some (mk (14#4 ++ 1#3) (0#2 ++ kb) (0#2 ++ ka) (7#3) (0#2 ++ kd) 0b0101011#7)
  | .kxor kd ka kb => some (mk (14#4 ++ 2#3) (0#2 ++ kb) (0#2 ++ ka) (7#3) (0#2 ++ kd) 0b0101011#7)
  | .knot kd ka => some (mk (14#4 ++ 3#3) (0#5) (0#2 ++ ka) (7#3) (0#2 ++ kd) 0b0101011#7)
  | .kpop d ka => some (mk (14#4 ++ 4#3) (0#5) (0#2 ++ ka) (7#3) (d) 0b0101011#7)
  | .kfirst d ka => some (mk (14#4 ++ 5#3) (0#5) (0#2 ++ ka) (7#3) (d) 0b0101011#7)
  | .kmv kd ka => some (mk (14#4 ++ 6#3) (0#5) (0#2 ++ ka) (7#3) (0#2 ++ kd) 0b0101011#7)
  | .klen kd a => some (mk (14#4 ++ 7#3) (0#5) (a) (7#3) (0#2 ++ kd) 0b0101011#7)
  | .tcfg a => some (mk (0#7) (0#5) (a) (0#3) (0#5) 0b1011011#7)
  | .tzero acc => some (mk (1#7) (0#5) (0#5) (0#3) (acc) 0b1011011#7)
  | .twait acc => some (mk (2#7) (0#5) (0#5) (0#3) (acc) 0b1011011#7)
  | .tmma ty ga gb acc a b => some (mk (ty.code ++ bit ga ++ bit gb ++ 0#1) (b) (a) (1#3) (acc) 0b1011011#7)
  | .tmmac ty gb acc src b => some (mk (ty.code ++ 0#1 ++ bit gb ++ 0#1) (b) (src) (2#3) (acc) 0b1011011#7)
  | .tlda ty acc a b => some (mk (ty.code ++ 0#3) (b) (a) (3#3) (acc) 0b1011011#7)
  | .tsta ty acc a b => some (mk (ty.code ++ 1#3) (b) (a) (3#3) (acc) 0b1011011#7)
  | .tmov acc src => some (mk (0#4 ++ 2#3) (0#5) (src) (3#3) (acc) 0b1011011#7)
  | .put d a b rc ntf => some (mk (rc ++ 0#1 ++ bit ntf) (b) (a) (4#3) (d) 0b1011011#7)
  | .get d a b rc ntf => some (mk (rc ++ 1#1 ++ bit ntf) (b) (a) (4#3) (d) 0b1011011#7)
  | .putm d a b rc => some (mk (rc ++ 0#1 ++ 0#1) (b) (a) (5#3) (d) 0b1011011#7)
  | .getf d a b rc ntf => some (mk (rc ++ 1#1 ++ bit ntf) (b) (a) (5#3) (d) 0b1011011#7)
  | .gath d a b rc => some (mk (rc ++ 0#2) (b) (a) (6#3) (d) 0b1011011#7)
  | .kscan d a b rc => some (mk (rc ++ 1#2) (b) (a) (6#3) (d) 0b1011011#7)
  | .racfg a b => some (mk (0#5 ++ 2#2) (b) (a) (6#3) (0#5) 0b1011011#7)
  | .rastart qi qv => some (mk (1#5 ++ 2#2) (qv) (qi) (6#3) (0#5) 0b1011011#7)
  | .rastat d => some (mk (2#5 ++ 2#2) (0#5) (0#5) (6#3) (d) 0b1011011#7)
  | .crcfg a => some (mk (0#4 ++ 0#3) (0#5) (a) (7#3) (0#5) 0b1011011#7)
  | .crgo q => some (mk (1#4 ++ 0#3) (0#5) (q) (7#3) (0#5) 0b1011011#7)
  | .crstat d => some (mk (2#4 ++ 0#3) (0#5) (0#5) (7#3) (d) 0b1011011#7)
  | .pft hint a b => some (mk (3#4 ++ hint.code ++ 0#1) (b) (a) (7#3) (0#5) 0b1011011#7)
  | .cwb a b => some (mk (4#4 ++ 0#3) (b) (a) (7#3) (0#5) 0b1011011#7)
  | .cinv a b => some (mk (5#4 ++ 0#3) (b) (a) (7#3) (0#5) 0b1011011#7)
  | .l1dFill _ => none
  | .mscRequest _ => none
  | .stackReply _ => none
  | .writebackAtHome _ => none
  | .writebackAck _ => none
  | .atomicAtHome _ => none
  | .syncAccessAtHome _ => none
  | .waitaAtHome _ => none
  | .notifyAtHome _ => none
  | .fenceProbe _ => none
  | .echoArrival _ => none
  | .vaultAccess _ => none
  | .remoteScratchpadAccess _ => none
  | .deviceAccess _ => none
  | .sendDelivery _ => none
  | .sendRetry _ _ => none
  | .alignTimeout _ _ => none
  | .yieldExpiry _ _ => none
  | .ringCellWrite _ => none
  | .headMessage _ => none
  | .ringClaim _ => none
  | .boomReadAhead _ => none
  | .lbClone _ _ => none
  | .lbWithdraw _ => none
  | .cruiserEmit _ => none
  | .accelLookahead _ => none
  | .accelDeliver _ => none
  | .gatherRequest _ _ _ => none
  | .gatherLand _ _ => none
  | .copyPacketLand _ _ _ => none
  | .notifyWordWrite _ _ => none
  | .scanLine _ _ _ => none
  | .scanComplete _ _ => none
  | .prefetchLine _ _ _ => none
  | .maintenanceLine _ _ _ => none
  | .tileStep _ _ => none
  | .tileStepFault _ _ => none
  | .vaultRefusal _ _ => none
  | .engineFault _ _ => none
  | .tableWalk _ _ _ => none
  | .speculativeConfirm _ => none
  | .instructionFetchMiss _ => none
  | .fetchBlock _ _ => none
  | .packetSuspect _ _ _ => none
  | .tokenCapture _ _ => none
  | .skidHandover _ _ => none
  | .reduceInput _ => none
  | .routerForward _ _ _ => none
  | .redLimit _ _ _ => none
  | .rootDelivery _ _ => none
  | .takeEntry _ => none
  | .packetToDie _ => none
  | .dieSteal _ _ => none
  | .dispatch _ => none
  | .taskSteal _ _ => none
  | .taskMigrate _ _ => none
  | .graphStart _ => none
  | .nodeStart _ _ _ => none
  | .launchNodeComplete _ _ _ => none
  | .loopPassEnd _ _ _ => none
  | .completionObjectWrite _ _ _ => none
  | .preemptRequest _ => none
  | .contextSave _ => none
  | .resumeRequest _ _ => none
  | .opaqueSave _ => none
  | .kamgorAnswer _ _ => none
  | .supervisorTrap _ => none
  | .lqtailWrite _ _ => none
  | .lqcfgWrite _ _ => none
  | .registerWrite _ _ => none
  | .create => none
  | .endCtx => none
  | .map => none
  | .unmap => none
  | .windows => none
  | .tree => none
  | .attest => none
  | .hostApertureAccess _ _ _ _ => none
  | .hostRequest _ => none
  | .peerRequest _ => none
  | .peerLinkFail _ => none
  | .extentRelease _ _ => none
  | .accessTableWrite _ _ _ _ => none
  | .sliceRetire _ _ => none
  | .stubForward _ => none
  | .hotRowCapture _ _ => none
  | .captureWindowEnd => none
  | .majCopyAtStack _ => none
  | .majReply _ => none
  | .majReadReply _ => none
  | .stackOffline _ => none
  | .stackCatchup _ => none
  | .stackFailed _ => none
  | .catchupGranule _ => none
  | .scrubVisit _ _ => none
  | .dfreqTgtWrite _ _ => none
  | .pllLock _ => none
  | .dfswWrite _ _ => none
  | .freqSwitch _ => none
  | .crossingStallEnd _ => none
  | .computeDieReset _ => none
  | .dieResetRelease _ => none
  | .packageReset => none
  | .bootImageCheck _ => none
  | .recoveryImage _ => none
  | .linkModuleFail _ _ => none
  | .illegalInstruction _ => none
  | .replyToCore _ => none
  | .memoryError _ _ _ => none
  | .peerLinkUp _ => none
  | .extentGrant _ _ => none

/-- What a decoding answers. -/
abbrev Decoded := Except DecodeError Instr

/-- An instruction that passes the limits of `Instr.wf`, or a rejected sub-field (R74 step 3). -/
def checked (i : Instr) : Decoded := if i.wf then .ok i else .error .subField

/-- Go on when the zero fields of a form are zero (R74 step 3). -/
def zero (c : Bool) (k : Decoded) : Decoded := if c then k else .error .zeroField

/-- Go on with the value of a sub-field code, or reject it (R64). -/
def sub {α : Type} (o : Option α) (k : α → Decoded) : Decoded :=
  match o with
  | some a => k a
  | none => .error .subField

/-- The 20-bit immediate of the U and J layouts, bits 31:12 as they stand. -/
def imm20 (f7 : BitVec 7) (rs2 rs1 : Reg) (f3 : BitVec 3) : BitVec 20 := f7 ++ rs2 ++ rs1 ++ f3

/-- Bits 20:1 of a J-layout offset, from bits 31:12 of the word (R60). -/
def jOff (i : BitVec 20) : BitVec 20 := fld i 19 1 ++ fld i 0 8 ++ fld i 8 1 ++ fld i 9 10

/-- Bits 12:1 of a B-layout offset (R60). -/
def bOff (f7 : BitVec 7) (rd : Reg) : BitVec 12 := fld f7 6 1 ++ fld rd 0 1 ++ fld f7 0 6 ++ fld rd 1 4

/-- OP-IMM (R62). -/
def decodeOpImm (f7 : BitVec 7) (rs2 rs1 : Reg) (f3 : BitVec 3) (rd : Reg) : Decoded :=
  let imm := f7 ++ rs2
  match f3 with
  | 0b000 => .ok (.addi rd rs1 imm)
  | 0b001 => match fld f7 1 6 with
    | 0b000000 => .ok (.slli rd rs1 (fld f7 0 1 ++ rs2))
    | _ => .error .funct
  | 0b010 => .ok (.slti rd rs1 imm)
  | 0b011 => .ok (.sltiu rd rs1 imm)
  | 0b100 => .ok (.xori rd rs1 imm)
  | 0b101 => match fld f7 1 6 with
    | 0b000000 => .ok (.srli rd rs1 (fld f7 0 1 ++ rs2))
    | 0b010000 => .ok (.srai rd rs1 (fld f7 0 1 ++ rs2))
    | _ => .error .funct
  | 0b110 => .ok (.ori rd rs1 imm)
  | 0b111 => .ok (.andi rd rs1 imm)

/-- OP (R62). -/
def decodeOp (f7 : BitVec 7) (b a : Reg) (f3 : BitVec 3) (d : Reg) : Decoded :=
  match f7 with
  | 0b0000000 => match f3 with
    | 0b000 => .ok (.add d a b) | 0b001 => .ok (.sll d a b) | 0b010 => .ok (.slt d a b)
    | 0b011 => .ok (.sltu d a b) | 0b100 => .ok (.xor d a b) | 0b101 => .ok (.srl d a b)
    | 0b110 => .ok (.or d a b) | 0b111 => .ok (.and d a b)
  | 0b0100000 => match f3 with
    | 0b000 => .ok (.sub d a b) | 0b101 => .ok (.sra d a b) | _ => .error .funct
  | 0b0000001 => match f3 with
    | 0b000 => .ok (.mul d a b) | 0b001 => .ok (.mulh d a b) | 0b010 => .ok (.mulhsu d a b)
    | 0b011 => .ok (.mulhu d a b) | 0b100 => .ok (.div d a b) | 0b101 => .ok (.divu d a b)
    | 0b110 => .ok (.rem d a b) | 0b111 => .ok (.remu d a b)
  | _ => .error .funct

/-- OP-IMM-32 (R62). -/
def decodeOpImm32 (f7 : BitVec 7) (rs2 rs1 : Reg) (f3 : BitVec 3) (rd : Reg) : Decoded :=
  match f3 with
  | 0b000 => .ok (.addiw rd rs1 (f7 ++ rs2))
  | 0b001 => match f7 with
    | 0b0000000 => .ok (.slliw rd rs1 rs2) | _ => .error .funct
  | 0b101 => match f7 with
    | 0b0000000 => .ok (.srliw rd rs1 rs2) | 0b0100000 => .ok (.sraiw rd rs1 rs2) | _ => .error .funct
  | _ => .error .funct

/-- OP-32 (R62). -/
def decodeOp32 (f7 : BitVec 7) (b a : Reg) (f3 : BitVec 3) (d : Reg) : Decoded :=
  match f7 with
  | 0b0000000 => match f3 with
    | 0b000 => .ok (.addw d a b) | 0b001 => .ok (.sllw d a b) | 0b101 => .ok (.srlw d a b) | _ => .error .funct
  | 0b0100000 => match f3 with
    | 0b000 => .ok (.subw d a b) | 0b101 => .ok (.sraw d a b) | _ => .error .funct
  | 0b0000001 => match f3 with
    | 0b000 => .ok (.mulw d a b) | 0b100 => .ok (.divw d a b) | 0b101 => .ok (.divuw d a b)
    | 0b110 => .ok (.remw d a b) | 0b111 => .ok (.remuw d a b) | _ => .error .funct
  | _ => .error .funct

/-- SYSTEM (R62, R63). -/
def decodeSystem (f7 : BitVec 7) (rs2 rs1 : Reg) (f3 : BitVec 3) (rd : Reg) : Decoded :=
  let csr := f7 ++ rs2
  match f3 with
  | 0b000 =>
    if rs1 = 0#5 ∧ rd = 0#5 ∧ f7 = 0#7 ∧ rs2 = 0#5 then .ok .ecall
    else if rs1 = 0#5 ∧ rd = 0#5 ∧ f7 = 0#7 ∧ rs2 = 1#5 then .ok .ebreak
    else .error .funct
  | 0b001 => .ok (.csrrw rd rs1 csr) | 0b010 => .ok (.csrrs rd rs1 csr) | 0b011 => .ok (.csrrc rd rs1 csr)
  | 0b101 => .ok (.csrrwi rd rs1 csr) | 0b110 => .ok (.csrrsi rd rs1 csr) | 0b111 => .ok (.csrrci rd rs1 csr)
  | _ => .error .funct

/-- The twelve atomics (R66). -/
def decodeAmo (f7 : BitVec 7) (rs2 rs1 : Reg) (rd : Reg) : Decoded :=
  let d := fld rd 0 4
  let dbl := fld rd 4 1 == 1#1
  let a := fld rs1 0 4
  let b := fld rs2 0 3 ++ fld rs1 4 1
  let sc := AmoScope.ofCode (fld rs2 3 2)
  sub (AmoOrd.ofCode (fld f7 0 3)) fun ord =>
  match fld f7 3 4 with
  | 0b0000 => .ok (.amoadd d b a dbl ord sc) | 0b0001 => .ok (.amoand d b a dbl ord sc)
  | 0b0010 => .ok (.amoor d b a dbl ord sc) | 0b0011 => .ok (.amoxor d b a dbl ord sc)
  | 0b0100 => .ok (.amomin d b a dbl ord sc) | 0b0101 => .ok (.amomax d b a dbl ord sc)
  | 0b0110 => .ok (.amominu d b a dbl ord sc) | 0b0111 => .ok (.amomaxu d b a dbl ord sc)
  | 0b1000 => .ok (.amoswap d b a dbl ord sc) | 0b1001 => .ok (.amocas d b a dbl ord sc)
  | 0b1010 => zero (b == 0#4) (.ok (.amodecp d a dbl ord sc))
  | 0b1011 => .ok (.amofadd d b a dbl ord sc)
  | _ => .error .funct

/-- The S group, custom-3 (R65). -/
def decodeS (f7 : BitVec 7) (rs2 rs1 : Reg) (f3 : BitVec 3) (rd : Reg) : Decoded :=
  match f3 with
  | 0b000 =>
    zero (rd == 0#5 && rs1 == 0#5 && fld rs2 0 1 == 0#1)
      (checked (.rep (fld f7 1 6) (fld f7 0 1 ++ fld rs2 3 2) (fld rs2 1 2)))
  | 0b001 => match f7 with
    | 0b0000000 => .ok (.bfx rd rs1 rs2) | 0b0000001 => .ok (.bfxu rd rs1 rs2)
    | 0b0000010 => .ok (.bfi rd rs1 rs2) | _ => .error .funct
  | 0b010 => match f7 with
    | 0b0000000 => zero (rs2 == 0#5) (.ok (.clz rd rs1)) | 0b0000001 => zero (rs2 == 0#5) (.ok (.ctz rd rs1))
    | 0b0000010 => zero (rs2 == 0#5) (.ok (.cpop rd rs1)) | 0b0000011 => zero (rs2 == 0#5) (.ok (.rev8 rd rs1))
    | _ => .error .funct
  | 0b011 =>
    let size := MemSize.ofCode (fld f7 3 2)
    let u := fld f7 0 1 == 1#1
    match fld f7 5 2 with
    | 0b00 => zero (rs2 == 0#5) (sub (LocMode.ofCode (fld f7 1 2)) fun mode => checked (.ldl rd rs1 size mode u))
    | 0b01 => zero (rd == 0#5 && !u) (sub (LocMode.ofCode (fld f7 1 2)) fun mode => checked (.stl rs1 rs2 size mode))
    | 0b10 => zero (rs2 == 0#5) (checked (.ldh rd rs1 size (Hint.ofCode (fld f7 1 2)) u))
    | 0b11 => zero (rd == 0#5 && !u) (checked (.sth rs1 rs2 size (Hint.ofCode (fld f7 1 2))))
  | 0b100 => decodeAmo f7 rs2 rs1 rd
  | 0b101 =>
    let dbl := fld f7 3 1 == 1#1
    sub (Scope.ofCode (fld f7 0 3)) fun sc =>
    match fld f7 4 3 with
    | 0b000 => zero (!dbl && rs1 == 0#5 && rd == 0#5 && fld rs2 3 2 == 0#2)
        (sub (FenceClass.ofCode (fld rs2 0 3)) fun c => checked (.fnc sc c))
    | 0b001 => zero (rs2 == 0#5) (checked (.ldaq rd rs1 dbl sc))
    | 0b010 => zero (rd == 0#5) (checked (.strl rs1 rs2 dbl sc))
    | 0b011 => zero (rd == 0#5 && !dbl) (checked (.l1wb rs1 rs2 sc))
    | 0b100 => zero (rd == 0#5 && !dbl) (checked (.l1inv rs1 rs2 sc))
    | _ => .error .funct
  | 0b110 => match f7 with
    | 0b0000000 => zero (rd == 0#5) (.ok (.boinit rs1 rs2)) | 0b0000001 => zero (rd == 0#5) (.ok (.boexp rs1 rs2))
    | 0b0000010 => zero (rd == 0#5) (.ok (.boarr rs1 rs2)) | _ => .error .funct
  | 0b111 => match f7 with
    | 0b0000000 => zero (rs2 == 0#5) (.ok (.trecv rd rs1))
    | 0b0000001 => zero (rs2 == 0#5 && rd == 0#5) (.ok (.tresume rs1))
    | 0b0000010 => zero (rs2 == 0#5 && rd == 0#5) (.ok (.tkill rs1))
    | 0b0000011 => zero (rs2 == 0#5 && rd == 0#5) (.ok (.tstep rs1))
    | _ => .error .funct

/-- A three-bit register in a five-bit field whose upper two bits are zero (R60). -/
def low3 (r : Reg) (k : BitVec 3 → Decoded) : Decoded := zero (fld r 3 2 == 0#2) (k (fld r 0 3))

/-- The Q group, custom-0 (R67). -/
def decodeQ (f7 : BitVec 7) (rs2 rs1 : Reg) (f3 : BitVec 3) (rd : Reg) : Decoded :=
  let op := fld f7 3 4
  let lowZero := fld f7 0 3 == 0#3
  match f3 with
  | 0b000 => match op with
    | 0b0000 => zero (fld f7 0 1 == 0#1 && rs2 == 0#5)
        (checked (.qmap rd (fld f7 2 1 == 1#1) (fld f7 1 1 == 1#1) rs1))
    | 0b0001 => zero (lowZero && rs2 == 0#5 && rs1 == 0#5) (.ok (.qunmap rd))
    | 0b0010 => zero (lowZero && fld rs2 2 3 == 0#3 && rs1 == 0#5)
        (sub (TokLevel.ofCode (fld rs2 0 2)) fun l => .ok (.qtok rd l))
    | 0b0011 => zero (lowZero && rs2 == 0#5) (.ok (.qpeek rd rs1))
    | 0b0100 => zero (lowZero && rs2 == 0#5) (.ok (.qstat rd rs1))
    | _ => .error .funct
  | 0b001 => zero (fld rs2 2 3 == 0#3)
      (sub (TokLevel.ofCode (fld rs2 0 2)) fun l => .ok (.qbtok rs1 l (bOff f7 rd)))
  | 0b010 => match op with
    | 0b0000 => zero (lowZero && rd == 0#5) (low3 rs1 fun h => .ok (.rwaitf h rs2))
    | 0b0001 => zero (lowZero && rd == 0#5) (low3 rs1 fun h => .ok (.rwaite h rs2))
    | 0b0010 => zero (lowZero && rd == 0#5) (low3 rs1 fun h => .ok (.radvc h rs2))
    | 0b0011 => zero (lowZero && rd == 0#5) (low3 rs1 fun h => .ok (.radvp h rs2))
    | 0b0100 => zero lowZero (low3 rs1 fun h => .ok (.rslot rd h rs2))
    | 0b0101 => zero (lowZero && rs2 == 0#5) (low3 rs1 fun h => .ok (.rseq rd h))
    | _ => .error .funct
  | 0b011 => match f7 with
    | 0b0000000 => low3 rd fun m => .ok (.send m rs1 rs2)
    | 0b0000001 => zero (rs2 == 0#5) (low3 rs1 fun m => .ok (.mrecv rd m))
    | 0b0000010 => zero (rs2 == 0#5) (low3 rs1 fun m => .ok (.mtest rd m))
    | _ => .error .funct
  | 0b100 => match op with
    | 0b0000 => zero (rs2 == 0#5) (sub (Affinity.ofCode (fld f7 0 3)) fun aff => .ok (.spawn rd rs1 aff))
    | 0b0001 => zero (lowZero && rs2 == 0#5 && rs1 == 0#5 && rd == 0#5) (.ok .tret)
    | 0b0010 => zero (lowZero && rs2 == 0#5 && rs1 == 0#5 && rd == 0#5) (.ok .yield)
    | _ => .error .funct
  | 0b101 => match op with
    | 0b0000 => zero (fld f7 0 2 == 0#2) (.ok (.waita rd rs1 rs2 (fld f7 2 1 == 1#1)))
    | 0b0001 => zero (fld f7 2 1 == 0#1 && fld f7 0 1 == 0#1 && rs2 == 0#5) (.ok (.notify rd rs1 (fld f7 1 1 == 1#1)))
    | 0b0010 => zero (lowZero && rd == 0#5) (.ok (.bowait rs1 rs2))
    | _ => .error .funct
  | 0b110 => match f7 with
    | 0b0000000 => zero (fld rs2 4 1 == 0#1) (.ok (.reduce rd (fld rs2 0 4) rs1))
    | _ => .error .funct
  | 0b111 => match op with
    | 0b0000 => zero (lowZero && fld rs2 4 1 == 0#1 && rs1 == 0#5 && rd == 0#5) (.ok (.align (fld rs2 0 4)))
    | 0b0001 => zero (lowZero && fld rs2 4 1 == 0#1 && rd == 0#5) (.ok (.ipf rs1 (fld rs2 0 4)))
    | _ => .error .funct

/-- The typed vector groups (R68). -/
def decodeVTyped (ty : VType) (f7 : BitVec 7) (b a : Reg) (d : Reg) : Decoded :=
  let k := fld f7 0 3
  let isF32 := ty == .f32
  match fld f7 3 4 with
  | 0b0000 => .ok (.vadd ty d a b k) | 0b0001 => .ok (.vsub ty d a b k) | 0b0010 => .ok (.vmul ty d a b k)
  | 0b0011 => .ok (.vma ty d a b k) | 0b0100 => .ok (.vmin ty d a b k) | 0b0101 => .ok (.vmax ty d a b k)
  | 0b0110 => zero isF32 (.ok (.vdiv d a b k))
  | 0b0111 => checked (.vsll ty d a b k) | 0b1000 => checked (.vsrl ty d a b k)
  | 0b1001 => checked (.vsra ty d a b k)
  | 0b1010 => checked (.vcmp ty (Cond.ofCode (fld d 3 2)) (fld d 0 3) a b k)
  | 0b1011 => .ok (.vsel ty d a b k)
  | 0b1100 => zero (fld b 2 3 == 0#3) (sub (RedOp.ofCode (fld b 0 2)) fun o => .ok (.vred ty o d a k))
  | 0b1101 => zero (fld b 2 3 == 0#3) (sub (RedOp.ofCode (fld b 0 2)) fun o => .ok (.vscan ty o d a k))
  | 0b1110 => sub (Conv.ofCode k) fun c => sub (ElemFmt.ofCode b) fun f => checked (.vcvt ty c f d a)
  | _ => match b with
    | 0b00000 => .ok (.vabs ty d a k) | 0b00001 => .ok (.vneg ty d a k)
    | 0b00010 => zero isF32 (.ok (.vsqrt d a k)) | 0b00011 => zero isF32 (.ok (.vrcp d a k))
    | 0b00100 => zero isF32 (.ok (.vrsqrt d a k)) | 0b00101 => zero isF32 (.ok (.vexp2 d a k))
    | 0b00110 => zero isF32 (.ok (.vlog2 d a k))
    | 0b00111 => .ok (.vsort ty d a k) | 0b01000 => .ok (.vtrn ty d a k)
    | 0b01001 => .ok (.vcomp ty d a k) | 0b01010 => .ok (.vexpd ty d a k)
    | _ => .error .funct

/-- The mask forms (R70). -/
def decodeMask (f7 : BitVec 7) (b a : Reg) (d : Reg) : Decoded :=
  match fld f7 0 3 with
  | 0b000 => low3 b fun kb => low3 a fun ka => low3 d fun kd => checked (.kand kd ka kb)
  | 0b001 => low3 b fun kb => low3 a fun ka => low3 d fun kd => checked (.kor kd ka kb)
  | 0b010 => low3 b fun kb => low3 a fun ka => low3 d fun kd => checked (.kxor kd ka kb)
  | 0b011 => zero (b == 0#5) (low3 a fun ka => low3 d fun kd => checked (.knot kd ka))
  | 0b100 => zero (b == 0#5) (low3 a fun ka => .ok (.kpop d ka))
  | 0b101 => zero (b == 0#5) (low3 a fun ka => .ok (.kfirst d ka))
  | 0b110 => zero (b == 0#5) (low3 a fun ka => low3 d fun kd => checked (.kmv kd ka))
  | 0b111 => zero (b == 0#5) (low3 d fun kd => checked (.klen kd a))

/-- The untyped vector group (R70). -/
def decodeVUntyped (f7 : BitVec 7) (b a : Reg) (d : Reg) : Decoded :=
  let k := fld f7 0 3
  let hint := Hint.ofCode (fld f7 1 2)
  let size := ElemSize.ofCode (fld f7 1 2)
  let b25 := fld f7 0 1 == 1#1
  match fld f7 3 4 with
  | 0b0000 => zero (k == 0#3 && d == 0#5) (.ok (.vshape a b))
  | 0b0001 => checked (.vld d a b hint b25) | 0b0010 => checked (.vst d a b hint b25)
  | 0b0011 => checked (.vldx d a b hint b25) | 0b0100 => checked (.vstx d a b hint b25)
  | 0b0101 => zero (!b25 && b == 0#5) (.ok (.vbc size d a))
  | 0b0110 => zero (!b25) (.ok (.vins size d a b))
  | 0b0111 => checked (.vext size b25 d a b)
  | 0b1000 => zero (b == 0#5) (.ok (.vmv d a k))
  | 0b1001 => .ok (.vand d a b k) | 0b1010 => .ok (.vor d a b k) | 0b1011 => .ok (.vxor d a b k)
  | 0b1100 => zero (!b25) (.ok (.vrot size d a b)) | 0b1101 => zero (!b25) (.ok (.vmatch size d a b))
  | 0b1110 => decodeMask f7 b a d
  | _ => .error .funct

/-- The V group, custom-1 (R68 to R70). -/
def decodeV (f7 : BitVec 7) (rs2 rs1 : Reg) (f3 : BitVec 3) (rd : Reg) : Decoded :=
  match f3 with
  | 0b011 =>
    sub (Conv.ofCode (fld f7 0 3)) fun c => sub (NarrowFmt.ofCode (fld rs2 2 3)) fun n =>
    sub (WideType.ofCode (fld rs2 0 2)) fun w =>
    match fld f7 3 4 with
    | 0b0000 => checked (.vcvtNarrow n c w rd rs1)
    | 0b0001 => checked (.vqnt n c w rd rs1)
    | 0b0010 => checked (.vdq n c w rd rs1)
    | _ => .error .funct
  | 0b111 => decodeVUntyped f7 rs2 rs1 rd
  | _ => sub (VType.ofCode f3) fun ty => decodeVTyped ty f7 rs2 rs1 rd

/-- The T group, custom-2 (R71). -/
def decodeT (f7 : BitVec 7) (rs2 rs1 : Reg) (f3 : BitVec 3) (rd : Reg) : Decoded :=
  let b27 := fld f7 2 1 == 1#1
  let b26 := fld f7 1 1 == 1#1
  let b25 := fld f7 0 1 == 1#1
  let rc := fld f7 2 5
  match f3 with
  | 0b000 => match f7 with
    | 0b0000000 => zero (rs2 == 0#5 && rd == 0#5) (.ok (.tcfg rs1))
    | 0b0000001 => zero (rs2 == 0#5 && rs1 == 0#5) (.ok (.tzero rd))
    | 0b0000010 => zero (rs2 == 0#5 && rs1 == 0#5) (.ok (.twait rd))
    | _ => .error .funct
  | 0b001 => zero (!b25) (sub (TileType.ofCode (fld f7 3 4)) fun ty => .ok (.tmma ty b27 b26 rd rs1 rs2))
  | 0b010 => zero (!b25 && !b27) (sub (TileType.ofCode (fld f7 3 4)) fun ty => .ok (.tmmac ty b26 rd rs1 rs2))
  | 0b011 => match fld f7 0 3 with
    | 0b000 => sub (TileType.ofCode (fld f7 3 4)) fun ty => checked (.tlda ty rd rs1 rs2)
    | 0b001 => sub (TileType.ofCode (fld f7 3 4)) fun ty => checked (.tsta ty rd rs1 rs2)
    | 0b010 => zero (fld f7 3 4 == 0#4 && rs2 == 0#5) (.ok (.tmov rd rs1))
    | _ => .error .funct
  | 0b100 => if b26 then .ok (.get rd rs1 rs2 rc b25) else .ok (.put rd rs1 rs2 rc b25)
  | 0b101 => if b26 then .ok (.getf rd rs1 rs2 rc b25) else zero (!b25) (.ok (.putm rd rs1 rs2 rc))
  | 0b110 => match fld f7 0 2 with
    | 0b00 => .ok (.gath rd rs1 rs2 rc)
    | 0b01 => .ok (.kscan rd rs1 rs2 rc)
    | 0b10 => match rc with
      | 0b00000 => zero (rd == 0#5) (.ok (.racfg rs1 rs2))
      | 0b00001 => zero (rd == 0#5) (.ok (.rastart rs1 rs2))
      | 0b00010 => zero (rs2 == 0#5 && rs1 == 0#5) (.ok (.rastat rd))
      | _ => .error .funct
    | 0b11 => .error .funct
  | 0b111 =>
    let lowZero := fld f7 0 3 == 0#3
    match fld f7 3 4 with
    | 0b0000 => zero (lowZero && rs2 == 0#5 && rd == 0#5) (.ok (.crcfg rs1))
    | 0b0001 => zero (lowZero && rs2 == 0#5 && rd == 0#5) (.ok (.crgo rs1))
    | 0b0010 => zero (lowZero && rs2 == 0#5 && rs1 == 0#5) (.ok (.crstat rd))
    | 0b0011 => zero (!b25 && rd == 0#5) (checked (.pft (Hint.ofCode (fld f7 1 2)) rs1 rs2))
    | 0b0100 => zero (lowZero && rd == 0#5) (.ok (.cwb rs1 rs2))
    | 0b0101 => zero (lowZero && rd == 0#5) (.ok (.cinv rs1 rs2))
    | _ => .error .funct

/-- The decoder over the six fields of a word (R61). -/
def decodeFields (f7 : BitVec 7) (rs2 rs1 : Reg) (f3 : BitVec 3) (rd : Reg) (op : BitVec 7) : Decoded :=
  match op with
  | 0b0110111 => .ok (.lui rd (imm20 f7 rs2 rs1 f3))
  | 0b0010111 => .ok (.auipc rd (imm20 f7 rs2 rs1 f3))
  | 0b1101111 => .ok (.jal rd (jOff (imm20 f7 rs2 rs1 f3)))
  | 0b1100111 => match f3 with
    | 0b000 => .ok (.jalr rd rs1 (f7 ++ rs2)) | _ => .error .funct
  | 0b1100011 => match f3 with
    | 0b000 => .ok (.beq rs1 rs2 (bOff f7 rd)) | 0b001 => .ok (.bne rs1 rs2 (bOff f7 rd))
    | 0b100 => .ok (.blt rs1 rs2 (bOff f7 rd)) | 0b101 => .ok (.bge rs1 rs2 (bOff f7 rd))
    | 0b110 => .ok (.bltu rs1 rs2 (bOff f7 rd)) | 0b111 => .ok (.bgeu rs1 rs2 (bOff f7 rd))
    | _ => .error .funct
  | 0b0000011 => match f3 with
    | 0b000 => .ok (.lb rd rs1 (f7 ++ rs2)) | 0b001 => .ok (.lh rd rs1 (f7 ++ rs2))
    | 0b010 => .ok (.lw rd rs1 (f7 ++ rs2)) | 0b011 => .ok (.ld rd rs1 (f7 ++ rs2))
    | 0b100 => .ok (.lbu rd rs1 (f7 ++ rs2)) | 0b101 => .ok (.lhu rd rs1 (f7 ++ rs2))
    | 0b110 => .ok (.lwu rd rs1 (f7 ++ rs2)) | _ => .error .funct
  | 0b0100011 => match f3 with
    | 0b000 => .ok (.sb rs1 rs2 (f7 ++ rd)) | 0b001 => .ok (.sh rs1 rs2 (f7 ++ rd))
    | 0b010 => .ok (.sw rs1 rs2 (f7 ++ rd)) | 0b011 => .ok (.sd rs1 rs2 (f7 ++ rd))
    | _ => .error .funct
  | 0b0010011 => decodeOpImm f7 rs2 rs1 f3 rd
  | 0b0110011 => decodeOp f7 rs2 rs1 f3 rd
  | 0b0011011 => decodeOpImm32 f7 rs2 rs1 f3 rd
  | 0b0111011 => decodeOp32 f7 rs2 rs1 f3 rd
  | 0b0001111 => match f3 with
    | 0b000 => .ok (.fence (f7 ++ rs2) rs1 rd) | 0b001 => .ok (.fenceI (f7 ++ rs2) rs1 rd)
    | _ => .error .funct
  | 0b1110011 => decodeSystem f7 rs2 rs1 f3 rd
  | 0b1111011 => decodeS f7 rs2 rs1 f3 rd
  | 0b0001011 => decodeQ f7 rs2 rs1 f3 rd
  | 0b0101011 => decodeV f7 rs2 rs1 f3 rd
  | 0b1011011 => decodeT f7 rs2 rs1 f3 rd
  | _ => .error .major

/-- Decode one 32-bit word (R74 steps 1 to 3). -/
def decode (w : BitVec 32) : Decoded :=
  decodeFields (fld w 25 7) (fld w 20 5) (fld w 15 5) (fld w 12 3) (fld w 7 5) (fld w 0 7)

/-- Decode the first word of a list of bytes, little-endian (R3), and the bytes that follow it. -/
def decodeBytes : List Byte → Except DecodeError (Instr × List Byte)
  | b0 :: b1 :: b2 :: b3 :: rest =>
    match decode (b3 ++ b2 ++ b1 ++ b0) with
    | .ok i => .ok (i, rest)
    | .error e => .error e
  | _ => .error .bytes

/-- The bytes of a word as the hardware stores it, little-endian (R3). -/
def wordBytes (w : BitVec 32) : List Byte := [fld w 0 8, fld w 8 8, fld w 16 8, fld w 24 8]

/-- The instruction that the decoder reads from a table word: every instruction is one 32-bit word, so
the bits of the table row above `nbits` are zero. -/
def decodeTableWord (nbits w : Nat) : Option Instr :=
  match decodeBytes (wordBytes (BitVec.ofNat 32 (w % 2 ^ nbits))) with
  | .ok (i, _) => some i
  | .error _ => none

end Sys2Proof
end

