-- ==== Sys2Proof/Machine/Scalar.lean ====
section
/-! DEFINITION. Integer computation: RV64I and M (R78, R79), bit fields (R94) and bit counts (R95). -/

namespace Sys2Proof.Machine

/-! ## Shapes of the forms -/

/-- A form with one source register (R77). -/
def unary (f : Word → Word) (d a : Reg) : M Unit := do
  let x ← read1 a (some d)
  finishX [a] d (f x)

/-- A form with two source registers (R77). -/
def binary (f : Word → Word → Word) (d a b : Reg) : M Unit := do
  let (x, y) ← read2 a b (some d)
  finishX [a, b] d (f x y)

/-- A form without a source register. -/
def nullary (v : Word) (d : Reg) : M Unit := do
  checkRegs [] (some d)
  finishX [] d v

/-- A 12-bit immediate, sign-extended. -/
def sext12 (imm : BitVec 12) : Word := imm.signExtend 64

/-- The upper immediate of `lui` and `auipc` (R78). -/
def upper (imm : BitVec 20) : Word := (imm ++ 0#12).signExtend 64

/-- One or zero. -/
def ofBool (p : Bool) : Word := if p then 1 else 0

/-- A 32-bit result widened by sign (R78). -/
def wForm (f : BitVec 32 → BitVec 32 → BitVec 32) (x y : Word) : Word :=
  (f (x.setWidth 32) (y.setWidth 32)).signExtend 64

/-- Shift amount of the full forms: bits 5:0 (R78). -/
def amt6 (y : Word) : Nat := wbits y 5 0

/-- Shift amount of the W forms: bits 4:0 (R78). -/
def amt5 (y : BitVec 32) : Nat := y.toNat % 32

/-- Bits 127:64 of an exact product (R78). -/
def mulHigh (p : Int) : Word := BitVec.ofInt 64 (p / (2 ^ 64 : Int))

/-- Signed division with its borderline results (R79). -/
def divS {w : Nat} (x y : BitVec w) : BitVec w :=
  if y = 0 then BitVec.allOnes w else BitVec.ofInt w (x.toInt.tdiv y.toInt)

/-- Unsigned division with its borderline result (R79). -/
def divU {w : Nat} (x y : BitVec w) : BitVec w := if y = 0 then BitVec.allOnes w else BitVec.ofNat w (x.toNat / y.toNat)

/-- Signed remainder with the dividend's sign (R79). -/
def remS {w : Nat} (x y : BitVec w) : BitVec w := if y = 0 then x else BitVec.ofInt w (x.toInt.tmod y.toInt)

/-- Unsigned remainder (R79). -/
def remU {w : Nat} (x y : BitVec w) : BitVec w := if y = 0 then x else BitVec.ofNat w (x.toNat % y.toNat)

/-! ## Bit fields and counts (R94, R95) -/

/-- Offset of a field descriptor. -/
def fieldOff (y : Word) : Nat := wbits y 6 0

/-- Width of a field descriptor, clipped at bit 63. -/
def fieldWidth (y : Word) : Nat := min (wbits y 14 8) (64 - fieldOff y)

/-- Extract a bit field (R94). -/
def extractField (signed : Bool) (x y : Word) : Word :=
  let w := fieldWidth y
  if w = 0 then 0
  else
    let f := x.toNat / 2 ^ fieldOff y % 2 ^ w
    if signed then BitVec.ofInt 64 (toSigned w f) else BitVec.ofNat 64 f

/-- Insert a bit field (R94). -/
def insertField (old x y : Word) : Word :=
  let w := fieldWidth y
  if w = 0 then old
  else
    let mask : Word := BitVec.ofNat 64 ((2 ^ w - 1) * 2 ^ fieldOff y)
    (old &&& ~~~mask) ||| ((x <<< fieldOff y) &&& mask)

/-- Zero bits above the highest set bit (R95). -/
def countLeading (x : Word) : Nat := (leastBelow 64 fun i => x.getLsbD (63 - i)).getD 64

/-- Zero bits below the lowest set bit (R95). -/
def countTrailing (x : Word) : Nat := (leastBelow 64 fun i => x.getLsbD i).getD 64

/-- The bytes of a word in reverse order (R95). -/
def reverseBytes (x : Word) : Word := ofBytes 64 (leBytes 8 x.toNat).reverse

/-! ## The meanings -/

/-- `lui` (R78). -/
def execLui (d : Reg) (imm : BitVec 20) (s : State) : Result :=
  runM (nullary (upper imm) d) s

/-- `auipc` (R78); under `rep` the word is the one after the prefix (R185). -/
def execAuipc (d : Reg) (imm : BitVec 20) (s : State) : Result :=
  runM (nullary (s.me.pc + (if s.me.inRep then 4 else 0) + upper imm) d) s

/-- `addi` (R78). -/
def execAddi (d a : Reg) (imm : BitVec 12) (s : State) : Result :=
  runM (unary (fun x => x + sext12 imm) d a) s

/-- `slti` (R78). -/
def execSlti (d a : Reg) (imm : BitVec 12) (s : State) : Result :=
  runM (unary (fun x => ofBool (x.slt (sext12 imm))) d a) s

/-- `sltiu` (R78). -/
def execSltiu (d a : Reg) (imm : BitVec 12) (s : State) : Result :=
  runM (unary (fun x => ofBool (x.ult (sext12 imm))) d a) s

/-- `xori` (R78). -/
def execXori (d a : Reg) (imm : BitVec 12) (s : State) : Result :=
  runM (unary (fun x => x ^^^ sext12 imm) d a) s

/-- `ori` (R78). -/
def execOri (d a : Reg) (imm : BitVec 12) (s : State) : Result :=
  runM (unary (fun x => x ||| sext12 imm) d a) s

/-- `andi` (R78). -/
def execAndi (d a : Reg) (imm : BitVec 12) (s : State) : Result :=
  runM (unary (fun x => x &&& sext12 imm) d a) s

/-- `slli` (R78). -/
def execSlli (d a : Reg) (sh : BitVec 6) (s : State) : Result :=
  runM (unary (fun x => x <<< sh.toNat) d a) s

/-- `srli` (R78). -/
def execSrli (d a : Reg) (sh : BitVec 6) (s : State) : Result :=
  runM (unary (fun x => x >>> sh.toNat) d a) s

/-- `srai` (R78). -/
def execSrai (d a : Reg) (sh : BitVec 6) (s : State) : Result :=
  runM (unary (fun x => x.sshiftRight sh.toNat) d a) s

/-- `add` (R78). -/
def execAdd (d a b : Reg) (s : State) : Result :=
  runM (binary (fun x y => x + y) d a b) s

/-- `sll` (R78). -/
def execSll (d a b : Reg) (s : State) : Result :=
  runM (binary (fun x y => x <<< amt6 y) d a b) s

/-- `slt` (R78). -/
def execSlt (d a b : Reg) (s : State) : Result :=
  runM (binary (fun x y => ofBool (x.slt y)) d a b) s

/-- `sltu` (R78). -/
def execSltu (d a b : Reg) (s : State) : Result :=
  runM (binary (fun x y => ofBool (x.ult y)) d a b) s

/-- `xor` (R78). -/
def execXor (d a b : Reg) (s : State) : Result :=
  runM (binary (fun x y => x ^^^ y) d a b) s

/-- `srl` (R78). -/
def execSrl (d a b : Reg) (s : State) : Result :=
  runM (binary (fun x y => x >>> amt6 y) d a b) s

/-- `or` (R78). -/
def execOr (d a b : Reg) (s : State) : Result :=
  runM (binary (fun x y => x ||| y) d a b) s

/-- `and` (R78). -/
def execAnd (d a b : Reg) (s : State) : Result :=
  runM (binary (fun x y => x &&& y) d a b) s

/-- `sub` (R78). -/
def execSub (d a b : Reg) (s : State) : Result :=
  runM (binary (fun x y => x - y) d a b) s

/-- `sra` (R78). -/
def execSra (d a b : Reg) (s : State) : Result :=
  runM (binary (fun x y => x.sshiftRight (amt6 y)) d a b) s

/-- `mul` (R78). -/
def execMul (d a b : Reg) (s : State) : Result :=
  runM (binary (fun x y => x * y) d a b) s

/-- `mulh` (R78). -/
def execMulh (d a b : Reg) (s : State) : Result :=
  runM (binary (fun x y => mulHigh (x.toInt * y.toInt)) d a b) s

/-- `mulhsu` (R78). -/
def execMulhsu (d a b : Reg) (s : State) : Result :=
  runM (binary (fun x y => mulHigh (x.toInt * y.toNat)) d a b) s

/-- `mulhu` (R78). -/
def execMulhu (d a b : Reg) (s : State) : Result :=
  runM (binary (fun x y => mulHigh ((x.toNat : Int) * y.toNat)) d a b) s

/-- `div` (R79). -/
def execDiv (d a b : Reg) (s : State) : Result :=
  runM (binary (fun x y => divS x y) d a b) s

/-- `divu` (R79). -/
def execDivu (d a b : Reg) (s : State) : Result :=
  runM (binary (fun x y => divU x y) d a b) s

/-- `rem` (R79). -/
def execRem (d a b : Reg) (s : State) : Result :=
  runM (binary (fun x y => remS x y) d a b) s

/-- `remu` (R79). -/
def execRemu (d a b : Reg) (s : State) : Result :=
  runM (binary (fun x y => remU x y) d a b) s

/-- `addiw` (R78). -/
def execAddiw (d a : Reg) (imm : BitVec 12) (s : State) : Result :=
  runM (unary (fun x => wForm (· + ·) x (sext12 imm)) d a) s

/-- `slliw` (R78). -/
def execSlliw (d a : Reg) (sh : BitVec 5) (s : State) : Result :=
  runM (unary (fun x => wForm (fun p q => p <<< amt5 q) x (sh.setWidth 64)) d a) s

/-- `srliw` (R78). -/
def execSrliw (d a : Reg) (sh : BitVec 5) (s : State) : Result :=
  runM (unary (fun x => wForm (fun p q => p >>> amt5 q) x (sh.setWidth 64)) d a) s

/-- `sraiw` (R78). -/
def execSraiw (d a : Reg) (sh : BitVec 5) (s : State) : Result :=
  runM (unary (fun x => wForm (fun p q => p.sshiftRight (amt5 q)) x (sh.setWidth 64)) d a) s

/-- `addw` (R78). -/
def execAddw (d a b : Reg) (s : State) : Result :=
  runM (binary (wForm fun p q => p + q) d a b) s

/-- `sllw` (R78). -/
def execSllw (d a b : Reg) (s : State) : Result :=
  runM (binary (wForm fun p q => p <<< amt5 q) d a b) s

/-- `srlw` (R78). -/
def execSrlw (d a b : Reg) (s : State) : Result :=
  runM (binary (wForm fun p q => p >>> amt5 q) d a b) s

/-- `subw` (R78). -/
def execSubw (d a b : Reg) (s : State) : Result :=
  runM (binary (wForm fun p q => p - q) d a b) s

/-- `sraw` (R78). -/
def execSraw (d a b : Reg) (s : State) : Result :=
  runM (binary (wForm fun p q => p.sshiftRight (amt5 q)) d a b) s

/-- `mulw` (R78). -/
def execMulw (d a b : Reg) (s : State) : Result :=
  runM (binary (wForm fun p q => p * q) d a b) s

/-- `divw` (R79). -/
def execDivw (d a b : Reg) (s : State) : Result :=
  runM (binary (wForm fun p q => divS p q) d a b) s

/-- `divuw` (R79). -/
def execDivuw (d a b : Reg) (s : State) : Result :=
  runM (binary (wForm fun p q => divU p q) d a b) s

/-- `remw` (R79). -/
def execRemw (d a b : Reg) (s : State) : Result :=
  runM (binary (wForm fun p q => remS p q) d a b) s

/-- `remuw` (R79). -/
def execRemuw (d a b : Reg) (s : State) : Result :=
  runM (binary (wForm fun p q => remU p q) d a b) s

/-- `bfx` (R94). -/
def execBfx (d a b : Reg) (s : State) : Result :=
  runM (binary (extractField true) d a b) s

/-- `bfxu` (R94). -/
def execBfxu (d a b : Reg) (s : State) : Result :=
  runM (binary (extractField false) d a b) s

/-- `bfi`: rd is a source too, so a bound port as rd traps (R77, R94). -/
def execBfi (d a b : Reg) (s : State) : Result :=
  runM (do
    let (x, y) ← read2 a b (some d) true
    finishX [a, b] d (insertField (s.me.getX d) x y)) s

/-- `clz` (R95). -/
def execClz (d a : Reg) (s : State) : Result :=
  runM (unary (fun x => BitVec.ofNat 64 (countLeading x)) d a) s

/-- `ctz` (R95). -/
def execCtz (d a : Reg) (s : State) : Result :=
  runM (unary (fun x => BitVec.ofNat 64 (countTrailing x)) d a) s

/-- `cpop` (R95). -/
def execCpop (d a : Reg) (s : State) : Result :=
  runM (unary (fun x => BitVec.ofNat 64 (popcount x)) d a) s

/-- `rev8` (R95). -/
def execRev8 (d a : Reg) (s : State) : Result :=
  runM (unary (fun x => reverseBytes x) d a) s

end Sys2Proof.Machine
end

