-- ==== Sys2Proof/Machine/LoadStore.lean ====
section
/-! DEFINITION. Scalar loads and stores: base (R82 to R87), hinted (R98) and local (R97). -/

namespace Sys2Proof.Machine

/-- Bytes of an access size (R96). -/
def MemSize.bytes : MemSize → Nat
  | .b => 1 | .h => 2 | .w => 4 | .d => 8

/-- A base load: the address is X[rs1] plus the immediate and the hint is HINT (R82, R93). -/
def baseLoad (size : Nat) (signed : Bool) (d a : Reg) (imm : BitVec 12) : M Unit := do
  let x ← read1 a (some d)
  let s ← get
  loadGlobal (x + sext12 imm).toNat size signed s.me.hint [a] d

/-- A base store (R82, R93): rs1 is read before rs2. -/
def baseStore (size : Nat) (a b : Reg) (imm : BitVec 12) : M Unit := do
  let (x, y) ← read2 a b none
  let s ← get
  let va := (x + sext12 imm).toNat
  if va % size ≠ 0 then trapWith .misaligned (BitVec.ofNat 64 va) 0 true
  else storeGlobal true true s.me.hint [(va, leBytes size y.toNat)] [a, b]

/-- `lb` (R82). -/
def execLb (d a : Reg) (imm : BitVec 12) (s : State) : Result := runM (baseLoad 1 true d a imm) s

/-- `lh` (R82). -/
def execLh (d a : Reg) (imm : BitVec 12) (s : State) : Result := runM (baseLoad 2 true d a imm) s

/-- `lw` (R82). -/
def execLw (d a : Reg) (imm : BitVec 12) (s : State) : Result := runM (baseLoad 4 true d a imm) s

/-- `ld` (R82). -/
def execLd (d a : Reg) (imm : BitVec 12) (s : State) : Result := runM (baseLoad 8 true d a imm) s

/-- `lbu` (R82). -/
def execLbu (d a : Reg) (imm : BitVec 12) (s : State) : Result := runM (baseLoad 1 false d a imm) s

/-- `lhu` (R82). -/
def execLhu (d a : Reg) (imm : BitVec 12) (s : State) : Result := runM (baseLoad 2 false d a imm) s

/-- `lwu` (R82). -/
def execLwu (d a : Reg) (imm : BitVec 12) (s : State) : Result := runM (baseLoad 4 false d a imm) s

/-- `sb` (R82). -/
def execSb (a b : Reg) (imm : BitVec 12) (s : State) : Result := runM (baseStore 1 a b imm) s

/-- `sh` (R82). -/
def execSh (a b : Reg) (imm : BitVec 12) (s : State) : Result := runM (baseStore 2 a b imm) s

/-- `sw` (R82). -/
def execSw (a b : Reg) (imm : BitVec 12) (s : State) : Result := runM (baseStore 4 a b imm) s

/-- `sd` (R82). -/
def execSd (a b : Reg) (imm : BitVec 12) (s : State) : Result := runM (baseStore 8 a b imm) s

/-- `ldh`: no offset, and the hint of the encoding (R98). -/
def execLdh (d a : Reg) (size : MemSize) (hint : Hint) (u : Bool) (s : State) : Result :=
  runM (do
    let x ← read1 a (some d)
    loadGlobal x.toNat (MemSize.bytes size) (!u) hint [a] d) s

/-- `sth`: no offset, and the hint of the encoding (R98). -/
def execSth (a b : Reg) (size : MemSize) (hint : Hint) (s : State) : Result :=
  runM (do
    let (x, y) ← read2 a b none
    let n := MemSize.bytes size
    if x.toNat % n ≠ 0 then trapWith .misaligned x 0 true
    else storeGlobal true true hint [(x.toNat, leBytes n y.toNat)] [a, b]) s

/-- `ldl` (R97). -/
def execLdl (d a : Reg) (size : MemSize) (mode : LocMode) (u : Bool) (s : State) : Result :=
  runM (do
    let x ← read1 a (some d)
    let n := MemSize.bytes size
    match s.me.prog.data with
    | some b => finishX [a] d (widen (!u) n (ofLe b))
    | none =>
      match ← localLoad mode x.toNat n with
      | .now b => finishX [a] d (widen (!u) n (ofLe b))
      | .later id => completeLoad [{ msg := some id, pos := 0, len := n, va := x.toNat }] (s.me.loadDst d n (!u)) x.toNat [a]) s

/-- `stl` (R97). -/
def execStl (a b : Reg) (size : MemSize) (mode : LocMode) (s : State) : Result :=
  runM (do
    let (x, y) ← read2 a b none
    localStore mode x.toNat (MemSize.bytes size) (y.toNat % 2 ^ (8 * MemSize.bytes size))
    finish [a, b]) s

end Sys2Proof.Machine
end

