-- ==== Sys2Proof/Machine/Number.lean ====
section
/-! DEFINITION. Number formats and rounding (R159 to R173): exact values, one rounding, and the fixed
orders in which sums are formed. -/

namespace Sys2Proof.Machine

/-- An exact value: not a number, an infinity, or (-1)^neg * mag * 2^exp. A zero keeps its sign. -/
inductive Num
  | nan
  | inf (neg : Bool)
  | fin (neg : Bool) (mag : Nat) (exp : Int)
deriving DecidableEq, Repr

/-- How the top codes of a floating format are used (R159). -/
inductive TopCodes
  /-- The largest exponent holds infinity and NaN. -/
  | ieee
  /-- Only the all-ones code is NaN (`e4m3`). -/
  | nanOnly
  /-- Every code is finite. -/
  | finite
deriving DecidableEq, Repr

/-- A floating format: widths of exponent and mantissa, and its top codes (R159). -/
structure FloatSpec where
  eb : Nat
  mb : Nat
  top : TopCodes := .ieee
deriving DecidableEq, Repr

/-- binary64, for `amofadd.d` (R137). -/
def binary64 : FloatSpec := { eb := 11, mb := 52 }

/-- binary32 (R159). -/
def binary32 : FloatSpec := { eb := 8, mb := 23 }

/-- The floating formats of R159. -/
def floatSpec : ElemFmt → Option FloatSpec
  | .f32 => some binary32
  | .bf16 => some { eb := 8, mb := 7 }
  | .f16 => some { eb := 5, mb := 10 }
  | .e5m2 => some { eb := 5, mb := 2 }
  | .e4m3 => some { eb := 4, mb := 3, top := .nanOnly }
  | .e3m2 => some { eb := 3, mb := 2, top := .finite }
  | .e2m3 => some { eb := 2, mb := 3, top := .finite }
  | .e2m1 => some { eb := 2, mb := 1, top := .finite }
  | .i32 | .i16 | .i8 | .i4 => none

/-- Bits of an element (R159, R162). -/
def fmtBits : ElemFmt → Nat
  | .f32 | .i32 => 32
  | .bf16 | .f16 | .i16 => 16
  | .e4m3 | .e5m2 | .i8 => 8
  | .e3m2 | .e2m3 => 6
  | .e2m1 | .i4 => 4

/-- Exponent bias (R159). -/
def FloatSpec.bias (f : FloatSpec) : Int := 2 ^ (f.eb - 1) - 1

/-- Bits of a code. -/
def FloatSpec.bits (f : FloatSpec) : Nat := 1 + f.eb + f.mb

/-- The code of the sign alone. -/
def FloatSpec.signBit (f : FloatSpec) (neg : Bool) : Nat := if neg then 2 ^ (f.eb + f.mb) else 0

/-- The code of +infinity. -/
def FloatSpec.infCode (f : FloatSpec) : Nat := (2 ^ f.eb - 1) * 2 ^ f.mb

/-- The code of the largest finite magnitude (R159). -/
def FloatSpec.maxCode (f : FloatSpec) : Nat :=
  match f.top with
  | .ieee => f.infCode - 1
  | .nanOnly => 2 ^ (f.eb + f.mb) - 2
  | .finite => 2 ^ (f.eb + f.mb) - 1

/-- The canonical NaN (R159); +0 where the format has none (R170). -/
def FloatSpec.nanCode (f : FloatSpec) : Nat :=
  match f.top with
  | .ieee => f.infCode + 2 ^ (f.mb - 1)
  | .nanOnly => 2 ^ (f.eb + f.mb) - 1
  | .finite => 0

/-- The value of a code (R160, R161). -/
def FloatSpec.value (f : FloatSpec) (code : Nat) : Num :=
  let neg := bitAt code (f.eb + f.mb)
  let e := code / 2 ^ f.mb % 2 ^ f.eb
  let m := code % 2 ^ f.mb
  let mag := code % 2 ^ (f.eb + f.mb)
  if f.top = .ieee ∧ e = 2 ^ f.eb - 1 then if m = 0 then .inf neg else .nan
  else if f.top = .nanOnly ∧ mag = 2 ^ (f.eb + f.mb) - 1 then .nan
  else if e = 0 then .fin neg m (1 - f.bias - f.mb)
  else .fin neg (2 ^ f.mb + m) (e - f.bias - f.mb)

/-- The value of an element code (R160, R162). -/
def fmtValue (f : ElemFmt) (code : Nat) : Num :=
  match floatSpec f with
  | some s => s.value code
  | none =>
    let v := toSigned (fmtBits f) code
    .fin (v < 0) v.natAbs 0

/-! ## Rounding (R167 to R170) -/

/-- The three modes. -/
inductive Round | rne | rtz | rs
deriving DecidableEq, Repr

/-- Mode of a conversion code (R167). -/
def convRound : Conv → Round
  | .rne | .rnen => .rne
  | .rtz | .rtzn => .rtz
  | .rs | .rsn => .rs

/-- A magnitude `mag * 2^exp` as a whole number of units `2^u`, rounded by the mode; `r` is the 16-bit draw
of the stochastic mode (R167). -/
def roundMag (mode : Round) (mag : Nat) (exp u : Int) (r : Nat) : Nat :=
  if u ≤ exp then mag * 2 ^ (exp - u).toNat
  else
    let k := (u - exp).toNat
    let q := mag / 2 ^ k
    let rest := mag % 2 ^ k
    match mode with
    | .rtz => q
    | .rne => if 2 ^ k < 2 * rest then q + 1 else if 2 * rest = 2 ^ k then q + q % 2 else q
    | .rs => (mag * 2 ^ 16 + r * 2 ^ k) / 2 ^ (k + 16)

/-- floor(log2 (mag * 2^exp)) of a nonzero magnitude. -/
def log2Mag (mag : Nat) (exp : Int) : Int := (Nat.log2 mag : Int) + exp

/-- The code of an overflow, or of an infinity at the input (R169). -/
def FloatSpec.overflow (f : FloatSpec) (conv : Conv) (neg : Bool) (wasInf : Bool) : Nat :=
  let sat := f.signBit neg + f.maxCode
  match f.top with
  | .finite => sat
  | .nanOnly => if conv.nanOnOverflow then f.nanCode else sat
  | .ieee =>
    if conv.nanOnOverflow then f.nanCode
    else if wasInf || conv = .rne then f.signBit neg + f.infCode
    else sat

/-- An exact value rounded into a floating format (R167, R169, R170). -/
def FloatSpec.ofNum (f : FloatSpec) (conv : Conv) (r : Nat) (v : Num) : Nat :=
  match v with
  | .nan => f.nanCode
  | .inf neg => f.overflow conv neg true
  | .fin neg mag exp =>
    if mag = 0 then f.signBit neg
    else
      let u := max (log2Mag mag exp) (1 - f.bias) - f.mb
      let q := roundMag (convRound conv) mag exp u r
      let code : Nat :=
        if q < 2 ^ f.mb then q
        else if q = 2 ^ (f.mb + 1) then (u + 1 + f.mb + f.bias).toNat * 2 ^ f.mb
        else (u + f.mb + f.bias).toNat * 2 ^ f.mb + (q - 2 ^ f.mb)
      if f.maxCode < code then f.overflow conv neg false else f.signBit neg + code

/-- An exact value rounded into a signed integer of `n` bits, saturating (R167, R169, R170). -/
def intOfNum (n : Nat) (conv : Conv) (r : Nat) (v : Num) : Nat :=
  let top := 2 ^ (n - 1)
  match v with
  | .nan => 0
  | .inf neg => if neg then top else top - 1
  | .fin neg mag exp =>
    let q := roundMag (convRound conv) mag exp 0 r
    if neg then if top ≤ q then top else (2 ^ n - q) % 2 ^ n
    else min q (top - 1)

/-- An exact value converted into an element format by a code, with the draw `r` (R167 to R170). -/
def convert (f : ElemFmt) (conv : Conv) (r : Nat) (v : Num) : Nat :=
  match floatSpec f with
  | some s => s.ofNum conv r v
  | none => intOfNum (fmtBits f) conv r v

/-- A finite value converted with saturation: where rounding would give an infinity, the largest finite value of its sign
(R211). -/
def convertSat (f : ElemFmt) (conv : Conv) (r : Nat) (v : Num) : Nat :=
  let code := convert f conv r v
  match fmtValue f code, floatSpec f with
  | .inf neg, some s => s.signBit neg + s.maxCode
  | _, _ => code

/-! ## Exact arithmetic (R171) -/

/-- The signed mantissa of a finite value in units of `2^e`, for `e` not above its exponent. -/
def signedAt (neg : Bool) (mag : Nat) (exp e : Int) : Int :=
  let m : Int := (mag * 2 ^ (exp - e).toNat : Nat)
  if neg then -m else m

/-- Exact sum. A sum of opposite values is +0; two zeros of one sign keep it. -/
def Num.add (a b : Num) : Num :=
  match a, b with
  | .nan, _ => .nan
  | _, .nan => .nan
  | .inf p, .inf q => if p = q then .inf p else .nan
  | .inf p, _ => .inf p
  | _, .inf q => .inf q
  | .fin p m e, .fin q n f =>
    let lo := min e f
    let s := signedAt p m e lo + signedAt q n f lo
    if s = 0 then .fin (m = 0 && n = 0 && p && q) 0 0
    else .fin (s < 0) s.natAbs lo

/-- Negation. -/
def Num.neg : Num → Num
  | .nan => .nan
  | .inf p => .inf (!p)
  | .fin p m e => .fin (!p) m e

/-- Absolute value. -/
def Num.abs : Num → Num
  | .nan => .nan
  | .inf _ => .inf false
  | .fin _ m e => .fin false m e

/-- Exact product. -/
def Num.mul (a b : Num) : Num :=
  match a, b with
  | .nan, _ => .nan
  | _, .nan => .nan
  | .inf p, .inf q => .inf (p != q)
  | .inf p, .fin q n _ => if n = 0 then .nan else .inf (p != q)
  | .fin p m _, .inf q => if m = 0 then .nan else .inf (p != q)
  | .fin p m e, .fin q n f => .fin (p != q) (m * n) (e + f)

/-- A value known to lie strictly between `q` and `q + 1` units of `2^e`, or to equal `q` when exact: one bit
below the unit says which. -/
def sticky (neg : Bool) (q : Nat) (e : Int) (exact : Bool) : Num :=
  .fin neg (2 * q + if exact then 0 else 1) (e - 1)

/-- Quotient, with enough bits below the last kept one for one correct rounding. -/
def Num.div (a b : Num) : Num :=
  match a, b with
  | .nan, _ => .nan
  | _, .nan => .nan
  | .inf _, .inf _ => .nan
  | .inf p, .fin q _ _ => .inf (p != q)
  | .fin p _ _, .inf q => .fin (p != q) 0 0
  | .fin p m e, .fin q n f =>
    if n = 0 then if m = 0 then .nan else .inf (p != q)
    else if m = 0 then .fin (p != q) 0 0
    else
      let s := 80 + Nat.log2 n
      sticky (p != q) (m * 2 ^ s / n) (e - f - s) (m * 2 ^ s % n == 0)

/-- Integer square root, bit by bit from bit `k - 1` down. -/
def isqrtFrom (v : Nat) : Nat → Nat → Nat
  | 0, acc => acc
  | k + 1, acc =>
    let c := acc + 2 ^ k
    isqrtFrom v k (if c * c ≤ v then c else acc)

/-- Integer square root. -/
def isqrt (v : Nat) : Nat := isqrtFrom v (Nat.log2 v / 2 + 1) 0

/-- Square root of `mag * 2^exp`, for one correct rounding. -/
def sqrtMag (mag : Nat) (exp : Int) (exact : Bool) : Num :=
  let odd := exp % 2 != 0
  let m := (if odd then 2 * mag else mag) * 2 ^ 128
  let e := (if odd then exp - 1 else exp) - 128
  let q := isqrt m
  sticky false q (e / 2) (exact && q * q == m)

/-- Square root (R196). -/
def Num.sqrt (a : Num) : Num :=
  match a with
  | .nan => .nan
  | .inf p => if p then .nan else .inf false
  | .fin p m e => if m = 0 then .fin p 0 0 else if p then .nan else sqrtMag m e true

/-- Reciprocal (R196). -/
def Num.rcp (a : Num) : Num := Num.div (.fin false 1 0) a

/-- Reciprocal square root (R196). -/
def Num.rsqrt (a : Num) : Num :=
  match a with
  | .nan => .nan
  | .inf p => if p then .nan else .fin false 0 0
  | .fin p m e =>
    if m = 0 then .inf p
    else if p then .nan
    else
      let s := 200 + 2 * Nat.log2 m
      sqrtMag (2 ^ s / m) (-e - s) (2 ^ s % m == 0)

/-- floor(ln 2 * 2^256). -/
def ln2Fixed : Nat := 0xb17217f7d1cf79abc9e3b39803f2f6af40f343267298b62d8a0d175b8baafa2b

/-- `sum_{i>=n} y^i / i!` with the term `t` at `n`, in 256 fraction bits, for `fuel` terms. -/
def expSeries (y : Nat) : Nat → Nat → Nat → Nat
  | 0, _, _ => 0
  | fuel + 1, n, t => t + expSeries y fuel (n + 1) (t * y / 2 ^ 256 / (n + 1))

/-- 2^x (R196). For a whole x it is exact; for any other finite x it is irrational, so 256 fraction bits and
a sticky bit round it as the exact value rounds: DEDUCED (assumption 8). -/
def Num.exp2 (a : Num) : Num :=
  match a with
  | .nan => .nan
  | .inf p => if p then .fin false 0 0 else .inf false
  | .fin p m e =>
    if m = 0 then .fin false 1 0
    else if 16 ≤ log2Mag m e then if p then .fin false 1 (-100000) else .fin false 1 100000
    else if log2Mag m e < -200 then sticky false (if p then 2 ^ 256 - 1 else 2 ^ 256) (-256) false
    else
      let t := signedAt p m e (min e 0) -- in units of 2^(min e 0)
      let k := (-(min e 0)).toNat
      let whole := t / (2 ^ k : Nat)
      let frac := (t % (2 ^ k : Nat)).toNat
      if frac = 0 then .fin false 1 whole
      else
        let y := frac * ln2Fixed / 2 ^ k
        sticky false (expSeries y 70 0 (2 ^ 256)) (whole - 256) false

/-- The first `n` fraction bits of log2 of `y / 2^400` in [1, 2), by repeated squaring. -/
def log2Bits : Nat → Nat → Nat → Nat
  | 0, _, acc => acc
  | n + 1, y, acc =>
    let z := y * y / 2 ^ 400
    if 2 ^ 401 ≤ z then log2Bits n (z / 2) (2 * acc + 1) else log2Bits n z (2 * acc)

/-- log2 x (R196). For a power of two it is exact; otherwise irrational, and 110 fraction bits and a sticky
bit round it as the exact value rounds: DEDUCED (assumption 8). -/
def Num.log2 (a : Num) : Num :=
  match a with
  | .nan => .nan
  | .inf p => if p then .nan else .inf false
  | .fin p m e =>
    if m = 0 then .inf true
    else if p then .nan
    else
      let l := log2Mag m e
      if m = 2 ^ Nat.log2 m then .fin (l < 0) l.natAbs 0
      else
        let t : Int := l * (2 ^ 110 : Nat) + (log2Bits 110 (m * 2 ^ 400 / 2 ^ Nat.log2 m) 0 : Nat)
        if t < 0 then sticky true (-t - 1).toNat (-110) false else sticky false t.toNat (-110) false

/-- -1, 0 or 1 as the first finite or infinite value is below, equal to or above the second, with -0 below
+0 (R171). -/
def Num.order (a b : Num) : Int :=
  match a, b with
  | .inf p, .inf q => if p = q then 0 else if p then -1 else 1
  | .inf p, _ => if p then -1 else 1
  | _, .inf q => if q then 1 else -1
  | .fin p m e, .fin q n f =>
    let lo := min e f
    let s := signedAt p m e lo
    let t := signedAt q n f lo
    if s < t then -1 else if t < s then 1
    else if m = 0 && n = 0 && p != q then if p then -1 else 1
    else 0
  | .nan, _ => 0
  | _, .nan => 0

/-- Values compare equal, with -0 = +0 (R198). -/
def Num.same (a b : Num) : Bool :=
  match a, b with
  | .fin p m e, .fin q n f => (m == 0 && n == 0) || Num.order (.fin p m e) (.fin q n f) == 0
  | a, b => Num.order a b == 0

/-! ## binary32 and binary64 (R137, R178) -/

/-- One rounded addition, RNE, NaN canonical. -/
def FloatSpec.addCode (f : FloatSpec) (a b : Nat) : Nat := f.ofNum .rne 0 ((f.value a).add (f.value b))

end Sys2Proof.Machine
end

