-- ==== Sys2Proof/Machine/Vector.lean ====
section
/-! DEFINITION. Vector instructions on registers: arithmetic, logic, compares, conversions, reductions,
rearrangements, masks and block scales (R179 to R184, R188 to R191, R194 to R212). -/

namespace Sys2Proof.Machine

/-! ## Elements and groups (R182, R183) -/

/-- The bits of a group of registers, element 0 lowest. -/
def Thread.groupBits (t : Thread) (r : Reg) (g : Nat) : Nat :=
  (List.range g).foldr (fun i acc => (t.getV (r + BitVec.ofNat 5 i)).toNat + 2 ^ 4096 * acc) 0

/-- A thread with the bits of a group replaced. -/
def Thread.setGroup (t : Thread) (r : Reg) (g v : Nat) : Thread :=
  (List.range g).foldl (fun t i => t.setV (r + BitVec.ofNat 5 i) (BitVec.ofNat 4096 (v / 2 ^ (4096 * i)))) t

/-- Element `j` of width `vb` bits (R43, R182). -/
def elemAt (v vb j : Nat) : Nat := v / 2 ^ (vb * j) % 2 ^ vb

/-- The first `n` elements. -/
def elemsOf (v vb n : Nat) : List Nat := (List.range n).map (elemAt v vb)

/-- Bits with the first `n` elements replaced where `f` gives a value (R182: the bytes beyond are kept). -/
def putElems (old vb n : Nat) (f : Nat → Option Nat) : Nat :=
  (List.range n).foldr (fun j acc => (f j).getD (elemAt old vb j) + 2 ^ vb * acc) (old / 2 ^ (vb * n))

/-- Registers that `n` elements of `vb` bits span (R183). -/
def spanOf (n vb : Nat) : Nat := ceilDiv (n * vb) 4096

/-- An operand: its first register and its element width in bits. -/
abbrev VOp := Reg × Nat

/-- Two register groups share a register. -/
def groupsMeet (a : Reg) (ga : Nat) (b : Reg) (gb : Nat) : Bool :=
  a.toNat < b.toNat + gb && b.toNat < a.toNat + ga

/-- The checks of R183 for `n` elements: every group is legal, and the destination meets no source. They are
made at decode, before an integer source is read (R74). -/
def vGroups (n : Nat) (dst : Option VOp) (srcs : List VOp) : M Unit := do
  let s ← get
  let all := dst.toList ++ srcs
  require (all.all fun p => s.me.groupOk p.1 (spanOf n p.2))
  require (match dst with
    | none => true
    | some d => srcs.all fun p => !groupsMeet d.1 (spanOf n d.2) p.1 (spanOf n p.2))

/-- Wait until the groups of `n` elements have arrived (R87). -/
def vArrived (n : Nat) (ops : List VOp) : M Unit := awaitV (ops.flatMap fun p => groupRegs p.1 (spanOf n p.2))

/-- The checks at decode of a form without integer sources, then its wait. -/
def vCheck (n : Nat) (dst : Option VOp) (srcs : List VOp) : M Unit := do
  vGroups n dst srcs
  vArrived n (dst.toList ++ srcs)

/-- The elements of an operand. -/
def Thread.vElems (t : Thread) (n : Nat) (p : VOp) : List Nat := elemsOf (t.groupBits p.1 (spanOf n p.2)) p.2 n

/-- Write elements of a destination group. -/
def Thread.vPut (t : Thread) (n : Nat) (p : VOp) (f : Nat → Option Nat) : Thread :=
  let g := spanOf n p.2
  t.setGroup p.1 g (putElems (t.groupBits p.1 g) p.2 n f)

/-- Elements of `w` bits in the thread's footprint (R182). -/
def Thread.count (t : Thread) (w : Nat) : Nat := t.footprint * 8 / w

/-- Mask bit `j` (R184). -/
def maskBit (k : KReg) (j : Nat) : Bool := k.getLsbD j

/-- Bits of an element of a typed form. -/
def VType.bits (ty : VType) : Nat := fmtBits (Sys2Proof.VType.fmt ty)

/-! ## Shapes of the typed forms -/

/-- One result per active element from `m` source elements (R184, R189); `old` is the destination's element. -/
def vMap (w : Nat) (d : Reg) (srcs : List Reg) (k : BitVec 3) (f : List Nat → Nat → Nat) : M Unit := do
  let s ← get
  let n := s.me.count w
  vCheck n (some (d, w)) (srcs.map fun r => (r, w))
  let t := s.me
  let xs := srcs.map fun r => t.groupBits r 1
  let m := t.getK k
  let old := t.groupBits d 1
  set (s.updMe fun t => t.vPut n (d, w) fun j =>
    if maskBit m j then some (f (xs.map fun v => elemAt v w j) (elemAt old w j)) else none)
  retire

/-- Floating or integer arithmetic on two elements of a type, rounded or wrapped once (R171, R189). -/
def arith2 (ty : VType) (fop : Num → Num → Num) (iop : Int → Int → Int) (x y : Nat) : Nat :=
  let fmt := Sys2Proof.VType.fmt ty
  match floatSpec fmt with
  | some f => f.ofNum .rne 0 (fop (f.value x) (f.value y))
  | none => wrap (fmtBits fmt) (iop (toSigned (fmtBits fmt) x) (toSigned (fmtBits fmt) y))

/-- The lesser or greater value; a NaN yields to the other operand, -0 is below +0 (R171). -/
def numPick (less : Bool) (a b : Num) : Num :=
  match a, b with
  | .nan, _ => b
  | _, .nan => a
  | a, b => if (Num.order a b ≤ 0) = less then a else b

/-- Minimum or maximum of two elements. -/
def pick2 (ty : VType) (less : Bool) : Nat → Nat → Nat :=
  arith2 ty (numPick less) (fun x y => if (x ≤ y) = less then x else y)

/-- A typed form with two sources. -/
def vBin (ty : VType) (op : Nat → Nat → Nat) (d a b : Reg) (k : BitVec 3) : M Unit :=
  vMap (VType.bits ty) d [a, b] k fun l _ => op (l.getD 0 0) (l.getD 1 0)

/-- A typed form with one source. -/
def vUn (ty : VType) (op : Nat → Nat) (d a : Reg) (k : BitVec 3) : M Unit :=
  vMap (VType.bits ty) d [a] k fun l _ => op (l.getD 0 0)

/-- An `f32` function of one element (R196). -/
def vFun (f : Num → Num) (d a : Reg) (k : BitVec 3) : M Unit :=
  vUn .f32 (fun x => binary32.ofNum .rne 0 (f (binary32.value x))) d a k

/-- Fused multiply-add of elements: vs1 * vs2 + vd (R171, R195). -/
def fused (ty : VType) (x y z : Nat) : Nat :=
  let fmt := Sys2Proof.VType.fmt ty
  match floatSpec fmt with
  | some f => f.ofNum .rne 0 (((f.value x).mul (f.value y)).add (f.value z))
  | none => wrap (fmtBits fmt) (toSigned (fmtBits fmt) x * toSigned (fmtBits fmt) y + toSigned (fmtBits fmt) z)

/-- A shift of an integer element by the low bits of another (R197). -/
def shift2 (ty : VType) (f : Nat → Nat → Nat → Nat) (x y : Nat) : Nat :=
  let n := VType.bits ty
  f n x (y % n) % 2 ^ n

/-- The canonical NaN in the place of any NaN (R161). -/
def canon (ty : VType) (x : Nat) : Nat :=
  match floatSpec (Sys2Proof.VType.fmt ty) with
  | some f => if f.value x = .nan then f.nanCode else x
  | none => x

/-- A condition of `vcmp` (R198). -/
def holds (ty : VType) (c : Cond) (x y : Nat) : Bool :=
  let fmt := Sys2Proof.VType.fmt ty
  let a := fmtValue fmt x
  let b := fmtValue fmt y
  let nan := a == .nan || b == .nan
  match c with
  | .eq => !nan && Num.same a b
  | .ne => nan || !Num.same a b
  | .lt => !nan && !Num.same a b && Num.order a b == -1
  | .le => !nan && (Num.same a b || Num.order a b == -1)

/-! ## Reductions and scans (R172, R173, R204) -/

/-- Identity of an operation (R172). -/
def redIdentity (ty : VType) (op : RedOp) : Nat :=
  let n := VType.bits ty
  match floatSpec (Sys2Proof.VType.fmt ty), op with
  | some f, .add => f.signBit true
  | some f, .min => f.infCode
  | some f, .max => f.signBit true + f.infCode
  | none, .add => 0
  | none, .min => 2 ^ (n - 1) - 1
  | none, .max => 2 ^ (n - 1)

/-- One step of an operation. -/
def redStep (ty : VType) (op : RedOp) : Nat → Nat → Nat :=
  match op with
  | .add => arith2 ty Num.add (· + ·)
  | .min => pick2 ty true
  | .max => pick2 ty false

/-- Neighbouring elements combined. -/
def pairUp (f : Nat → Nat → Nat) : List Nat → List Nat
  | a :: b :: t => f a b :: pairUp f t
  | l => l

/-- The pairwise tree over a list whose length is a power of two (R172). -/
def treeFold (f : Nat → Nat → Nat) : Nat → List Nat → Nat
  | 0, l => l.headD 0
  | k + 1, l => treeFold f k (pairUp f l)

/-- Least `k` with `n ≤ 2^k`. -/
def ceilLog2 (n : Nat) : Nat := if n ≤ 1 then 0 else Nat.log2 (n - 1) + 1

/-- The result of a reduction (R172). -/
def reduceElems (ty : VType) (op : RedOp) (l : List Nat) : Nat :=
  let k := ceilLog2 l.length
  canon ty (treeFold (redStep ty op) k (l ++ List.replicate (2 ^ k - l.length) (redIdentity ty op)))

/-- The prefix values of a scan (R173). -/
def scanElems (f : Nat → Nat → Nat) : List Nat → Option Nat → List Nat
  | [], _ => []
  | x :: t, none => x :: scanElems f t (some x)
  | x :: t, some a => f a x :: scanElems f t (some (f a x))

/-- The elements with the identity in the place of the masked-off ones. -/
def masked (ty : VType) (op : RedOp) (m : KReg) (l : List Nat) : List Nat :=
  l.mapIdx fun j x => if maskBit m j then x else redIdentity ty op

/-- One vector source, one destination, results given as a list of optional elements. -/
def vWhole (w : Nat) (d a : Reg) (f : Thread → Nat → List Nat → Nat → Option Nat) : M Unit := do
  let s ← get
  let n := s.me.count w
  vCheck n (some (d, w)) [(a, w)]
  let t := s.me
  let l := t.vElems n (a, w)
  let g := f t n l
  set (s.updMe fun t => t.vPut n (d, w) g)
  retire

/-! ## Rearrangements (R205 to R209) -/

/-- Sorting key: numbers in order, -0 before +0, NaN last (R209). -/
def sortKey (ty : VType) (x : Nat) : Int :=
  let n := VType.bits ty
  match floatSpec (Sys2Proof.VType.fmt ty) with
  | none => toSigned n x
  | some f =>
    if f.value x = .nan then 2 ^ n
    else if bitAt x (n - 1) then -(x % 2 ^ (n - 1) : Nat) - 1 else x

/-- Insert into an ascending list. -/
def insertKey (key : Nat → Int) (x : Nat) : List Nat → List Nat
  | [] => [x]
  | y :: t => if key x ≤ key y then x :: y :: t else y :: insertKey key x t

/-- An ascending list of the elements. -/
def sortElems (key : Nat → Int) (l : List Nat) : List Nat := l.foldr (insertKey key) []

/-- The number of active positions below `j`. -/
def rankOf (m : KReg) (j : Nat) : Nat := ((List.range j).filter (maskBit m)).length

/-! ## Conversions and stochastic draws (R168, R200, R201, R211, R212) -/

/-- A stochastic code. -/
def isStochastic (c : Conv) : Bool := c == .rs || c == .rsn

/-- The draws of `n` elements in ascending order, for those that `p` selects (R168): the outputs, and the
generators after them. -/
def drawAll (g : Vector (BitVec 32) 128) (n : Nat) (p : Nat → Bool) : List Nat × Vector (BitVec 32) 128 :=
  let r := (List.range n).foldl (fun (acc : List Nat × Vector (BitVec 32) 128) j =>
    if p j then
      let (x, g) := drawGen acc.2 j
      (x.toNat :: acc.1, g)
    else (0 :: acc.1, acc.2)) ([], g)
  (r.1.reverse, r.2)

/-- The limit of the 6-bit formats (R189). -/
def sixBitOk (t : Thread) (f : ElemFmt) : Bool := fmtBits f != 6 || t.rbytes.toNat % 12 == 0

/-- Element format of a narrow format. -/
def NarrowFmt.elem : NarrowFmt → ElemFmt
  | .e4m3 => .e4m3 | .e5m2 => .e5m2 | .e3m2 => .e3m2 | .e2m3 => .e2m3 | .e2m1 => .e2m1

/-- Element format of a wide type. -/
def WideType.elem : WideType → ElemFmt
  | .f32 => .f32 | .bf16 => .bf16 | .f16 => .f16

/-- A conversion of every element (R200, R201). -/
def vConvert (dst src : ElemFmt) (conv : Conv) (d a : Reg) : M Unit := do
  let s ← get
  let t := s.me
  require (sixBitOk t dst && sixBitOk t src)
  let wd := fmtBits dst
  let ws := fmtBits src
  let n := t.count (min wd ws)
  vCheck n (some (d, wd)) [(a, ws)]
  let l := t.vElems n (a, ws)
  let (rs, g) := drawAll t.gens n fun _ => isStochastic conv
  let out := List.zipWith (fun x r => convert dst conv r (fmtValue src x)) l rs
  set (s.updMe fun t => { t.vPut n (d, wd) (fun j => out[j]?) with gens := g })
  retire

/-- Top exponent of a narrow format in block scaling (R211). -/
def narrowEmax : NarrowFmt → Int
  | .e4m3 => 8 | .e5m2 => 15 | .e3m2 => 4 | .e2m3 => 2 | .e2m1 => 2

/-- A value times a power of two. -/
def Num.scale (v : Num) (k : Int) : Num :=
  match v with
  | .fin p m e => .fin p m (e + k)
  | v => v

/-- A value is NaN or infinite. -/
def Num.special : Num → Bool
  | .nan => true
  | .inf _ => true
  | .fin _ _ _ => false

/-- The scale byte of a block (R211). -/
def blockScale (emax : Int) (l : List Num) : Nat :=
  if l.any Num.special then 255
  else
    let top : Option Int := l.foldl (fun b v => match v with
      | .fin _ m e => if m = 0 then b else some (max (log2Mag m e) (b.getD (log2Mag m e)))
      | _ => b) none
    match top with
    | none => 127
    | some t => (min 254 (max 0 (t - emax + 127))).toNat

/-! ## The meanings -/

/-- `vadd` (R195). -/
def execVadd (ty : VType) (d a b : Reg) (k : BitVec 3) (s : State) : Result :=
  runM (vBin ty (arith2 ty Num.add (· + ·)) d a b k) s

/-- `vsub` (R195). -/
def execVsub (ty : VType) (d a b : Reg) (k : BitVec 3) (s : State) : Result :=
  runM (vBin ty (arith2 ty (fun x y => x.add y.neg) (· - ·)) d a b k) s

/-- `vmul` (R195). -/
def execVmul (ty : VType) (d a b : Reg) (k : BitVec 3) (s : State) : Result :=
  runM (vBin ty (arith2 ty Num.mul (· * ·)) d a b k) s

/-- `vma`: vd is the addend (R189, R195). -/
def execVma (ty : VType) (d a b : Reg) (k : BitVec 3) (s : State) : Result :=
  runM (vMap (VType.bits ty) d [a, b] k fun l old => fused ty (l.getD 0 0) (l.getD 1 0) old) s

/-- `vmin` (R171, R195). -/
def execVmin (ty : VType) (d a b : Reg) (k : BitVec 3) (s : State) : Result :=
  runM (vBin ty (pick2 ty true) d a b k) s

/-- `vmax` (R171, R195). -/
def execVmax (ty : VType) (d a b : Reg) (k : BitVec 3) (s : State) : Result :=
  runM (vBin ty (pick2 ty false) d a b k) s

/-- `vdiv` (R195). -/
def execVdiv (d a b : Reg) (k : BitVec 3) (s : State) : Result :=
  runM (vBin .f32 (arith2 .f32 Num.div (fun _ _ => 0)) d a b k) s

/-- `vsll` (R197). -/
def execVsll (ty : VType) (d a b : Reg) (k : BitVec 3) (s : State) : Result :=
  runM (vBin ty (shift2 ty fun _ x y => x * 2 ^ y) d a b k) s

/-- `vsrl` (R197). -/
def execVsrl (ty : VType) (d a b : Reg) (k : BitVec 3) (s : State) : Result :=
  runM (vBin ty (shift2 ty fun _ x y => x / 2 ^ y) d a b k) s

/-- `vsra` (R197). -/
def execVsra (ty : VType) (d a b : Reg) (k : BitVec 3) (s : State) : Result :=
  runM (vBin ty (shift2 ty fun n x y => wrap n (toSigned n x / 2 ^ y)) d a b k) s

/-- `vcmp`: inactive bits of kd keep their values, bits at and beyond n become 0 (R184, R198). -/
def execVcmp (ty : VType) (cond : Cond) (kd : BitVec 3) (a b : Reg) (k : BitVec 3) (s : State) : Result :=
  runM (do
    let w := VType.bits ty
    let n := s.me.count w
    vCheck n none [(a, w), (b, w)]
    let t := s.me
    let xs := t.groupBits a 1
    let ys := t.groupBits b 1
    let m := t.getK k
    let old := t.getK kd
    let new : Nat := (List.range n).foldr (fun j acc =>
      (if maskBit m j then holds ty cond (elemAt xs w j) (elemAt ys w j) else maskBit old j).toNat + 2 * acc) 0
    modify fun s => s.updMe fun t => t.setK kd (BitVec.ofNat 512 new)
    retire) s

/-- `vsel`: bit for bit, without a governing mask (R199). -/
def execVsel (ty : VType) (d a b : Reg) (ks : BitVec 3) (s : State) : Result :=
  runM (do
    let w := VType.bits ty
    let n := s.me.count w
    vCheck n (some (d, w)) [(a, w), (b, w)]
    let t := s.me
    let xs := t.groupBits a 1
    let ys := t.groupBits b 1
    let m := t.getK ks
    modify fun s => s.updMe fun t => t.vPut n (d, w) fun j =>
      some (if maskBit m j then elemAt xs w j else elemAt ys w j)
    retire) s

/-- `vred`: the result goes into element 0 (R172, R204). -/
def execVred (ty : VType) (op : RedOp) (d a : Reg) (k : BitVec 3) (s : State) : Result :=
  runM (vWhole (VType.bits ty) d a fun t _ l =>
    let r := reduceElems ty op (masked ty op (t.getK k) l)
    fun j => if j = 0 then some r else none) s

/-- `vscan` (R173, R204). -/
def execVscan (ty : VType) (op : RedOp) (d a : Reg) (k : BitVec 3) (s : State) : Result :=
  runM (vWhole (VType.bits ty) d a fun t _ l =>
    let out := scanElems (redStep ty op) (masked ty op (t.getK k) l) none
    fun j => if maskBit (t.getK k) j then (out[j]?).map (canon ty) else none) s

/-- `vcvt` (R200). -/
def execVcvt (ty : VType) (conv : Conv) (src : ElemFmt) (d a : Reg) (s : State) : Result :=
  runM (vConvert (Sys2Proof.VType.fmt ty) src conv d a) s

/-- `vabs` (R196). -/
def execVabs (ty : VType) (d a : Reg) (k : BitVec 3) (s : State) : Result :=
  runM (vUn ty (fun x => arith2 ty (fun p _ => p.abs) (fun p _ => p.natAbs) x x) d a k) s

/-- `vneg` (R196). -/
def execVneg (ty : VType) (d a : Reg) (k : BitVec 3) (s : State) : Result :=
  runM (vUn ty (fun x => arith2 ty (fun p _ => p.neg) (fun p _ => -p) x x) d a k) s

/-- `vsqrt` (R196). -/
def execVsqrt (d a : Reg) (k : BitVec 3) (s : State) : Result :=
  runM (vFun Num.sqrt d a k) s

/-- `vrcp` (R196). -/
def execVrcp (d a : Reg) (k : BitVec 3) (s : State) : Result :=
  runM (vFun Num.rcp d a k) s

/-- `vrsqrt` (R196). -/
def execVrsqrt (d a : Reg) (k : BitVec 3) (s : State) : Result :=
  runM (vFun Num.rsqrt d a k) s

/-- `vexp2` (R196). -/
def execVexp2 (d a : Reg) (k : BitVec 3) (s : State) : Result :=
  runM (vFun Num.exp2 d a k) s

/-- `vlog2` (R196). -/
def execVlog2 (d a : Reg) (k : BitVec 3) (s : State) : Result :=
  runM (vFun Num.log2 d a k) s

/-- `vsort`: each row on its own, active elements into active positions (R209). -/
def execVsort (ty : VType) (d a : Reg) (k : BitVec 3) (s : State) : Result :=
  runM (vWhole (VType.bits ty) d a fun t _ l =>
    let c := t.rbytes.toNat * 8 / VType.bits ty
    let m := t.getK k
    let out : List (List Nat) := (List.range t.rows.toNat).map fun r =>
      let js := (List.range c).filter fun i => maskBit m (r * c + i)
      sortElems (sortKey ty) (js.map fun i => l.getD (r * c + i) 0)
    fun j =>
      if maskBit m j then
        let before := ((List.range (j % c)).filter fun i => maskBit m (j / c * c + i)).length
        ((out.getD (j / c) [])[before]?).map (canon ty)
      else none) s

/-- `vtrn` (R206). -/
def execVtrn (ty : VType) (d a : Reg) (k : BitVec 3) (s : State) : Result :=
  runM (vWhole (VType.bits ty) d a fun t _ l =>
    let c := t.rbytes.toNat * 8 / VType.bits ty
    fun j => if maskBit (t.getK k) j then l[j % t.rows.toNat * c + j / t.rows.toNat]? else none) s

/-- `vcomp` writes every element below n (R208). -/
def execVcomp (ty : VType) (d a : Reg) (k : BitVec 3) (s : State) : Result :=
  runM (vWhole (VType.bits ty) d a fun t n l =>
    let kept := ((List.range n).filter (maskBit (t.getK k))).map fun j => l.getD j 0
    fun j => some (kept.getD j 0)) s

/-- `vexpd` (R208). -/
def execVexpd (ty : VType) (d a : Reg) (k : BitVec 3) (s : State) : Result :=
  runM (vWhole (VType.bits ty) d a fun t _ l =>
    fun j => if maskBit (t.getK k) j then l[rankOf (t.getK k) j]? else none) s

/-- The narrow-float `vcvt` (R201). -/
def execVcvtNarrow (nfmt : NarrowFmt) (conv : Conv) (wide : WideType) (d a : Reg) (s : State) : Result :=
  runM (vConvert (NarrowFmt.elem nfmt) (WideType.elem wide) conv d a) s

/-- `vqnt`: the scales go into the register after the destination group (R211). -/
def execVqnt (nfmt : NarrowFmt) (conv : Conv) (wide : WideType) (d a : Reg) (s : State) : Result :=
  runM (do
    let t := s.me
    let nf := NarrowFmt.elem nfmt
    let wf := WideType.elem wide
    require (sixBitOk t nf)
    let wd := fmtBits nf
    let ws := fmtBits wf
    let n := t.count wd
    let g := spanOf n wd
    vGroups n (some (d, wd)) [(a, ws)]
    require (d.toNat + g < t.vcount.toNat)
    let sr : Reg := d + BitVec.ofNat 5 g
    require (!groupsMeet sr 1 a (spanOf n ws))
    vArrived n [(d, wd), (a, ws), (sr, 1)]
    let l := (t.vElems n (a, ws)).map (fmtValue wf)
    let scales := (List.range (ceilDiv n 256)).map fun b => blockScale (narrowEmax nfmt) ((l.drop (256 * b)).take 256)
    let live := fun j => scales.getD (j / 256) 255 != 255
    let (rs, gs) := drawAll t.gens n fun j => isStochastic conv && live j
    let out := (List.range n).map fun j =>
      if live j then convertSat nf conv (rs.getD j 0) ((l.getD j .nan).scale (127 - scales.getD (j / 256) 127)) else 0
    modify fun s => s.updMe fun t =>
      let t := t.vPut n (d, wd) fun j => out[j]?
      let t := t.setV sr (putBytes (t.getV sr) 0 (scales.map (BitVec.ofNat 8)))
      { t with gens := gs }
    retire) s

/-- `vdq`: the scales come from the register after the source group (R212). Every element is converted, so a
stochastic code draws for each, DEDUCED from R168 (assumption 9). -/
def execVdq (nfmt : NarrowFmt) (conv : Conv) (wide : WideType) (d a : Reg) (s : State) : Result :=
  runM (do
    let t := s.me
    let nf := NarrowFmt.elem nfmt
    let wf := WideType.elem wide
    require (sixBitOk t nf)
    let ws := fmtBits nf
    let wd := fmtBits wf
    let n := t.count ws
    let g := spanOf n ws
    vCheck n (some (d, wd)) [(a, ws)]
    require (a.toNat + g < t.vcount.toNat)
    let sr : Reg := a + BitVec.ofNat 5 g
    require (!groupsMeet sr 1 d (spanOf n wd))
    awaitV [sr]
    let scales := bytesOf (t.getV sr) 0 (ceilDiv n 256)
    let (rs, gs) := drawAll t.gens n fun _ => isStochastic conv
    let l := t.vElems n (a, ws)
    let out := (List.range n).map fun j =>
      let e := (scales.getD (j / 256) 0).toNat
      let v := if e = 255 then Num.nan else (fmtValue nf (l.getD j 0)).scale ((e : Int) - 127)
      convert wf conv (rs.getD j 0) v
    modify fun s => s.updMe fun t => { t.vPut n (d, wd) (fun j => out[j]?) with gens := gs }
    retire) s

/-- `vshape` (R181). -/
def execVshape (a b : Reg) (s : State) : Result :=
  runM (do
    let (x, y) ← read2 a b none
    let r := x.toNat
    let c := y.toNat
    require (1 ≤ r && r ≤ 128 && 4 ≤ c && c ≤ 512 && c % 4 == 0 && r * c ≤ 512)
    modify fun s => s.updMe fun t => { t with rows := BitVec.ofNat 8 r, rbytes := BitVec.ofNat 10 c }
    finish [a, b]) s

/-! ### Untyped forms (R189, R194, R197, R205, R207) -/

/-- Bytes of an element size (R64). -/
def ElemSize.bytes : ElemSize → Nat
  | .b8 => 1 | .b16 => 2 | .b32 => 4 | .b64 => 8

/-- The element count of an untyped form: the footprint must be a multiple of the size (R189). -/
def untypedCount (size : ElemSize) : M Nat := do
  let s ← get
  let b := ElemSize.bytes size
  require (s.me.footprint % b == 0)
  pure (s.me.footprint / b)

/-- `vbc` (R194). -/
def execVbc (size : ElemSize) (d a : Reg) (s : State) : Result :=
  runM (do
    let n ← untypedCount size
    let w := 8 * ElemSize.bytes size
    vGroups n (some (d, w)) []
    let x ← read1 a none
    vArrived n [(d, w)]
    modify fun s => s.updMe fun t => t.vPut n (d, w) fun _ => some (x.toNat % 2 ^ w)
    finish [a]) s

/-- `vins` (R194). -/
def execVins (size : ElemSize) (d a b : Reg) (s : State) : Result :=
  runM (do
    let n ← untypedCount size
    let w := 8 * ElemSize.bytes size
    vGroups n (some (d, w)) []
    let (x, i) ← read2 a b none
    vArrived n [(d, w)]
    require (i.toNat < n)
    modify fun s => s.updMe fun t => t.vPut n (d, w) fun j => if j = i.toNat then some (x.toNat % 2 ^ w) else none
    finish [a, b]) s

/-- `vext` (R194). -/
def execVext (size : ElemSize) (u : Bool) (d a b : Reg) (s : State) : Result :=
  runM (do
    let n ← untypedCount size
    let w := 8 * ElemSize.bytes size
    vGroups n none [(a, w)]
    let i ← read1 b (some d)
    vArrived n [(a, w)]
    require (i.toNat < n)
    finishX [b] d (widen (!u) (ElemSize.bytes size) (elemAt (s.me.groupBits a 1) w i.toNat))) s

/-- `vmv` (R194). -/
def execVmv (d a : Reg) (k : BitVec 3) (s : State) : Result :=
  runM (vMap 32 d [a] k fun l _ => l.getD 0 0) s

/-- `vand` (R197). -/
def execVand (d a b : Reg) (k : BitVec 3) (s : State) : Result :=
  runM (vMap 32 d [a, b] k fun l _ => l.getD 0 0 &&& l.getD 1 0) s

/-- `vor` (R197). -/
def execVor (d a b : Reg) (k : BitVec 3) (s : State) : Result :=
  runM (vMap 32 d [a, b] k fun l _ => l.getD 0 0 ||| l.getD 1 0) s

/-- `vxor` (R197). -/
def execVxor (d a b : Reg) (k : BitVec 3) (s : State) : Result :=
  runM (vMap 32 d [a, b] k fun l _ => l.getD 0 0 ^^^ l.getD 1 0) s

/-- `vrot` (R205). -/
def execVrot (size : ElemSize) (d a b : Reg) (s : State) : Result :=
  runM (do
    let n ← untypedCount size
    let w := 8 * ElemSize.bytes size
    vGroups n (some (d, w)) [(a, w)]
    let x ← read1 b none
    vArrived n [(d, w), (a, w)]
    let v := s.me.groupBits a 1
    modify fun s => s.updMe fun t => t.vPut n (d, w) fun j => some (elemAt v w ((j + x.toNat % n) % n))
    finish [b]) s

/-- `vmatch` (R207). -/
def execVmatch (size : ElemSize) (d a b : Reg) (s : State) : Result :=
  runM (do
    let n ← untypedCount size
    let w := 8 * ElemSize.bytes size
    require (n ≤ 2 ^ w - 2)
    vCheck n (some (d, w)) [(a, w), (b, w)]
    let x := s.me.vElems n (a, w)
    let y := s.me.vElems n (b, w)
    modify fun s => s.updMe fun t => t.vPut n (d, w) fun j =>
      some (match y.findIdx? fun v => v == x.getD j 0 with
        | some i => i
        | none => 2 ^ w - 1)
    retire) s

/-! ### Mask forms (R210) -/

/-- A mask computed from the thread's masks. -/
def maskForm (kd : BitVec 3) (f : Thread → KReg) : M Unit := do
  modify fun s => s.updMe fun t => t.setK kd (f t)
  retire

/-- `kand` (R210). -/
def execKand (kd ka kb : BitVec 3) (s : State) : Result :=
  runM (maskForm kd fun t => t.getK ka &&& t.getK kb) s

/-- `kor` (R210). -/
def execKor (kd ka kb : BitVec 3) (s : State) : Result :=
  runM (maskForm kd fun t => t.getK ka ||| t.getK kb) s

/-- `kxor` (R210). -/
def execKxor (kd ka kb : BitVec 3) (s : State) : Result :=
  runM (maskForm kd fun t => t.getK ka ^^^ t.getK kb) s

/-- `knot` (R210). -/
def execKnot (kd ka : BitVec 3) (s : State) : Result :=
  runM (maskForm kd fun t => ~~~(t.getK ka)) s

/-- `kpop` (R210). -/
def execKpop (d : Reg) (ka : BitVec 3) (s : State) : Result :=
  runM (nullary (BitVec.ofNat 64 (popcount (s.me.getK ka))) d) s

/-- `kfirst` (R210). -/
def execKfirst (d : Reg) (ka : BitVec 3) (s : State) : Result :=
  runM (nullary (BitVec.ofNat 64 ((leastBelow 512 (maskBit (s.me.getK ka))).getD 512)) d) s

/-- `kmv` (R210). -/
def execKmv (kd ka : BitVec 3) (s : State) : Result :=
  runM (maskForm kd fun t => t.getK ka) s

/-- `klen` (R210). -/
def execKlen (kd : BitVec 3) (a : Reg) (s : State) : Result :=
  runM (do
    let x ← read1 a none
    modify fun s => s.updMe fun t => t.setK kd (BitVec.ofNat 512 (2 ^ min x.toNat 512 - 1))
    finish [a]) s

end Sys2Proof.Machine
end

