-- ==== Sys2Proof/Machine/VectorMem.lean ====
section
/-! DEFINITION. Vector loads and stores (R191 to R193): rows or elements, in the global or the local
space. -/

namespace Sys2Proof.Machine

/-- The bytes of an access: address and place in the register of each run that lies in one 64-byte
granule. -/
def granuleRuns (va pos : Nat) : Nat → Nat → List (Nat × Nat × Nat)
  | 0, _ => []
  | _ + 1, 0 => []
  | fuel + 1, n =>
    let k := min n (64 - va % 64)
    (va % 2 ^ 64, pos, k) :: granuleRuns (va + k) (pos + k) fuel (n - k)

/-- The rows of `vld` and `vst`: address and place in the register (R192). -/
def rowRuns (t : Thread) (a : Word) (stride : Int) : List (Nat × Nat × Nat) :=
  (List.range t.rows.toNat).flatMap fun (r : Nat) =>
    let va := (a + BitVec.ofInt 64 ((r : Int) * stride)).toNat
    granuleRuns va (r * t.rbytes.toNat) 10 t.rbytes.toNat

/-- The stride of a row access (R192). -/
def rowStride (t : Thread) (b : Reg) (y : Word) : Int := if b = 0 then (t.rbytes.toNat : Int) else y.toInt

/-- A run of a load with its translation: majority pages where `maj` allows, no device, host or peer pages (R192, R193). -/
def mapRun (maj : Bool) (r : Nat × Nat × Nat) : M ((Nat × Nat × Nat) × Mapped) := do
  let m ← mapGlobal r.1 true false false
  match m.ty with
  | .normal | .replica => pure (r, m)
  | .maj => if maj then pure (r, m) else trapWith .accessFault (BitVec.ofNat 64 r.1) m.leaf
  | _ => trapWith .accessFault (BitVec.ofNat 64 r.1) m.leaf

/-- Pieces of a load of runs: every run is translated and checked before any is read (R191, R192); then sectors come through
the L1D, whole granule parts from the majority unit. -/
def loadRuns (hint : Hint) (maj : Bool) (runs : List (Nat × Nat × Nat)) : M (List Piece × Bool) := do
  let n0 := (← get).nextMsg
  let ms ← runs.mapM (mapRun maj)
  (ms.filter fun q => q.2.ty = .maj).forM fun q => majCheck q.2 q.1.1 false false
  let l ← ms.mapM fun ((va, pos, n), m) => do
    if m.ty = .maj then
      let id ← majRead m va false
      let p : Piece := { msg := some id, pos := pos, len := n, off := m.pa % 64, va := va }
      pure [p]
    else
      let cuts := sectorRuns m.pa (List.replicate n 0) 3
      cuts.mapM fun r => loadPart hint n0 (va + (r.1 - m.pa)) r.1 (pos + (r.1 - m.pa)) r.2.length
  pure (l.flatten, ms.any fun q => q.2.ty == .maj)

/-! ## Local accesses, 4 bytes each (R192) -/

/-- The place of 4 bytes of a vector access under `.own`: the allotment or a vault. -/
def vLocPlace (a : Nat) (wr : Bool) : M LocPlace := do
  let s ← get
  if 2 ^ 32 ≤ a then trapWith .localAddress (BitVec.ofNat 64 a) 0 wr
  else match ownPlace s.issuer.1 a with
    | some (.spad c off) =>
      if s.me.allots s.issuer.2 off 4 && !(wr && s.issuer.2 = 15 && s.here.inLanding off 4) then pure (.spad c off)
      else trapWith .localAddress (BitVec.ofNat 64 a) 0 wr
    | some (.vault off) => pure (.vault off)
    | _ => trapWith .localAddress (BitVec.ofNat 64 a) 0 wr

/-- Pieces of a local load of 4-byte words: address and place in the register of each. -/
def loadWordsLoc (ws : List (Nat × Nat)) : M (List Piece) :=
  ws.mapM fun (a, pos) => do
    match ← vLocPlace a false with
    | .vault off =>
      awaitVaultLine off
      let id ← sendMsg none (.vaultRead off 4) a
      pure { msg := some id, pos := pos, len := 4, va := a }
    | .spad _ off =>
      let s ← get
      pure { pos := pos, len := 4, data := s.here.spad.read off 4 }
    | _ => illegalOperand

/-- Store the word of a number: a word of a vault line to which an earlier word is not yet acknowledged waits for it
(R105). Once a word has been stored, the store goes to its end, a halt notwithstanding (`prog.data` is held, R191). -/
def storeWord (i a : Nat) (b : List Byte) : M Unit := do
  let s ← get
  if s.me.prog.stage ≤ i then
    match ← vLocPlace a true with
    | .spad _ off => modify fun s => s.updHere fun x => x.writeSpad off b
    | .vault off =>
      if s.vaultLineBusy s.issuer.1 s.issuer.2 (off / 128) then
        if i = 0 then waitOn (.vaultLine (off / 128))
        else
          modify fun s => s.updMe fun t => { t with prog := { t.prog with data := some [] } }
          keepOn (.vaultLine (off / 128)) false
      else
        let _ ← sendMsg none (.vaultWrite off b) a
    | _ => pure ()
    modify fun s => s.updMe fun t => { t with prog := { t.prog with stage := i + 1 } }

/-- A local store of 4-byte words, in order; every place is checked before any word is stored (R192, R193). -/
def storeWordsLoc (ws : List (Nat × List Byte)) : M Unit := do
  ws.forM fun w => do
    let _ ← vLocPlace w.1 true
  ws.zipIdx.forM fun w => storeWord w.2 w.1.1 w.1.2
  modify fun s => s.updMe fun t => { t with prog := { t.prog with stage := 0 } }

/-- The words of `vld` and `vst` under `.loc`. -/
def rowWords (t : Thread) (a : Word) (stride : Int) : List (Nat × Nat) :=
  (List.range t.rows.toNat).flatMap fun (r : Nat) =>
    let base := (a + BitVec.ofInt 64 ((r : Int) * stride)).toNat
    (List.range (t.rbytes.toNat / 4)).map fun i => ((base + 4 * i) % 2 ^ 64, r * t.rbytes.toNat + 4 * i)

/-! ## Completion -/

/-- Complete a vector load (R191); one that read majority cells waits for them at the instruction. -/
def finishVld (v : Reg) (ps : List Piece) (wait : Bool) (srcs : List Reg) : M Unit :=
  completeLoad ps (if wait then .hold else .v v) 0 srcs

/-- The alignment of a row access (R192). Where only the stride is no multiple of 4, ADDR is the base plus the stride, also of
an access of one row, DESIGN CHOICE (assumption 88): R302 gives the faulting address, and R192 does not say which it is. -/
def rowAligned (a : Word) (stride : Int) (wr : Bool) : M Unit :=
  if a.toNat % 4 ≠ 0 then trapWith .misaligned a 0 wr
  else if stride % 4 ≠ 0 then trapWith .misaligned (a + BitVec.ofInt 64 stride) 0 wr
  else pure ()

/-- `vld` (R192). -/
def execVld (v a b : Reg) (hint : Hint) (loc : Bool) (s : State) : Result :=
  runM (do
    vGroups 1 (some (v, 32)) []
    let (x, y) ← read2 a b none
    vArrived 1 [(v, 32)]
    let t := s.me
    let stride := rowStride t b y
    rowAligned x stride false
    match t.prog.data with
    | some bytes =>
      modify fun s => s.updMe fun t => t.setV v (putBytes (t.getV v) 0 bytes)
      finish [a, b]
    | none =>
      if loc then
        let ps ← loadWordsLoc (rowWords t x stride)
        finishVld v ps false [a, b]
      else
        let (ps, wait) ← loadRuns hint true (rowRuns t x stride)
        finishVld v ps wait [a, b]) s

/-- `vst` (R192). -/
def execVst (v a b : Reg) (hint : Hint) (loc : Bool) (s : State) : Result :=
  runM (do
    vGroups 1 (some (v, 32)) []
    let (x, y) ← read2 a b none
    vArrived 1 [(v, 32)]
    let t := s.me
    let stride := rowStride t b y
    rowAligned x stride true
    let data := t.getV v
    if loc then
      storeWordsLoc ((rowWords t x stride).map fun w => (w.1, bytesOf data w.2 4))
      finish [a, b]
    else
      storeGlobal false true hint ((rowRuns t x stride).map fun r => (r.1, bytesOf data r.2.1 r.2.2)) [a, b] true) s

/-- The element addresses of `vldx` and `vstx` (R193), with the alignment check. -/
def elemAddrs (t : Thread) (base : Word) (off : Reg) (wr : Bool) : M (List Nat) := do
  let es := (List.range (t.footprint / 4)).map fun j =>
    (base + ((t.getV off).extractLsb' (32 * j) 32).signExtend 64).toNat
  match es.find? fun e => e % 4 != 0 with
  | some e => trapWith .misaligned (BitVec.ofNat 64 e) 0 wr
  | none => pure es

/-- `vldx` (R193). -/
def execVldx (v a b : Reg) (hint : Hint) (loc : Bool) (s : State) : Result :=
  runM (do
    vGroups 1 (some (v, 32)) [(b, 32)]
    let x ← read1 a none
    vArrived 1 [(v, 32), (b, 32)]
    let es ← elemAddrs s.me x b false
    if loc then
      let ps ← loadWordsLoc (es.mapIdx fun j e => (e, 4 * j))
      finishVld v ps false [a]
    else
      let (ps, wait) ← loadRuns hint false (es.mapIdx fun j e => (e, 4 * j, 4))
      finishVld v ps wait [a]) s

/-- `vstx`: in ascending element order (R193). -/
def execVstx (v a b : Reg) (hint : Hint) (loc : Bool) (s : State) : Result :=
  runM (do
    vGroups 1 none [(v, 32), (b, 32)]
    let x ← read1 a none
    vArrived 1 [(v, 32), (b, 32)]
    let es ← elemAddrs s.me x b true
    let data := s.me.getV v
    let parts := es.mapIdx fun j e => (e, bytesOf data (4 * j) 4)
    if loc then
      storeWordsLoc parts
      finish [a]
    else storeGlobal false false hint parts [a]) s

end Sys2Proof.Machine
end

