-- ==== Sys2Proof/Machine/Rep.lean ====
section
/-! DEFINITION. `rep` and the word that follows it (R75, R185 to R187). -/

namespace Sys2Proof.Machine

/-- How far the stepped fields of the word have moved at a repetition; `none` for a field without a step bit
(R185). -/
structure RepStep where
  rd : Option Nat := none
  rs1 : Option Nat := none
  rs2 : Option Nat := none
deriving DecidableEq, Repr

/-- A register field moved; none when it passes 31 (R185). -/
def stepReg (k : Option Nat) (r : Reg) : Option Reg :=
  match k with
  | none => some r
  | some n => if r.toNat + n ≤ 31 then some (BitVec.ofNat 5 (r.toNat + n)) else none

/-- A meaning with the fields it does not read from registers already filled in. -/
abbrev Meaning := State → Result

/-- The form names registers in rd, rs1 and rs2. -/
def RepStep.dab (k : RepStep) (f : Reg → Reg → Reg → Meaning) (d a b : Reg) : Option Meaning := do
  let d ← stepReg k.rd d
  let a ← stepReg k.rs1 a
  let b ← stepReg k.rs2 b
  pure (f d a b)

/-- The form names registers in rd and rs1 only: a step bit of another field is refused (R186). -/
def RepStep.da (k : RepStep) (f : Reg → Reg → Meaning) (d a : Reg) : Option Meaning :=
  if k.rs2.isSome then none else do
    let d ← stepReg k.rd d
    let a ← stepReg k.rs1 a
    pure (f d a)

/-- The form names registers in rs1 and rs2 only. -/
def RepStep.ab (k : RepStep) (f : Reg → Reg → Meaning) (a b : Reg) : Option Meaning :=
  if k.rd.isSome then none else do
    let a ← stepReg k.rs1 a
    let b ← stepReg k.rs2 b
    pure (f a b)

/-- The form names a register in rd only. -/
def RepStep.d (k : RepStep) (f : Reg → Meaning) (d : Reg) : Option Meaning :=
  if k.rs1.isSome || k.rs2.isSome then none else do
    let d ← stepReg k.rd d
    pure (f d)

/-- One repetition of a word: its meaning with the stepped fields, or none where the pair is refused: a form
that `rep` may not stand before, a step bit for a field without a register, or a field past 31 (R185, R186). Bits 11:7 of
`vcmp` hold a condition and a mask, and the rd bit may not step them, DEDUCED (assumption 81). -/
def repBody (w : Instr) (st : RepStep) : Option Meaning :=
  match w with
  | .lui d imm => st.d (fun d => execLui d imm) d
  | .auipc d imm => st.d (fun d => execAuipc d imm) d
  | .lb d a imm => st.da (fun d a => execLb d a imm) d a
  | .lh d a imm => st.da (fun d a => execLh d a imm) d a
  | .lw d a imm => st.da (fun d a => execLw d a imm) d a
  | .ld d a imm => st.da (fun d a => execLd d a imm) d a
  | .lbu d a imm => st.da (fun d a => execLbu d a imm) d a
  | .lhu d a imm => st.da (fun d a => execLhu d a imm) d a
  | .lwu d a imm => st.da (fun d a => execLwu d a imm) d a
  | .sb a b imm => st.ab (fun a b => execSb a b imm) a b
  | .sh a b imm => st.ab (fun a b => execSh a b imm) a b
  | .sw a b imm => st.ab (fun a b => execSw a b imm) a b
  | .sd a b imm => st.ab (fun a b => execSd a b imm) a b
  | .addi d a imm => st.da (fun d a => execAddi d a imm) d a
  | .slti d a imm => st.da (fun d a => execSlti d a imm) d a
  | .sltiu d a imm => st.da (fun d a => execSltiu d a imm) d a
  | .xori d a imm => st.da (fun d a => execXori d a imm) d a
  | .ori d a imm => st.da (fun d a => execOri d a imm) d a
  | .andi d a imm => st.da (fun d a => execAndi d a imm) d a
  | .slli d a sh => st.da (fun d a => execSlli d a sh) d a
  | .srli d a sh => st.da (fun d a => execSrli d a sh) d a
  | .srai d a sh => st.da (fun d a => execSrai d a sh) d a
  | .add d a b => st.dab (fun d a b => execAdd d a b) d a b
  | .sll d a b => st.dab (fun d a b => execSll d a b) d a b
  | .slt d a b => st.dab (fun d a b => execSlt d a b) d a b
  | .sltu d a b => st.dab (fun d a b => execSltu d a b) d a b
  | .xor d a b => st.dab (fun d a b => execXor d a b) d a b
  | .srl d a b => st.dab (fun d a b => execSrl d a b) d a b
  | .or d a b => st.dab (fun d a b => execOr d a b) d a b
  | .and d a b => st.dab (fun d a b => execAnd d a b) d a b
  | .sub d a b => st.dab (fun d a b => execSub d a b) d a b
  | .sra d a b => st.dab (fun d a b => execSra d a b) d a b
  | .mul d a b => st.dab (fun d a b => execMul d a b) d a b
  | .mulh d a b => st.dab (fun d a b => execMulh d a b) d a b
  | .mulhsu d a b => st.dab (fun d a b => execMulhsu d a b) d a b
  | .mulhu d a b => st.dab (fun d a b => execMulhu d a b) d a b
  | .div d a b => st.dab (fun d a b => execDiv d a b) d a b
  | .divu d a b => st.dab (fun d a b => execDivu d a b) d a b
  | .rem d a b => st.dab (fun d a b => execRem d a b) d a b
  | .remu d a b => st.dab (fun d a b => execRemu d a b) d a b
  | .addiw d a imm => st.da (fun d a => execAddiw d a imm) d a
  | .slliw d a sh => st.da (fun d a => execSlliw d a sh) d a
  | .srliw d a sh => st.da (fun d a => execSrliw d a sh) d a
  | .sraiw d a sh => st.da (fun d a => execSraiw d a sh) d a
  | .addw d a b => st.dab (fun d a b => execAddw d a b) d a b
  | .sllw d a b => st.dab (fun d a b => execSllw d a b) d a b
  | .srlw d a b => st.dab (fun d a b => execSrlw d a b) d a b
  | .subw d a b => st.dab (fun d a b => execSubw d a b) d a b
  | .sraw d a b => st.dab (fun d a b => execSraw d a b) d a b
  | .mulw d a b => st.dab (fun d a b => execMulw d a b) d a b
  | .divw d a b => st.dab (fun d a b => execDivw d a b) d a b
  | .divuw d a b => st.dab (fun d a b => execDivuw d a b) d a b
  | .remw d a b => st.dab (fun d a b => execRemw d a b) d a b
  | .remuw d a b => st.dab (fun d a b => execRemuw d a b) d a b
  | .bfx d a b => st.dab (fun d a b => execBfx d a b) d a b
  | .bfxu d a b => st.dab (fun d a b => execBfxu d a b) d a b
  | .bfi d a b => st.dab (fun d a b => execBfi d a b) d a b
  | .clz d a => st.da (fun d a => execClz d a) d a
  | .ctz d a => st.da (fun d a => execCtz d a) d a
  | .cpop d a => st.da (fun d a => execCpop d a) d a
  | .rev8 d a => st.da (fun d a => execRev8 d a) d a
  | .ldl d a size mode u => st.da (fun d a => execLdl d a size mode u) d a
  | .stl a b size mode => st.ab (fun a b => execStl a b size mode) a b
  | .ldh d a size hint u => st.da (fun d a => execLdh d a size hint u) d a
  | .sth a b size hint => st.ab (fun a b => execSth a b size hint) a b
  | .vadd ty d a b k => st.dab (fun d a b => execVadd ty d a b k) d a b
  | .vsub ty d a b k => st.dab (fun d a b => execVsub ty d a b k) d a b
  | .vmul ty d a b k => st.dab (fun d a b => execVmul ty d a b k) d a b
  | .vma ty d a b k => st.dab (fun d a b => execVma ty d a b k) d a b
  | .vmin ty d a b k => st.dab (fun d a b => execVmin ty d a b k) d a b
  | .vmax ty d a b k => st.dab (fun d a b => execVmax ty d a b k) d a b
  | .vdiv d a b k => st.dab (fun d a b => execVdiv d a b k) d a b
  | .vsll ty d a b k => st.dab (fun d a b => execVsll ty d a b k) d a b
  | .vsrl ty d a b k => st.dab (fun d a b => execVsrl ty d a b k) d a b
  | .vsra ty d a b k => st.dab (fun d a b => execVsra ty d a b k) d a b
  | .vcmp ty cond kd a b k => st.ab (fun a b => execVcmp ty cond kd a b k) a b
  | .vsel ty d a b ks => st.dab (fun d a b => execVsel ty d a b ks) d a b
  | .vred ty op d a k => st.da (fun d a => execVred ty op d a k) d a
  | .vscan ty op d a k => st.da (fun d a => execVscan ty op d a k) d a
  | .vcvt ty conv src d a => st.da (fun d a => execVcvt ty conv src d a) d a
  | .vabs ty d a k => st.da (fun d a => execVabs ty d a k) d a
  | .vneg ty d a k => st.da (fun d a => execVneg ty d a k) d a
  | .vsqrt d a k => st.da (fun d a => execVsqrt d a k) d a
  | .vrcp d a k => st.da (fun d a => execVrcp d a k) d a
  | .vrsqrt d a k => st.da (fun d a => execVrsqrt d a k) d a
  | .vexp2 d a k => st.da (fun d a => execVexp2 d a k) d a
  | .vlog2 d a k => st.da (fun d a => execVlog2 d a k) d a
  | .vsort ty d a k => st.da (fun d a => execVsort ty d a k) d a
  | .vtrn ty d a k => st.da (fun d a => execVtrn ty d a k) d a
  | .vcomp ty d a k => st.da (fun d a => execVcomp ty d a k) d a
  | .vexpd ty d a k => st.da (fun d a => execVexpd ty d a k) d a
  | .vld v a b hint loc => st.dab (fun v a b => execVld v a b hint loc) v a b
  | .vst v a b hint loc => st.dab (fun v a b => execVst v a b hint loc) v a b
  | .vldx v a b hint loc => st.dab (fun v a b => execVldx v a b hint loc) v a b
  | .vstx v a b hint loc => st.dab (fun v a b => execVstx v a b hint loc) v a b
  | .vbc size d a => st.da (fun d a => execVbc size d a) d a
  | .vins size d a b => st.dab (fun d a b => execVins size d a b) d a b
  | .vext size u d a b => st.dab (fun d a b => execVext size u d a b) d a b
  | .vmv d a k => st.da (fun d a => execVmv d a k) d a
  | .vand d a b k => st.dab (fun d a b => execVand d a b k) d a b
  | .vor d a b k => st.dab (fun d a b => execVor d a b k) d a b
  | .vxor d a b k => st.dab (fun d a b => execVxor d a b k) d a b
  | .vrot size d a b => st.dab (fun d a b => execVrot size d a b) d a b
  | .vmatch size d a b => st.dab (fun d a b => execVmatch size d a b) d a b
  | .jal _ _ => none
  | .jalr _ _ _ => none
  | .beq _ _ _ => none
  | .bne _ _ _ => none
  | .blt _ _ _ => none
  | .bge _ _ _ => none
  | .bltu _ _ _ => none
  | .bgeu _ _ _ => none
  | .fence _ _ _ => none
  | .fenceI _ _ _ => none
  | .ecall => none
  | .ebreak => none
  | .csrrw _ _ _ => none
  | .csrrs _ _ _ => none
  | .csrrc _ _ _ => none
  | .csrrwi _ _ _ => none
  | .csrrsi _ _ _ => none
  | .csrrci _ _ _ => none
  | .rep _ _ _ => none
  | .amoadd _ _ _ _ _ _ => none
  | .amoand _ _ _ _ _ _ => none
  | .amoor _ _ _ _ _ _ => none
  | .amoxor _ _ _ _ _ _ => none
  | .amomin _ _ _ _ _ _ => none
  | .amomax _ _ _ _ _ _ => none
  | .amominu _ _ _ _ _ _ => none
  | .amomaxu _ _ _ _ _ _ => none
  | .amoswap _ _ _ _ _ _ => none
  | .amocas _ _ _ _ _ _ => none
  | .amodecp _ _ _ _ _ => none
  | .amofadd _ _ _ _ _ _ => none
  | .fnc _ _ => none
  | .ldaq _ _ _ _ => none
  | .strl _ _ _ _ => none
  | .l1wb _ _ _ => none
  | .l1inv _ _ _ => none
  | .boinit _ _ => none
  | .boexp _ _ => none
  | .boarr _ _ => none
  | .trecv _ _ => none
  | .tresume _ => none
  | .tkill _ => none
  | .tstep _ => none
  | .qmap _ _ _ _ => none
  | .qunmap _ => none
  | .qtok _ _ => none
  | .qpeek _ _ => none
  | .qstat _ _ => none
  | .qbtok _ _ _ => none
  | .rwaitf _ _ => none
  | .rwaite _ _ => none
  | .radvc _ _ => none
  | .radvp _ _ => none
  | .rslot _ _ _ => none
  | .rseq _ _ => none
  | .send _ _ _ => none
  | .mrecv _ _ => none
  | .mtest _ _ => none
  | .spawn _ _ _ => none
  | .tret => none
  | .yield => none
  | .waita _ _ _ _ => none
  | .notify _ _ _ => none
  | .bowait _ _ => none
  | .reduce _ _ _ => none
  | .align _ => none
  | .ipf _ _ => none
  | .vcvtNarrow _ _ _ _ _ => none
  | .vqnt _ _ _ _ _ => none
  | .vdq _ _ _ _ _ => none
  | .vshape _ _ => none
  | .kand _ _ _ => none
  | .kor _ _ _ => none
  | .kxor _ _ _ => none
  | .knot _ _ => none
  | .kpop _ _ => none
  | .kfirst _ _ => none
  | .kmv _ _ => none
  | .klen _ _ => none
  | .tcfg _ => none
  | .tzero _ => none
  | .twait _ => none
  | .tmma _ _ _ _ _ _ => none
  | .tmmac _ _ _ _ _ => none
  | .tlda _ _ _ _ => none
  | .tsta _ _ _ _ => none
  | .tmov _ _ => none
  | .put _ _ _ _ _ => none
  | .get _ _ _ _ _ => none
  | .putm _ _ _ _ => none
  | .getf _ _ _ _ _ => none
  | .gath _ _ _ _ => none
  | .kscan _ _ _ _ => none
  | .racfg _ _ => none
  | .rastart _ _ => none
  | .rastat _ => none
  | .crcfg _ => none
  | .crgo _ => none
  | .crstat _ => none
  | .pft _ _ _ => none
  | .cwb _ _ => none
  | .cinv _ _ => none
  | .l1dFill _ => none
  | .mscRequest _ => none
  | .stackReply _ => none
  | .writebackAtHome _ => none
  | .writebackAck _ => none
  | .atomicAtHome _ => none
  | .syncAccessAtHome _ => none
  | .waitaAtHome _ => none
  | .notifyAtHome _ => none
  | .fenceProbe _ => none
  | .echoArrival _ => none
  | .vaultAccess _ => none
  | .remoteScratchpadAccess _ => none
  | .deviceAccess _ => none
  | .sendDelivery _ => none
  | .sendRetry _ _ => none
  | .alignTimeout _ _ => none
  | .yieldExpiry _ _ => none
  | .ringCellWrite _ => none
  | .headMessage _ => none
  | .ringClaim _ => none
  | .boomReadAhead _ => none
  | .lbClone _ _ => none
  | .lbWithdraw _ => none
  | .cruiserEmit _ => none
  | .accelLookahead _ => none
  | .accelDeliver _ => none
  | .gatherRequest _ _ _ => none
  | .gatherLand _ _ => none
  | .copyPacketLand _ _ _ => none
  | .notifyWordWrite _ _ => none
  | .scanLine _ _ _ => none
  | .scanComplete _ _ => none
  | .prefetchLine _ _ _ => none
  | .maintenanceLine _ _ _ => none
  | .tileStep _ _ => none
  | .tileStepFault _ _ => none
  | .vaultRefusal _ _ => none
  | .engineFault _ _ => none
  | .tableWalk _ _ _ => none
  | .speculativeConfirm _ => none
  | .instructionFetchMiss _ => none
  | .fetchBlock _ _ => none
  | .packetSuspect _ _ _ => none
  | .tokenCapture _ _ => none
  | .skidHandover _ _ => none
  | .reduceInput _ => none
  | .routerForward _ _ _ => none
  | .redLimit _ _ _ => none
  | .rootDelivery _ _ => none
  | .takeEntry _ => none
  | .packetToDie _ => none
  | .dieSteal _ _ => none
  | .dispatch _ => none
  | .taskSteal _ _ => none
  | .taskMigrate _ _ => none
  | .graphStart _ => none
  | .nodeStart _ _ _ => none
  | .launchNodeComplete _ _ _ => none
  | .loopPassEnd _ _ _ => none
  | .completionObjectWrite _ _ _ => none
  | .preemptRequest _ => none
  | .contextSave _ => none
  | .resumeRequest _ _ => none
  | .opaqueSave _ => none
  | .kamgorAnswer _ _ => none
  | .supervisorTrap _ => none
  | .lqtailWrite _ _ => none
  | .lqcfgWrite _ _ => none
  | .registerWrite _ _ => none
  | .create => none
  | .endCtx => none
  | .map => none
  | .unmap => none
  | .windows => none
  | .tree => none
  | .attest => none
  | .hostApertureAccess _ _ _ _ => none
  | .hostRequest _ => none
  | .peerRequest _ => none
  | .peerLinkFail _ => none
  | .extentRelease _ _ => none
  | .accessTableWrite _ _ _ _ => none
  | .sliceRetire _ _ => none
  | .stubForward _ => none
  | .hotRowCapture _ _ => none
  | .captureWindowEnd => none
  | .majCopyAtStack _ => none
  | .majReply _ => none
  | .majReadReply _ => none
  | .stackOffline _ => none
  | .stackCatchup _ => none
  | .stackFailed _ => none
  | .catchupGranule _ => none
  | .scrubVisit _ _ => none
  | .dfreqTgtWrite _ _ => none
  | .pllLock _ => none
  | .dfswWrite _ _ => none
  | .freqSwitch _ => none
  | .crossingStallEnd _ => none
  | .computeDieReset _ => none
  | .dieResetRelease _ => none
  | .packageReset => none
  | .bootImageCheck _ => none
  | .recoveryImage _ => none
  | .linkModuleFail _ _ => none
  | .illegalInstruction _ => none
  | .replyToCore _ => none
  | .memoryError _ _ _ => none
  | .peerLinkUp _ => none
  | .extentGrant _ _ => none

/-- Bytes of a step code (R185). -/
def repStepOf (step : BitVec 2) : Nat := 2 ^ step.toNat

/-- The repetitions left when `rep` issues (R185). -/
def repLeft (t : Thread) (n : Nat) : Nat := if t.repcnt = 0 ∨ n < t.repcnt.toNat then n else t.repcnt.toNat

/-- `rep`: one repetition of the word that follows (R185). A trap of the pair posts a record whose PC is the
address of `rep`, with FLAGS bit REP (R302). A word that is refused when REPCNT comes in nonzero and at most the count
leaves it as it came in, DEDUCED (assumption 82). -/
def execRep (count : BitVec 6) (mask : BitVec 3) (step : BitVec 2) (s : State) : Result :=
  let t := s.me
  match t.wordAt (t.pc.toNat + 4) with
  | none => runM (waitOn .fetch) s
  | some w =>
    let n := count.toNat + 1
    let left := repLeft t n
    let i := (n - left) * repStepOf step
    let s := s.updMe fun t => { t with repcnt := BitVec.ofNat 7 left, inRep := true }
    let by_ := fun (bit : Nat) => if mask.getLsbD bit then some i else none
    match decode w with
    | .error _ => runM (trapWith .illegalInstruction) s
    | .ok v =>
      match repBody v { rd := by_ 0, rs1 := by_ 1, rs2 := by_ 2 } with
      | none => runM illegalOperand s
      | some f => f s

end Sys2Proof.Machine
end

