-- ==== Sys2Proof/Machine/Cycle.lean ====
section
/-! DEFINITION. A die cycle (R366), the fetch port of a cluster (R90, R351), when a waiting or parked thread
may issue again (R27, R29), and the rotation that chooses the thread that issues (R28). -/

namespace Sys2Proof.Machine

/-- A term is a step of the device, not an instruction of a thread. -/
def isEvent (i : Instr) : Bool :=
  match i with
  | .illegalInstruction _ => false
  | _ => (encode i).isNone

/-! ## Clocks -/

/-- INC of a frequency step: 1.8 / f in 16.16 fixed point, rounded to the nearest integer (R366). -/
def incOf (step : Nat) : BitVec 17 :=
  BitVec.ofNat 17 ((2 * 18 * 65536 + (12 + step)) / (2 * (12 + step)))

/-- A die with one more cycle begun; the next one begins a period later (R366). The cycle that begins at a switch still counts
with the old INC, as the run of R360 shows, and INC is that of the current step from then on (R365). -/
def Die.tick (d : Die) : Die :=
  let s := d.frac.toNat + d.inc.toNat
  { d with cycle := d.cycle + 1, ncycle := d.ncycle + BitVec.ofNat 64 (s / 2 ^ 16), frac := BitVec.ofNat 16 s
           inc := incOf d.cur.toNat, edge := d.edge + cycleUnits d.cur.toNat }

/-- The load balancer's sample of a ring in a die cycle of its consumer's replica 0 (R245). -/
def Ring.sample (r : Ring) (d : DieId) (now : Nat) : Ring :=
  match r.replicas.find? fun p => p.2.2 == 0 with
  | none => r
  | some p =>
    if dieOf p.1 != d then r
    else { r with
      highSince := if 3 * r.slots < 4 * r.count then some (r.highSince.getD now) else none
      lowSince := if 4 * r.count < r.slots then some (r.lowSince.getD now) else none }

/-- A claim on a sub-array is taken again; what was held ahead of a step has been dropped (R277, R311). -/
def Cluster.retake (x : Cluster) (c : CoreId) (l : List (Fin 4 × SubArray)) : Cluster :=
  l.foldl (fun x p =>
    let u := p.2
    let claim := u.claim.map fun q => (c, q.2)
    let queue := u.queue.map fun (o : TileOp) => { o with ahead := [] }
    { x with tile := x.tile.set p.1 { u with claim := claim, queue := queue } }) x

/-- A claim that a restored thread has yet to take again. -/
abbrev Reclaim := CoreId × Slot × Nat × List (Fin 4 × SubArray)

/-- A mask of sub-arrays. -/
def subMask (l : List (Fin 4)) : BitVec 4 := l.foldl (fun (m : BitVec 4) i => m ||| (1 <<< i.val)) 0

/-- What a restored thread waits for: sub-arrays that others hold (R265, R277). -/
def Reclaim.blocker (r : Reclaim) : Blocker := .tileHeld (subMask (r.2.2.2.map Prod.fst))

/-- A restored thread of a slot has not taken its claim again: it is parked as at a `tcfg` (R277). -/
def State.reclaiming (s : State) (c : CoreId) (k : Slot) : Bool := s.reclaims.any fun r => r.1 == c && r.2.1 == k

/-- The sub-arrays of a restored claim are free, and no thread and no other restored claim stands before it (R265). -/
def State.mayReclaim (s : State) (r : Reclaim) : Bool :=
  let cl := clusterOf r.1
  let meets := fun (b : Blocker) => match b, Reclaim.blocker r with
    | .tileHeld m, .tileHeld n => m &&& n != 0
    | _, _ => false
  (r.2.2.2.all fun p => ((s.clusters.get cl).tile.get p.1).claim.isNone)
    && (s.reclaims.all fun q => clusterOf q.1 != cl || r.2.2.1 ≤ q.2.2.1 || !meets (Reclaim.blocker q))
    && (List.finRange 4).all fun i => (List.finRange 16).all fun k =>
      let t := s.thread (coreIn cl i) k
      r.2.2.1 ≤ t.placeFor meets || !t.stopsFor meets

/-- Restored claims whose sub-arrays are free are taken again (R277). -/
def State.takeReclaims (s : State) : State :=
  s.reclaims.foldl (fun s r =>
    if s.mayReclaim r then
      { s.updCluster (clusterOf r.1) fun x => x.retake r.1 r.2.2.2 with
        reclaims := s.reclaims.filter fun q => !(q.1 == r.1 && q.2.1 == r.2.1) }
    else s) s

/-- A die cycle begins on a die (R366). -/
def State.tick (s : State) (d : DieId) : State :=
  let s := s.updDie d Die.tick
  let now := (s.dies.get d).cycle.toNat
  State.takeReclaims { s with rings := s.rings.map fun r => r.sample d now }

/-- A frequency switch: the die's clock passes to the new PLL, whose first cycle starts at tick AT, and the crossings
stall until AT + 64 (R365). F stays, and INC follows with that cycle (R366). A die in reset counts no cycle: its INC follows at
once. -/
def Die.switch (d : Die) : Die :=
  { d with
    cur := d.tgt, inc := if d.inReset then incOf d.tgt.toNat else d.inc, lock := false, at_ := 0
    stallEnd := some (d.at_ + 64), edge := d.at_.toNat * tickUnits }

/-- What a die's clock does next. -/
inductive ClockStep
  | switch | stallEnd | cycle
deriving DecidableEq, Repr

/-- A step of a clock at a tick, if it is due no later than another. -/
def dueFirst (t : Word) (k : ClockStep) (c : Option (Nat × ClockStep)) : Option (Nat × ClockStep) :=
  match c with
  | some q => if t.toNat * tickUnits ≤ q.1 then some (t.toNat * tickUnits, k) else c
  | none => some (t.toNat * tickUnits, k)

/-- The next step of a die's clock, and the time at which it is due: a switch comes before the cycle that starts at its
tick (R365). A die in reset counts no cycle (R368). -/
def Die.nextClock (d : Die) : Option (Nat × ClockStep) :=
  let c := if d.inReset then none else some (d.edge, ClockStep.cycle)
  let c := match d.stallEnd with
    | some t => dueFirst t .stallEnd c
    | none => c
  if d.at_ != 0 then dueFirst d.at_ .switch c else c

/-- A step of a die's clock. -/
def State.clockStep (s : State) (d : DieId) (k : ClockStep) : State :=
  match k with
  | .switch => s.updDie d Die.switch
  | .stallEnd => s.updDie d fun x => { x with stallEnd := none }
  | .cycle => s.tick d

/-- The earliest step of the four dies' clocks: when, on which die, and which. -/
def State.nextClock (s : State) : Option (Nat × DieId × ClockStep) :=
  (List.finRange 4).foldl (fun b d =>
    match (s.dies.get d).nextClock, b with
    | some (t, k), none => some (t, d, k)
    | some (t, k), some q => if t < q.1 then some (t, d, k) else b
    | none, _ => b) none

/-- Time passes, at most to the next step of a clock: a cycle, a switch or the end of a stall is not passed over (R363
to R366). -/
def State.pass (s : State) (n : Nat) : State :=
  match s.nextClock with
  | some q => { s with time := max s.time (min (s.time + n) q.1) }
  | none => { s with time := s.time + n }

/-- A die cycle, when it is due (R366). -/
def State.cycleDue (s : State) (d : DieId) : State :=
  match (s.dies.get d).nextClock with
  | some (t, .cycle) => if t ≤ s.time then s.tick d else s
  | _ => s

/-- The clocks run until the next cycle of a die has begun. -/
def State.runClocks (s : State) (d : DieId) : Nat → State
  | 0 => s
  | n + 1 =>
    match s.nextClock with
    | none => s
    | some (t, e, k) =>
      let u := State.clockStep { s with time := max s.time t } e k
      if e = d ∧ k = .cycle then u else u.runClocks d n

/-! ## The fetch port (R351) -/

/-- The address of the 32-byte block that a thread waits for: the block of its instruction, or the block of
the next word for a form that needs it (R185, R287). -/
def Thread.wantBlock (t : Thread) : Option Nat :=
  let pc := t.pc.toNat
  let go := match t.status with | .ready | .waiting _ | .parked _ => true | _ => false
  if !go then none
  else if (t.wordAt pc).isNone then some (pc / 32 * 32)
  else if t.status = .waiting .fetch && (t.wordAt (pc + 4)).isNone then some ((pc + 4) / 32 * 32)
  else none

/-- A thread with a fetched block: it follows the block that the thread holds, or replaces it. -/
def Thread.takeBlock (t : Thread) (va : Nat) (b : List Byte) : Thread :=
  match t.ibuf with
  | some (base, old) =>
    if (t.wordAt t.pc.toNat).isSome && base + old.length = va then { t with ibuf := some (base, old ++ b) }
    else { t with ibuf := some (va, b) }
  | none => { t with ibuf := some (va, b) }

/-- A saturating sum of 32 bits (R323). -/
def satAdd32 (a : BitVec 32) (n : Nat) : BitVec 32 := BitVec.ofNat 32 (min (2 ^ 32 - 1) (a.toNat + n))

/-- Requests at a cluster's fetch port: since when, core, slot and address. A thread whose line is on its
way is not among them. -/
def State.fetchRequests (s : State) (cl : TileId) : List (Nat × CoreId × Slot × Nat) :=
  (List.finRange 4).flatMap fun i => (List.finRange 16).filterMap fun k =>
    let c := coreIn cl i
    let t := s.thread c k
    if t.prog.msgs.all fun id => s.gone id then t.wantBlock.map fun va => (t.prog.since, c, k, va) else none

/-- The oldest of the requests. -/
def oldest (l : List (Nat × CoreId × Slot × Nat)) : Option (Nat × CoreId × Slot × Nat) :=
  l.foldl (fun b r => match b with
    | none => some r
    | some q => if r.1 < q.1 then some r else b) none

/-- A fetch that fails: the thread traps at the target (R81, R303). ADDR is the address of the 32-byte block that cannot be
fetched, not of the word that PC holds, DESIGN CHOICE (assumption 88). -/
def State.fetchFault (s : State) (c : CoreId) (k : Slot) (va : Nat) (cause : Cause) : State :=
  s.takeTrap c k { cause := .fetchFault, addr := BitVec.ofNat 64 va, detail := BitVec.ofNat 64 cause.code
                   fetch := true }

/-- Translate a fetch (R307, R394): the physical address, or the cause that stops it. -/
def State.mapFetch (s : State) (c : CoreId) (k : Slot) (va : Nat) : Except (Cause × Nat) (Nat × State) :=
  let ctx := (s.thread c k).hctx
  match s.translate c ctx va false with
  | .fault _ cause level _ => .error (cause, level)
  | .ok s' level e =>
    if !leafEx e then .error (.accessFault, level)
    else match leafType e with
      | some .normal | some .replica =>
        if (s.ctxs.get ctx).keyLive then .ok (leafPa level e va, s') else .error (.accessFault, level)
      | _ => .error (.accessFault, level)

/-- A thread that receives the block it waits for. A thread whose line had to be fetched adds the cycles it
waited to SLIP (R323). -/
def Thread.receiveBlock (ctx : Ctx) (va : Nat) (b : List Byte) (now : Nat) (t : Thread) : Thread :=
  if t.wantBlock = some va && t.hctx == ctx then
    let u := t.takeBlock va b
    if u.prog.msgs.isEmpty then u
    else { u with slip := satAdd32 u.slip (now - u.prog.since), prog := { u.prog with msgs := [] } }
  else t

/-- Give a fetched block to every thread of the cluster that waits for it (R351). -/
def State.giveBlock (s : State) (cl : TileId) (ctx : Ctx) (va : Nat) (b : List Byte) : State :=
  (List.finRange 4).foldl (fun s i =>
    let c := coreIn cl i
    let now := s.cycleOf c
    s.updCore c fun x => { x with slots := x.slots.map (Thread.receiveBlock ctx va b now) }) s

/-- An instruction fetch of a line by the cluster is on its way. -/
def State.fetchFor (s : State) (cl : TileId) (line : Nat) : Option Nat :=
  (s.net.find? fun m => clusterOf m.core == cl && m.stage == .sent && match m.body with
    | .ifetch l => l == line
    | _ => false).map Msg.id

/-- The fetch port of a core's cluster sends a fetch of a line, which is not counted (R122, R214). -/
def State.postFetch (s : State) (c : CoreId) (k : Slot) (line va : Nat) : Nat × State :=
  let t := s.homeTile (s.thread c k).hctx c (128 * line)
  let (id, s) := s.post1 c k none (.ifetch line) va
  (id, s.updMsg id fun m => { m with target := some (.tile t) })

/-- The fetch port serves its oldest request (R351): a block from the instruction cache, a fetch of the
missing line from its home slice, or a fault. With `blk`, it serves it when it lies in that physical
block. -/
def State.serveFetch (s : State) (cl : TileId) (blk : Option Nat := none) : State :=
  match oldest (s.fetchRequests cl) with
  | none => s
  | some (_, c, k, va) =>
    match s.mapFetch c k va with
    | .error (cause, _) => if blk.isSome then s else s.fetchFault c k va cause
    | .ok (pa, s') =>
      if blk.isSome && blk != some (pa / 32) then s
      else
        let wait := fun (s : State) (id : Nat) =>
          s.updThread c k fun t => { t with prog := { t.prog with msgs := [id] } }
        match assoc (s.clusters.get cl).icache (pa / 128) with
        | some data => s'.giveBlock cl (s.thread c k).hctx va (bytesOf data (pa % 128) 32)
        | none =>
          match s.fetchFor cl (pa / 128) with
          | some id => wait s' id
          | none =>
            let (id, s') := s'.postFetch c k (pa / 128) 0
            wait s' id

/-! ## When a stopped thread may issue again -/

/-- No other thread of the core has parked earlier for the same thing (R32). -/
def State.firstParked (s : State) (c : CoreId) (k : Slot) (p : Blocker → Bool) : Bool :=
  let me := (s.thread c k).placeFor p
  (List.finRange 16).all fun j =>
    let t := s.thread c j
    j == k || me ≤ t.placeFor p || !t.stopsFor p

/-- No other thread of the cluster stopped for the same thing stands before this one; the places for it come from the
cluster's order (R265, R294). -/
def State.firstOfCluster (s : State) (c : CoreId) (k : Slot) (p : Blocker → Bool) : Bool :=
  let me := (s.thread c k).placeFor p
  ((List.finRange 4).all fun i => (List.finRange 16).all fun j =>
    let d := coreIn (clusterOf c) i
    let t := s.thread d j
    (d == c && j == k) || me ≤ t.placeFor p || !t.stopsFor p)
  && s.reclaims.all fun r => clusterOf r.1 != clusterOf c || me ≤ r.2.2.1 || !p (Reclaim.blocker r)

/-- Ordinary entries of the deque that are free (R257). -/
def Core.ordinaryFree (x : Core) : Nat := 56 - (x.deque.filter fun e => e.reserved.isNone).length

/-- The reserved entry of a depth is free (R257). -/
def Core.reservedFree (x : Core) (depth : Nat) : Bool := depth ≤ 8 && !x.deque.any fun e => e.reserved == some depth

/-- Threads of a core that stopped for an entry of its deque before the thread of a slot did (R32). -/
def State.earlierSpawns (s : State) (c : CoreId) (k : Slot) : List Slot :=
  (List.finRange 16).filter fun j =>
    let t := s.thread c j
    j != k && t.stopsFor (· == .deque) && t.placeFor (· == .deque) < (s.thread c k).placeFor (· == .deque)

/-- The entry that a thread of a slot may take in its core's deque: an ordinary one, when one is free beside those held for
threads that parked earlier, or the reserved one of its child's depth (R32, R33, R257). The answer names the reserved
depth. -/
def State.dequePlace (s : State) (c : CoreId) (k : Slot) : Option (Option Nat) :=
  let x := s.core c
  let d := (s.thread c k).depth + 1
  let before := s.earlierSpawns c k
  if before.length < x.ordinaryFree then some none
  else if x.reservedFree d && before.all fun j => (s.thread c j).depth + 1 != d then some (some d)
  else none

/-- The awaited operations of a tile unit on an accumulator number are complete (R275). -/
def State.tileQuiet (s : State) (c : CoreId) (k : Slot) (acc : Option (Fin 32)) : Bool :=
  (s.clusters.get (clusterOf c)).tile.toList.all fun u =>
    u.claim != some (c, k) || u.queue.all fun o => acc.isSome && acc != some o.acc

/-- The supervisor has stopped a thread, which ends when nothing keeps it, or waits for that (R316). -/
def Thread.killing (t : Thread) : Bool :=
  match t.status with
  | .waiting (.slotFree _) => true
  | _ => false

/-- What stops a thread no longer stands in its way (R29). -/
def State.clear (s : State) (c : CoreId) (k : Slot) (b : Blocker) : Bool :=
  let x := s.core c
  let t := s.thread c k
  match b with
  | .regs xm vm => t.xpend &&& xm == 0 && t.vpend &&& vm == 0
  | .loads => t.loads.isEmpty
  | .lineBusy line => !s.lineBusy c line
  | .sectorBusy line sec => !s.sectorBusy c line sec
  | .msgs => t.prog.msgs.all (fun id => s.gone id) && !(t.loads.any fun l => l.dst == .hold)
  | .device => !s.deviceBusy c k
  | .fetch => (t.wordAt (t.pc.toNat + 4)).isSome
  | .queueIn q => match x.queue q with | some r => !r.entries.isEmpty | none => true
  | .queueOut q => match x.queue q with | some r => r.entries.length < r.depth | none => true
  | .ringIn id n => match s.ring id with
    | some r => (s.headEntries r n).isSome
      && s.firstParked c k (Blocker.atEntries id)
    | none => true
  | .ringPlace id seq => match s.ring id with
    | some r => r.land.isSome && seq < r.headAt c + r.slots && (r.sequenced
      || s.firstParked c k (Blocker.atPlaces id))
    | none => true
  | .ringClaim => t.prog.data.isSome
  | .message m => t.mfull.getLsbD m.val
  | .sendRetry => t.prog.data.isSome
  | .registered => t.prog.data.isSome
  | .bowait a ph => x.spad.read1 a != ph
  | .tileOps acc => s.tileQuiet c k acc
  | .tileFull subs => ((List.finRange 4).all fun i =>
      !subs.getLsbD i.val || ((s.clusters.get (clusterOf c)).tile.get i).queue.length < 8)
      && s.firstOfCluster c k fun b => match b with | .tileFull m => m &&& subs != 0 | _ => false
  | .tileHeld subs => ((List.finRange 4).all fun i =>
      let held := ((s.clusters.get (clusterOf c)).tile.get i).claim
      !subs.getLsbD i.val || held.isNone || held == some (c, k))
      && s.firstOfCluster c k fun b => match b with | .tileHeld m => m &&& subs != 0 | _ => false
  | .align _ _ => false
  | .trapq => !x.trapq.isEmpty
  | .yield => false
  | .deque => (s.dequePlace c k).isSome
  | .copyQueue => x.copies < 32
  | .accel => (s.clusters.get (clusterOf c)).accel.isNone && s.firstOfCluster c k fun b => b == .accel
  | .cruiser => (s.clusters.get (clusterOf c)).cruiser.isNone && s.firstOfCluster c k fun b => b == .cruiser
  | .reduce => true
  | .kamgor => false
  | .majStamp => (s.clusters.get (clusterOf c)).lastStamp != some ((s.timeref (dieOf c)).setWidth 49)
  | .majOut => !s.majOut c k
  | .page j xm vm => (s.thread c j).xpend &&& xm == 0 && (s.thread c j).vpend &&& vm == 0
  | .inside j => !s.inside c j
  | .localReads => !s.localReadsOut c k
  | .engines => !x.engineBusy k
  | .slotFree j => k != j && !(s.thread c j).killing
  | .vault => !s.localStoresOut c k
  | .vaultLine line => !s.vaultLineBusy c k line
  | .crossing => (s.dies.get (dieOf c)).stallEnd.isNone
  | .spadOf d => !s.spadBusy c k d

/-- The tree slot of the `reduce` at which a thread stands. -/
def State.reduceTree (s : State) (c : CoreId) (k : Slot) : Option (Fin 16) :=
  let t := s.thread c k
  match decode ((t.wordAt (t.pc.toNat + if (s.inPair c k) then 4 else 0)).getD 0) with
  | .ok (.reduce _ tree _) => some tree.toFin
  | _ => none

/-- Every packet of a thread's `reduce` has been taken by its router (R260, R263). -/
def State.reduceTaken (s : State) (c : CoreId) (k : Slot) : Bool :=
  let t := s.thread c k
  t.prog.stage == 1 && !t.prog.msgs.isEmpty && (t.prog.msgs.all fun id => s.gone id) && (s.reduceTree c k).isSome

/-- The present instruction of a thread has been performed and has only to complete: its answer has come, an acquire has
been made, the router has taken its packets, or it is a `tkill` that has stopped its victim (R31, R138, R256, R260). -/
def State.performed (s : State) (c : CoreId) (k : Slot) : Bool :=
  let t := s.thread c k
  t.prog.data.isSome || (t.prog.stage == 3 && !t.prog.msgs.isEmpty && t.prog.msgs.all fun id => s.gone id)
    || s.reduceTaken c k || t.killing

/-- A thread stands at an instruction boundary, or at an instruction that is parked at a full output: its present
instruction is not one that has been performed and has yet to complete. -/
def State.between (s : State) (c : CoreId) (k : Slot) : Bool :=
  !s.performed c k || (s.thread c k).atOutput || (s.thread c k).stands

/-- The integer registers that a form names as an operand or a result. -/
def namedX (i : Instr) : List Reg :=
  match i with
  | .lui d _ | .auipc d _ | .jal d _ | .csrrwi d _ _ | .csrrsi d _ _ | .csrrci d _ _ | .qpeek d _
  | .qstat d _ | .rseq d _ | .mrecv d _ | .mtest d _ | .kpop d _ | .kfirst d _ | .rastat d | .crstat d => [d]
  | .jalr d a _ | .lb d a _ | .lh d a _ | .lw d a _ | .ld d a _ | .lbu d a _ | .lhu d a _ | .lwu d a _
  | .addi d a _ | .slti d a _ | .sltiu d a _ | .xori d a _ | .ori d a _ | .andi d a _ | .slli d a _
  | .srli d a _ | .srai d a _ | .addiw d a _ | .slliw d a _ | .srliw d a _ | .sraiw d a _ | .csrrw d a _
  | .csrrs d a _ | .csrrc d a _ | .clz d a | .ctz d a | .cpop d a | .rev8 d a | .ldl d a _ _ _
  | .ldh d a _ _ _ | .ldaq d a _ _ | .trecv d a | .spawn d a _ | .notify d a _ => [d, a]
  | .beq a b _ | .bne a b _ | .blt a b _ | .bge a b _ | .bltu a b _ | .bgeu a b _ | .sb a b _ | .sh a b _
  | .sw a b _ | .sd a b _ | .stl a b _ _ | .sth a b _ _ | .strl a b _ _ | .l1wb a b _ | .l1inv a b _
  | .boinit a b | .boexp a b | .boarr a b | .send _ a b | .bowait a b | .vshape a b | .vld _ a b _ _
  | .vst _ a b _ _ | .vins _ _ a b | .tmma _ _ _ _ a b | .tlda _ _ a b | .tsta _ _ a b | .racfg a b
  | .pft _ a b | .cwb a b | .cinv a b => [a, b]
  | .add d a b | .sll d a b | .slt d a b | .sltu d a b | .xor d a b | .srl d a b | .or d a b | .and d a b
  | .sub d a b | .sra d a b | .mul d a b | .mulh d a b | .mulhsu d a b | .mulhu d a b | .div d a b
  | .divu d a b | .rem d a b | .remu d a b | .addw d a b | .sllw d a b | .srlw d a b | .subw d a b
  | .sraw d a b | .mulw d a b | .divw d a b | .divuw d a b | .remw d a b | .remuw d a b | .bfx d a b
  | .bfxu d a b | .bfi d a b | .waita d a b _ => [d, a, b]
  | .amoadd d b a _ _ _ | .amoand d b a _ _ _ | .amoor d b a _ _ _ | .amoxor d b a _ _ _
  | .amomin d b a _ _ _ | .amomax d b a _ _ _ | .amominu d b a _ _ _ | .amomaxu d b a _ _ _
  | .amoswap d b a _ _ _ | .amocas d b a _ _ _ | .amofadd d b a _ _ _ => [a.setWidth 5 + 16, b.setWidth 5, d.setWidth 5]
  | .amodecp d a _ _ _ => [a.setWidth 5 + 16, d.setWidth 5]
  | .tresume a | .tkill a | .tstep a | .reduce _ _ a | .ipf a _ | .vldx _ a _ _ _ | .vstx _ a _ _ _
  | .vbc _ _ a | .klen _ a | .tcfg a | .crcfg a => [a]
  | .rwaitf _ c | .rwaite _ c | .radvc _ c | .radvp _ c => [c]
  | .rslot d _ c => [d, c]
  | .vext _ _ d _ b => [b, d]
  | .vrot _ _ _ b | .tmmac _ _ _ _ b => [b]
  | .put d a b rc _ | .get d a b rc _ | .putm d a b rc | .getf d a b rc _ | .gath d a b rc
  | .kscan d a b rc => [d, a, b, rc]
  | _ => []

/-- The vector registers that a form names; of a group, the first. -/
def namedV (i : Instr) : List Reg :=
  match i with
  | .reduce v _ _ | .vld v _ _ _ _ | .vst v _ _ _ _ => [v]
  | .vadd _ d a b _ | .vsub _ d a b _ | .vmul _ d a b _ | .vma _ d a b _ | .vmin _ d a b _
  | .vmax _ d a b _ | .vdiv d a b _ | .vsll _ d a b _ | .vsrl _ d a b _ | .vsra _ d a b _ | .vsel _ d a b _
  | .vand d a b _ | .vor d a b _ | .vxor d a b _ | .vmatch _ d a b => [d, a, b]
  | .vcmp _ _ _ a b _ => [a, b]
  | .vred _ _ d a _ | .vscan _ _ d a _ | .vcvt _ _ _ d a | .vabs _ d a _ | .vneg _ d a _ | .vsqrt d a _
  | .vrcp d a _ | .vrsqrt d a _ | .vexp2 d a _ | .vlog2 d a _ | .vsort _ d a _ | .vtrn _ d a _
  | .vcomp _ d a _ | .vexpd _ d a _ | .vcvtNarrow _ _ _ d a | .vqnt _ _ _ d a | .vdq _ _ _ d a | .vmv d a _
  | .vrot _ d a _ => [d, a]
  | .vldx v _ b _ _ | .vstx v _ b _ _ => [v, b]
  | .vbc _ d _ | .vins _ d _ _ => [d]
  | .vext _ _ _ a _ => [a]
  | _ => []

/-- The operands of a thread's next instruction are available (R27). -/
def Thread.operandsIn (t : Thread) : Bool :=
  (t.xpend == 0 && t.vpend == 0) ||
    match decode ((t.wordAt t.pc.toNat).getD 0) with
    | .ok i => t.pendingOf (namedX i) == 0 && t.vpendingOf (namedV i) == 0
    | .error _ => true

/-- A thread is in step with its core: its instruction is fetched, and it is ready, or what stopped it is
gone (R27, R29). A core that is halting issues nothing more than the instructions that have been performed (R263, R317,
R352). -/
def State.canIssue (s : State) (c : CoreId) (k : Slot) : Bool :=
  let t := s.thread c k
  (!(s.core c).halting || s.performed c k) && (t.wordAt t.pc.toNat).isSome
  && !s.reclaiming c k && match t.status with
    | .ready => t.operandsIn
    | .waiting b => s.clear c k b
    | .parked b => s.clear c k b
    | _ => false

/-- The slots in the order of the rotation: counting upward from the last one that issued (R28). -/
def rotation (last : Slot) : List Slot := (List.range 16).map fun i => last + 1 + finOf 16 i

/-- The slot that issues (R28). -/
def State.pickSlot (s : State) (c : CoreId) : Option Slot := (rotation (s.core c).last).find? (s.canIssue c)

/-- The state in which the thread of a slot issues. -/
def State.issuing (s : State) (c : CoreId) (k : Slot) : State :=
  { (s.updCore c fun x => { x with last := k, issuedAt := some (s.cycleOf c) }).updThread c k fun t =>
      { t with status := .ready } with
    issuer := (c, k) }

/-- The core has not yet issued in this die cycle (R28). -/
def State.freeCycle (s : State) (c : CoreId) : Bool := (s.core c).issuedAt != some (s.cycleOf c)

/-- A thread that was tried waits for an operand or an instruction line: it was not ready, and has issued nothing (R27). -/
def State.notReady (u : State) (c : CoreId) (k : Slot) : Bool :=
  match (u.thread c k).status with
  | .waiting (.regs _ _) | .waiting .fetch => true
  | _ => false

/-- The state after a thread was tried that was not ready: the rotation stands where it stood (R28). -/
def State.passedOver (s u : State) (c : CoreId) : State :=
  { u.updCore c fun x => { x with last := (s.core c).last, issuedAt := (s.core c).issuedAt } with issuer := s.issuer }

/-- The meaning by which an instruction is tried for its operands: that of `rep` and of the forms with vector groups or
conversions; none for the others, whose operands `namedX` and `namedV` give. -/
def trialOf (i : Instr) : Option Meaning :=
  match i with
  | .rep count mask step => some (execRep count mask step)
  | .vcvtNarrow nf conv w d a => some (execVcvtNarrow nf conv w d a)
  | .vqnt nf conv w d a => some (execVqnt nf conv w d a)
  | .vdq nf conv w d a => some (execVdq nf conv w d a)
  | i => repBody i {}

/-- The word at a thread's program counter. -/
def State.wordOf (s : State) (c : CoreId) (k : Slot) : BitVec 32 :=
  ((s.thread c k).wordAt (s.thread c k).pc.toNat).getD 0

/-- A thread is ready (R27): it may issue, the word behind a `getf` is fetched too, and its instruction, tried, would not
wait for an operand, of a `rep` pair or a vector group neither. -/
def State.isReady (s : State) (c : CoreId) (k : Slot) : Bool :=
  s.canIssue c k && match decode (s.wordOf c k) with
    | .error _ => true
    | .ok (.getf _ _ _ _ _) => ((s.thread c k).wordAt ((s.thread c k).pc.toNat + 4)).isSome
    | .ok i => match trialOf i with
      | none => true
      | some f => match f (s.issuing c k) with
        | .next u => !u.notReady c k
        | _ => true

/-- The word that a core issues in this cycle, with the state in which it issues (R28). -/
def State.chosen (s : State) (c : CoreId) : Option (BitVec 32 × State) :=
  if s.freeCycle c then (s.pickSlot c).map fun k => (s.wordOf c k, s.issuing c k) else none

/-- The start of the focus core's die cycle when no input is waiting: the clocks, up to the next cycle of its die, and
the fetch port. -/
def State.cycleStart (s : State) : State := (s.runClocks (dieOf s.focus) 64).serveFetch (clusterOf s.focus)

/-- An eviction at the core's own choice (R84): any line may be written back and dropped at any time. No thread sends
it. -/
def State.evictAny (s : State) (c : CoreId) (line : Nat) : State :=
  match (s.core c).l1 line with
  | none => s
  | some _ => s.evictL1 c none line

/-- A correction of a die's copy of the reference timer: the copy stands still while time passes, or takes up time that
it lacks; it is at most 2 ns behind and never runs backwards (R16, R367). By how much it lags within the 2 ns is an
input, DESIGN CHOICE (assumption 37). -/
def State.correctTimer (s : State) (d : DieId) (n : Nat) (slower : Bool) : State :=
  if slower then
    let u := s.pass n
    u.updDie d fun x => { x with skew := min (2 * tickUnits) (x.skew + (u.time - s.time)) }
  else s.updDie d fun x => { x with skew := x.skew - n }

/-! ## Loads that are outstanding when a later instruction issues (R80, R87) -/

/-- An instruction of a work thread that changes nothing but the thread's own registers, or only reads: it can be made
again when an earlier load has failed. -/
def registerOnly (i : Instr) : Bool :=
  match i with
  | .lui .. | .auipc .. | .jal .. | .jalr .. | .beq .. | .bne .. | .blt .. | .bge .. | .bltu .. | .bgeu .. => true
  | .lb .. | .lh .. | .lw .. | .ld .. | .lbu .. | .lhu .. | .lwu .. | .ldh .. | .ldl .. | .vld .. | .vldx .. => true
  | .addi .. | .slti .. | .sltiu .. | .xori .. | .ori .. | .andi .. | .slli .. | .srli .. | .srai .. => true
  | .add .. | .sll .. | .slt .. | .sltu .. | .xor .. | .srl .. | .or .. | .and .. | .sub .. | .sra .. => true
  | .mul .. | .mulh .. | .mulhsu .. | .mulhu .. | .div .. | .divu .. | .rem .. | .remu .. => true
  | .addiw .. | .slliw .. | .srliw .. | .sraiw .. | .addw .. | .sllw .. | .srlw .. | .subw .. | .sraw .. => true
  | .mulw .. | .divw .. | .divuw .. | .remw .. | .remuw .. => true
  | .csrrw .. | .csrrs .. | .csrrc .. | .csrrwi .. | .csrrsi .. | .csrrci .. => true
  | .rep .. | .bfx .. | .bfxu .. | .bfi .. | .clz .. | .ctz .. | .cpop .. | .rev8 .. => true
  | .fence .. | .fnc .. | .qpeek .. | .qstat .. | .mtest .. | .ipf .. => true
  | .vadd .. | .vsub .. | .vmul .. | .vma .. | .vmin .. | .vmax .. | .vdiv .. | .vsll .. | .vsrl .. | .vsra .. => true
  | .vcmp .. | .vsel .. | .vred .. | .vscan .. | .vcvt .. | .vabs .. | .vneg .. | .vsqrt .. | .vrcp .. => true
  | .vrsqrt .. | .vexp2 .. | .vlog2 .. | .vsort .. | .vtrn .. | .vcomp .. | .vexpd .. | .vcvtNarrow .. => true
  | .vqnt .. | .vdq .. | .vshape .. | .vbc .. | .vins .. | .vext .. | .vmv .. | .vand .. | .vor .. | .vxor .. => true
  | .vrot .. | .vmatch .. | .kand .. | .kor .. | .kxor .. | .knot .. | .kpop .. | .kfirst .. | .kmv .. | .klen .. => true
  | _ => false

/-- A message that only reads, so that it can be made again. -/
def Msg.readsOnly (m : Msg) : Bool :=
  match m.body with
  | .fill _ _ _ _ _ | .probe _ | .vaultRead _ _ | .spadRead _ _ _ | .majRead _ _ _ | .ifetch _ => true
  | .host _ _ (.read _) none | .peer _ _ (.read _) none => true
  | _ => false

/-- An instruction that issued in a state has had an effect outside its thread's registers: it has completed and is not
one that only changes registers (`pure`), or it has moved an entry of a queue or ring, or sent a message. -/
def State.outerEffect (s : State) (pure : Bool) (u : State) : Bool :=
  let (c, k) := s.issuer
  let done := (u.thread c k).instret != (s.thread c k).instret
  (done && (k = 15 || !pure)) || u.here.queues != s.here.queues || u.rings != s.rings
    || u.net.any fun m => s.nextMsg ≤ m.id && !m.readsOnly

/-- An instruction has trapped its thread, or its record has gone to Kamgor (R304, R305). -/
def State.trappedBy (s u : State) : Bool :=
  let (c, k) := s.issuer
  (u.thread c k).status == .trapped || (k = 15 && u.here.kamgor != s.here.kamgor)

/-- What an issue leaves when earlier loads of the thread are outstanding: a trap waits until they have returned, since a
load's own error comes first (R87); loads that an outer effect has passed are marked (assumption 60). -/
def State.orderLoads (s : State) (pure : Bool) (u : State) : State :=
  let (c, k) := s.issuer
  if (s.thread c k).loads.isEmpty then u
  else if s.trappedBy u then s.blockMe .loads false
  else if s.outerEffect pure u then
    let n := (s.thread c k).loads.length
    u.updThread c k fun t => { t with
      loads := t.loads.mapIdx fun j l => if j < n then { l with passed := true } else l }
  else u

/-- The result of an issue, with the order of the thread's earlier loads kept. -/
def State.concluded (s : State) (pure : Bool) (r : Result) : Result :=
  match r with
  | .next u => .next (s.orderLoads pure u)
  | r => r

end Sys2Proof.Machine
end

