-- ==== Sys2Proof/Machine/Control.lean ====
section
/-! DEFINITION. Jumps, branches (R81), traps by instruction (R91), the illegal instruction (R74) and the
control-register forms (R73, R92). -/

namespace Sys2Proof.Machine

/-- A word that decodes to no form traps, and changes no register or memory (R74). The record's WORD is the
fetched word. -/
def execIllegalInstruction (_word : BitVec 32) (s : State) : Result := runM (trapWith .illegalInstruction) s

/-- A jump target: bit 1 set traps before any register is written or entry moves (R81). -/
def checkTarget (t : Word) : M Unit :=
  if t.getLsbD 1 then trapWith .misalignedFetch t t else pure ()

/-- A branch offset: bits 12:1 (R60). -/
def branchOff (off : BitVec 12) : Word := (off ++ 0#1).signExtend 64

/-- A branch that is taken when `p` holds of the two registers (R81). -/
def branch (p : Word → Word → Bool) (a b : Reg) (off : BitVec 12) : M Unit := do
  let (x, y) ← read2 a b none
  if p x y then
    let s ← get
    let t := s.me.pc + branchOff off
    checkTarget t
    commitReads [a, b]
    jumpTo t
  else finish [a, b]

/-- `jal` (R81). -/
def execJal (d : Reg) (off : BitVec 20) (s : State) : Result :=
  runM (do
    checkRegs [] (some d)
    let t := s.me.pc + (off ++ 0#1).signExtend 64
    checkTarget t
    writeX d (s.me.pc + 4)
    jumpTo t) s

/-- `jalr`: bit 0 of the sum is cleared; rs1 is read before rd is written (R81). -/
def execJalr (d a : Reg) (imm : BitVec 12) (s : State) : Result :=
  runM (do
    let x ← read1 a (some d)
    let t := (x + sext12 imm) &&& ~~~1#64
    checkTarget t
    commitReads [a]
    writeX d (s.me.pc + 4)
    jumpTo t) s

/-- `beq` (R81). -/
def execBeq (a b : Reg) (off : BitVec 12) (s : State) : Result := runM (branch (fun x y => x == y) a b off) s

/-- `bne` (R81). -/
def execBne (a b : Reg) (off : BitVec 12) (s : State) : Result := runM (branch (fun x y => x != y) a b off) s

/-- `blt` (R81). -/
def execBlt (a b : Reg) (off : BitVec 12) (s : State) : Result := runM (branch (fun x y => x.slt y) a b off) s

/-- `bge` (R81). -/
def execBge (a b : Reg) (off : BitVec 12) (s : State) : Result := runM (branch (fun x y => !x.slt y) a b off) s

/-- `bltu` (R81). -/
def execBltu (a b : Reg) (off : BitVec 12) (s : State) : Result := runM (branch (fun x y => x.ult y) a b off) s

/-- `bgeu` (R81). -/
def execBgeu (a b : Reg) (off : BitVec 12) (s : State) : Result := runM (branch (fun x y => !x.ult y) a b off) s

/-- `ecall` traps (R91); in slot 15 it forwards the 64-byte record at X[10] to Kamgor and parks until the
answer (R305, R318). The record is copied at the forward. -/
def execEcall (s : State) : Result :=
  runM (do
    if s.issuer.2 = 15 then
      checkRegs [10] none
      let a := s.me.getX 10
      if 0x80000 < a.toNat + 64 then trapWith .localAddress a
      else if a.toNat % 64 ≠ 0 then trapWith .misaligned a
      else
        modify fun s => s.updHere fun x => { x with kamgor := some (.forwarded (x.spad.read a.toNat 64)) }
        keepOn .kamgor true
    else trapWith .ecall) s

/-- `ebreak` traps (R91); in slot 15 taking the trap parks the supervisor and tells Kamgor (R319). -/
def execEbreak (s : State) : Result := runM (trapWith .ebreak) s

/-! ## Control registers (R72, R73, R92) -/

/-- What a Zicsr form does to the register. -/
inductive CsrUpdate | write | set | clear
deriving DecidableEq, Repr

/-- A Zicsr form: `src` reads the source operand, `names` says whether the encoding names a nonzero source
(R73, R92). -/
def csrForm (u : CsrUpdate) (d : Reg) (srcs : List Reg) (src : M Word) (names : Bool) (n : BitVec 12) : M Unit := do
  let s ← get
  match Csr.ofNumber n with
  | none => trapWith .illegalInstruction
  | some r =>
    if !r.writable && (u = .write || names) then trapWith .illegalInstruction
    else if r.supervisor && s.issuer.2 != 15 then trapWith .privilege
    else
      checkRegs srcs (some d)
      let v ← src
      let old := s.readCsr r
      match u with
      | .write => writeCsr r v
      | .set => if v = 0 then pure () else writeCsr r (old ||| v)
      | .clear => if v = 0 then pure () else writeCsr r (old &&& ~~~v)
      finishX srcs d old

/-- `csrrw` (R92). -/
def execCsrrw (d a : Reg) (csr : BitVec 12) (s : State) : Result :=
  runM (csrForm .write d [a] (source a 0) true csr) s

/-- `csrrs` (R92). -/
def execCsrrs (d a : Reg) (csr : BitVec 12) (s : State) : Result :=
  runM (csrForm .set d [a] (source a 0) (a != 0) csr) s

/-- `csrrc` (R92). -/
def execCsrrc (d a : Reg) (csr : BitVec 12) (s : State) : Result :=
  runM (csrForm .clear d [a] (source a 0) (a != 0) csr) s

/-- `csrrwi` (R92). -/
def execCsrrwi (d u : Reg) (csr : BitVec 12) (s : State) : Result :=
  runM (csrForm .write d [] (pure (u.setWidth 64)) true csr) s

/-- `csrrsi` (R92). -/
def execCsrrsi (d u : Reg) (csr : BitVec 12) (s : State) : Result :=
  runM (csrForm .set d [] (pure (u.setWidth 64)) (u != 0) csr) s

/-- `csrrci` (R92). -/
def execCsrrci (d u : Reg) (csr : BitVec 12) (s : State) : Result :=
  runM (csrForm .clear d [] (pure (u.setWidth 64)) (u != 0) csr) s

end Sys2Proof.Machine
end

