-- ==== Sys2Proof/Machine/Retire.lean ====
section
/-! DEFINITION. How a thread leaves its slot (R26, R32, R49, R243, R258, R294, R299, R339), align sets
(R261), and how the supervisor is started (R320, R321). -/

namespace Sys2Proof.Machine

/-! ## Completing a thread's instruction from outside -/

/-- A stopped thread completes its instruction and goes on at the next word. -/
def State.completeThread (s : State) (c : CoreId) (k : Slot) : State :=
  (s.updThread c k fun t => t.advance.sinceNow (s.cycleOf c)).endStep c k

/-! ## Align sets (R261) -/

/-- The present threads of a cluster that belong to an align set, with their core and slot. -/
def State.alignMembers (s : State) (cl : TileId) (ctx : Ctx) (id : BitVec 4) : List (CoreId × Slot) :=
  (List.finRange 4).flatMap fun i => (List.finRange 16).filterMap fun k =>
    let c := coreIn cl i
    let t := s.thread c k
    if t.present && t.hctx == ctx && t.alignSet == some id then some (c, k) else none

/-- A thread is parked at an `align` of a set at an address. -/
def Thread.parkedAlign (t : Thread) (id : BitVec 4) (pc : Word) : Bool := t.status == .parked (.align id pc)

/-- When every member of a set is parked at an `align` at one address, all of them become ready in the same
cycle (R261). -/
def State.alignCheck (s : State) (cl : TileId) (ctx : Ctx) (id : BitVec 4) : State :=
  let ms := s.alignMembers cl ctx id
  match ms with
  | [] => s
  | (c, k) :: _ =>
    let pc := (s.thread c k).pc
    if ms.all fun p => (s.thread p.1 p.2).parkedAlign id pc then
      ms.foldl (fun s p => s.completeThread p.1 p.2) s
    else s

/-- The thread's align set, without the thread, is checked again. -/
def State.leaveAlign (s : State) (c : CoreId) (k : Slot) : State :=
  let t := s.thread c k
  match t.alignSet with
  | none => s
  | some id => (s.updThread c k fun t => { t with alignSet := none }).alignCheck (clusterOf c) t.hctx id

/-! ## What a core gives back -/

/-- A core whose queue ends held by `who` are free (R49, R294, R299). -/
def Core.releaseEnds (x : Core) (who : Slot ⊕ EngineKind) : Core :=
  { x with queues := x.queues.map fun q =>
    { q with prod := if q.prod = some who then none else q.prod, cons := if q.cons = some who then none else q.cons } }

/-- One thread or waiting task fewer counts for a stage on a core; with the last the stage's resources return
(R26, R237). -/
def Core.leaveStage (x : Core) (id : Nat) : Core :=
  if (x.stage id).live ≤ 1 then
    let qs := x.queues.map fun q => { q with owners := q.owners.filter fun o => o != id }
    { x with stages := x.stages.filter fun g => g.id != id, queues := qs.filter fun q => !q.owners.isEmpty || q.awaits }
  else { x with stages := mapIf (fun g => g.id == id) (fun g => { g with live := g.live - 1 }) x.stages }

/-- The stage thread itself has gone: its scratchpad allotment is free (R26). -/
def Core.freeSpad (x : Core) (id : Nat) : Core :=
  { x with stages := mapIf (fun g => g.id == id) (fun g => { g with spad := (0, 0) }) x.stages }

/-! ## Claims (R243) -/

/-- Tokens that no replica is owed any longer are gone: the cell of each is freed (R243). -/
def State.settleToken (s : State) (id : Nat) (c : CoreId) (k : Slot) : State :=
  match s.ring id with
  | none => s
  | some r =>
    let spent := (r.tokens.filter fun p => p.2.isEmpty).map Prod.fst
    let s := s.updRing id fun q => { q with tokens := q.tokens.filter fun p => !p.2.isEmpty }
    spent.foldl (fun s n => s.freeSeq id n c k) s

/-- A replica is no longer owed a token: it has taken it. -/
def Ring.takeToken (r : Ring) (seq : Nat) (who : CoreId × Slot) : Ring :=
  { r with tokens := mapIf (fun p => p.1 == seq) (fun p => (p.1, p.2.filter fun q => q != who)) r.tokens }

/-- A thread is no longer a replica of the rings that it consumed (R243). -/
def State.dropReplica (s : State) (c : CoreId) (k : Slot) : State :=
  let ids := (s.rings.filter fun r => r.replicas.any fun p => p.1 == c && p.2.1 == k).map Ring.id
  ids.foldl (fun s id => ((s.updRing id fun r =>
    let (gone, kept) := r.replicas.partition fun p => p.1 == c && p.2.1 == k
    { r with replicas := kept, withdraw := r.withdraw.filter fun n => gone.all fun p => p.2.2 != n
             tokens := r.tokens.map fun p => (p.1, p.2.filter fun q => q != (c, k)) }).settleToken id c k).settleHead id) s

/-! ## Installations (R236) and launches (R339) -/

/-- A packet of an installation waits in a ready list or a ready queue. -/
def State.installWaits (s : State) (id : Nat) : Bool :=
  (s.dies.toList.any fun d => d.ready.any fun p => p.inst == some id)
    || s.ctxs.toList.any fun x => x.list.any fun l => match l with
      | .packet p => p.inst == some id
      | .graph _ _ _ _ => false

/-- Remove an installation that no thread runs from and no packet waits for: its landings return (R236). -/
def State.dropInstall (s : State) (id : Nat) : State :=
  match s.installs.find? fun i => i.id == id with
  | none => s
  | some i =>
    if i.live ≠ 0 || s.installWaits id then s
    else
      let mine := s.rings.filter fun r => r.inst == id
      let s := mine.foldl (fun s r => match r.land with
        | some (c, base) => s.updCore c fun x => { x with landings := x.landings.filter fun l => l.1 != base }
        | none => s) s
      let mine : RQueue → Bool := fun q => q.bind.map Prod.fst == some id
      let drop : Core → Core := fun x => if x.queues.any mine then { x with queues := x.queues.filter fun q => !mine q } else x
      { s with rings := s.rings.filter fun r => r.inst != id, installs := s.installs.filter fun i => i.id != id
               cores := s.cores.map drop }

/-- One thread fewer runs from an installation. -/
def State.leaveInstall (s : State) (id : Nat) : State :=
  State.dropInstall { s with installs := mapIf (fun i => i.id == id) (fun i => { i with live := i.live - 1 }) s.installs } id

/-- A thread, packet or task more or fewer counts for a launch (R339). -/
def State.countLaunch (s : State) (l : Option Nat) (up : Bool) : State :=
  match l with
  | none => s
  | some id =>
    let f : Launch → Launch := fun x => { x with live := if up then x.live + 1 else x.live - 1 }
    { s with launches := mapIf (fun x => x.id == id) f s.launches }

/-! ## Leaving a slot -/

/-- Claims of a thread on sub-arrays end and their queues are emptied (R264). -/
def Cluster.unclaim (x : Cluster) (c : CoreId) (k : Slot) : Cluster :=
  { x with tile := x.tile.map fun u => if u.claim = some (c, k) then { u with claim := none, queue := [] } else u }

/-- A restored claim that a thread has yet to take again ends (R264). -/
def State.dropReclaim (s : State) (c : CoreId) (k : Slot) : State :=
  { s with reclaims := s.reclaims.filter fun r => !(r.1 == c && r.2.1 == k) }

/-- The thread's accelerator stream and cruiser stop (R294, R299). A cruiser holds its queue end under the
kind `own`. -/
def State.stopStreams (s : State) (c : CoreId) (k : Slot) : State :=
  let cl := s.clusters.get (clusterOf c)
  let mineA := match cl.accel with | some a => a.core == c && a.slot == k | none => false
  let mineC := match cl.cruiser with | some r => r.core == c && r.slot == k | none => false
  let s := if mineA then
      (s.updCluster (clusterOf c) fun x => { x with accel := none }).updCore c fun x => x.releaseEnds (.inr .accel)
    else s
  if mineC then
    (s.updCluster (clusterOf c) fun x => { x with cruiser := none }).updCore c fun x => x.releaseEnds (.inr .own)
  else s

/-- What the thread has sent is still performed, and its answers are discarded (R258, R316). A `send` that was refused is
not sent again (R256). -/
def State.orphan (s : State) (c : CoreId) (k : Slot) : State :=
  let kept := s.net.filter fun m => !(m.core == c && m.slot == k && m.refusedSend)
  { s with net := mapIf (fun m => m.core == c && m.slot == k && m.counted) (fun m => { m with orphan := true }) kept
           majOps := mapIf (fun o => o.core == c && o.slot == k) (fun o => { o with done := true }) s.majOps }

/-- A thread leaves its slot: bindings, claims, registrations and its allotment are freed (R26, R49, R258). -/
def State.leave (s : State) (c : CoreId) (k : Slot) : State :=
  let t := s.thread c k
  let g := (s.core c).stage t.stage
  let s := (((s.leaveAlign c k).orphan c k).freeMonitors c k).stopStreams c k
  let s := (s.updCluster (clusterOf c) fun x => x.unclaim c k).dropReclaim c k
  let s := (s.dropReplica c k).updCore c fun x =>
    let x := (x.releaseEnds (.inl k)).leaveStage t.stage
    let x := if t.task then x else x.freeSpad t.stage
    { x.setThread k {} with
      cmds := mapIf (fun m => m.slot == k) (fun m => { m with gone := true }) x.cmds }
  let s := s.countLaunch t.launch false
  match t.task, g.inst with
  | false, some i => s.leaveInstall i
  | _, _ => s

/-! ## Starting the supervisor (R320, R321) -/

/-- The supervisor of a context at its entry point. -/
def State.supervisorThread (s : State) (c : CoreId) (ctx : Ctx) : Thread :=
  let x := s.ctxs.get ctx
  let t : Thread :=
    { status := .ready, pc := x.sventry, gens := seedGens 0, tid := BitVec.ofNat 15 (c.val * 16 + 15)
      coreNo := BitVec.ofNat 11 c.val, clust := BitVec.ofNat 7 (c.val / 4 % 80), dieNo := BitVec.ofNat 2 (dieOf c).val
      hctx := ctx, spbase := 0x7F000, spsize := 0x1000 }
  (t.setX 10 x.svarg).sinceNow (s.cycleOf c)

/-- The supervisor starts again at its entry point; its unanswered records return to the head of the queue in
their order (R320). Its identity stays. A claim on the tile unit that it holds is kept, with its operations, as nothing else
of the core changes, DESIGN CHOICE (assumption 93): R264 ends a claim at the `tret` of its claimant. -/
def State.restartSupervisor (s : State) (c : CoreId) : State :=
  let old := s.thread c 15
  let t := { s.supervisorThread c old.hctx with
    tid := old.tid, coreNo := old.coreNo, clust := old.clust, dieNo := old.dieNo }
  (s.orphan c 15).updCore c fun x =>
    Core.raiseHigh { x.setThread 15 t with trapq := x.taken ++ x.trapq, taken := [], kamgor := none }

end Sys2Proof.Machine
end

