-- ==== Sys2Proof/Machine/Queue.lean ====
section
/-! DEFINITION. Queue, ring, message and task instructions (R248 to R262), and the end of a thread
(R258, R320). -/

namespace Sys2Proof.Machine

/-! ## Names of queues and rings (R234, R248) -/

/-- A port register (R248). -/
def isPort (p : Reg) : Bool := 24 ≤ p.toNat

/-- The ring that a handle names, on the side asked for (R248, R254). -/
def handleRing (h : BitVec 3) (prod : Bool) : M Ring := do
  let s ← get
  match s.myStage.handles.find? fun e => e.1 == h.toNat with
  | none => illegalOperand
  | some (_, id, side) =>
    match s.ring id with
    | some r => if side == prod then pure r else illegalOperand
    | none => illegalOperand

/-- Queue entries of the stage that no queue uses yet (R234). -/
def State.spareEntries (s : State) : Nat :=
  s.myStage.qent - (s.myStage.queues.map fun q => ((s.here.queue q.2.1).map RQueue.depth).getD 0).sum

/-- The queue that a number names, created if R234 calls for it; `out` is the end that will be held, which
must be the stage's side of a declared queue, and free (R237, R249). -/
def nameQueue (num : Reg) (out : Bool) : M RQueue := do
  let s ← get
  match s.myStage.queues.find? fun e => e.1 == num.toNat with
  | some (_, id, side) =>
    match s.here.queue id with
    | none => illegalOperand
    | some q =>
      if side == some (!out) then illegalOperand
      else if (if out then q.prod else q.cons).isSome then illegalOperand
      else pure q
  | none =>
    let p := s.spareEntries
    if p = 0 then illegalOperand
    else
      let (id, s) := s.fresh
      let q : RQueue := { id := id, depth := min 32 p, owners := [s.me.stage] }
      let add : StageAlloc → StageAlloc := fun g => { g with queues := g.queues ++ [(num.toNat, id, none)] }
      set (s.updHere fun x =>
        { x with queues := x.queues ++ [q], stages := mapIf (fun g => g.id == s.me.stage) add x.stages })
      pure q

/-- Hold one end of a queue of the issuing core. -/
def holdEnd (id : Nat) (out : Bool) (who : Slot ⊕ EngineKind) : M Unit :=
  modify fun s => s.updHere fun x => x.updQueue id fun q =>
    if out then { q with prod := some who } else { q with cons := some who }

/-- A thread of the issuing thread's stage holds this end of a ring (R249). -/
def State.ringEndHeld (s : State) (id : Nat) (out : Bool) : Bool :=
  s.here.slots.toList.any fun t => t.present && t.stage == s.me.stage && t.ports.toList.any fun b => match b with
    | some b => b.ring && b.obj == id && b.out == out
    | none => false

/-- Bind a port register. -/
def Thread.bind (t : Thread) (p : Reg) (b : Option Binding) : Thread :=
  { t with ports := t.ports.set (finOf 8 (p.toNat - 24)) b }

/-- `qmap` (R249). -/
def execQmap (p : Reg) (ring : Bool) (out : Bool) (num : Reg) (s : State) : Result :=
  runM (do
    require (isPort p)
    require (s.me.binding p).isNone
    if ring then
      let r ← handleRing (num.setWidth 3) out
      require (!s.ringEndHeld r.id out)
      modify fun s => s.updMe fun t => t.bind p (some { ring := true, out := out, num := num, obj := r.id })
    else
      let q ← nameQueue num out
      holdEnd q.id out (.inl s.issuer.2)
      modify fun s => s.updMe fun t => t.bind p (some { ring := false, out := out, num := num, obj := q.id })
    retire) s

/-- `qunmap`: no entry moves and no claim is given up (R249). -/
def execQunmap (p : Reg) (s : State) : Result :=
  runM (do
    require (isPort p)
    match s.me.binding p with
    | none => illegalOperand
    | some b =>
      if !b.ring then modify fun s => s.updHere fun x => x.updQueue b.obj fun q =>
        if b.out then { q with prod := none } else { q with cons := none }
      modify fun s => s.updMe fun t => t.bind p none
      retire) s

/-! ## Tokens (R250 to R253) -/

/-- Kind of a token level. -/
def TokLevel.kind : TokLevel → EntKind
  | .end1 => .end1 | .end2 => .end2 | .end3 => .end3

/-- The in-bound binding of a port register, or an illegal operand. -/
def inBound (p : Reg) : M Binding := do
  let s ← get
  match s.me.binding p with
  | some b => if b.out then illegalOperand else pure b
  | none => illegalOperand

/-- `qtok` (R250). -/
def execQtok (p : Reg) (level : TokLevel) (s : State) : Result :=
  runM (do
    match s.me.binding p with
    | some b =>
      require b.out
      putPort b (TokLevel.kind level) 0
      retire
    | none => illegalOperand) s

/-- A ring input of a replicated stage is read only under a claim, and a claim names a cell only until its
reading (R51, R255). -/
def checkClaim (ring : Nat) : M Unit := do
  let s ← get
  match s.me.claim ring with
  | some c => require (!c.readUsed)
  | none => require (s.myStage.repl ≤ 1)

/-- `qbtok` (R251). -/
def execQbtok (p : Reg) (level : TokLevel) (off : BitVec 12) (s : State) : Result :=
  runM (do
    let b ← inBound p
    if b.ring then checkClaim b.obj
    let t := s.me.pc + branchOff off
    checkTarget t
    let e ← peekPort b 0
    if (TokLevel.kind level).level ≤ e.kind.level then
      commitReads [p]
      jumpTo t
    else retire) s

/-- What a form that looks at an entry answers: its value, or minus its token level (R252, R255). -/
def entryValue (kind : EntKind) (v : Word) : Word := if kind = .data then v else -(BitVec.ofNat 64 kind.level)

/-- `qpeek` (R252). -/
def execQpeek (d p : Reg) (s : State) : Result :=
  runM (do
    let b ← inBound p
    checkRegs [] (some d)
    let e ← peekPort b 0
    finishX [] d (entryValue e.kind e.val)) s

/-- Full cells that run without a gap from a sequence on, at most `n`. -/
def State.fullRun (s : State) (r : Ring) : Nat → Nat → Nat
  | 0, _ => 0
  | n + 1, seq => if (s.ringCell r seq).isSome then s.fullRun r n (seq + 1) + 1 else 0

/-- The status word of a port (R253). -/
def State.portStatus (s : State) (b : Binding) : Word :=
  let head := fun (e : Option (EntKind)) => match e with
    | some k => 4 + k.level
    | none => 0
  let word := fun (free count : Nat) (e : Option EntKind) =>
    BitVec.ofNat 64 (free % 2 ^ 23 * 2 ^ 25 + count * 2 ^ 8 + head e)
  if b.ring then
    match s.ring b.obj with
    | none => 0
    | some r =>
      if b.out then
        let h := r.headAt s.issuer.1
        if r.sequenced then
          match s.placeSeq r with
          | some seq => word (if r.land.isSome && seq < h + r.slots then 1 else 0) 0 none
          | none => 0
        else word (r.slots + h - r.next) 0 none
      else
        let e := match s.me.claim b.obj with
          | some c => if c.readUsed then none else some c.kind
          | none => ((s.headEntries r 1).bind fun l => l.head?).map fun p => cellKind p.2
        word 0 (s.fullRun r r.slots r.head) e
  else
    match s.here.queue b.obj with
    | none => 0
    | some q =>
      if b.out then word (q.depth - q.entries.length) 0 none
      else word 0 q.entries.length (q.entries.head?.map QEntry.kind)

/-- `qstat` (R253). -/
def execQstat (d p : Reg) (s : State) : Result :=
  runM (do
    require (isPort p)
    checkRegs [] (some d)
    finishX [] d (match s.me.binding p with | some b => s.portStatus b | none => 0)) s

/-! ## Ring operations (R254, R255) -/

/-- `rwaitf` (R255). -/
def execRwaitf (h : BitVec 3) (c : Reg) (s : State) : Result :=
  runM (do
    let r ← handleRing h false
    require (s.myStage.repl ≤ 1)
    let n ← read1 c none
    require (n.toNat ≤ r.slots)
    if n = 0 then finish [c]
    else if s.ringHeld r then parkOn (.ringIn r.id n.toNat)
    else match s.headEntries r n.toNat with
      | some _ => finish [c]
      | none => parkOn (.ringIn r.id n.toNat)) s

/-- The thread's current claim (R51). -/
def currentClaim : M Claim := do
  let s ← get
  match s.me.claims.head? with
  | some c => pure c
  | none => illegalOperand

/-- `rwaite` (R255). On a sequenced ring a thread without a claim has no sequence to wait for: an illegal
operand, DESIGN CHOICE (assumption 11). -/
def execRwaite (h : BitVec 3) (c : Reg) (s : State) : Result :=
  runM (do
    let r ← handleRing h true
    let n ← read1 c none
    require (n.toNat ≤ r.slots)
    if n = 0 then finish [c]
    else
      let seq ← if r.sequenced then do
          let cl ← currentClaim
          pure cl.seq
        else pure (r.next + n.toNat - 1)
      if r.land.isSome && seq < r.headAt s.issuer.1 + r.slots then finish [c]
      else parkOn (.ringPlace r.id seq)) s

/-- `radvc` (R255): what an earlier parked thread waits for is held for it (R32); a token among the entries traps and nothing is taken. -/
def execRadvc (h : BitVec 3) (c : Reg) (s : State) : Result :=
  runM (do
    let r ← handleRing h false
    require (s.myStage.repl ≤ 1)
    let n ← read1 c none
    require (n.toNat ≤ r.slots)
    if n = 0 then finish [c]
    else if s.ringHeld r then parkOn (.ringIn r.id n.toNat)
    else match s.headEntries r n.toNat with
      | none => parkOn (.ringIn r.id n.toNat)
      | some l =>
        match l.find? fun p => cellKind p.2 != .data with
        | some p => trapWith .queueToken 0 (BitVec.ofNat 64 (cellKind p.2).level)
        | none =>
          let last := (l.getLast?.map Prod.fst).getD r.head
          modify fun s => s.advanceHead r.id (last + 1) s.issuer.1 s.issuer.2
          finish [c]) s

/-- `radvp` (R255). -/
def execRadvp (h : BitVec 3) (c : Reg) (s : State) : Result :=
  runM (do
    let r ← handleRing h true
    require r.sequenced
    let n ← read1 c none
    require (n.toNat ≤ 1)
    if n = 0 then finish [c]
    else
      ringPut r.id .data true (List.replicate 120 0)
      finish [c]) s

/-- Bytes 8 + 8w to 15 + 8w of a cell, or minus its token level (R255). -/
def slotValue (kind : EntKind) (cell : List Byte) (w : Nat) : Word :=
  entryValue kind (BitVec.ofNat 64 (ofLe ((cell.drop (8 + 8 * w)).take 8)))

/-- `rslot` (R255). -/
def execRslot (d : Reg) (h : BitVec 3) (c : Reg) (s : State) : Result :=
  runM (do
    let r ← handleRing h false
    let x ← read1 c (some d)
    let w := wbits x 3 0
    let o := wbits x 19 4
    require (w ≠ 15 && o < r.slots)
    checkClaim r.id
    match s.me.claim r.id with
    | some cl =>
      require (o = 0)
      finishX [c] d (slotValue cl.kind cl.cell w)
    | none =>
      match s.headEntries r (o + 1) with
      | none => parkOn (.ringIn r.id (o + 1))
      | some l =>
        let cell := (l.getD o (0, [])).2
        finishX [c] d (slotValue (cellKind cell) cell w)) s

/-- `rseq`: the claim travels to the landing core; the thread is parked until it is performed (R243, R255). -/
def execRseq (d : Reg) (h : BitVec 3) (s : State) : Result :=
  runM (do
    let r ← handleRing h false
    checkRegs [] (some d)
    match s.me.prog.data with
    | some b => finishX [] d (BitVec.ofNat 64 (ofLe b))
    | none =>
      let id ← sendMsg none (.claim r.id)
      modify fun s => s.updMe fun t => { t with prog := { t.prog with stage := 1, msgs := [id] } }
      keepOn .ringClaim true) s

/-! ## Messages (R256) -/

/-- `send`: the thread is parked until the value is accepted (R29, R256). -/
def execSend (m : BitVec 3) (a b : Reg) (s : State) : Result :=
  runM (do
    let (x, y) ← read2 a b none
    if s.me.prog.data.isSome then finish [a, b]
    else if h : x.toNat < 20480 then
      awaitLocalStores
      let id ← sendMsg none (.send ⟨x.toNat, h⟩ m.toFin y)
      modify fun s => s.updMe fun t => { t with prog := { t.prog with stage := 1, msgs := [id] } }
      keepOn .sendRetry true
    else illegalOperand) s

/-- `mrecv` (R256). -/
def execMrecv (d : Reg) (m : BitVec 3) (s : State) : Result :=
  runM (do
    checkRegs [] (some d)
    if s.me.mfull.getLsbD m.toNat then
      modify fun s => s.updMe fun t => { t with mfull := t.mfull &&& ~~~(1#8 <<< m.toNat) }
      finishX [] d (s.me.m.get m.toFin)
    else parkOn (.message m.toFin)) s

/-- `mtest` (R256). -/
def execMtest (d : Reg) (m : BitVec 3) (s : State) : Result :=
  runM (do
    checkRegs [] (some d)
    finishX [] d (ofBool (s.me.mfull.getLsbD m.toNat))) s

/-! ## Tasks (R257 to R259, R348) -/

/-- A task record's fields, when it is well formed (R348). -/
def taskRecord (b : List Byte) : Option TaskRec :=
  let w := fun o n => ofLe ((b.drop o).take n)
  let r : TaskRec := { entry := BitVec.ofNat 64 (w 0 8), arg := BitVec.ofNat 64 (w 8 8), vregs := w 16 1
                       prio := BitVec.ofNat 5 (w 17 1), spad := w 18 2 }
  if w 0 8 % 4 = 0 && w 16 1 ≤ 8 && w 17 1 < 32 && w 18 2 ≤ 127 && w 20 12 = 0 then some r else none

/-- `spawn` (R257). -/
def execSpawn (d a : Reg) (aff : Affinity) (s : State) : Result :=
  runM (do
    let x ← read1 a (some d)
    let p ← ownSpad x 32 false
    if p % 32 ≠ 0 then trapWith .misaligned x
    else match taskRecord (s.here.spad.read p 32) with
      | none => illegalOperand
      | some r =>
        awaitLocalStores
        let dep := s.me.depth + 1
        match s.dequePlace s.issuer.1 s.issuer.2 with
        | none => parkOn .deque
        | some res =>
          let t := s.me
          modify fun s =>
            let (id, s) := s.fresh
            let e : DequeEntry :=
              { id := id, record := r, depth := dep, aff := aff, fmts := [t.fmta, t.fmtb, t.fmtc, t.scla, t.sclb, t.grpsz]
                reserved := res, since := s.cycleOf s.issuer.1, ctx := t.hctx, stage := t.stage, launch := t.launch }
            let more : StageAlloc → StageAlloc := fun g => { g with live := g.live + 1 }
            (s.updHere fun x => { x with deque := x.deque ++ [e]
                                         stages := mapIf (fun g => g.id == t.stage) more x.stages }).countLaunch t.launch true
          finishX [a] d (if res.isSome then 1 else 0)) s

/-- `tret` (R26, R258): the thread waits for its tile operations, then leaves its slot; in slot 15 the
supervisor starts again (R320). -/
def execTret (s : State) : Result :=
  runM (do
    let (c, k) := s.issuer
    if k = 15 then modify fun s => s.restartSupervisor c
    else if s.tileQuiet c k none then modify fun s => s.leave c k
    else waitOn (.tileOps none)) s

/-- `yield`: the thread waits; YIELD_EXPIRY lets it go on (R259). -/
def execYield (s : State) : Result := runM (waitOn .yield) s

/-! ## Reduction (R228, R260) -/

/-- A tree that the issuing thread's context holds on the die of its identity, from which it was installed: the control die
translates core ids when the context has been resumed elsewhere (R226, R357). -/
def State.myTree (s : State) (i : BitVec 4) : Option TreeRec :=
  match (s.dies.get s.me.dieNo.toFin).trees.get i.toFin with
  | some t => if t.ctx == s.me.hctx then some t else none
  | none => none

/-- A vector of another thread of the core is on its way to the router, or the router has taken it and the core's count has
not risen yet: the next `reduce` forms the next episode (R260). -/
def State.reducing (s : State) (tree : Fin 16) : Bool :=
  (s.net.any fun m => m.core == s.issuer.1 && match m.body with
    | .reduce t _ _ _ _ _ => t == tree
    | _ => false)
  || (List.finRange 16).any fun j => j != s.issuer.2 && s.reduceTaken s.issuer.1 j && s.reduceTree s.issuer.1 j == some tree

/-- Number of a router entry. -/
def entryRouter (e : Nat × Nat × Nat × Nat) : Nat := e.2.1 * 10 + e.1

/-- The last episode that a router has forwarded; before the first one it is −1. -/
def Die.lastForwarded (d : Die) (tree : Fin 16) (router : Nat) : BitVec 8 :=
  ((d.forwarded.find? fun f => f.1 == tree.val && f.2.1 == router).map fun f => f.2.2).getD 0xFF

/-- How far an episode lies beyond the last one forwarded; 128 and more is older (R228). -/
def Die.ahead (d : Die) (tree : Fin 16) (router : Nat) (e : BitVec 8) : Nat := (e - d.lastForwarded tree router - 1).toNat

/-- The root learns the delivery address that member 0's `reduce` gives, unless it has finished the episode (R228,
R231). -/
def State.giveDelivery (s : State) (tree : Fin 16) (r : TreeRec) (e : BitVec 8) (a : Nat) : State :=
  let root := (r.routers.head?.map entryRouter).getD 0
  s.updDie s.me.dieNo.toFin fun x =>
    if 128 ≤ x.ahead tree root e then x
    else { x with delivers := (tree, e, a) :: x.delivers.filter fun p => !(p.1 == tree && p.2.1 == e) }

/-- The FP32 elements of bytes. -/
def words32 (b : List Byte) : List (BitVec 32) := (List.range (b.length / 4)).map fun i => ofBytes 32 ((b.drop (4 * i)).take 4)

/-- `reduce.f32` (R260); an unallotted vector register is found before the port is read (R74 step 4). -/
def execReduce (v : Reg) (tree : BitVec 4) (a : Reg) (s : State) : Result :=
  runM (do
    require (v.toNat < s.me.vcount.toNat)
    let x ← read1 a none
    match s.myTree tree with
    | none => trapWith .accessFault
    | some r =>
      match r.members.findIdx? fun c => c.val == s.me.coreNo.toNat with
      | none => illegalOperand
      | some i =>
        let f := s.me.footprint
        require (f % 4 = 0)
        if i = 0 && x.toNat % 16 ≠ 0 then trapWith .misaligned x 0 true
        else
          if i = 0 then
            let _ ← ownSpad x (64 + f) true
          awaitV [v]
          if s.me.prog.stage = 1 then
            modify fun s => s.updHere fun c =>
              { c with episodes := c.episodes.set tree.toFin (c.episodes.get tree.toFin + 1) }
            finish [a]
          else if s.reducing tree.toFin then waitOn .reduce
          else
            let e := s.here.episodes.get tree.toFin
            let b := bytesOf (s.me.getV v) 0 f
            if i = 0 then modify fun s => s.giveDelivery tree.toFin r e x.toNat
            let ids ← (List.range (ceilDiv f 256)).mapM fun p =>
              sendMsg none (.reduce tree.toFin e i (256 * p) f (words32 ((b.drop (256 * p)).take 256)))
            modify fun s => s.updMe fun t => { t with prog := { t.prog with stage := 1, msgs := ids } }
            keepOn .msgs false) s

/-! ## Fetch hints (R261, R262) -/

/-- `align`: the thread parks; the last member to arrive releases them all (R261). -/
def execAlign (id : BitVec 4) (s : State) : Result :=
  let (c, k) := s.issuer
  let s := if s.me.alignSet == some id then s else s.leaveAlign c k
  let s := (s.updThread c k fun t => { t with alignSet := some id }).blockMe (.align id s.me.pc) true
  .next (s.alignCheck (clusterOf c) (s.thread c k).hctx id)

/-- Ask for one instruction line (R262). -/
def State.askLine (s : State) (va : Nat) : State :=
  let (c, k) := s.issuer
  match s.mapFetch c k va with
  | .error _ => s
  | .ok (pa, s') =>
    let cl := clusterOf c
    if (assoc (s.clusters.get cl).icache (pa / 128)).isSome || (s.fetchFor cl (pa / 128)).isSome then s'
    else (s'.postFetch c k (pa / 128) va).2

/-- `ipf` (R262): it never traps after decode. -/
def execIpf (a : Reg) (count : BitVec 4) (s : State) : Result :=
  runM (do
    let x ← read1 a none
    modify fun s => (List.range (count.toNat + 1)).foldl
      (fun s i => s.askLine ((x.toNat / 128 * 128 + 128 * i) % 2 ^ 64)) s
    finish [a]) s

end Sys2Proof.Machine
end

