-- ==== Sys2Proof/Machine/EngineMem.lean ====
section
/-! DEFINITION. What the engines share: reads and writes of global memory at the home slices (R127, R273,
R286), posting an engine's trap record (R300, R302, R304), waiting in the order of a cluster (R265, R275,
R294), and the checks of local ranges (R269, R285). -/

namespace Sys2Proof.Machine

/-! ## Reads and writes for an engine -/

/-- Runs of a range that lie within one 128-byte line: address and length. -/
def lineRuns (a : Nat) : Nat → Nat → List (Nat × Nat)
  | 0, _ => []
  | fuel + 1, n =>
    if n = 0 then []
    else
      let m := min n (128 - a % 128)
      (a, m) :: lineRuns (a + m) fuel (n - m)

/-- How an engine's access ends. -/
inductive Got
  | ok (b : List Byte) (s : State)
  | wait
  | bad (t : TrapInfo)

/-- Translate an engine's access for a core's context; normal and REPLICA pages are allowed, the second only
for reads; host and peer pages where `ext` says (R273, R286, R292). -/
inductive EngMap
  | ok (pa : Nat) (ty : PageType) (leaf : Word) (s : State)
  | bad (t : TrapInfo)

/-- See `EngMap`. -/
def State.engineMap (s : State) (c : CoreId) (ctx : Ctx) (va : Nat) (wr ext : Bool) : EngMap :=
  let w := BitVec.ofNat 64 va
  match s.translate c ctx va wr with
  | .fault _ cause level e =>
    .bad { cause := cause, addr := w, detail := e, write := wr, level := BitVec.ofNat 8 level }
  | .ok s' level e =>
    let refuse : EngMap := .bad { cause := .accessFault, addr := w, detail := e, write := wr }
    if (!wr && !leafRd e) || (wr && !leafWr e) then refuse
    else
      match leafType e with
      | some .normal => if (s.ctxs.get ctx).keyLive then .ok (leafPa level e va) .normal e s' else refuse
      | some .replica => if (s.ctxs.get ctx).keyLive && !wr then .ok (leafPa level e va) .replica e s' else refuse
      | some .host => if ext then .ok (leafPa level e va) .host e s' else refuse
      | some .peer => if ext then .ok (leafPa level e va) .peer e s' else refuse
      | _ => refuse

/-- Read bytes within one line at the home slice for an engine (R127). An uncorrectable sector is named by its own first byte
of the access, and is counted when the fault is posted (`State.countFault`). -/
def State.engineReadLine (s : State) (c : CoreId) (ctx : Ctx) (va n : Nat) : Got :=
  match s.engineMap c ctx va false false with
  | .bad t => .bad t
  | .ok pa _ _ s =>
    let w := BitVec.ofNat 64 va
    if s.stalledHome c ctx (pa / 128) then .wait
    else match s.homeRead .engine ctx (dieOf c) pa n .norm false with
    | .heldBack => .wait
    | .refused _ => .bad { cause := .accessFault, addr := w, detail := 0 }
    | .error p _ => .bad { cause := .memoryError, addr := BitVec.ofNat 64 (va + (p - pa)), detail := BitVec.ofNat 64 p }
    | .ok b s => .ok b s

/-- Read a range at its home slices, line by line. -/
def State.engineRead (s : State) (c : CoreId) (ctx : Ctx) (va n : Nat) : Got :=
  (lineRuns va (n + 1) n).foldl (fun g r =>
    match g with
    | .ok b s =>
      match s.engineReadLine c ctx (r.1 % 2 ^ 64) r.2 with
      | .ok b' s' => .ok (b ++ b') s'
      | g' => g'
    | g => g) (.ok [] s)

/-- A speculative access of an engine (R310), within one line: it sets no mark in a leaf, a leaf whose A bit is clear or
that is neither normal nor REPLICA, or a set without an eligible way (R389), stops it (`none`), and a fault is held (`some none`). -/
def State.speculate (s : State) (c : CoreId) (ctx : Ctx) (va n : Nat) : Option (Option (List Byte)) × State :=
  if !vaValid va then (some none, s)
  else match s.walk ctx va with
    | .fault _ _ _ => (some none, s)
    | .leaf level e =>
      let ty := leafType e
      if !leafA e then (none, s)
      else if !(ty == some .normal || ty == some .replica) then (none, s)
      else if !leafRd e || !(s.ctxs.get ctx).keyLive then (some none, s)
      else if s.stalledHome c ctx (leafPa level e va / 128) then (none, s)
      else if s.bypasses (s.homeOf ctx (dieOf c) (leafPa level e va / 128)) ctx (leafPa level e va / 128) then (none, s)
      else match s.homeRead .engine ctx (dieOf c) (leafPa level e va) n .norm false with
        | .ok b s' => (some (some b), s')
        | .heldBack => (none, s)
        | .refused s' => (some none, s')
        | .error _ s' => (some none, s')

/-! ## Engine faults (R300, R302, R304) -/

/-- The uncorrectable sector at which an engine stops is counted by its stack (R395): DETAIL holds its address, below the
bits of a tile unit's (R303). -/
def State.countFault (s : State) (i : TrapInfo) : State :=
  if i.cause = .memoryError then s.countError (i.detail.toNat % 2 ^ 52) false else s

/-- A record of an engine kind that names a slot is unanswered. -/
def Core.engineRecord (x : Core) (k : Slot) (e : EngineKind) : Bool :=
  x.trapq.any (fun r => r.names k && r.engine == e) || x.taken.any fun r => r.names k && r.engine == e

/-- The thread stands at an instruction boundary or is parked: its present instruction has not been performed, and no
request of it is in flight but a ring claim, which is then not made (R31, R300). -/
def State.atBoundary (s : State) (c : CoreId) (k : Slot) : Bool :=
  s.between c k && (s.thread c k).prog.msgs.all fun id => s.net.all fun m => m.id != id || m.isClaim || m.isWaita

/-- Post an engine's record: the thread is trapped where it stands, and the record is posted once it is
stopped; a second fault of the same kind is held until the first has been answered (R304). In slot 15 Kamgor is
told in place of a record (R305). -/
def State.postEngine (s : State) (c : CoreId) (k : Slot) (e : EngineKind) (i : TrapInfo) (pos : Word) (held : Bool) :
    Option State :=
  if !s.atBoundary c k || (s.core c).engineRecord k e then none
  else
    let r := { s.record c k i with engine := e, pos := pos, held := held }
    let s := (s.countFault i).unwait c k
    if k = 15 then
      some ((s.updThread c k fun t => { t with status := .parked .kamgor, stepping := false, prog := t.keptProg }).updCore c
        fun x => { x with kamgor := some (.stopped r) })
    else some ((s.updThread c k fun t =>
      if t.status = .trapped then t
      else { t with status := .trapped, prog := t.keptProg, inRep := false, stepping := false }).post c r)

/-! ## Waiting in the order of the cluster -/

/-- Park or wait for a unit of the cluster: the thread takes its place in the cluster's order (R265, R275,
R294). -/
def stopOrdered {α : Type} (b : Blocker) (parked : Bool) : M α := do
  let s ← get
  let cl := clusterOf s.issuer.1
  if s.me.queuedFor b then throw (.block b parked)
  else
    let n := (s.clusters.get cl).order
    let s := (s.updCluster cl fun x => { x with order := n + 1 }).updMe fun t =>
      { t with prog := t.prog.stopAt b n (s.cycleOf s.issuer.1) }
    throw (.keep (s.blockMe b parked))

/-! ## Local ranges (R269, R284, R285) -/

/-- `n` bytes lie within the issuing thread's scratchpad allotment under `.own`, or LOCAL_ADDRESS (R269). -/
def checkLocal (a n : Nat) (wr : Bool) : M Unit := do
  let s ← get
  if a + n ≤ 0x80000 && s.me.allots s.issuer.2 a n && !(wr && s.intoLanding a n) then pure ()
  else trapWith .localAddress (BitVec.ofNat 64 a) 0 wr

/-- `n` bytes lie within one vault. -/
def inOneVault (a n : Nat) : Bool :=
  0x40000000 ≤ a && a + n ≤ 0x90000000 && (a - 0x40000000) / 0x400000 == (a + n - 1 - 0x40000000) / 0x400000

end Sys2Proof.Machine
end

