-- ==== Sys2Proof/Machine/Sync.lean ====
section
/-! DEFINITION. Atomics, acquire and release, fences, write-back and invalidation, barrier objects and
waiting on an address (R89, R90, R113 to R123, R137 to R155). -/

namespace Sys2Proof.Machine

/-! ## Tiers and probes (R113, R122, R123) -/

/-- A target lies in the tier of a scope, for a core (R113). -/
def tierHolds (scope : Scope) (c : CoreId) (g : Target) : Bool :=
  match g with
  | .tile t => inTier scope c t
  | .host _ => scope == .sys
  | .peer _ => scope == .sys

/-- TBM bits that a scope covers: those of the tiles and targets in its tier (R113, R122). -/
def scopeBits (scope : Scope) (c : CoreId) : Word :=
  match scope with
  | .thr | .core => 0
  | .clu => 1 <<< (Target.tile (clusterOf c)).tbmBit
  | .die | .pkg => BitVec.allOnes 64 >>> 1
  | .sys => BitVec.allOnes 64

/-- The targets a fence probes (R123): those of the tier whose TBM bit is set and that the core has sent a
request. -/
def State.probeTargets (s : State) (scope : Scope) : List (Target × Nat) :=
  s.here.sent.filter fun p => p.2 != 0 && tierHolds scope s.issuer.1 p.1 && s.me.tbm.getLsbD p.1.tbmBit

/-- The TBM bits that a fence at a scope clears once its echoes are back (R123): the set bits it covers, but
for those that also stand for a used target outside the tier, which have not been probed whole, DEDUCED
(assumption 10). -/
def State.probedBits (s : State) (scope : Scope) : Word :=
  let far := s.here.sent.foldl (fun (m : Word) p =>
    if p.2 != 0 && !tierHolds scope s.issuer.1 p.1 then m ||| (1 <<< p.1.tbmBit) else m) 0
  s.me.tbm &&& scopeBits scope s.issuer.1 &&& ~~~far

/-- Send a probe; it is no counted request (R123). -/
def sendProbe (g : Target) (count : Nat) : M Nat := do
  let id ← sendMsg none (.probe count)
  modify fun s => s.updMsg id fun m => { m with target := some g }
  pure id

/-- Set the instruction's stage and the messages it waits for. -/
def setStage (n : Nat) (ids : List Nat) : M Unit :=
  modify fun s => s.updMe fun t => { t with prog := { t.prog with stage := n, msgs := ids } }

/-- Send the probes of a fence at a scope; the bits to clear are kept (R123). -/
def sendProbes (scope : Scope) (stage : Nat) : M Bool := do
  let s ← get
  let ids ← (s.probeTargets scope).mapM fun p => sendProbe p.1 p.2
  setStage stage ids
  modify fun t => t.updMe fun u => { u with prog := { u.prog with probed := s.probedBits scope } }
  pure (!ids.isEmpty)

/-- The echoes are back: the TBM bits that were probed are cleared (R123). -/
def clearProbed : M Unit := modify fun s => s.updMe fun t => { t with tbm := t.tbm &&& ~~~t.prog.probed }

/-! ## Release (R117) -/

/-- The line is homed in the tier of a scope, for a core. -/
def State.lineIn (s : State) (scope : Scope) (c : CoreId) (ctx : Ctx) (line : Nat) : Bool :=
  inTier scope c (s.homeOf ctx (dieOf c) line)

/-- A write-back of a sector that `p` selects. -/
def Msg.writesBack (p : Nat → Nat → Bool) (m : Msg) : Bool :=
  match m.body with
  | .writeback line sec _ _ => p line sec
  | _ => false

/-- Write back the dirty sectors of the issuing core's lines that `p` selects, sector by sector: the messages whose
acknowledgements are awaited, those of earlier write-backs by whatever thread of the core among them, so that no sector
that a thread has stored is still on its way (R90, R117, R148). -/
def writeBackLines (p : Nat → Nat → Bool) : M (List Nat) := do
  let s ← get
  let (c, k) := s.issuer
  modify fun s => (s.here.l1d.map L1Line.line).foldl (fun s l => s.cleanL1 c (some k) false l (p l)) s
  let s' ← get
  pure ((s'.net.filter fun m => m.core == c && m.writesBack p).map Msg.id)

/-- Steps 1 to 3 of a release at a scope (R117): the thread's posted stores elsewhere, the dirty sectors of
the tier with those already on their way home, and the probes. The thread is parked while they run (R29, R139). Its loads from
vaults and other cores' scratchpads, which no probe waits for, are performed first: none returns a write that happens after
the release (R111). Stages 0 to 2. -/
def releaseSteps (scope : Scope) : M Unit := do
  let s ← get
  let (c, k) := s.issuer
  if s.me.prog.stage = 0 then
    if s.localStoresOut c k then parkOn .vault
    else if s.deviceBusy c k then parkOn .device
    else if s.majOut c k then parkOn .majOut
    else if s.localReadsOut c k then parkOn .localReads
    else
      let ids ← writeBackLines fun l _ => s.lineIn scope c s.me.hctx l
      setStage 1 ids
      if ids.isEmpty then pure () else keepOn .msgs true
  let s ← get
  if s.me.prog.stage = 1 then
    if ← sendProbes scope 2 then keepOn .msgs true

/-- A release's step 4 has been sent: should it fail, what it clears comes back (R117). -/
def keepSigs (id : Nat) (sigs : Option (Sig × Sig)) : M Unit :=
  match sigs with
  | none => pure ()
  | some _ => modify fun s => s.updMsg id fun m => { m with sigs := sigs }

/-- What a release at a scope clears: the write signature and SIGACQ, at scope `pkg` or `sys` (R117). -/
def Thread.cleared (t : Thread) (scope : Scope) : Option (Sig × Sig) :=
  if scope = .pkg ∨ scope = .sys then some (t.wsig, t.sigacq) else none

/-- The end of a release's step 3: the probed TBM bits are cleared, P is formed, and at scope `pkg` or `sys`
the write signature and SIGACQ are cleared (R117, R123). -/
def publish (scope : Scope) : M Sig := do
  clearProbed
  let s ← get
  let p := s.me.wsig ||| s.me.sigacq
  if scope = .pkg ∨ scope = .sys then
    modify fun s => s.updMe fun t => { t with wsig := 0, sigacq := 0 }
  pure p

/-! ## Acquire (R119) -/

/-- Steps 2 and 3 of an acquire for a thread: G is ORed into SIGACQ, and every clean valid sector of a
matching line homed in the tier is invalidated. A fill of such a line that is still in flight must not enter
the L1D afterwards. -/
def State.acquire (s : State) (c : CoreId) (k : Slot) (scope : Scope) (g : Sig) : State :=
  let ctx := (s.thread c k).hctx
  let hit := fun (line : Nat) => sigMatches g line && s.lineIn scope c ctx line
  let fills := s.net.filterMap fun m => match m.body with
    | .fill l _ _ _ _ => if m.core == c && hit l then some l else none
    | _ => none
  let s1 := (s.updThread c k fun t => { t with sigacq := t.sigacq ||| g }).updCore c fun x =>
    { x with l1d := mapIf (fun l => hit l.line) (fun l => { l with valid := l.valid &&& l.dirty }) x.l1d }
  fills.foldl (fun s l => s.killFills c l) s1

/-! ## The L1D sector of an access made at the home (R138, R147) -/

/-- Write the core's sector of an address back when it is dirty, and invalidate it (R138). -/
def dropSector (pa : Nat) : M Unit := do
  let s ← get
  let (c, k) := s.issuer
  let line := pa / 128
  let sec := pa % 128 / 32
  let s1 := s.cleanL1 c (some k) false line fun i => i == sec
  set ((s1.killFills c line).updCore c fun x =>
    x.l1Upd line fun l => { l with valid := l.valid &&& ~~~(1#4 <<< sec) })

/-- Wait, keeping what has been sent, until no access of the core holds the line (R85, R140). -/
def awaitLineKeep (line : Nat) (parked : Bool) : M Unit := do
  let s ← get
  if s.lineBusy s.issuer.1 line then keepOn (.lineBusy line) parked else pure ()

/-- Leave rd outstanding until the reply (R27, R139). -/
def pendX (d : Reg) : M Unit :=
  modify fun s => s.updMe fun t => { t with xpend := if d = 0 then t.xpend else t.xpend ||| (1 <<< d.toNat) }

/-- Complete an instruction whose reply has arrived: rd is written by the reply, or here when it is an
out-bound port. -/
def finishReply (srcs : List Reg) (d : Reg) (b : List Byte) : M Unit := do
  let s ← get
  if (s.me.binding d).isSome then finishX srcs d (BitVec.ofNat 64 (ofLe b)) else finish srcs

/-- The register that a reply writes: none for an out-bound port. -/
def State.replyReg (s : State) (d : Reg) : Reg := if (s.me.binding d).isSome then 0 else d

/-! ## Atomics (R137 to R141, R143) -/

/-- The ordering field releases. -/
def AmoOrd.isRel (o : AmoOrd) : Bool := o == .rel || o == .relWk1 || o == .relWkall

/-- The ordering field wakes one or all registrations. -/
def AmoOrd.wakes (o : AmoOrd) : Bool := o == .wk1 || o == .wkall || o == .relWk1 || o == .relWkall

/-- The bytes of an access of a word or doubleword. -/
def amoBytes (dbl : Bool) : Nat := if dbl then 8 else 4

/-- A host or peer page performs an atomic (R143): all twelve at a peer and in a window reached over CXL.cache
(R412); elsewhere only add, swap and compare-and-swap, and only when AtomicOps are enabled. -/
def State.extAtomic (s : State) (ctx : Ctx) (m : Mapped) (op : AmoOp) : Bool :=
  let coherent := s.cxl && ((s.ctxs.get ctx).hwin.get (finOf 16 (bits m.pa 43 40))).1.getLsbD 1
  m.ty == .peer || coherent || (s.atomicOps && (op == .add || op == .swap || op == .cas))

/-- An atomic form. `b` is the value register, absent for `amodecp`; `cas` reads rd. -/
def amoForm (op : AmoOp) (d : BitVec 4) (b : Option (BitVec 4)) (a : BitVec 4) (dbl : Bool) (ord : AmoOrd)
    (sc : AmoScope) : M Unit := do
  let rd : Reg := d.setWidth 5
  let rs1 : Reg := a.setWidth 5 + 16
  let rs2 : List Reg := (b.map fun r => r.setWidth 5).toList
  let scope := AmoScope.scope sc
  let s ← get
  if s.me.prog.stage = 3 then finish [rs1]
  else
    checkRegs (rs1 :: rs2 ++ if op = .cas then [rd] else []) (some rd)
    let x ← source rs1 0
    let v := s.me.getX (rs2.headD 0)
    let cm := s.me.getX rd
    let n := amoBytes dbl
    let va := x.toNat
    if va % n ≠ 0 ∨ ((ord = .acq ∨ AmoOrd.isRel ord) ∧ va % 128 ≠ 0) then trapWith .misaligned x 0 true
    else
      let m ← mapGlobal va true true false
      match m.ty with
      | .normal =>
        dropSector m.pa
        if AmoOrd.isRel ord then releaseSteps scope
        awaitLineKeep (m.pa / 128) (AmoOrd.isRel ord)
        let s ← get
        let sigs := if AmoOrd.isRel ord then s.me.cleared scope else none
        let p ← if AmoOrd.isRel ord then publish scope else pure 0
        let s ← get
        let t := s.homeTile s.me.hctx s.issuer.1 m.pa
        let id ← sendMsg (some (.tile t)) (.atomic op m.pa va dbl ord scope v cm rd p) va
        keepSigs id sigs
        pendX rd
        if ord = .acq then
          setStage 3 [id]
          keepOn .msgs false
        else finish [rs1]
      | .host | .peer =>
        if AmoOrd.wakes ord || !s.extAtomic s.me.hctx m op then trapWith .accessFault x m.leaf true
        else
          if AmoOrd.isRel ord then releaseSteps scope
          let s ← get
          let sigs := if AmoOrd.isRel ord then s.me.cleared scope else none
          if AmoOrd.isRel ord then
            let _ ← publish scope
          let id ← sendExternal m va (.atomic op n v cm) (some (rd, if ord = .acq then some scope else none))
          keepSigs id sigs
          pendX rd
          if ord = .acq then
            setStage 3 [id]
            keepOn .msgs false
          else finish [rs1]
      | _ => trapWith .accessFault x m.leaf true

/-- `amoadd` (R137, R138). -/
def execAmoadd (d : BitVec 4) (b : BitVec 4) (a : BitVec 4) (dbl : Bool) (ord : AmoOrd) (scope : AmoScope) (s : State) : Result :=
  runM (amoForm .add d (some b) a dbl ord scope) s

/-- `amoand` (R137, R138). -/
def execAmoand (d : BitVec 4) (b : BitVec 4) (a : BitVec 4) (dbl : Bool) (ord : AmoOrd) (scope : AmoScope) (s : State) : Result :=
  runM (amoForm .and d (some b) a dbl ord scope) s

/-- `amoor` (R137, R138). -/
def execAmoor (d : BitVec 4) (b : BitVec 4) (a : BitVec 4) (dbl : Bool) (ord : AmoOrd) (scope : AmoScope) (s : State) : Result :=
  runM (amoForm .or d (some b) a dbl ord scope) s

/-- `amoxor` (R137, R138). -/
def execAmoxor (d : BitVec 4) (b : BitVec 4) (a : BitVec 4) (dbl : Bool) (ord : AmoOrd) (scope : AmoScope) (s : State) : Result :=
  runM (amoForm .xor d (some b) a dbl ord scope) s

/-- `amomin` (R137, R138). -/
def execAmomin (d : BitVec 4) (b : BitVec 4) (a : BitVec 4) (dbl : Bool) (ord : AmoOrd) (scope : AmoScope) (s : State) : Result :=
  runM (amoForm .min d (some b) a dbl ord scope) s

/-- `amomax` (R137, R138). -/
def execAmomax (d : BitVec 4) (b : BitVec 4) (a : BitVec 4) (dbl : Bool) (ord : AmoOrd) (scope : AmoScope) (s : State) : Result :=
  runM (amoForm .max d (some b) a dbl ord scope) s

/-- `amominu` (R137, R138). -/
def execAmominu (d : BitVec 4) (b : BitVec 4) (a : BitVec 4) (dbl : Bool) (ord : AmoOrd) (scope : AmoScope) (s : State) : Result :=
  runM (amoForm .minu d (some b) a dbl ord scope) s

/-- `amomaxu` (R137, R138). -/
def execAmomaxu (d : BitVec 4) (b : BitVec 4) (a : BitVec 4) (dbl : Bool) (ord : AmoOrd) (scope : AmoScope) (s : State) : Result :=
  runM (amoForm .maxu d (some b) a dbl ord scope) s

/-- `amoswap` (R137, R138). -/
def execAmoswap (d : BitVec 4) (b : BitVec 4) (a : BitVec 4) (dbl : Bool) (ord : AmoOrd) (scope : AmoScope) (s : State) : Result :=
  runM (amoForm .swap d (some b) a dbl ord scope) s

/-- `amocas` (R137, R138). -/
def execAmocas (d : BitVec 4) (b : BitVec 4) (a : BitVec 4) (dbl : Bool) (ord : AmoOrd) (scope : AmoScope) (s : State) : Result :=
  runM (amoForm .cas d (some b) a dbl ord scope) s

/-- `amodecp` (R137, R138). -/
def execAmodecp (d : BitVec 4) (a : BitVec 4) (dbl : Bool) (ord : AmoOrd) (scope : AmoScope) (s : State) : Result :=
  runM (amoForm .decp d none a dbl ord scope) s

/-- `amofadd` (R137, R138). -/
def execAmofadd (d : BitVec 4) (b : BitVec 4) (a : BitVec 4) (dbl : Bool) (ord : AmoOrd) (scope : AmoScope)
    (s : State) : Result :=
  runM (amoForm .fadd d (some b) a dbl ord scope) s

/-! ## Fences (R89, R145) -/

/-- A class waits for stores. -/
def FenceClass.stores : FenceClass → Bool
  | .all | .st | .mem => true
  | .ld | .eng => false

/-- A class waits for engine commands. -/
def FenceClass.engines : FenceClass → Bool
  | .all | .eng => true
  | _ => false

/-- A fence at a scope (R123, R145). At scope `core` it waits only for the thread's stores to vaults and other
cores' scratchpads and for its engine commands. -/
def fenceForm (scope : Scope) (cls : FenceClass) : M Unit := do
  let s ← get
  let (c, k) := s.issuer
  if s.me.prog.stage = 0 then
    if FenceClass.stores cls && s.localStoresOut c k then parkOn .vault
    else if FenceClass.stores cls && scope != .core && s.deviceBusy c k then parkOn .device
    else if FenceClass.stores cls && scope != .core && s.majOut c k then parkOn .majOut
    else if FenceClass.engines cls && s.here.engineBusy k then parkOn .engines
    else if scope = .core ∨ cls = .eng then pure ()
    else if ← sendProbes scope 1 then keepOn .msgs true
  if cls = .all ∨ cls = .mem then clearProbed
  retire

/-- `fnc` (R145). -/
def execFnc (scope : Scope) (cls : FenceClass) (s : State) : Result := runM (fenceForm scope cls) s

/-- Any MISC-MEM word with funct3 000 is `fnc.pkg` over all classes (R63, R89). -/
def execFence (_imm : BitVec 12) (_a _d : Reg) (s : State) : Result := runM (fenceForm .pkg .all) s

/-- A fetch of a cluster that is discarded and issued again under a new id: whoever waited for the old one waits for the
new one. -/
def State.refetch (s : State) (cl : TileId) (m : Msg) : State :=
  let n := s.nextMsg
  let again : Nat → Nat := fun id => if id = m.id then n else id
  let s := (s.putMsg { m with stage := .sent, suspect := none, rescue := .no, forwarded := false }).updMsg m.id
    fun m => { m with orphan := true }
  (List.finRange 4).foldl (fun s i => s.updCore (coreIn cl i) fun x => { x with slots := x.slots.map fun t =>
    { t with prog := { t.prog with msgs := t.prog.msgs.map again } } }) s

/-- Fetches of a cluster in flight are discarded: they bring nothing into its instruction cache. Each is issued again
(R90). -/
def State.discardFetches (s : State) (cl : TileId) : State :=
  let mine := fun (m : Msg) => clusterOf m.core == cl && !m.orphan && match m.body with
    | .ifetch _ => true
    | _ => false
  (s.net.filter mine).foldl (fun s m => s.refetch cl m) s

/-- A byte-masked update of a core. -/
def Msg.updates (m : Msg) : Bool :=
  match m.body with
  | .update _ _ => true
  | _ => false

/-- `fence.i` (R90). -/
def execFenceI (_imm : BitVec 12) (_a _d : Reg) (s : State) : Result :=
  runM (do
    if s.me.prog.stage = 0 then
      let ids ← writeBackLines fun _ _ => true
      let s ← get
      let ids := ids ++ (s.net.filter fun m => m.core == s.issuer.1 && m.updates).map Msg.id
      setStage 1 ids
      if ids.isEmpty then pure () else keepOn .msgs false
    let cl := clusterOf s.issuer.1
    modify fun s => (s.updCluster cl fun x => { x with icache := [] }).discardFetches cl
    retire
    modify fun s => s.updMe fun t => { t with ibuf := none }) s

/-! ## Acquire load and release store (R146, R147) -/

/-- `ldaq` (R146). It is performed at the home, as an atomic is: the core's own sector of the object is written back when
dirty and dropped first, so that no later load of the core returns an older value, DEDUCED from R111 (assumption 85). -/
def execLdaq (d a : Reg) (dbl : Bool) (scope : Scope) (s : State) : Result :=
  runM (do
    if s.me.prog.stage = 3 then finishReply [a] d (s.me.prog.data.getD [])
    else
      let x ← read1 a (some d)
      let va := x.toNat
      if va % 128 ≠ 0 then trapWith .misaligned x
      else
        let m ← mapGlobal va true false false
        let rd := s.replyReg d
        let id ← match m.ty with
          | .normal => do
            dropSector m.pa
            awaitLineKeep (m.pa / 128) false
            let t := s.homeTile s.me.hctx s.issuer.1 m.pa
            sendMsg (some (.tile t)) (.ldaq m.pa dbl scope rd) va
          | .host | .peer => sendExternal m va (.read (amoBytes dbl)) (some (rd, some scope))
          | _ => trapWith .accessFault x m.leaf
        pendX rd
        setStage 3 [id]
        keepOn .msgs false) s

/-- `strl` (R147). -/
def execStrl (a b : Reg) (dbl : Bool) (scope : Scope) (s : State) : Result :=
  runM (do
    let (x, y) ← read2 a b none
    let va := x.toNat
    if va % 128 ≠ 0 then trapWith .misaligned x 0 true
    else
      let m ← mapGlobal va true true false
      match m.ty with
      | .normal =>
        releaseSteps scope
        dropSector m.pa
        awaitLineKeep (m.pa / 128) true
        let sigs := (← get).me.cleared scope
        let p ← publish scope
        let s ← get
        let t := s.homeTile s.me.hctx s.issuer.1 m.pa
        let id ← sendMsg (some (.tile t)) (.strl m.pa va dbl y p) va
        keepSigs id sigs
        finish [a, b]
      | .host | .peer =>
        releaseSteps scope
        let sigs := (← get).me.cleared scope
        let _ ← publish scope
        let id ← sendExternal m va (.write (leBytes (amoBytes dbl) y.toNat)) none
        keepSigs id sigs
        finish [a, b]
      | _ => trapWith .accessFault x m.leaf true) s

/-! ## Write-back and invalidation (R148) -/

/-- The sector of a line lies in the range of `len` bytes from `base`, by some page of the context that maps
it (R148); a length of 0 names the whole L1D. -/
def State.sectorInRange (s : State) (ctx : Ctx) (base len line sec : Nat) : Bool :=
  len == 0 || (s.ctxs.get ctx).pt.any fun p =>
    let level := p.1.1
    let e := p.2
    let pa := 128 * line + 32 * sec
    let size := 2 ^ levelShift level
    let va := p.1.2 * size + (pa - leafAddr e)
    e.getLsbD 0 && e.getLsbD 1 && leafAddr e ≤ pa && pa < leafAddr e + size
      && s.walk ctx va == .leaf level e
      && (va + 31 + 2 ^ 57 - base % 2 ^ 57) % 2 ^ 57 < len + 31

/-- A line that overlaps the range: each of its sectors is acted on, DEDUCED (assumption 76). -/
def State.lineInRange (s : State) (ctx : Ctx) (base len line : Nat) : Bool :=
  (List.range 4).any fun i => s.sectorInRange ctx base len line i

/-- `l1wb` and `l1inv` (R148). -/
def l1Form (inval : Bool) (a b : Reg) (scope : Scope) : M Unit := do
  let (x, y) ← read2 a b none
  let s ← get
  let (c, _) := s.issuer
  let ctx := s.me.hctx
  require (y.toNat < 2 ^ 40)
  if !vaValid x.toNat then trapWith .translation x
  else
    let hit := fun (l _ : Nat) => s.lineIn scope c ctx l && s.lineInRange ctx x.toNat y.toNat l
    if s.me.prog.stage = 0 then
      let ids ← writeBackLines hit
      if inval then
        let fills := s.net.filterMap fun m => match m.body with
          | .fill l _ _ _ _ => if m.core == c && (List.range 4).any (hit l) then some l else none
          | _ => none
        modify fun s => (fills.foldl (fun s l => s.killFills c l) s).updCore c fun z =>
          { z with l1d := z.l1d.map fun l =>
            { l with valid := (List.range 4).foldl (fun (v : BitVec 4) i =>
                if hit l.line i then v &&& ~~~(1#4 <<< i) else v) l.valid } }
      setStage 1 ids
      if ids.isEmpty then pure () else keepOn .msgs false
    finish [a, b]

/-- `l1wb` (R148). -/
def execL1wb (a b : Reg) (scope : Scope) (s : State) : Result := runM (l1Form false a b scope) s

/-- `l1inv` (R148). -/
def execL1inv (a b : Reg) (scope : Scope) (s : State) : Result := runM (l1Form true a b scope) s

/-! ## Barrier objects (R149 to R151) -/

/-- The address of a barrier object, which the instruction changes (`wr`) or only reads (R150, R151, R302). -/
def barrierAddr (x : Word) (wr : Bool) : M Nat := do
  if x.toNat % 16 ≠ 0 then trapWith .misaligned x 0 wr else ownSpad x 16 wr

/-- `boinit` (R150). -/
def execBoinit (a b : Reg) (s : State) : Result :=
  runM (do
    let (x, y) ← read2 a b none
    require (y.toNat < 2 ^ 32 && y != 0)
    let p ← barrierAddr x true
    modify fun s => s.updHere fun c => c.writeSpad p
      (leBytes 4 y.toNat ++ leBytes 4 0 ++ [0, 1] ++ List.replicate 6 0)
    finish [a, b]) s

/-- `boexp` (R150). -/
def execBoexp (a b : Reg) (s : State) : Result :=
  runM (do
    let (x, y) ← read2 a b none
    require (y.toNat < 2 ^ 32 && y != 0)
    let p ← barrierAddr x true
    let o := s.here.barrier p
    require (o.armed != 1)
    modify fun s => s.updHere fun c => c.setBarrier p (BarrierObj.flip { o with expected := y.toNat, armed := 1 })
    finish [a, b]) s

/-- `boarr`: it waits until the thread's earlier stores to vaults and other cores' scratchpads are performed
(R150). -/
def execBoarr (a b : Reg) (s : State) : Result :=
  runM (do
    let (x, y) ← read2 a b none
    require (y.toNat < 2 ^ 32)
    let p ← barrierAddr x true
    awaitLocalStores
    let o := s.here.barrier p
    require (o.arrived + y.toNat < 2 ^ 32)
    modify fun s => s.updHere fun c => c.countBytes p y.toNat
    finish [a, b]) s

/-- `bowait` (R151). -/
def execBowait (a b : Reg) (s : State) : Result :=
  runM (do
    let (x, y) ← read2 a b none
    let p ← barrierAddr x false
    let ph : Byte := y.setWidth 8
    if (s.here.barrier p).phase = ph then parkOn (.bowait (p + 8) ph) else finish [a, b]) s

/-! ## Waiting on an address (R152, R153) -/

/-- `waita`: the thread is parked from its request on; the reply or a wake gives the status (R152). -/
def execWaita (d a b : Reg) (dbl : Bool) (s : State) : Result :=
  runM (do
    let (x, y) ← read2 a b (some d)
    match s.me.prog.data with
    | some st => finishX [a, b] d (BitVec.ofNat 64 (ofLe st))
    | none =>
      let va := x.toNat
      if va % amoBytes dbl ≠ 0 then trapWith .misaligned x
      else
        let m ← mapGlobal va true false false
        if m.ty ≠ .normal then trapWith .accessFault x m.leaf
        else
          awaitLine (m.pa / 128)
          let t := s.homeTile s.me.hctx s.issuer.1 m.pa
          let id ← sendMsg (some (.tile t)) (.waita m.pa va dbl y (s.replyReg d)) va
          setStage 1 [id]
          keepOn .registered true) s

/-- `notify` (R153). -/
def execNotify (d a : Reg) (all : Bool) (s : State) : Result :=
  runM (do
    if s.me.prog.stage = 1 then finishReply [a] d (s.me.prog.data.getD [])
    else
      let x ← read1 a (some d)
      let va := x.toNat
      let m ← mapGlobal va true true false
      if m.ty ≠ .normal then trapWith .accessFault x m.leaf true
      else
        awaitLine (m.pa / 128)
        let t := s.homeTile s.me.hctx s.issuer.1 m.pa
        let id ← sendMsg (some (.tile t)) (.notify m.pa va all (s.replyReg d)) va
        if (s.me.binding d).isSome then
          setStage 1 [id]
          keepOn .msgs false
        else
          pendX d
          finish [a]) s

end Sys2Proof.Machine
end

