-- ==== Sys2Proof/Machine/Home.lean ====
section
/-! DEFINITION. Steps of the device that perform a thread's requests at their homes and bring the answers
back (R17, R84, R85, R105, R108, R123, R138 to R153, R379). Each is a step of its own: a message names
itself, and a step that is not due leaves the machine as it is. -/

namespace Sys2Proof.Machine

/-- A device step: it does what it does when it is due, and nothing otherwise. -/
def event (p : State → Option State) (s : State) : Result := .next ((p s).getD s)

/-! ## When a request may be performed -/

/-- A fetch of the line that its home has not yet read. -/
def Msg.unread (m : Msg) (line : Nat) : Bool :=
  match m.body, m.stage with
  | .fill _ _ _ _ _, .reply _ _ _ => false
  | .fill l _ _ _ _, _ => l == line
  | _, _ => false

/-- An earlier request of the same core to the line is not yet answered (R85, R140), or an earlier fetch of it not yet
read: a load never returns a write that its thread makes later (R111). -/
def State.earlierOnLine (s : State) (m : Msg) (line : Nat) : Bool :=
  s.net.any fun n => n.core == m.core && n.id < m.id && (n.holdsLine line || n.unread line)

/-- A message on its way: not in the skid slot of a link, where it waits for a token (R222). A suspect one may still
leave by its ordinary route (R218). -/
def Msg.moving (m : Msg) : Bool :=
  match m.rescue with
  | .skid _ _ _ _ => false
  | _ => true

/-- An end point of the network (R214): a core, the fetch port of a cluster's instruction cache, a vault-die tile, a stack's
controller, or the control die with the host and the peers behind it. The engines of a cluster move bytes in steps of their
own and no message. -/
inductive Endpoint
  | core (c : CoreId) | fetch (t : TileId) | tile (t : TileId) | stack (k : StackId) (channel : Nat) | control
deriving DecidableEq, Repr

/-- Die of an end point; none for the control die, the host and the peers (R9, R215). -/
def Endpoint.die : Endpoint → Option DieId
  | .core c => some (dieOf c)
  | .fetch t => some (dieOfTile t)
  | .tile t => some (dieOfTile t)
  | .stack k _ => some ⟨k.val / 3, by omega⟩
  | .control => none

/-- The end point of a ring's landing. -/
def State.landEnd (s : State) (id : Nat) (d : CoreId) : Endpoint :=
  match (s.ring id).bind Ring.land with
  | some (c, _) => .core c
  | none => .core d

/-- The core on which a thread runs, by its TID (R357). -/
def State.placed (s : State) (ctx : Ctx) (home : CoreId) : CoreId :=
  (assoc (s.ctxs.get ctx).placement home).getD home

/-- The core's identity in a context: its own number, or the number of the core whose saved threads it runs, DEDUCED
(assumption 20). -/
def State.identity (s : State) (c : CoreId) (ctx : Ctx) : CoreId :=
  (((s.ctxs.get ctx).placement.find? fun p => p.2 == c).map Prod.fst).getD c

/-- Channel of a stack that holds a granule's copy (R396, R400). -/
def State.copyChannel (s : State) (g : Nat) : Nat :=
  let off := 2 ^ 36 - s.carve + 64 * g
  bits off 12 8 ^^^ bits off 17 13

/-- Where a request is performed. -/
def State.requestEnd (s : State) (m : Msg) : Endpoint :=
  match m.target with
  | some (.tile t) => .tile (if m.forwarded then ((s.tiles.get t).stub).getD t else t)
  | some _ => .control
  | none =>
    match m.body with
    | .vaultRead a _ => .tile (vaultTile a)
    | .vaultWrite a _ => .tile (vaultTile a)
    | .spadRead c _ _ => .core c
    | .spadWrite c _ _ => .core c
    | .send d _ _ => .core (s.placed m.ctx (finOf 1280 (d.val / 16)))
    | .head _ c _ => .core c
    | .claim r => s.landEnd r m.core
    | .majCopy _ k g _ _ _ => .stack k (s.copyChannel g)
    | .majRead _ k g => .stack k (s.copyChannel g)
    | .ifetch line => .tile (s.homeOf m.ctx (dieOf m.core) line)
    | .cell r seq _ _ boom _ =>
      match boom, s.ring r with
      | true, some q =>
        match s.walk q.ctx (q.boom + 128 * (seq % q.slots)) with
        | .leaf level e => .tile (s.homeOf q.ctx (dieOf m.core) (leafPa level e (q.boom + 128 * (seq % q.slots)) / 128))
        | .fault _ _ _ => .control
      | _, _ => s.landEnd r m.core
    | _ => .control

/-- The line and sectors that a request reads at its home slice, with its hint (R379). -/
def Msg.reads (m : Msg) : Option (Nat × BitVec 4 × Hint) :=
  match m.body with
  | .fill line mask hint _ _ => some (line, mask, hint)
  | .ifetch line => some (line, 15, .norm)
  | _ => none

/-- The controller to which a slice sends the miss of a request: that of the channel on which the line lies (R397, R417). -/
def State.missEnd (s : State) (m : Msg) : Endpoint :=
  match m.reads with
  | some (line, _, _) => match s.region (128 * line) with
    | .hbm k off => .stack k (channelOf off)
    | _ => .control
  | none => .control

/-- The end point that sends a request and takes its reply: instruction fetches belong to the cluster's fetch port
(R214). The packets of a cluster's majority unit (R402) have the core that issued the access for their end point, DESIGN CHOICE
(assumption 72): R214 names no such unit, and R224 counts by cores. -/
def Msg.sender (m : Msg) : Endpoint :=
  match m.body with
  | .ifetch _ => .fetch (clusterOf m.core)
  | _ => .core m.core

/-- Destination of a packet: of a request, where it is performed; of a slice's miss, the controller of the line's stack
(R417); of a reply, the end point that waits for it. -/
def State.destOf (s : State) (m : Msg) : Endpoint :=
  match m.stage with
  | .reply _ _ _ => m.sender
  | .atStack => s.missEnd m
  | .sent => s.requestEnd m

/-- A packet to an end point of a compute layer in reset is discarded (R225). -/
def State.toStopped (s : State) (m : Msg) : Bool :=
  match s.destOf m with
  | .core c => (s.dies.get (dieOf c)).inReset
  | .fetch t => (s.dies.get (dieOfTile t)).inReset
  | _ => false

/-- Source of a packet. -/
def State.sourceOf (s : State) (m : Msg) : Endpoint :=
  match m.stage with
  | .sent => m.sender
  | _ => s.requestEnd m

/-- A message cannot pass: the crossings of the die of one of its ends are stalled, or those of a die on its way round the
ring of dies (R365, R215). -/
def State.stalledMsg (s : State) (m : Msg) : Bool :=
  match (s.requestEnd m).die with
  | none => s.stalled m.core
  | some d => s.stalledWay m.core d

/-- A request has reached the tile that performs it: a retired slice's stub has forwarded it (R378). -/
def State.atHome (s : State) (m : Msg) : Bool :=
  m.moving && !s.stalledMsg m && m.stage == .sent && match m.target with
    | some (.tile t) => (s.tiles.get t).stub.isNone || m.forwarded
    | _ => true

/-- Answer a request, which the target has now received (R123). -/
def State.perform (s : State) (m : Msg) (data : List Byte) (sig : Sig := 0) (err : ReplyErr := .none) : State :=
  (s.receive m).answer m.id data sig err

/-! ## Fills (R17, R84, R379, R417) -/

/-- A slice's miss cannot pass to the controller of the line's stack, which lies on another die: a crossing between them is
stalled (R365, R417). -/
def State.stalledMiss (s : State) (m : Msg) (line : Nat) : Bool :=
  match (s.requestEnd m).die, (s.missEnd m).die with
  | some a, some b => a != b && s.stalledDies a b
  | _, _ => s.stalledHome m.core m.ctx line

/-- Read the sectors at the home slice and answer (R379, R395). -/
def State.serveFill (s : State) (m : Msg) (line : Nat) (mask : BitVec 4) (hint : Hint) : State :=
  let t := s.homeOf m.ctx (dieOf m.core) line
  let (data, bad, s) := s.sliceRead t m.ctx line mask hint true
  match leastBelow 4 fun i => bad.getLsbD i with
  | some i => s.perform m [] 0 (.memory (128 * line + 32 * i))
  | none =>
    let first := (leastBelow 4 fun i => mask.getLsbD i).getD 0
    s.perform m (if mask = 15 then bytesOf data 0 128 else bytesOf data (32 * first) 32)

/-- `MSC_REQUEST`: a hit is served; a miss goes to the stack, which checks its access table (R370, R379). -/
def execMscRequest (m : Nat) (s : State) : Result :=
  event (fun s => do
    let msg ← s.msg m
    let (line, mask, hint) ← msg.reads
    if !s.atHome msg then none
    else
      let t := s.homeOf msg.ctx (dieOf msg.core) line
      if s.sliceHit t msg.ctx line mask then pure (s.serveFill msg line mask hint)
      else pure (s.updMsg m fun x => { x with stage := .atStack, suspect := none, rescue := .no })) s

/-- `STACK_REPLY`: the controller of a stack in service returns the data, or refuses the access; a majority
copy's holder answers a read (R370, R399, R403, R417). A copy in CATCHUP is never read (R403). -/
def execStackReply (m : Nat) (s : State) : Result :=
  event (fun s => do
    let msg ← s.msg m
    match msg.reads with
    | some (line, mask, hint) =>
      if msg.stage != .atStack || !msg.moving || s.stackStateAt (128 * line) == .offline || s.stalledMiss msg line then none
      else if !s.stackAllows .core msg.ctx (128 * line) true false then pure (s.perform msg [] 0 (.access 0))
      else pure (s.serveFill msg line mask hint)
    | none =>
      match msg.body with
      | .majRead _ k g =>
        if msg.stage != .sent || !msg.moving || s.stalledMsg msg then none
        else
          let st := s.hbm.get k
          let off := 2 ^ 36 - s.carve + 64 * g
          if st.state != .in_ then pure (s.answer m [] 0 .absent)
          else
            let c := st.copy g
            let data := bytesOf (s.copyData msg.ctx c) 0 64
            if !aclAllows st.acl.toList .core msg.ctx off true false then pure (s.answer m [] 0 (.access 0))
            else match c.err with
              | some false => pure ((s.updStack k fun x => { x with uecnt := satInc x.uecnt }).answer m [] 0 (.memory off))
              | some true =>
                let fix : MajCopy → MajCopy := fun q => { q with err := none }
                let s1 := s.updStack k fun x =>
                  { x with cecnt := satInc x.cecnt, maj := mapIf (fun q => q.granule == g) fix x.maj }
                pure (s1.answer m (leBytes 8 c.tag.toNat ++ data))
              | none => pure (s.answer m (leBytes 8 c.tag.toNat ++ data))
      | _ => none) s
where
  satInc (x : BitVec 16) : BitVec 16 := if x = BitVec.allOnes 16 then x else x + 1

/-- The cause of a failed reply, with its DETAIL (R303). -/
def ReplyErr.cause : ReplyErr → Cause × Word
  | .memory pa => (.memoryError, BitVec.ofNat 64 pa)
  | .access d => (.accessFault, d)
  | .majority pa => (.majorityUnresolved, BitVec.ofNat 64 pa)
  | _ => (.accessFault, 0)

/-- A reply that reports a failure. -/
def Msg.failed (m : Msg) : Bool :=
  match m.stage with
  | .reply _ _ err => err != .none && err != .refused && err != .absent
  | _ => false

/-- A request of a thread that concerns it still. -/
def Msg.ofThread (m : Msg) (c : CoreId) (k : Slot) : Bool := m.core == c && m.slot == k && !m.orphan && !m.quiet

/-- A thread has completed the instruction that sent a request: the request was posted (R139). -/
def Thread.postedBy (t : Thread) (m : Msg) : Bool :=
  match m.undo with
  | some u => !(u.instret == t.instret && u.pc == t.pc && t.prog.msgs.contains m.id) && u.instret != t.instret
  | none => false

/-- The register that a request's reply writes. -/
def Msg.rd (m : Msg) : Reg :=
  match m.body with
  | .atomic _ _ _ _ _ _ _ _ rd _ | .ldaq _ _ _ rd | .notify _ _ _ rd => rd
  | .host _ _ _ (some (rd, _)) | .peer _ _ _ (some (rd, _)) => rd
  | _ => 0

/-- A posted request as an instruction that executes again. -/
def Msg.redo (m : Msg) : List Redo :=
  match m.undo with
  | some u => [{ undo := u, dst := .x m.rd 8 false }]
  | none => []

/-- Requests that a thread which is taken back does not wait for: reads are forgotten, and a write-back that fails later is
only logged (assumption 73). -/
def State.letGo (s : State) (c : CoreId) (k : Slot) (ids : List Nat) : State :=
  let mine := fun (m : Msg) => ids.contains m.id && m.ofThread c k
  let go := fun (m : Msg) => if m.readsOnly then { m with orphan := true } else { m with quiet := true }
  { s with net := mapIf mine go s.net
           majOps := mapIf (fun o => o.core == c && o.slot == k && o.stamped.isNone) (fun o => { o with done := true }) s.majOps }

/-- What a failed release cleared comes back to its thread (R117). -/
def Thread.giveSigs (t : Thread) (m : Msg) : Thread :=
  match m.sigs with
  | some (w, a) => { t with wsig := t.wsig ||| w, sigacq := t.sigacq ||| a }
  | none => t

/-- A thread is taken back to the first of the instructions that one failing request concerns (`own`: those that it had
posted). Its outstanding loads are given up, and so are its present instruction and its posted requests that have failed too:
they execute again (`Thread.giveUp`; assumption 60). -/
def State.stepBack (s : State) (c : CoreId) (k : Slot) (id : Nat) (own : List Redo) : State :=
  let t := s.thread c k
  let lost := s.net.filter fun n => n.id != id && n.ofThread c k && n.failed && t.postedBy n
  let s := s.letGo c k (t.loadMsgs ++ t.prog.msgs)
  let s := { s with net := s.net.filter fun n => !lost.contains n }
  let s := s.updThread c k fun t => t.giveUp (own ++ lost.flatMap Msg.redo)
  lost.foldl (fun s n => s.updThread c k fun t => t.giveSigs n) s

/-- A thread is taken back to the instruction whose request has failed. -/
def State.failBack (s : State) (m : Msg) : State :=
  (s.stepBack m.core m.slot m.id (if (s.thread m.core m.slot).postedBy m then m.redo else [])).updThread m.core m.slot
    fun t => t.giveSigs m

/-- A thread's request has failed: the thread traps at the instruction that sent it (R87, R155). Registers
that the request would have written keep their values. -/
def State.requestFails (s : State) (m : Msg) (err : ReplyErr) (va : Word) (wr : Bool) : State :=
  let (cause, detail) := ReplyErr.cause err
  (s.failBack m).takeTrap m.core m.slot { cause := cause, addr := va, detail := detail, write := wr }

/-- A write-back stands behind an earlier one of its line, which has failed. -/
def Msg.holdsBack (m n : Msg) : Bool :=
  m.id < n.id && n.stage == .sent && match m.body with
    | .writeback line _ _ _ => n.holdsLine line
    | _ => false

/-- A request of a thread's present instruction need not be waited for when the thread stops: it has been answered or has
failed, only reads, or is one of those selected. -/
def State.letsGo (s : State) (behind : Msg → Bool) (id : Nat) : Bool :=
  match s.msg id with
  | none => true
  | some n => n.failed || n.readsOnly || n.isClaim || n.isWaita || behind n

/-- Place of a load's first piece that waits for a message; of what no load waits for, none. -/
def Thread.firstPiece (t : Thread) (id : Nat) : Option (PendLoad × Nat) :=
  (t.loads.find? fun l => l.pieces.any fun p => p.msg == some id).bind fun l =>
    (l.pieces.findIdx? fun p => p.msg == some id).map fun j => (l, j)

/-- A thread may be stopped for a request that has failed. It stands between two steps; the requests of its present
instruction need not be waited for; and the answers of device loads and of requests that write registers have come. -/
def State.mayStop (s : State) (c : CoreId) (k : Slot) (id : Nat) (behind : Msg → Bool) : Bool :=
  let t := s.thread c k
  t.status != .trapped && t.status != .parked .kamgor && s.between c k
    && (t.prog.msgs.all fun i => i == id || s.letsGo behind i)
    && (s.net.all fun n => n.id == id || !n.ofThread c k || n.failed
      || !(n.rd != 0 || match n.body with | .device _ none => true | _ => false))

/-- A request is for the first byte that a thread's outstanding loads wait for. -/
def Thread.firstByte (t : Thread) (p : PendLoad × Nat) : Bool :=
  t.loads.head? == some p.1 && (p.1.pieces.take p.2).all fun q => q.msg.isNone

/-- A thread may be trapped for a request that has failed: nothing that it has asked for earlier can still fail, so that the
first failing byte is the one that is reported (R87, R191). -/
def State.mayTrap (s : State) (m : Msg) : Bool :=
  let t := s.thread m.core m.slot
  s.mayStop m.core m.slot m.id m.holdsBack
    && (match t.firstPiece m.id with
      | some p => t.firstByte p
      | none =>
        if t.postedBy m then
          t.loads.all fun l => (m.undo.elim 0 fun u => u.instret.toNat) < l.undo.instret.toNat
        else t.loads.isEmpty && t.prog.msgs.all fun id => m.id ≤ id || s.gone id)

/-- Virtual address of the first byte that a request of a load fetches. -/
def Thread.pieceVa (t : Thread) (m : Msg) : Word :=
  match (t.loads.flatMap fun l => l.pieces).find? fun p => p.msg == some m.id with
  | some p => BitVec.ofNat 64 p.va
  | none => m.va

/-- `L1D_FILL`: the sector enters the L1D, and the load takes its bytes; a store's fetch waits in the thread
until the store is written (R17, R84). -/
def execL1dFill (m : Nat) (s : State) : Result :=
  event (fun s => do
    let msg ← s.msg m
    match msg.body, msg.stage with
    | .fill line mask hint alloc store, .reply data _ err =>
      let s0 := s.drop m
      let (c, k) := (msg.core, msg.slot)
      if s.stalledMsg msg || !msg.moving then none
      else if msg.orphan then pure s0
      else if err != .none then
        if s.mayTrap msg then pure (s0.requestFails msg err ((s.thread c k).pieceVa msg) store) else none
      else
        let sec := (leastBelow 4 fun i => mask.getLsbD i).getD 0
        let d : BitVec 256 := ofBytes 256 data
        if store then
          if alloc then pure (s0.updThread c k fun t =>
            { t with prog := { t.prog with got := (line, sec, d) :: t.prog.got } })
          else pure s0
        else
          let s1 := if alloc then s0.fillL1 c k line sec d hint else s0
          pure (s1.updThread c k fun t => t.deliver m data)
    | _, _ => none) s

/-! ## Write-backs and updates (R84, R85, R108) -/

/-- How a write at the home fails, if it does: it needs a stack that is FAILED (R395, R399), or whose access table
refuses it (R371). -/
def State.writeError (s : State) (ctx : Ctx) (d : DieId) (pa n : Nat) (hint : Hint) : Option ReplyErr :=
  if s.stackStateAt pa == .failed && s.needsStack ctx d pa n hint then some (.memory (pa / 32 * 32))
  else if s.writeRefused .core ctx pa then some (.access 0)
  else none

/-- Another part of the store to which a request belongs: a byte-masked update, or a write of vault words. -/
def Msg.partner (m n : Msg) : Bool :=
  n.id != m.id && n.core == m.core && n.slot == m.slot && !n.orphan && n.undo.isSome
    && n.undo.map Undo.instret == m.undo.map Undo.instret && match n.body with
      | .update _ _ | .vaultWrite _ _ => true
      | _ => false

/-- How the parts of a store stand. -/
inductive Parts
  | run | wait | drop | fail (e : ReplyErr)
deriving DecidableEq, Repr

/-- A store of which one part is refused writes no byte (R87, R105, R191): its parts are written only when none of them would
fail, and the first that fails is the one reported. `bad` tells how a part would end, `held` that this is not yet known. -/
def State.partsOf (s : State) (m : Msg) (bad : Msg → Option ReplyErr) (held : Msg → Bool) : Parts :=
  let ps := s.net.filter m.partner
  let sent := ps.filter fun n => n.stage == .sent
  if ps.any fun n => n.failed || (n.stage == .sent && n.id < m.id && (bad n).isSome) then .drop
  else match bad m with
    | some e => .fail e
    | none =>
      if sent.any fun n => (bad n).isSome then .drop
      else if sent.any held then .wait
      else .run

/-- The writes of a write-back or a byte-masked update at its home, with the hint. -/
def Msg.homeWrites (m : Msg) : Option (Nat × List (Nat × List Byte) × Hint) :=
  match m.body with
  | .writeback line sec data hint => some (line, [(128 * line + 32 * sec, bytesOf data 0 32)], hint)
  | .update line ws => some (line, ws, .noal)
  | _ => none

/-- How a request's writes at the home would fail. -/
def State.writesFail (s : State) (m : Msg) : Option ReplyErr :=
  m.homeWrites.bind fun w => w.2.1.findSome? fun x => s.writeError m.ctx (dieOf m.core) x.1 x.2.length w.2.2

/-- A request's writes wait for a stack that is OFFLINE (R399). -/
def State.writesHeld (s : State) (m : Msg) : Bool :=
  match m.homeWrites with
  | some w => w.2.1.any fun x => s.writeHeld m.ctx (dieOf m.core) x.1 x.2.length w.2.2
  | none => false

/-- `WRITEBACK_AT_HOME` (R108). It waits while a stack that it needs is OFFLINE (R399). -/
def execWritebackAtHome (m : Nat) (s : State) : Result :=
  event (fun s => do
    let msg ← s.msg m
    let (line, ws, hint) ← msg.homeWrites
    let d := dieOf msg.core
    if !s.atHome msg || s.earlierOnLine msg line || s.writesHeld msg then none
    else match s.partsOf msg s.writesFail s.writesHeld with
      | .wait => none
      | .drop => pure (s.perform msg [])
      | .fail e => pure (s.perform msg [] 0 e)
      | .run =>
        let s := ws.foldl (fun s w => s.homeWrite .core msg.ctx d w.1 w.2 hint true) s
        pure (s.perform msg [])) s

/-- A message whose answer is an acknowledgement without data. -/
def Msg.isAck (m : Msg) : Bool :=
  match m.body with
  | .writeback _ _ _ _ => true
  | .update _ _ => true
  | .vaultWrite _ _ => true
  | .spadWrite _ _ _ => true
  | .strl _ _ _ _ _ => true
  | .device _ (some _) => true
  | .host _ _ (.write _) _ => true
  | .peer _ _ (.write _) _ => true
  | _ => false

/-- The bytes of a write-back that failed and that no instruction waits for are lost, and logged (assumption 73). -/
def State.logQuiet (s : State) (m : Msg) : State :=
  match m.body with
  | .writeback line sec _ _ => { s with log := s.log ++ [(0, 128 * line + 32 * sec)] }
  | _ => s

/-- `WRITEBACK_ACK`: an acknowledgement returns; the next request of the line and the threads that wait for it
go on (R85, R105). A failed one traps its thread (R105, R155, R416). -/
def execWritebackAck (m : Nat) (s : State) : Result :=
  event (fun s => do
    let msg ← s.msg m
    match msg.stage with
    | .reply _ _ err =>
      if !msg.isAck || s.stalledMsg msg || !msg.moving then none
      else if err == .none then pure (s.drop m)
      else if msg.orphan || msg.quiet || !(s.thread msg.core msg.slot).present then pure ((s.drop m).logQuiet msg)
      else if s.mayTrap msg then pure ((s.drop m).requestFails msg err msg.va true)
      else none
    | _ => none) s

/-! ## Atomics and synchronisation (R138 to R142, R146, R147, R152, R153) -/

/-- What an atomic writes (R137): none when the write does not happen. -/
def amoResult (op : AmoOp) (n old v c : Nat) : Option Nat :=
  let w := 8 * n
  let v := v % 2 ^ w
  match op with
  | .add => some ((old + v) % 2 ^ w)
  | .and => some (old &&& v)
  | .or => some (old ||| v)
  | .xor => some (old ^^^ v)
  | .min => some (if toSigned w v < toSigned w old then v else old)
  | .max => some (if toSigned w old < toSigned w v then v else old)
  | .minu => some (min old v)
  | .maxu => some (max old v)
  | .swap => some v
  | .cas => if old = c % 2 ^ w then some v else none
  | .decp => if 0 < toSigned w old then some (old - 1) else none
  | .fadd => some ((if n = 4 then binary32 else binary64).addCode old v)

/-- A thread whose registration is woken: its `waita` returns status 0 (R141). -/
def Thread.woken (t : Thread) : Thread :=
  if t.status = .parked .registered ∧ t.prog.data.isNone then { t with prog := { t.prog with data := some [0] } } else t

/-- Wake the earliest or every registration of a context on the word of an address at a tile; the number woken
(R141, R153). A woken thread's `waita` returns status 0. -/
def State.wake (s : State) (t : TileId) (ctx : Ctx) (va : Nat) (all : Bool) : Nat × State :=
  let on := fun (r : Monitor) => r.ctx == ctx && r.va == va / 8 * 8
  let hits := (s.tiles.get t).monitors.filter on
  let woken := if all then hits else hits.take 1
  let s := s.updTile t fun x => { x with monitors := x.monitors.filter fun r => !woken.contains r }
  (woken.length, woken.foldl (fun s r => s.updThread r.core r.slot Thread.woken) s)

/-- The wake part of an ordering field (R141): none, the earliest, or all. -/
def AmoOrd.wakeAll : AmoOrd → Option Bool
  | .wk1 | .relWk1 => some false
  | .wkall | .relWkall => some true
  | _ => none

/-- The bytes of a sync object after a release (R142): the value, the count plus 1, and the signature. -/
def releasedObject (obj : List Byte) (value : List Byte) (p : Sig) (orIn : Bool) : List Byte :=
  let count := ofLe ((obj.drop 8).take 8)
  let old : Sig := ofBytes 512 ((obj.drop 64).take 64)
  value ++ (obj.drop value.length).take (8 - value.length) ++ leBytes 8 (count + 1)
    ++ (obj.drop 16).take 48 ++ bytesOf (if orIn then old ||| p else p) 0 64

/-- `ATOMIC_AT_HOME`: the atomic unit's one step (R112, R138, R155). -/
def execAtomicAtHome (m : Nat) (s : State) : Result :=
  event (fun s => do
    let msg ← s.msg m
    match msg.body with
    | .atomic op pa va dbl ord _ v c _ p =>
      let line := pa / 128
      if !s.atHome msg || s.earlierOnLine msg line then none
      else
        let d := dieOf msg.core
        let n := amoBytes dbl
        let whole := ord == .acq || AmoOrd.isRel ord
        match s.homeUpdate msg.ctx d (if whole then 128 * line else pa) (if whole then 128 else n) true with
        | .heldBack => none
        | .refused s => pure (s.perform msg [] 0 (.access 0))
        | .error e s => pure (s.perform msg [] 0 (.memory e))
        | .ok b s =>
          let old := ofLe (b.take n)
          let new := amoResult op n old v.toNat c.toNat
          let s := match AmoOrd.isRel ord, new with
            | true, _ =>
              s.homeWrite .core msg.ctx d (128 * line)
                (releasedObject b (leBytes n (new.getD old)) p true) .norm false
            | false, some w => s.homeWrite .core msg.ctx d pa (leBytes n w) .norm false
            | false, none => s
          let s := match AmoOrd.wakeAll ord with
            | some all => (s.wake (s.homeOf msg.ctx d line) msg.ctx va all).2
            | none => s
          pure (s.perform msg (leBytes n old) (if ord = .acq then ofBytes 512 ((b.drop 64).take 64) else 0))
    | _ => none) s

/-- `SYNC_ACCESS_AT_HOME`: the read of an `ldaq`, or step 4 of a `strl` (R117, R142, R146, R147). -/
def execSyncAccessAtHome (m : Nat) (s : State) : Result :=
  event (fun s => do
    let msg ← s.msg m
    let (pa, st) ← match msg.body with
      | .ldaq pa dbl _ _ => some (pa, none, dbl)
      | .strl pa _ dbl v p => some (pa, some (v, p), dbl)
      | _ => none
    let line := pa / 128
    if !s.atHome msg || s.earlierOnLine msg line then none
    else
      let d := dieOf msg.core
      let got := match st with
        | (none, _) => s.homeRead .core msg.ctx d (128 * line) 128 .norm true
        | (some _, _) => s.homeUpdate msg.ctx d (128 * line) 128 false
      match got with
      | .heldBack => none
      | .refused s => pure (s.perform msg [] 0 (.access 0))
      | .error e s => pure (s.perform msg [] 0 (.memory e))
      | .ok b s =>
        match st with
        | (none, dbl) => pure (s.perform msg (b.take (amoBytes dbl)) (ofBytes 512 ((b.drop 64).take 64)))
        | (some (v, p), dbl) =>
          let obj := releasedObject b (leBytes (amoBytes dbl) v.toNat) p false
          pure ((s.homeWrite .core msg.ctx d (128 * line) obj .norm false).perform msg [])) s

/-- `WAITA_AT_HOME`: the compare-and-register step (R152). A registered request gets no reply. -/
def execWaitaAtHome (m : Nat) (s : State) : Result :=
  event (fun s => do
    let msg ← s.msg m
    match msg.body with
    | .waita pa va dbl expected rd =>
      let line := pa / 128
      if !s.atHome msg || s.earlierOnLine msg line then none
      else
        let d := dieOf msg.core
        let n := amoBytes dbl
        match s.homeRead .core msg.ctx d pa n .norm false with
        | .heldBack => none
        | .refused s => pure (s.perform msg [] 0 (.access 0))
        | .error e s => pure (s.perform msg [] 0 (.memory e))
        | .ok b s =>
          let t := s.homeOf msg.ctx d line
          if ofLe b ≠ expected.toNat % 2 ^ (8 * n) then pure (s.perform msg [1])
          else if 64 ≤ (s.tiles.get t).monitors.length then pure (s.perform msg [2])
          else if msg.orphan then pure ((s.receive msg).drop m)
          else
            let r : Monitor := { ctx := msg.ctx, va := va / 8 * 8, core := msg.core, slot := msg.slot, rd := rd }
            pure (((s.receive msg).drop m).updTile t fun x => { x with monitors := x.monitors ++ [r] })
    | _ => none) s

/-- `NOTIFY_AT_HOME` (R153). -/
def execNotifyAtHome (m : Nat) (s : State) : Result :=
  event (fun s => do
    let msg ← s.msg m
    match msg.body with
    | .notify pa va all _ =>
      if !s.atHome msg || s.earlierOnLine msg (pa / 128) then none
      else
        let (n, s) := s.wake (s.homeOf msg.ctx (dieOf msg.core) (pa / 128)) msg.ctx va all
        pure (s.perform msg (leBytes 8 n))
    | _ => none) s

/-! ## Probes (R123, R145) -/

/-- A request of the core to a target, sent before a message, has not yet been performed there. A core's fetches of
instructions are no requests of its threads (R122). -/
def State.earlierTo (s : State) (m : Msg) (g : Target) : Bool :=
  s.net.any fun n => n.core == m.core && n.target == some g && n.id < m.id && (n.stage == .sent || n.stage == .atStack)
    && n.counted && match n.body with
      | .probe _ => false
      | _ => true

/-- `FENCE_PROBE`: a target echoes once every earlier request of the core to it is performed there; a tile knows them by the
count that the probe carries, in which a later request does not stand for an earlier one, DEDUCED (R123, R145; assumption
67). -/
def execFenceProbe (m : Nat) (s : State) : Result :=
  event (fun s => do
    let msg ← s.msg m
    match msg.body, msg.target with
    | .probe count, some (.tile t) =>
      if msg.moving && !s.stalledMsg msg && msg.stage == .sent
          && count ≤ (assoc (s.tiles.get t).received msg.core.val).getD 0 && !s.earlierTo msg (.tile t) then
        pure (s.answer m [])
      else none
    | .probe _, some g =>
      if msg.moving && !s.stalledMsg msg && msg.stage == .sent && !s.earlierTo msg g then
        pure (s.answer m [])
      else none
    | _, _ => none) s

/-- `ECHO_ARRIVAL` (R123). -/
def execEchoArrival (m : Nat) (s : State) : Result :=
  event (fun s => do
    let msg ← s.msg m
    match msg.body, msg.stage with
    | .probe _, .reply _ _ _ => if msg.moving && !s.stalledMsg msg then pure (s.drop m) else none
    | _, _ => none) s

/-! ## Vaults and other cores' scratchpads (R100, R105) -/

/-- The access table of a tile allows an access to its vault (R105, R370). -/
def State.vaultAllows (s : State) (cls : AclClass) (ctx : Ctx) (off n : Nat) (rd wr : Bool) : Bool :=
  let l := (s.tiles.get (vaultTile off)).acl.toList
  aclAllows l cls ctx (off % 0x400000) rd wr && aclAllows l cls ctx ((off + n - 1) % 0x400000) rd wr

/-- How a write of vault words fails (R105, R370). -/
def State.vaultError (s : State) (m : Msg) : Option ReplyErr :=
  match m.body with
  | .vaultWrite off b => if s.vaultAllows .core m.ctx off b.length false true then none else some (.access 0)
  | _ => none

/-- `VAULT_ACCESS` (R105). -/
def execVaultAccess (m : Nat) (s : State) : Result :=
  event (fun s => do
    let msg ← s.msg m
    if msg.stage != .sent || !msg.moving || s.stalledMsg msg then none
    else match msg.body with
      | .vaultRead off n =>
        if s.vaultAllows .core msg.ctx off n true false then pure (s.answer m (s.vault.read off n))
        else pure (s.answer m [] 0 (.access 0))
      | .vaultWrite off b =>
        match s.partsOf msg s.vaultError fun _ => false with
        | .run => pure (State.answer { s with vault := s.vault.write off b } m [])
        | .fail e => pure (s.answer m [] 0 e)
        | .wait | .drop => pure (s.answer m [])
      | _ => none) s

/-- `REMOTE_SCRATCHPAD_ACCESS` (R97, R100). -/
def execRemoteScratchpadAccess (m : Nat) (s : State) : Result :=
  event (fun s => do
    let msg ← s.msg m
    if msg.stage != .sent || !msg.moving || s.stalledMsg msg then none
    else if s.toStopped msg then pure (s.drop m)
    else match msg.body with
      | .spadRead c a n => pure (s.answer m ((s.core c).spad.read a n))
      | .spadWrite c a b => pure ((s.updCore c fun x => x.writeSpad a b).answer m [])
      | _ => none) s

/-! ## Replies (R139, R146) -/

/-- The register that a reply writes, and the value (R138, R146, R153). -/
def Msg.result (m : Msg) (data : List Byte) : Option (Reg × Word) :=
  match m.body with
  | .atomic _ _ _ dbl _ _ _ _ rd _ => some (rd, widen true (amoBytes dbl) (ofLe data))
  | .ldaq _ dbl _ rd => some (rd, widen true (amoBytes dbl) (ofLe data))
  | .notify _ _ _ rd => some (rd, BitVec.ofNat 64 (ofLe data))
  | .host _ _ (.atomic _ n _ _) (some (rd, _)) => some (rd, widen true n (ofLe data))
  | .peer _ _ (.atomic _ n _ _) (some (rd, _)) => some (rd, widen true n (ofLe data))
  | .host _ _ (.read n) (some (rd, _)) => some (rd, widen true n (ofLe data))
  | .peer _ _ (.read n) (some (rd, _)) => some (rd, widen true n (ofLe data))
  | _ => none

/-- The scope of the acquire that a reply ends (R119, R143): at a host or peer target G is full. -/
def Msg.acquires (m : Msg) (sig : Sig) : Option (Scope × Sig) :=
  match m.body with
  | .atomic _ _ _ _ .acq scope _ _ _ _ => some (scope, sig)
  | .ldaq _ _ scope _ => some (scope, sig)
  | .host _ _ _ (some (_, some scope)) => some (scope, BitVec.allOnes 512)
  | .peer _ _ _ (some (_, some scope)) => some (scope, BitVec.allOnes 512)
  | _ => none

/-- A message whose answer carries data to a thread. -/
def Msg.isData (m : Msg) : Bool :=
  match m.body with
  | .atomic _ _ _ _ _ _ _ _ _ _ => true
  | .ldaq _ _ _ _ => true
  | .waita _ _ _ _ _ => true
  | .notify _ _ _ _ => true
  | .vaultRead _ _ => true
  | .spadRead _ _ _ => true
  | .device _ none => true
  | .host _ _ (.read _) _ => true
  | .host _ _ (.atomic _ _ _ _) _ => true
  | .peer _ _ (.read _) _ => true
  | .peer _ _ (.atomic _ _ _ _) _ => true
  | _ => false

/-- A thread with an integer register written by a reply. -/
def Thread.replyX (t : Thread) (d : Reg) (v : Word) : Thread := t.answerX d v

/-- A thread whose instruction waits for a message takes its data. -/
def Thread.holdData (t : Thread) (id : Nat) (b : List Byte) : Thread :=
  if t.prog.msgs.contains id then { t with prog := { t.prog with data := some b } } else t

/-- `REPLY_TO_CORE`: rd is written; an acquire ORs G into SIGACQ and invalidates the matching lines (R119,
R138, R139, R146); a load takes its bytes. A failed request traps (R105, R155, R416). -/
def execReplyToCore (m : Nat) (s : State) : Result :=
  event (fun s => do
    let msg ← s.msg m
    match msg.stage with
    | .reply data sig err =>
      let (c, k) := (msg.core, msg.slot)
      if !msg.isData || s.stalledMsg msg || !msg.moving then none
      else if msg.orphan || !(s.thread c k).present then pure (s.drop m)
      else if err != .none then
        if s.mayTrap msg then
          let wr := match msg.body with
            | .atomic _ _ _ _ _ _ _ _ _ _ | .notify _ _ _ _ => true
            | .host _ _ (.atomic _ _ _ _) _ | .peer _ _ (.atomic _ _ _ _) _ => true
            | _ => false
          let free := fun (t : Thread) => match msg.result [] with
            | some (d, _) => { t with xpend := t.xpend &&& ~~~(1#32 <<< d.toNat) }
            | none => t
          let va := (s.thread c k).pieceVa msg
          pure (((s.drop m).updThread c k free).requestFails msg err va wr)
        else none
      else
        let s1 := (s.drop m).updThread c k fun t => (t.deliver m data).holdData m
          (match msg.result data with | some (_, v) => leBytes 8 v.toNat | none => data)
        let s2 := match msg.result data with
          | some (d, v) => s1.updThread c k fun t => t.replyX d v
          | none => s1
        pure (match msg.acquires sig with
          | some (scope, g) => s2.acquire c k scope g
          | none => s2)
    | _ => none) s

/-! ## Walks and instruction fetch (R308, R351) -/

/-- Two addresses lie on one page of a level. -/
def onePage (level a b : Nat) : Bool := a / 2 ^ levelShift level == b / 2 ^ levelShift level

/-- What a request that carries a virtual address does there: it writes (`some true`) or only reads. -/
def Msg.accesses (m : Msg) : Option Bool :=
  match m.body with
  | .fill _ _ _ _ store => some store
  | .update _ _ | .atomic _ _ _ _ _ _ _ _ _ _ | .strl _ _ _ _ _ | .notify _ _ _ _ | .device _ (some _) => some true
  | .ldaq _ _ _ _ | .waita _ _ _ _ _ | .device _ none => some false
  | .host _ _ (.read _) _ | .peer _ _ (.read _) _ => some false
  | .host _ _ _ _ | .peer _ _ _ _ => some true
  | _ => none

/-- An access of a core to the page of an address is under way: a fetch, a load, or a request; a write, when `write` asks
for one (R306). -/
def State.accessUnderWay (s : State) (core : CoreId) (level va : Nat) (write : Bool) : Bool :=
  (s.net.any fun m => m.core == core && onePage level m.va.toNat va && match m.accesses with
      | some w => !write || w
      | none => false)
    || (s.majOps.any fun o => o.core == core && !o.done && onePage level o.va va && (!write || o.write || o.stamped.isSome))
    || (!write && (List.finRange 16).any fun k => match (s.thread core k).wantBlock with
      | some a => onePage level a va
      | none => false)

/-- `TABLE_WALK`: a walker walks the tables of the context that a core holds for an access that is under way, sets A and D
and fills the translation caches; a walk that stops at a fault fills nothing (R306, R308). Without such an access the walk
is speculative: it sets neither bit, and fills the caches only from a leaf whose A bit is set (R310). -/
def execTableWalk (core : Fin 1280) (va : Nat) (write : Bool) (s : State) : Result :=
  event (fun s => do
    let ctx ← (s.core core).ctx
    if !vaValid va then none
    else match s.walk ctx va with
      | .fault _ _ _ => none
      | .leaf level e =>
        if s.accessUnderWay core level va write then
          match s.translate core ctx va write with
          | .ok s' _ _ => pure s'
          | .fault _ _ _ _ => none
        else if leafA e then
          pure (s.fillTlb core ctx va { ctx := ctx, level := level, vpn := va % 2 ^ 57 / 2 ^ levelShift level, leaf := e })
        else none) s

/-- Put a line into a cluster's instruction cache: 8 ways, 256 sets (R351). The oldest line of a full set
leaves, DESIGN CHOICE (assumption 3). -/
def Cluster.fillIcache (x : Cluster) (line : Nat) (data : LineData) : Cluster :=
  let others := x.icache.filter fun p => p.1 != line
  let set := others.filter fun p => p.1 % 256 == line % 256
  let others := if set.length < 8 then others else match set.head? with
    | some v => others.filter fun p => p.1 != v.1
    | none => others
  { x with icache := others ++ [(line, data)] }

/-- A missing line has come: every thread of the cluster that waits on it was frozen, whichever asked for it, and adds the
cycles to its SLIP when it receives its block (R351). -/
def State.lineCame (s : State) (cl : TileId) (line m : Nat) : State :=
  (List.finRange 4).foldl (fun s i => (List.finRange 16).foldl (fun s k =>
    let c := coreIn cl i
    let t := s.thread c k
    match t.wantBlock with
    | none => s
    | some va =>
      match s.mapFetch c k va with
      | .ok (pa, _) =>
        if pa / 128 = line ∧ t.prog.msgs.isEmpty then s.updThread c k fun t => { t with prog := { t.prog with msgs := [m] } } else s
      | .error _ => s) s) s

/-- `INSTRUCTION_FETCH_MISS`: the line comes from its home slice into the instruction cache; a fetch that
fails traps the threads that wait for it (R81, R351). -/
def execInstructionFetchMiss (m : Nat) (s : State) : Result :=
  event (fun s => do
    let msg ← s.msg m
    match msg.body, msg.stage with
    | .ifetch line, .reply data _ err =>
      let cl := clusterOf msg.core
      let s0 := s.drop m
      if s.stalledMsg msg || !msg.moving then none
      else if msg.orphan then pure s0
      else if err == .none then pure ((s0.updCluster cl fun x => x.fillIcache line (ofBytes 1024 data)).lineCame cl line m)
      else
        let (cause, _) := ReplyErr.cause err
        pure ((List.finRange 4).foldl (fun s i => (List.finRange 16).foldl (fun s k =>
          let c := coreIn cl i
          let t := s.thread c k
          if t.prog.msgs.contains m && t.present then
            s.fetchFault c k (t.wantBlock.getD 0) cause
          else s) s) s0)
    | _, _ => none) s

/-- `FETCH_BLOCK`: the fetch port serves its oldest request, when it lies in the block named (R351). -/
def execFetchBlock (cluster : Fin 320) (block : Nat) (s : State) : Result :=
  .next (s.serveFetch cluster (some block))

end Sys2Proof.Machine
end

