-- ==== Sys2Proof/Machine/Extern.lean ====
section
/-! DEFINITION. What lies beyond the host and peer interfaces (R143, R155, R412 to R416): host memory through
a context's windows, a far device's memory through a port's remote windows, and the device steps that perform
a request there. -/

namespace Sys2Proof.Machine

/-! ## Addresses beyond the interfaces -/

/-- Host bus address of an offset within a host window (R412). -/
def State.hostBus (s : State) (ctx : Ctx) (w : Fin 16) (off : Nat) : Nat :=
  wbits ((s.ctxs.get ctx).hwin.get w).1 63 12 * 4096 + off

/-- Far context and far virtual address that a peer offset names (R415). -/
def State.farPlace (s : State) (p : Fin 16) (off : Nat) : Nat × Nat :=
  let (w0, w1) := (s.peers.get p).win.get (finOf 16 (bits off 43 40))
  (wbits w1 45 40, (wbits w0 63 12 * 4096 + bits off 39 0) % 2 ^ 64)

/-- Key of a far byte in a port's memory. -/
def farKey (f : Nat × Nat) : Nat := f.1 * 2 ^ 64 + f.2

/-- The state with a port's far memory changed. -/
def State.updPeer (s : State) (p : Fin 16) (f : PeerPort → PeerPort) : State :=
  { s with peers := s.peers.set p (f (s.peers.get p)) }

/-- The bytes that a request reads, and the memory after it (R137, R143). -/
def ExtReq.perform (r : ExtReq) (mem : Memory) (a : Nat) : List Byte × Memory :=
  match r with
  | .read n => (mem.read a n, mem)
  | .write b => ([], mem.write a b)
  | .atomic op n v c =>
    let old := ofLe (mem.read a n)
    (leBytes n old, match amoResult op n old v.toNat c.toNat with
      | some w => mem.write a (leBytes n w)
      | none => mem)

/-- The request is a store or an atomic. -/
def ExtReq.writes : ExtReq → Bool
  | .read _ => false
  | _ => true

/-! ## Accesses of the copy engine (R286) -/

/-- Read bytes of a host or peer page; `none` is a refusal. -/
def State.extRead (s : State) (ctx : Ctx) (ty : PageType) (leaf : Word) (off n : Nat) : Option (List Byte) :=
  match ty with
  | .host => (s.hostWindow ctx off).map fun w => s.hostMem.read (s.hostBus ctx w (bits off 39 0)) n
  | _ =>
    match s.peerWindow (leafPort leaf) off with
    | none => none
    | some p =>
      let f := s.farPlace p off
      if Config.farAccess f.1 f.2 n false then some ((s.peers.get p).mem.read (farKey f) n) else none

/-- Write bytes of a host or peer page; `none` is a refusal at a window. A store that the far device refuses is
discarded and logged (R415). -/
def State.extWrite (s : State) (ctx : Ctx) (ty : PageType) (leaf : Word) (off : Nat) (b : List Byte) : Option State :=
  match ty with
  | .host => (s.hostWindow ctx off).map fun w =>
    { s with hostMem := s.hostMem.write (s.hostBus ctx w (bits off 39 0)) b }
  | _ =>
    match s.peerWindow (leafPort leaf) off with
    | none => none
    | some p =>
      let f := s.farPlace p off
      if Config.farAccess f.1 f.2 b.length true then
        some (s.updPeer p fun x => { x with mem := x.mem.write (farKey f) b })
      else some { s with log := s.log ++ [(1, farKey f)] }

/-! ## Device steps -/

/-- `HOST_REQUEST`: the interface performs a request at host memory, which lies behind the window's base; an
atomic may complete with an error status (R155, R412, R413). -/
def execHostRequest (m : Nat) (s : State) : Result :=
  event (fun s => do
    let msg ← s.msg m
    match msg.body with
    | .host w off req _ =>
      if !s.atHome msg then none
      else
        let (data, mem) := req.perform s.hostMem (s.hostBus msg.ctx w off)
        match req with
        | .atomic _ _ _ _ =>
          let s1 := { s with free := s.free + 1 }
          if Config.hostError s.free then pure (s1.perform msg [] 0 (.access 0))
          else pure ({ s1 with hostMem := mem }.perform msg data)
        | _ => pure ({ s with hostMem := mem }.perform msg data)
    | _ => none) s

/-- `PEER_REQUEST`: the far device translates and checks the access and performs it; a refused load or atomic
traps, a refused store is discarded and logged (R415). -/
def execPeerRequest (m : Nat) (s : State) : Result :=
  event (fun s => do
    let msg ← s.msg m
    match msg.body with
    | .peer p off req _ =>
      if !s.atHome msg || !(s.peers.get p).up then none
      else
        let f := s.farPlace p off
        let n := match req with
          | .read n => n
          | .write b => b.length
          | .atomic _ n _ _ => n
        if Config.farAccess f.1 f.2 n req.writes then
          let (data, mem) := req.perform (s.peers.get p).mem (farKey f)
          pure ((s.updPeer p fun x => { x with mem := mem }).perform msg data)
        else match req with
          | .write _ => pure ({ s with log := s.log ++ [(1, farKey f)] }.perform msg [])
          | _ => pure (s.perform msg [] 0 (.access 0))
    | _ => none) s

/-- What the failure of a port answers to a message that is outstanding on it (R416): loads and atomics fail,
stores are lost, probes echo. -/
def Msg.failOn (m : Msg) (p : Fin 16) : Msg :=
  match m.body with
  | .peer q _ (.write _) _ => if q = p then { m with stage := .reply [] 0 .none } else m
  | .peer q _ _ _ => if q = p then { m with stage := .reply [] 0 (.access 0) } else m
  | .probe _ => if m.target = some (.peer p) then { m with stage := .reply [] 0 .none } else m
  | _ => m

/-- A store outstanding on a port that has not been performed. -/
def Msg.lostOn (m : Msg) (p : Fin 16) : Bool :=
  m.stage == .sent && match m.body with
    | .peer q _ (.write _) _ => q == p
    | _ => false

/-- `PEER_LINK_FAIL`: every outstanding request on the port fails; it refuses new ones (R416). -/
def execPeerLinkFail (port : Fin 16) (s : State) : Result :=
  let lost := (s.net.filter fun m => m.lostOn port).map fun m => (2, m.va.toNat)
  .next (State.updPeer { s with net := s.net.map fun m => m.failOn port, log := s.log ++ lost } port fun x =>
    { x with up := false })

/-- `PEER_LINK_UP`: Kamgor reports the link up again (R416). -/
def execPeerLinkUp (port : Fin 16) (s : State) : Result := .next (s.updPeer port fun x => { x with up := true })

end Sys2Proof.Machine
end

