-- ==== Sys2Proof/Machine/Tile.lean ====
section
/-! DEFINITION. The tile unit: claims and modes (R264 to R267), operands and scales (R268 to R272), the
arithmetic of a step (R174 to R178, R274), the queue (R275), the instructions (R280 to R284) and the steps of
the sequencer (R268, R278, R419). -/

namespace Sys2Proof.Machine

/-! ## Types (R268, R272, R174) -/

/-- Element format of a tile type; the grouped types hold integer codes (R165). -/
def TileType.elem : TileType → ElemFmt
  | .e2m1 => .e2m1 | .e3m2 => .e3m2 | .e2m3 => .e2m3 | .e4m3 => .e4m3 | .e5m2 => .e5m2
  | .i4 => .i4 | .i8 => .i8 | .bf16 => .bf16 | .f16 => .f16 | .f32 => .f32
  | .q4g => .i4 | .q8g => .i8 | .fmt => .f32

/-- Bits of an element. -/
def TileType.width (t : TileType) : Nat := fmtBits (TileType.elem t)

/-- A type with group records (R165). -/
def TileType.grouped : TileType → Bool
  | .q4g | .q8g => true
  | _ => false

/-- An integer type. -/
def TileType.isInt : TileType → Bool
  | .i4 | .i8 | .q4g | .q8g => true
  | _ => false

/-- A wide floating type. -/
def TileType.isWide : TileType → Bool
  | .bf16 | .f16 | .f32 => true
  | _ => false

/-- A narrow floating type, which may carry block scales (R164). -/
def TileType.isNarrow (t : TileType) : Bool := !TileType.isInt t && !TileType.isWide t

/-- Types that pair (R272). -/
def tilePair (a b : TileType) : Bool := TileType.isInt a == TileType.isInt b

/-- Elements of K that a step covers for one operand (R268). -/
def ktOf (t : TileType) : Nat := match TileType.width t with | 32 => 16 | 16 => 32 | 4 => 128 | _ => 64

/-- Elements of K per step of a product (R268). -/
def ktPair (a b : TileType) (g : Nat) : Nat :=
  let k := min (ktOf a) (ktOf b)
  if TileType.grouped a || TileType.grouped b then max k g else k

/-- Group depth of a type (R174). -/
def depthOf (t : TileType) : Nat := match TileType.width t with | 32 => 2 | 16 => 8 | 4 => 32 | _ => 16

/-- Group depth of a pair (R174). -/
def depthPair (a b : TileType) (g : Nat) : Nat :=
  if TileType.grouped a || TileType.grouped b then g else min (depthOf a) (depthOf b)

/-! ## Output tiles (R267) -/

/-- Rows of the output tile. -/
def TileMode.rows : TileMode → Nat
  | .independent => 32 | .m1x4 => 32 | .m2x2 => 64 | .m4x1 => 128

/-- Columns of the output tile. -/
def TileMode.cols : TileMode → Nat
  | .independent => 32 | .m1x4 => 128 | .m2x2 => 64 | .m4x1 => 32

/-- First row and column of the part that a sub-array holds. -/
def TileMode.origin (m : TileMode) (s : Fin 4) : Nat × Nat :=
  match m with
  | .independent => (0, 0)
  | .m1x4 => (0, 32 * s.val)
  | .m2x2 => (32 * (s.val / 2), 32 * (s.val % 2))
  | .m4x1 => (32 * s.val, 0)

/-- The mode is fused. -/
def TileMode.fused : TileMode → Bool
  | .independent => false
  | _ => true

/-- Sub-arrays that an accumulator's output tile lies in (R267). -/
def tileSubs (m : TileMode) (acc : Nat) : List (Fin 4) := if m.fused then [0, 1, 2, 3] else [finOf 4 (acc / 8)]

/-- Index of an accumulator within its sub-array. -/
def accIndex (acc : Nat) : Fin 8 := finOf 8 acc

/-- Cell (i, j) of an accumulator (R264). -/
def accCell (a : BitVec 32768) (i j : Nat) : Nat := (a.extractLsb' (32 * (32 * i + j)) 32).toNat

/-- An accumulator from its cells. -/
def accOf (f : Nat → Nat → Nat) : BitVec 32768 :=
  BitVec.ofNat 32768 ((List.range 1024).foldr (fun n v => f (n / 32) (n % 32) % 2 ^ 32 + 2 ^ 32 * v) 0)

/-- Cell (i, j) of an output tile. -/
def Cluster.tileCell (x : Cluster) (m : TileMode) (acc : Nat) (i j : Nat) : Nat :=
  let s : Fin 4 := match m with
    | .independent => finOf 4 (acc / 8)
    | .m1x4 => finOf 4 (j / 32)
    | .m2x2 => finOf 4 (i / 32 * 2 + j / 32)
    | .m4x1 => finOf 4 (i / 32)
  accCell ((x.tile.get s).acc.get (accIndex acc)) (i % 32) (j % 32)

/-- An output tile with every cell replaced. -/
def Cluster.setTile (x : Cluster) (m : TileMode) (acc : Nat) (f : Nat → Nat → Nat) : Cluster :=
  (tileSubs m acc).foldl (fun x s =>
    let (r, c) := m.origin s
    let u := x.tile.get s
    let a := accOf fun i j => f (r + i) (c + j)
    { x with tile := x.tile.set s { u with acc := u.acc.set (accIndex acc) a } }) x

/-! ## Scales (R164, R166, R271) -/

/-- The scale of a line of an operand at an index along K. -/
structure LineScale where
  /-- The scale. -/
  s : Num := .fin false 1 0
  /-- The zero point. -/
  z : Int := 0

/-- The scale that applies to line `i` (a row of A, a column of B) at K index `k` (R164, R165, R271). -/
def lineScale (mem : Memory) (t : TileType) (ptr g kAll i k : Nat) : LineScale :=
  if TileType.grouped t then
    let a := ptr + 4 * (i * (kAll / g) + k / g)
    { s := fmtValue .f16 (ofLe (mem.read a 2)), z := toSigned 8 (mem.read1 (a + 2)).toNat }
  else if TileType.isNarrow t && ptr != 0 then
    let e := (mem.read1 (ptr + i * ceilDiv kAll 256 + k / 256)).toNat
    { s := if e = 255 then .nan else .fin false 1 ((e : Int) - 127) }
  else {}

/-- A zero value without a sign. -/
def Num.unsigned0 : Num → Num
  | .fin p m e => if m = 0 then .fin false 0 0 else .fin p m e
  | v => v

/-- A value truncated toward zero to a multiple of `2^u`. -/
def Num.truncAt (v : Num) (u : Int) : Num :=
  match v with
  | .fin p m e => .fin p (roundMag .rtz m e u 0) u
  | v => v

/-- Exponent of a nonzero finite value. -/
def Num.expo : Num → Option Int
  | .fin _ m e => if m = 0 then none else some (log2Mag m e)
  | _ => none

/-- An integer as a value. -/
def Num.ofInt (v : Int) : Num := .fin (v < 0) v.natAbs 0

/-- The group sum S of a K-group (R175 to R177): the codes of the A row and the B column, and their scales. -/
def groupSum (ta tb : TileType) (sa sb : LineScale) (l : List (Nat × Nat)) : Num :=
  if TileType.grouped ta || TileType.grouped tb then
    let wa := TileType.width ta
    let wb := TileType.width tb
    let sum := l.foldl (fun (n : Int) p => n + (toSigned wa p.1 - sa.z) * (toSigned wb p.2 - sb.z)) 0
    match sa.s, sb.s with
    | .fin p m e, .fin q n f => (Num.mul (Num.mul (.fin p m e) (.fin q n f)) (Num.ofInt sum)).unsigned0
    | _, _ => .nan
  else
    let va := fun c => fmtValue (TileType.elem ta) c
    let vb := fun c => fmtValue (TileType.elem tb) c
    if TileType.isWide ta || TileType.isWide tb then
      let ps := l.map fun p => Num.mul ((va p.1).mul sa.s) ((vb p.2).mul sb.s)
      if ps.any Num.special then ps.foldl Num.add (.fin false 0 0)
      else
        match (ps.filterMap Num.expo) with
        | [] => .fin false 0 0
        | e :: es =>
          let emax := es.foldl max e
          ((ps.map fun p => p.truncAt (emax - 48)).foldl Num.add (.fin false 0 0)).unsigned0
    else
      let sum := (l.map fun p => Num.mul (va p.1) (vb p.2)).foldl Num.add (.fin false 0 0)
      (Num.mul (Num.mul sum.unsigned0 sa.s) sb.s).unsigned0

/-- One accumulator addition (R178). -/
def accAdd (acc : Nat) (s : Num) : Nat := binary32.ofNum .rne 0 ((binary32.value acc).add s)

/-! ## A step of a product -/

/-- What a step of a product multiplies. -/
structure StepOps where
  ta : TileType := .f32
  tb : TileType := .f32
  kt : Nat := 16
  kAll : Nat := 16
  /-- K index of the step's first element. -/
  k0 : Nat := 0
  g : Nat := 32
  pa : Nat := 0
  pb : Nat := 0

/-- The step's groups for a cell, in ascending K, added to the accumulator (R178, R281). `a` gives the codes of
A by row and K within the step, `b` those of B by K and column. -/
def StepOps.cell (o : StepOps) (mem : Memory) (a b : Nat → Nat → Nat) (i j acc : Nat) : Nat :=
  let d := depthPair o.ta o.tb o.g
  (List.range (o.kt / d)).foldl (fun acc q =>
    let l := (List.range d).map fun t => (a i (q * d + t), b (q * d + t) j)
    let sa := lineScale mem o.ta o.pa o.g o.kAll i (o.k0 + q * d)
    let sb := lineScale mem o.tb o.pb o.g o.kAll j (o.k0 + q * d)
    accAdd acc (groupSum o.ta o.tb sa sb l)) acc

/-- Code number `n` of packed elements (R43, R269). -/
def codeAt (b : Array Byte) (w n : Nat) : Nat :=
  let bit := n * w
  let v := ofLe ((List.range 5).map fun i => b.getD (bit / 8 + i) 0)
  v / 2 ^ (bit % 8) % 2 ^ w

/-! ## Claims (R264 to R267) -/

/-- The tile unit of the issuing thread's cluster. -/
def State.myUnit (s : State) : Cluster := s.clusters.get (clusterOf s.issuer.1)

/-- The sub-arrays that the issuing thread claims. -/
def State.myClaim (s : State) : List (Fin 4) :=
  (List.finRange 4).filter fun i => (s.myUnit.tile.get i).claim == some s.issuer

/-- Claim a sub-array for a thread of a context: its accumulators are zeroed when the last claimant was of
another context (R264). -/
def SubArray.take (u : SubArray) (who : CoreId × Slot) (ctx : Ctx) (mode : TileMode) (ksteps : Nat) : SubArray :=
  { u with claim := some who, lastCtx := some ctx, mode := mode, ksteps := ksteps
           acc := if u.lastCtx = some ctx then u.acc else .replicate 8 0 }

/-- Park until no sub-array of a list is held by another thread and no thread has parked for one before (R265). -/
def awaitSubs (l : List (Fin 4)) : M Unit := do
  let s ← get
  let m := subMask l
  let free := l.all fun i =>
    (s.myUnit.tile.get i).claim.isNone || (s.myUnit.tile.get i).claim == some s.issuer
  let first := s.firstOfCluster s.issuer.1 s.issuer.2 fun b => match b with
    | .tileHeld n => n &&& m != 0
    | _ => false
  if free && first then pure () else stopOrdered (.tileHeld m) true

/-- Claim sub-arrays for the issuing thread. -/
def claimSubs (l : List (Fin 4)) (mode : TileMode) (ksteps : Nat) : M Unit :=
  modify fun s => s.updCluster (clusterOf s.issuer.1) fun x =>
    let take : Vector SubArray 4 → Fin 4 → Vector SubArray 4 := fun v i =>
      v.set i.val ((v.get i).take s.issuer s.me.hctx mode ksteps) i.isLt
    { x with tile := l.foldl take x.tile }

/-- The thread's mode, and whether an accumulator number lies in its claim (R264, R267). -/
def State.accMode (s : State) (acc : Nat) : Option TileMode :=
  match s.myClaim with
  | [] => none
  | i :: rest =>
    let m := (s.myUnit.tile.get i).mode
    if m.fused then if acc < 8 then some m else none
    else if (i :: rest).contains (finOf 4 (acc / 8)) then some m else none

/-- The mode under which a tile instruction names its accumulators, with the steps along K; a thread without a
claim would claim the destination's sub-array (R266). All accumulators must lie in the claim. -/
def tileMode (acc : Nat) (others : List Nat) : M (TileMode × Nat) := do
  let s ← get
  match s.myClaim with
  | [] =>
    require (others.all fun o => o / 8 == acc / 8)
    pure (.independent, 1)
  | i :: _ =>
    match s.accMode acc with
    | none => illegalOperand
    | some m =>
      require (others.all fun o => (s.accMode o).isSome)
      pure (m, (s.myUnit.tile.get i).ksteps)

/-- Wait until an operation on an accumulator may take its place: the thread's local stores performed (R279), the crossing
to the tile unit open (R365; assumption 83), the sub-arrays free for the implicit claim, and room in every queue (R266, R275). Nothing has
changed when the thread stops here. -/
def awaitPlace (mode : TileMode) (acc : Nat) : M Unit := do
  awaitLocalStores
  let s ← get
  if s.stalled s.issuer.1 then waitOn .crossing
  let subs := tileSubs mode acc
  if s.myClaim.isEmpty then awaitSubs subs
  let m := subMask subs
  let room := subs.all fun i => (s.myUnit.tile.get i).queue.length < 8
  let first := s.firstOfCluster s.issuer.1 s.issuer.2 fun b => match b with
    | .tileFull n => n &&& m != 0
    | _ => false
  if room && first then pure () else stopOrdered (.tileFull m) false

/-- Place an operation in the queue of every sub-array of its destination, making the implicit claim first; the
thread waits while a queue is full (R266, R275). -/
def queueOp (op : TileOp) : M Unit := do
  awaitPlace op.mode op.acc.val
  let s ← get
  let subs := tileSubs op.mode op.acc.val
  if s.myClaim.isEmpty then claimSubs subs .independent 1
  let s ← get
  let (id, s) := s.fresh
  let push : Vector SubArray 4 → Fin 4 → Vector SubArray 4 := fun v i =>
    v.set i.val { v.get i with queue := (v.get i).queue ++ [{ op with id := id }] } i.isLt
  set (s.updCluster (clusterOf s.issuer.1) fun x => { x with tile := subs.foldl push x.tile })

/-- The operation writes the accumulator that it names: all but a store to memory (R284). -/
def TileOp.writes (op : TileOp) : Bool :=
  match op.kind with
  | .store _ _ _ _ => false
  | _ => true

/-- Operations of other sub-arrays that write an accumulator and are not complete (R275). -/
def State.writersOf (s : State) (mode : TileMode) (dst src : Nat) : List Nat :=
  if mode.fused || src / 8 == dst / 8 then []
  else ((s.myUnit.tile.get (finOf 4 (src / 8))).queue.filter fun o => o.acc.val == src && o.writes).map TileOp.id

/-- The thread's conversion code for the tile unit (R270). -/
def Thread.tileConv (t : Thread) : Conv := (convOf (wbits t.fmta 6 4)).getD .rne

/-- The group size of GRPSZ (R270). -/
def Thread.groupSize (t : Thread) : Nat := 32 * 2 ^ wbits t.grpsz 1 0

/-- The types that a product's form names (R281, R282). -/
def productTypes (ty : TileType) : M (TileType × TileType) := do
  let s ← get
  if ty = .fmt then
    match tileTypeOf (wbits s.me.fmta 3 0), tileTypeOf (wbits s.me.fmtb 3 0) with
    | some a, some b => if a = .fmt ∨ b = .fmt then illegalOperand else pure (a, b)
    | _, _ => illegalOperand
  else pure (ty, ty)

/-- Check a local operand's range (R269, R281). -/
def checkOperand (glob : Bool) (x : Word) (n : Nat) : M Unit := if glob then pure () else checkLocal x.toNat n false

/-- Check the base of a global operand, after every local byte (R106, R281). -/
def checkBase (glob : Bool) (x : Word) : M Unit := if glob && !vaValid x.toNat then trapWith .translation x else pure ()

/-- A grouped type needs its records (R271). -/
def requireScales (t : TileType) (ptr : Nat) : M Unit := require (!(TileType.grouped t && ptr == 0))

/-- Check the scale bytes of an operand with `lines` rows or columns (R271). -/
def checkScales (t : TileType) (ptr g kAll lines : Nat) : M Unit :=
  if TileType.grouped t then checkLocal ptr (4 * lines * (kAll / g)) false
  else if TileType.isNarrow t && ptr != 0 then checkLocal ptr (lines * ceilDiv kAll 256) false
  else pure ()

/-- A new operation with the thread's scales, group size and conversion (R270). -/
def Thread.tileOp (t : Thread) (kind : TileOpKind) (acc : Reg) (mode : TileMode) (ksteps : Nat) (deps : List Nat) :
    TileOp :=
  { kind := kind, acc := acc.toFin, mode := mode, ksteps := ksteps, scla := wbits t.scla 31 0
    sclb := wbits t.sclb 31 0, grp := t.groupSize, cvt := t.tileConv, deps := deps }

/-- The draws of a stochastic conversion of `n` cells, taken at issue (R274, R284). -/
def tileDraws (ty : TileType) (n : Nat) : M (List (BitVec 16)) := do
  let s ← get
  if isStochastic s.me.tileConv && ty != .f32 then
    let (l, g) := drawAll s.me.gens n fun _ => true
    modify fun s => s.updMe fun t => { t with gens := g }
    pure (l.map fun v => BitVec.ofNat 16 v)
  else pure []

/-! ## The instructions -/

/-- `tcfg` (R265). -/
def execTcfg (a : Reg) (s : State) : Result :=
  runM (do
    let x ← read1 a none
    let (c, k) := s.issuer
    let mode : Option TileMode := match wbits x 2 0 with
      | 0 => some .independent | 1 => some .m1x4 | 2 => some .m2x2 | 3 => some .m4x1 | _ => none
    let count := wbits x 7 6
    let first := wbits x 5 4
    require (wbits x 63 16 = 0 && wbits x 3 3 = 0 && (mode.isSome || wbits x 2 0 = 7) && first + count + 1 ≤ 4
      && (((mode.map TileMode.fused).getD false) → (first = 0 ∧ count = 0)))
    require (wbits x 2 0 ≠ 7 || wbits x 15 3 = 0)
    if !s.tileQuiet c k none then waitOn (.tileOps none)
    else
      match mode with
      | none => modify fun s => s.updCluster (clusterOf c) fun u => u.unclaim c k
      | some m =>
        let subs := if m.fused then [0, 1, 2, 3]
          else (List.finRange 4).filter fun i => first ≤ i.val && i.val ≤ first + count
        awaitSubs subs
        modify fun s => s.updCluster (clusterOf c) fun u => u.unclaim c k
        claimSubs subs m (wbits x 15 8 + 1)
      finish [a]) s

/-- `tzero` (R280). -/
def execTzero (acc : Reg) (s : State) : Result :=
  runM (do
    let (m, _) ← tileMode acc.toNat []
    queueOp (s.me.tileOp .zero acc m 1 [])
    retire) s

/-- `twait` (R275, R280). -/
def execTwait (acc : Reg) (s : State) : Result :=
  runM (do
    require (s.accMode acc.toNat).isSome
    if s.tileQuiet s.issuer.1 s.issuer.2 (some acc.toFin) then retire else parkOn (.tileOps (some acc.toFin))) s

/-- The checks of a `tmma` that its word and the thread's registers decide (R74, R264, R271, R272, R281). -/
def tmmaForm (ty : TileType) (acc : Reg) : M (TileType × TileType × TileMode × Nat) := do
  let s ← get
  let (ta, tb) ← productTypes ty
  require (tilePair ta tb)
  let (m, ks) ← tileMode acc.toNat []
  requireScales ta (wbits s.me.scla 31 0)
  requireScales tb (wbits s.me.sclb 31 0)
  pure (ta, tb, m, ks)

/-- The checks of a `tmma` and its operation: local operands and scales, then the bases of global operands (R281). -/
def tmmaOp (ty : TileType) (ga gb : Bool) (acc : Reg) (x y : Word) : M TileOp := do
  let s ← get
  let (ta, tb, m, ks) ← tmmaForm ty acc
  let g := s.me.groupSize
  let kAll := ks * ktPair ta tb g
  checkOperand ga x (kAll * m.rows * TileType.width ta / 8)
  checkOperand gb y (kAll * m.cols * TileType.width tb / 8)
  checkScales ta (wbits s.me.scla 31 0) g kAll m.rows
  checkScales tb (wbits s.me.sclb 31 0) g kAll m.cols
  checkBase ga x
  checkBase gb y
  pure (s.me.tileOp (.mma ta tb ga gb x.toNat y.toNat) acc m ks [])

/-- Steps and elements of K of a chained product: the source has `cols` columns (R274). -/
def chainKt (ta tb : TileType) (g cols : Nat) : Nat := min cols (ktPair ta tb g)

/-- The checks of a `tmmac` that its word and the thread's registers decide (R71, R74, R274, R282). -/
def tmmacForm (ty : TileType) (acc src : Reg) : M (TileType × TileType × TileMode) := do
  let s ← get
  let (ta, tb) ← productTypes ty
  require (acc != src && tilePair ta tb && !TileType.grouped ta)
  let (m, _) ← tileMode acc.toNat [src.toNat]
  require (!TileType.grouped tb || m.cols % s.me.groupSize = 0)
  requireScales tb (wbits s.me.sclb 31 0)
  pure (ta, tb, m)

/-- The checks of a `tmmac` and its operation; a stochastic conversion draws here (R274, R282). -/
def tmmacOp (ty : TileType) (gb : Bool) (acc src : Reg) (y : Word) : M TileOp := do
  let s ← get
  let (ta, tb, m) ← tmmacForm ty acc src
  let g := s.me.groupSize
  let kAll := m.cols
  checkOperand gb y (kAll * m.cols * TileType.width tb / 8)
  checkScales tb (wbits s.me.sclb 31 0) g kAll m.cols
  checkBase gb y
  awaitPlace m acc.toNat
  let draws ← tileDraws ta (m.rows * m.cols)
  let deps := s.writersOf m acc.toNat src.toNat
  pure (s.me.tileOp (.mmac ta tb gb src.toFin y.toNat draws) acc m (kAll / chainKt ta tb g kAll) deps)

/-- `tmma` (R281). -/
def execTmma (ty : TileType) (ga gb : Bool) (acc a b : Reg) (s : State) : Result :=
  runM (do
    let _ ← tmmaForm ty acc
    let (x, y) ← read2 a b none
    let op ← tmmaOp ty ga gb acc x y
    queueOp op
    finish [a, b]) s

/-- `tmmac` (R282). -/
def execTmmac (ty : TileType) (gb : Bool) (acc src b : Reg) (s : State) : Result :=
  runM (do
    let _ ← tmmacForm ty acc src
    let y ← read1 b none
    let op ← tmmacOp ty gb acc src y
    queueOp op
    finish [b]) s

/-- The type of `tlda` and `tsta` (R283). -/
def moveType (ty : TileType) : M TileType := do
  let s ← get
  if ty = .fmt then
    match tileTypeOf (wbits s.me.fmtc 3 0) with
    | some t => if t = .fmt || TileType.grouped t then illegalOperand else pure t
    | none => illegalOperand
  else pure ty

/-- Addresses of the rows of a tile in local memory (R284). -/
def rowAddrs (a stride rows : Nat) : List Nat := (List.range rows).map fun i => (a + i * stride) % 2 ^ 64

/-- A row of a tile's bytes lies in the allotment, or in the vaults (R284). -/
def Thread.rowOk (t : Thread) (k : Slot) (n a : Nat) : Bool :=
  (a + n ≤ 0x80000 && t.allots k a n) || (0x40000000 ≤ a && a + n ≤ 0x90000000)

/-- The checks of `tlda` and `tsta` (R284): type, mode, address and stride. -/
def moveForm (ty : TileType) (acc a b : Reg) (wr : Bool) : M (TileType × TileMode × Nat × Nat) := do
  let t ← moveType ty
  let (m, _) ← tileMode acc.toNat []
  let (x, y) ← read2 a b none
  let n := m.cols * TileType.width t / 8
  let stride := if b = 0 then n else y.toNat
  if x.toNat % 4 ≠ 0 ∨ stride % 4 ≠ 0 then trapWith .misaligned x 0 wr
  else
    let s ← get
    match (rowAddrs x.toNat stride m.rows).find? fun r => !s.me.rowOk s.issuer.2 n r || (wr && s.intoLanding r n) with
    | some r => trapWith .localAddress (BitVec.ofNat 64 r) 0 wr
    | none => pure (t, m, x.toNat, stride)

/-- `tlda` (R284). -/
def execTlda (ty : TileType) (acc a b : Reg) (s : State) : Result :=
  runM (do
    let (t, m, x, st) ← moveForm ty acc a b false
    queueOp (s.me.tileOp (.load t x st) acc m 1 [])
    finish [a, b]) s

/-- `tsta`: a stochastic conversion draws at issue (R284). -/
def execTsta (ty : TileType) (acc a b : Reg) (s : State) : Result :=
  runM (do
    let (t, m, x, st) ← moveForm ty acc a b true
    awaitPlace m acc.toNat
    let draws ← tileDraws t (m.rows * m.cols)
    queueOp (s.me.tileOp (.store t x st draws) acc m 1 [])
    finish [a, b]) s

/-- `tmov` (R284). -/
def execTmov (acc src : Reg) (s : State) : Result :=
  runM (do
    require (acc != src)
    let (m, _) ← tileMode acc.toNat [src.toNat]
    queueOp (s.me.tileOp (.move src.toFin) acc m 1 (s.writersOf m acc.toNat src.toNat))
    retire) s

/-! ## The sequencer (R268, R275, R278, R419) -/

/-- What a step holds of a run of global bytes that lies within one line: the bytes of a look-ahead that began there
(R273, R311). -/
def TileOp.held (op : TileOp) (a n : Nat) : Option (List Byte) :=
  (op.ahead.find? fun h => h.step == op.step && h.glob && h.addr == a && (h.bytes.map List.length) == some n).bind TileHeld.bytes

/-- A local byte that a look-ahead holds for the present step (R276). -/
def TileOp.heldByte (op : TileOp) (a : Nat) : Option Byte :=
  op.ahead.findSome? fun h =>
    if h.step == op.step && !h.glob && h.addr ≤ a then (h.bytes.getD [])[a - h.addr]? else none

/-- The scratchpad as the present step reads it: bytes that were read ahead stand at their addresses (R276). -/
def State.tileMem (s : State) (c : CoreId) (op : TileOp) : Memory :=
  op.ahead.foldl (fun m h => match h.bytes with
    | some b => if h.step == op.step && !h.glob then m.write h.addr b else m
    | none => m) (s.core c).spad

/-- Read a step's operand: local bytes at once, global ones at their home slices, but for those that a look-ahead
holds (R273, R276, R311). -/
def State.stepBytes (s : State) (c : CoreId) (ctx : Ctx) (op : TileOp) (glob : Bool) (a n : Nat) : Got :=
  if glob then
    (lineRuns (a % 2 ^ 64) (n + 1) n).foldl (fun g r =>
      match g with
      | .ok b s =>
        match op.held (r.1 % 2 ^ 64) r.2 with
        | some b' => .ok (b ++ b') s
        | none =>
          match s.engineReadLine c ctx (r.1 % 2 ^ 64) r.2 with
          | .ok b' s' => .ok (b ++ b') s'
          | g' => g'
      | g => g) (.ok [] s)
  else .ok ((s.tileMem c op).read a n) s

/-- A cell converted by the down-converter: the code of the element type (R274, R284). -/
def downCode (t : TileType) (cvt : Conv) (draws : List (BitVec 16)) (n cell : Nat) : Nat :=
  if t = .f32 then cell
  else convert (TileType.elem t) cvt (draws.getD n 0).toNat (binary32.value cell)

/-- The state after step `k` of a product. -/
def State.applyStep (s : State) (cl : TileId) (c : CoreId) (op : TileOp) (o : StepOps) (a b : Nat → Nat → Nat) : State :=
  let mem := s.tileMem c op
  s.updCluster cl fun x =>
    let acc := op.acc.val
    x.setTile op.mode acc fun i j => o.cell mem a b i j (x.tileCell op.mode acc i j)

/-- How a step of the head operation ends. -/
inductive StepEnd
  | done (s : State)
  | wait
  | bad (t : TrapInfo)

/-- Words of a row range that a vault's access table refuses (R419). -/
def State.refusedWords (s : State) (ctx : Ctx) (wr : Bool) (a n : Nat) : List Nat :=
  ((List.range (n / 4)).map fun i => a + 4 * i).filter fun w =>
    0x40000000 ≤ w && !s.vaultAllows .engine ctx (w - 0x40000000) 4 (!wr) wr

/-- A byte of the local space as the present step of an operation reads it, the scratchpad given; a vault byte that was
read ahead is the byte held (R276). -/
def State.tileByte (s : State) (op : TileOp) (mem : Memory) (a : Nat) : Byte :=
  if 0x40000000 ≤ a then (op.heldByte a).getD (s.vault.read1 (a - 0x40000000)) else mem.read1 a

/-- Bytes written to the local space by the tile unit. -/
def State.tilePut (s : State) (c : CoreId) (a : Nat) (b : List Byte) : State :=
  if 0x40000000 ≤ a then { s with vault := s.vault.write (a - 0x40000000) b } else s.updCore c fun x => x.writeSpad a b

/-- The rows of a move with their refused words. -/
def State.moveRefused (s : State) (ctx : Ctx) (mode : TileMode) (t : TileType) (a stride : Nat) (wr : Bool) : List Nat :=
  (rowAddrs a stride mode.rows).flatMap fun r => s.refusedWords ctx wr r (mode.cols * TileType.width t / 8)

/-- The bytes of row `i` of a stored tile, packed (R43, R284). -/
def storeRow (x : Cluster) (op : TileOp) (t : TileType) (draws : List (BitVec 16)) (i : Nat) : List Byte :=
  let w := TileType.width t
  let cols := op.mode.cols
  let v := (List.range cols).foldr (fun j v =>
    downCode t op.cvt draws (i * cols + j) (x.tileCell op.mode op.acc.val i j) + 2 ^ w * v) 0
  leBytes (cols * w / 8) v

/-- A stored tile's words, those refused left out (R284, R419). -/
def State.storeTile (s : State) (c : CoreId) (ctx : Ctx) (cl : TileId) (op : TileOp) (t : TileType) (a stride : Nat)
    (draws : List (BitVec 16)) : State :=
  let x := s.clusters.get cl
  let bad := s.moveRefused ctx op.mode t a stride true
  (List.range op.mode.rows).foldl (fun s i =>
    let r := (a + i * stride) % 2 ^ 64
    let b := storeRow x op t draws i
    (List.range (b.length / 4)).foldl (fun s n =>
      if bad.contains (r + 4 * n) then s else s.tilePut c (r + 4 * n) ((b.drop (4 * n)).take 4)) s) s

/-- Perform step `op.step` of an operation (R268, R274, R281 to R284). A source is read as it stands at the step: only earlier
writers are waited for (R58, R275), and a later operation of the source's own sub-array may write it before or between the
reads, DESIGN CHOICE (assumption 94). -/
def State.tileDo (s : State) (cl : TileId) (c : CoreId) (ctx : Ctx) (op : TileOp) : StepEnd :=
  let x := s.clusters.get cl
  let acc := op.acc.val
  let m := op.mode
  match op.kind with
  | .zero => .done (s.updCluster cl fun x => x.setTile m acc fun _ _ => 0)
  | .move src => .done (s.updCluster cl fun y => y.setTile m acc fun i j => x.tileCell m src.val i j)
  | .load t a stride =>
    if !(s.moveRefused ctx m t a stride false).isEmpty then .wait
    else
      let w := TileType.width t
      let n := m.cols * w / 8
      let mem := s.tileMem c op
      let rows := (rowAddrs a stride m.rows).map fun r => ((List.range n).map fun i => s.tileByte op mem (r + i)).toArray
      let cell := fun i j => binary32.ofNum .rne 0 (fmtValue (TileType.elem t) (codeAt (rows.getD i #[]) w j))
      .done (s.updCluster cl fun x => x.setTile m acc cell)
  | .store t a stride draws =>
    if !(s.moveRefused ctx m t a stride true).isEmpty then .wait else .done (s.storeTile c ctx cl op t a stride draws)
  | .mma ta tb ga gb a b =>
    let kt := ktPair ta tb op.grp
    let na := m.rows * kt * TileType.width ta / 8
    let nb := kt * m.cols * TileType.width tb / 8
    match s.stepBytes c ctx op ga (a + op.step * na) na with
    | .wait => .wait
    | .bad t => .bad t
    | .ok ba s =>
      match s.stepBytes c ctx op gb (b + op.step * nb) nb with
      | .wait => .wait
      | .bad t => .bad t
      | .ok bb s =>
        let o : StepOps := { ta := ta, tb := tb, kt := kt, kAll := op.ksteps * kt, k0 := op.step * kt, g := op.grp
                             pa := op.scla, pb := op.sclb }
        let va := ba.toArray
        let vb := bb.toArray
        .done (s.applyStep cl c op o (fun i k => codeAt va (TileType.width ta) (i * kt + k))
          fun k j => codeAt vb (TileType.width tb) (k * m.cols + j))
  | .mmac ta tb gb src b draws =>
    let kt := chainKt ta tb op.grp m.cols
    let nb := kt * m.cols * TileType.width tb / 8
    match s.stepBytes c ctx op gb (b + op.step * nb) nb with
    | .wait => .wait
    | .bad t => .bad t
    | .ok bb s =>
      let o : StepOps := { ta := ta, tb := tb, kt := kt, kAll := m.cols, k0 := op.step * kt, g := op.grp
                           pa := 0, pb := op.sclb }
      let vb := bb.toArray
      .done (s.applyStep cl c op o
        (fun i k => downCode ta op.cvt draws (i * m.cols + (op.step * kt + k)) (x.tileCell m src.val i (op.step * kt + k)))
        fun k j => codeAt vb (TileType.width tb) (k * m.cols + j))

/-- Steps of an operation. -/
def TileOp.steps (o : TileOp) : Nat :=
  match o.kind with
  | .mma _ _ _ _ _ _ => o.ksteps
  | .mmac _ _ _ _ _ _ => o.ksteps
  | _ => 1

/-- The operation at the head of a sub-array's queue, with its claimant. -/
def State.tileHead (s : State) (cl : TileId) (sub : Fin 4) : Option (TileOp × CoreId × Slot) :=
  let u := (s.clusters.get cl).tile.get sub
  match u.queue, u.claim with
  | op :: _, some (c, k) => some (op, c, k)
  | _, _ => none

/-- Scale bytes of an operand that a step of `kt` elements of K from `k0` on uses (R271): address and length. -/
def scaleRuns (t : TileType) (ptr g kAll lines k0 kt : Nat) : List (Nat × Nat) :=
  (List.range lines).flatMap fun i =>
    if TileType.grouped t then [(ptr + 4 * (i * (kAll / g) + k0 / g), 4 * ceilDiv kt g)]
    else if TileType.isNarrow t && ptr != 0 then [(ptr + i * ceilDiv kAll 256 + k0 / 256, 1)]
    else []

/-- What the present step of an operation reads: local runs, and global runs within one line each. -/
def TileOp.needs (op : TileOp) : List (Nat × Nat) × List (Nat × Nat) :=
  let (m, t) := (op.mode, op.step)
  let run := fun (glob : Bool) (a n : Nat) =>
    if glob then ([], lineRuns ((a + t * n) % 2 ^ 64) (n + 1) n) else ([(a + t * n, n)], [])
  match op.kind with
  | .mma ta tb ga gb a b =>
    let kt := ktPair ta tb op.grp
    let x := run ga a (m.rows * kt * TileType.width ta / 8)
    let y := run gb b (kt * m.cols * TileType.width tb / 8)
    let scales := scaleRuns ta op.scla op.grp (op.ksteps * kt) m.rows (t * kt) kt
      ++ scaleRuns tb op.sclb op.grp (op.ksteps * kt) m.cols (t * kt) kt
    (x.1 ++ y.1 ++ scales, x.2 ++ y.2)
  | .mmac ta tb gb _ b _ =>
    let kt := chainKt ta tb op.grp m.cols
    let y := run gb b (kt * m.cols * TileType.width tb / 8)
    (y.1 ++ scaleRuns tb op.sclb op.grp m.cols m.cols (t * kt) kt, y.2)
  | .load ty a stride => ((rowAddrs a stride m.rows).map fun r => (r, m.cols * TileType.width ty / 8), [])
  | _ => ([], [])

/-- Every operand byte of the present step is held in the tile unit, and the step writes none to memory (R365). -/
def TileOp.present (op : TileOp) : Bool :=
  op.writes
    && (op.needs.1.all fun r => (List.range r.2).all fun i => (op.heldByte (r.1 + i)).isSome)
    && op.needs.2.all fun r => (op.held (r.1 % 2 ^ 64) r.2).isSome

/-- A stall stands between the tile unit and the cores' scratchpads, or a vault that a move names (R365). -/
def State.opStalled (s : State) (c : CoreId) (op : TileOp) : Bool :=
  let rows := match op.kind with
    | .load _ a stride => rowAddrs a stride op.mode.rows
    | .store _ a stride _ => rowAddrs a stride op.mode.rows
    | _ => []
  s.stalled c || rows.any fun r => 0x40000000 ≤ r && s.stalledWay c (dieOfTile (vaultTile (r - 0x40000000)))

/-- The operation may begin its next step (R275, R277, R287); in a stall of the crossings between cores and tile unit only
with every operand byte present (R365). -/
def State.tileDue (s : State) (cl : TileId) (op : TileOp) (c : CoreId) : Bool :=
  let us := (s.clusters.get cl).tile.toList
  op.fault.isNone && !(s.core c).halting && (!s.opStalled c op || op.present)
    && (match op.after.bind fun id => (s.core c).cmd id with
        | some m => m.kind.pieces ≤ m.done.length
        | none => true)
    && !(op.deps.any fun d => us.any fun u => u.queue.any fun o => o.id == d)

/-- An operation changed in every queue that holds it. -/
def Cluster.updOp (x : Cluster) (id : Nat) (f : TileOp → TileOp) : Cluster :=
  { x with tile := x.tile.map fun u => { u with queue := mapIf (fun o => o.id == id) f u.queue } }

/-- An operation has taken one step; after its last it leaves its queues. -/
def Cluster.stepped (x : Cluster) (op : TileOp) : Cluster :=
  if op.steps ≤ op.step + 1 then
    { x with tile := x.tile.map fun u => { u with queue := u.queue.filter fun o => o.id != op.id } }
  else x.updOp op.id fun o => { o with step := o.step + 1, ahead := o.ahead.filter fun h => op.step < h.step }

/-- `TILE_STEP`: one step of the operation at the head of a sub-array's queue; in a fused mode of all four
(R268, R275). -/
def execTileStep (cluster : Fin 320) (sub : Fin 4) (s : State) : Result :=
  event (fun s => do
    let (op, c, k) ← s.tileHead cluster sub
    if !s.tileDue cluster op c then none
    else match s.tileDo cluster c (s.thread c k).hctx op with
      | .done s' => pure (s'.updCluster cluster fun x => x.stepped op)
      | _ => none) s

/-- Global bytes that a step of an operation reads, by runs within one line. -/
def TileOp.globalRuns (op : TileOp) (step : Nat) : List (Nat × Nat) := ({ op with step := step } : TileOp).needs.2

/-- The sequencer takes bytes of an operand ahead of their step. Global bytes of at most four later steps, by a
speculative access whose reply or fault is held (R273, R310); local bytes of a queued operation at any time before
their step, so that the step reads the old value of a byte that is stored meanwhile, DEDUCED (assumption 62; R276). An
operation that waits for its copy reads none (R287). -/
def State.tileAhead (s : State) (cl : TileId) (sub : Fin 4) (place step a n : Nat) (glob : Bool) : State :=
  let u := (s.clusters.get cl).tile.get sub
  match u.queue[place]?, u.claim with
  | some op, some (c, k) =>
    let hold := fun (s : State) (b : Option (List Byte)) => s.updCluster cl fun x => x.updOp op.id fun o =>
      { o with ahead := o.ahead ++ [{ step := step, glob := glob, addr := a, bytes := b }] }
    let gap := ((u.queue.take place).map fun o => o.steps - o.step).sum + step - op.step
    let ready := match op.after.bind fun id => (s.core c).cmd id with
      | some m => decide (m.kind.pieces ≤ m.done.length)
      | none => true
    if (s.core c).halting || !ready || step < op.step || op.steps ≤ step || s.stalled c then s
    else if glob then
      if 4 < gap || !(op.globalRuns step).any (fun r => r.1 % 2 ^ 64 == a && r.2 == n)
          || op.ahead.any (fun h => h.step == step && h.glob && h.addr == a) then s
      else
        let (r, s') := s.speculate c (s.thread c k).hctx a n
        match r with
        | none => s'
        | some b => hold s' b
    else if (a + n ≤ 0x80000 || (0x40000000 ≤ a && a + n ≤ 0x90000000))
        && !(op.ahead.any fun h =>
          h.step == step && !h.glob && a < h.addr + (h.bytes.getD []).length && h.addr < a + n)
      then hold s (some (if 0x40000000 ≤ a then s.vault.read (a - 0x40000000) n else (s.core c).spad.read a n))
    else s
  | _, _ => s

/-- A tile unit's fault: sub-array and accumulator stand beside the cause's own DETAIL (R303). In a fused mode they are the
sub-array of the input step that failed and the accumulator as the instruction names it, DESIGN CHOICE (assumption 88). -/
def tileInfo (t : TrapInfo) (sub : Fin 4) (acc : Fin 32) : TrapInfo :=
  { t with detail := BitVec.ofNat 64 (sub.val * 2 ^ 62 + acc.val * 2 ^ 56 + t.detail.toNat % 2 ^ 52) }

/-- `TILE_STEP_FAULT`: the step's operand cannot be read; the record is posted and the sub-array stops with the
earlier steps applied (R278). -/
def execTileStepFault (cluster : Fin 320) (sub : Fin 4) (s : State) : Result :=
  event (fun s => do
    let (op, c, k) ← s.tileHead cluster sub
    if !s.tileDue cluster op c then none
    else match s.tileDo cluster c (s.thread c k).hctx op with
      | .bad t =>
        let i := tileInfo t sub op.acc
        let held := op.ahead.any fun h => h.step == op.step && h.bytes.isNone && h.addr == t.addr.toNat
        let s' ← s.postEngine c k .tile i (BitVec.ofNat 64 op.step) held
        pure (s'.updCluster cluster fun x => x.updOp op.id fun o => { o with fault := some (s.record c k i), posted := true })
      | _ => none) s

/-- `VAULT_REFUSAL`: once every access of a `tlda` or `tsta` is answered, a refused one posts the record; the
allowed writes are performed (R419). -/
def execVaultRefusal (cluster : Fin 320) (sub : Fin 4) (s : State) : Result :=
  event (fun s => do
    let (op, c, k) ← s.tileHead cluster sub
    let ctx := (s.thread c k).hctx
    let (t, a, stride, wr) ← match op.kind with
      | .load t a st => some (t, a, st, false)
      | .store t a st _ => some (t, a, st, true)
      | _ => none
    let bad := s.moveRefused ctx op.mode t a stride wr
    let low ← bad.min?
    if !s.tileDue cluster op c then none
    else
      let i := tileInfo { cause := .accessFault, addr := BitVec.ofNat 64 low, write := wr } sub op.acc
      let s1 := match op.kind with
        | .store t a st draws => s.storeTile c ctx cluster op t a st draws
        | _ => s
      let s' ← s1.postEngine c k .tile i 0 false
      pure (s'.updCluster cluster fun x => x.updOp op.id fun o => { o with fault := some (s.record c k i), posted := true })) s

end Sys2Proof.Machine
end

