-- ==== Sys2Proof/Machine/Copy.lean ====
section
/-! DEFINITION. The copy engine: `put`, `get`, `putm` and `getf`, the landing of their packets and the notify
word (R125 to R127, R279, R285 to R289). -/

namespace Sys2Proof.Machine

/-! ## Operands of engine forms (R279) -/

/-- Read the source registers of a form, in the order given; the order beyond rs1 and rs2 is the model's:
destination, then completion, DESIGN CHOICE (assumption 13). -/
def readAll (rs : List Reg) (d : Option Reg) : M (List Word) := do
  checkRegs rs d
  rs.zipIdx.mapM fun p => source p.1 ((rs.take p.2).count p.1)

/-- The completion register as a source. -/
def rcRegs (rc : Reg) : List Reg := if rc = 0 then [] else [rc]

/-- `.ntf` without a completion register is an illegal operand by the word's fields alone, before any operand is looked at
(R74, R279). -/
def ntfField (ntf : Bool) (rc : Reg) : M Unit := require (!(ntf && rc == 0))

/-- The completion of an engine command, checked at issue (R279). -/
def completionOf (ntf : Bool) (rc : Reg) (v : Word) : M Completion := do
  if rc = 0 then
    ntfField ntf rc
    pure .none
  else if ntf then
    if v.toNat % 128 ≠ 0 then trapWith .misaligned v 0 true
    else
      let m ← mapGlobal v.toNat false true false
      if m.ty = .normal then pure (.notify v.toNat) else trapWith .accessFault v m.leaf true
  else
    let p ← barrierAddr v true
    pure (.object p)

/-- A local range of a copy: within the allotment under `.own`, or wholly within one vault (R285). -/
def localRange (v : Word) (n : Nat) (wr : Bool) : M Nat := do
  let s ← get
  let a := v.toNat
  if (a + n ≤ 0x80000 && s.me.allots s.issuer.2 a n && !(wr && s.intoLanding a n)) || inOneVault a n then pure a
  else trapWith .localAddress v 0 wr

/-- The length of a copy: 1 byte to 4 MiB (R285). -/
def copyLength (v : Word) : M Nat := do
  require (v != 0 && v.toNat ≤ 0x400000)
  pure v.toNat

/-! ## Acceptance (R286) -/

/-- Addresses of the destination lines of a copy. -/
def destLines (dst len : Nat) : List Nat :=
  (List.range (linesOf dst len)).map fun i => (dst / 128 * 128 + 128 * i) % 2 ^ 64

/-- The signature bits of a destination line: none where its page does not translate yet; a page of another type
than normal has none. -/
def State.destSig (s : State) (ctx : Ctx) (va : Nat) : Option Sig :=
  if !vaValid va then none
  else match s.walk ctx va with
    | .fault _ _ _ => none
    | .leaf level e => some (if leafType e = some .normal then lineSig (leafPa level e va / 128) else 0)

/-- Write back and invalidate the sectors of the issuing core's L1D that overlap a global destination, and set
the bits of its lines in the thread's write signature; the pages that do not translate yet. -/
def flushDest (dst len : Nat) : M (List Nat) := do
  let s ← get
  let (c, k) := s.issuer
  let ctx := s.me.hctx
  let hit := fun (l i : Nat) => s.sectorInRange ctx dst len l i
  let fills := s.net.filterMap fun m => match m.body with
    | .fill l _ _ _ _ => if m.core == c && (List.range 4).any (hit l) then some l else none
    | _ => none
  let s1 := (s.here.l1d.map L1Line.line).foldl (fun s l => s.cleanL1 c (some k) false l (hit l)) s
  let drop : L1Line → L1Line := fun l =>
    { l with valid := (List.range 4).foldl (fun (v : BitVec 4) i => if hit l.line i then v &&& ~~~(1#4 <<< i) else v) l.valid }
  let s2 := (fills.foldl (fun s l => s.killFills c l) s1).updCore c fun x => { x with l1d := x.l1d.map drop }
  let vas := destLines dst len
  let sig := vas.foldl (fun g va => g ||| (s.destSig ctx va).getD 0) s.me.wsig
  set (s2.updThread c k fun t => { t with wsig := sig })
  pure ((vas.filter fun va => (s.destSig ctx va).isNone).map (· / 65536)).eraseDups

/-- A copy may enter its queue: the thread's local stores are performed, and an entry is free (R279, R286). -/
def awaitCopyQueue : M Unit := do
  awaitLocalStores
  let s ← get
  if s.here.copies < 32 then pure () else waitOn .copyQueue

/-- A command with an identity enters its engine (R279). -/
def accept (id : Nat) (kind : CmdKind) (comp : Completion) (late : List Nat) : M Unit :=
  modify fun s =>
    let m : Cmd := { id := id, slot := s.issuer.2, ctx := s.me.hctx, kind := kind, comp := comp, late := late
                     launch := s.me.launch }
    s.updHere fun x => { x with cmds := x.cmds ++ [m] }

/-- A fresh identity. -/
def freshId : M Nat := do
  let s ← get
  let (id, s') := s.fresh
  set s'
  pure id

/-- The checks of a copy between the local space and global memory: destination, source and length (R285). -/
def copyPlaces (isPut : Bool) (d a b : Word) : M (Place × Place × Nat) := do
  let n ← copyLength b
  if isPut then
    let l ← localRange a n false
    pure (.glob d.toNat, .loc l, n)
  else
    let l ← localRange d n true
    pure (.loc l, .glob a.toNat, n)

/-- A copy is accepted (R286). -/
def acceptCopy (id : Nat) (dst src : Place) (n : Nat) (comp : Completion) (follow : Bool) : M Unit := do
  let late ← match dst with
    | .glob va => flushDest va n
    | .loc _ => pure []
  let s ← get
  accept id (.copy dst src n s.me.hint follow) comp late

/-- `put` and `get` (R285, R286). -/
def copyForm (isPut : Bool) (d a b rc : Reg) (ntf : Bool) : M Unit := do
  ntfField ntf rc
  let regs := [a, b, d] ++ rcRegs rc
  let vs ← readAll regs none
  let (dst, src, n) ← copyPlaces isPut (vs.getD 2 0) (vs.getD 0 0) (vs.getD 1 0)
  let comp ← completionOf ntf rc (vs.getD 3 0)
  awaitCopyQueue
  let id ← freshId
  acceptCopy id dst src n comp false
  finish regs

/-- `put` (R285). -/
def execPut (d a b rc : Reg) (ntf : Bool) (s : State) : Result := runM (copyForm true d a b rc ntf) s

/-- `get` (R285). -/
def execGet (d a b rc : Reg) (ntf : Bool) (s : State) : Result := runM (copyForm false d a b rc ntf) s

/-- A range at a local address lies in the allotment of the issuing thread's stage on every core of a mask
(R100, R288). -/
def checkTargets (mask : BitVec 4) (v : Word) (a n : Nat) : M Unit := do
  let s ← get
  if !s.intoLanding a n && (maskCores mask).all fun i => s.spadAllowed .csel (coreIn (clusterOf s.issuer.1) i) a n then pure ()
  else trapWith .localAddress v 0 true

/-- `putm` (R288). -/
def execPutm (d a b rc : Reg) (s : State) : Result :=
  runM (do
    let regs := [a, b, d] ++ rcRegs rc
    let vs ← readAll regs none
    let x := vs.getD 2 0
    let n ← copyLength (vs.getD 1 0)
    let mask : BitVec 4 := BitVec.ofNat 4 (wbits x 35 32)
    require (mask != 0 && wbits x 63 36 = 0)
    let src ← localRange (vs.getD 0 0) n false
    checkTargets mask x (wbits x 31 0) n
    let comp ← if rc = 0 then pure Completion.none else do
      let o := vs.getD 3 0
      if o.toNat % 16 ≠ 0 then trapWith .misaligned o 0 true
      checkTargets mask o o.toNat 16
      pure (.object o.toNat)
    awaitCopyQueue
    let id ← freshId
    accept id (.multicast mask (wbits x 31 0) src n) comp []
    finish regs) s

/-- `getf` with a follow-on whose registers are `more` (R287); `form` makes the checks that the follow-on's word and the
thread's state decide (R74 step 4), before any port is read. -/
def getfForm (d a b rc : Reg) (ntf : Bool) (more : List Reg) (form : M Unit) (follow : List Word → M TileOp) :
    M Unit := do
  ntfField ntf rc
  form
  let regs := [a, b, d] ++ rcRegs rc
  let vs ← readAll (regs ++ more) none
  let (dst, src, n) ← copyPlaces false (vs.getD 2 0) (vs.getD 0 0) (vs.getD 1 0)
  let comp ← completionOf ntf rc (vs.getD 3 0)
  awaitCopyQueue
  let op ← follow (vs.drop regs.length)
  let id ← freshId
  queueOp { op with after := some id }
  acceptCopy id dst src n comp true
  commitReads (regs ++ more)
  let s ← get
  jumpTo (s.me.pc + 8)

/-- `getf`: the next word must be a `tmma` or a `tmmac`, which is checked here and takes its place in the
sequencer (R71, R287). -/
def execGetf (d a b rc : Reg) (ntf : Bool) (s : State) : Result :=
  runM (do
    match s.me.wordAt (s.me.pc.toNat + 4) with
    | none => waitOn .fetch
    | some w =>
      match decode w with
      | .ok (.tmma ty ga gb acc x y) =>
        getfForm d a b rc ntf [x, y] (discard (tmmaForm ty acc)) fun v => tmmaOp ty ga gb acc (v.getD 0 0) (v.getD 1 0)
      | .ok (.tmmac ty gb acc src y) =>
        getfForm d a b rc ntf [y] (discard (tmmacForm ty acc src)) fun v => tmmacOp ty gb acc src (v.getD 0 0)
      | _ => illegalOperand) s

/-! ## Packets (R286) -/

/-- Offset and length of the i-th packet of a command with a destination: it is cut at every 128-byte boundary. -/
def packetAt (dst len i : Nat) : Nat × Nat :=
  let start := if i = 0 then dst else dst / 128 * 128 + 128 * i
  let stop := min (dst + len) (dst / 128 * 128 + 128 * (i + 1))
  (start - dst, stop - start)

/-- An address of a place with an offset. -/
def Place.plus (p : Place) (n : Nat) : Place :=
  match p with
  | .loc a => .loc (a + n)
  | .glob va => .glob ((va + n) % 2 ^ 64)

/-- Read a run within one line of global memory, or of a host or peer page, for the copy engine. -/
def State.copyReadLine (s : State) (c : CoreId) (ctx : Ctx) (va n : Nat) : Got :=
  match s.engineMap c ctx va false true with
  | .bad t => .bad t
  | .ok pa ty leaf s' =>
    if ty = .host ∨ ty = .peer then
      if s.stalled c then .wait
      else match s.extRead ctx ty leaf pa n with
      | some b => .ok b s'
      | none => .bad { cause := .accessFault, addr := BitVec.ofNat 64 va, detail := leaf }
    else s.engineReadLine c ctx va n

/-- Read the bytes of a packet at their source. -/
def State.copyRead (s : State) (c : CoreId) (ctx : Ctx) (p : Place) (n : Nat) : Got :=
  match p with
  | .loc a =>
    if 0x40000000 ≤ a then
      if s.stalledWay c (dieOfTile (vaultTile (a - 0x40000000))) then .wait
      else if s.vaultAllows .engine ctx (a - 0x40000000) n true false then .ok (s.vault.read (a - 0x40000000) n) s
      else .bad { cause := .accessFault, addr := BitVec.ofNat 64 a }
    else .ok ((s.core c).spad.read a n) s
  | .glob va =>
    (lineRuns va (n + 1) n).foldl (fun g r =>
      match g with
      | .ok b s =>
        match s.copyReadLine c ctx (r.1 % 2 ^ 64) r.2 with
        | .ok b' s' => .ok (b ++ b') s'
        | g' => g'
      | g => g) (.ok [] s)

/-- A write-back or update of a line by a core has not reached its home. -/
def State.writingLine (s : State) (c : CoreId) (line : Nat) : Bool :=
  s.net.any fun m => m.core == c && m.stage == .sent && match m.body with
    | .writeback l _ _ _ => l == line
    | .update l _ => l == line
    | _ => false

/-- Clean sectors of a line in a core's L1D that overlap bytes landed at its home are dropped (R125). -/
def State.dropLanded (s : State) (c : CoreId) (pa n : Nat) : State :=
  let hit := sectorMask (pa % 128) n
  (s.killFills c (pa / 128)).updCore c fun x =>
    x.l1Upd (pa / 128) fun l => { l with valid := l.valid &&& (l.dirty ||| ~~~hit) }

/-- Write a packet's bytes at their destination as one step; a write that a controller refuses is a fault of the
engine (R371). -/
def State.copyWrite (s : State) (c : CoreId) (ctx : Ctx) (p : Place) (b : List Byte) (hint : Hint) : Got :=
  match p with
  | .loc a =>
    if 0x40000000 ≤ a then
      if s.stalledWay c (dieOfTile (vaultTile (a - 0x40000000))) then .wait
      else if s.vaultAllows .engine ctx (a - 0x40000000) b.length false true then
        .ok [] { s with vault := s.vault.write (a - 0x40000000) b }
      else .bad { cause := .accessFault, addr := BitVec.ofNat 64 a, write := true }
    else .ok [] (s.updCore c fun x => x.writeSpad a b)
  | .glob va =>
    let w := BitVec.ofNat 64 va
    match s.engineMap c ctx va true true with
    | .bad t => .bad t
    | .ok pa ty leaf s =>
      if ty = .host ∨ ty = .peer then
        if s.stalled c then .wait
        else match s.extWrite ctx ty leaf pa b with
        | some s => .ok [] s
        | none => .bad { cause := .accessFault, addr := w, detail := leaf, write := true }
      else if s.writingLine c (pa / 128) || s.stalledHome c ctx (pa / 128) then .wait
      else
        let d := dieOf c
        if s.writeRefused .engine ctx pa then .bad { cause := .accessFault, addr := w, write := true }
        else if s.writeHeld ctx d pa b.length hint then .wait
        else if s.stackStateAt pa == .failed && s.needsStack ctx d pa b.length hint then
          .bad { cause := .memoryError, addr := w, detail := BitVec.ofNat 64 (pa / 32 * 32), write := true }
        else .ok [] ((s.homeWrite .engine ctx d pa b hint false).dropLanded c pa b.length)

/-- The source, destination, core and hint of the i-th packet of a command: packets go in ascending offset, those of one
offset of a `putm` to its cores in turn (R300). -/
def Cmd.packet (m : Cmd) (c : CoreId) (i : Nat) : Option (Place × Place × CoreId × Nat × Hint) :=
  match m.kind with
  | .copy dst src len hint _ =>
    let (off, n) := packetAt dst.addr len i
    some (src.plus off, dst.plus off, c, n, hint)
  | .multicast mask dst src len =>
    let cores := maskCores mask
    let (off, n) := packetAt dst len (i / cores.length)
    (cores[i % cores.length]?).map fun t => (.loc (src + off), .loc (dst + off), coreIn (clusterOf c) t, n, .norm)
  | _ => none

/-- Perform the i-th packet of a command. -/
def State.doPacket (s : State) (c : CoreId) (m : Cmd) (i : Nat) : Got :=
  match m.packet c i with
  | none => .wait
  | some (src, dst, t, n, hint) =>
    match s.copyRead c m.ctx src n with
    | .ok b s =>
      match dst with
      | .glob _ => s.copyWrite c m.ctx dst b hint
      | .loc _ => s.copyWrite t m.ctx dst b hint
    | g => g

/-- The signature bits of a command's destination lines on a page that had not translated are set, when the page
translates first (R286). -/
def State.setLate (s : State) (c : CoreId) (m : Cmd) (i : Nat) : State :=
  match m.kind with
  | .copy (.glob dst) _ len _ _ =>
    let page := (dst + (packetAt dst len i).1) % 2 ^ 64 / 65536
    if !m.late.contains page then s
    else
      let mine := (destLines dst len).filter fun va => va / 65536 == page
      let sig := mine.foldl (fun g va => g ||| (s.destSig m.ctx va).getD 0) 0
      let s := s.updCore c fun x => x.updCmd m.id fun q => { q with late := q.late.filter fun p => p != page }
      if m.gone then s else s.updThread c m.slot fun t => { t with wsig := t.wsig ||| sig }
  | _ => s

/-- The signature bits of a payload line (R126). -/
def State.payloadSig (s : State) (m : Cmd) (i : Nat) : Sig :=
  match m.kind with
  | .copy (.glob dst) _ len _ _ => (s.destSig m.ctx ((dst + (packetAt dst len i).1) % 2 ^ 64)).getD 0
  | _ => 0

/-- A packet has been performed: its bytes are counted, and the command ends with its last one unless a notify
word is to be written (R286). -/
def State.landed (s : State) (c : CoreId) (m : Cmd) (i : Nat) : State :=
  let s := s.setLate c m i
  let s := match m.comp, m.packet c i with
    | .object a, some (_, _, t, n, _) => s.updCore t fun x => x.countBytes a n
    | _, _ => s
  let sig := s.payloadSig m i
  let step : Cmd → Cmd := fun q => { q with done := i :: q.done, sig := q.sig ||| sig }
  let s := s.updCore c fun x => x.updCmd m.id step
  let notify := match m.comp with
    | .notify _ => true
    | _ => false
  if m.kind.pieces ≤ m.done.length + 1 && !notify then s.updCore c fun x => x.dropCmd m.id else s

/-- A command that may go on: no fault stops it, and its core is not halting (R300, R301). -/
def State.running (s : State) (c : CoreId) (m : Cmd) : Bool := m.fault.isNone && !(s.core c).halting

/-- `COPY_PACKET_LAND`: a packet is performed at its destination and counted. No packet is sent past one that has
met a fault (R286, R300); on a halting core the packets before one that has landed, which were sent before it, still
land (R301). -/
def execCopyPacketLand (core : Fin 1280) (cmd : Nat) (pkt : Nat) (s : State) : Result :=
  event (fun s => do
    let m ← (s.core core).cmd cmd
    let live := s.running core m || (m.fault.isNone && m.done.any (pkt < ·))
    let earlier := (List.range pkt).all fun j => m.done.contains j || match s.doPacket core m j with
      | .bad _ => false
      | _ => true
    if !m.kind.isCopy || !live || m.kind.pieces ≤ pkt || m.done.contains pkt || !earlier then none
    else match s.doPacket core m pkt with
      | .ok _ s' => pure (s'.landed core m pkt)
      | _ => none) s

/-- Write a notify word: the length, one more count, and the payload's signature; every registration on the word
is woken (R126, R142). -/
def State.writeNotify (s : State) (c : CoreId) (m : Cmd) (va len : Nat) : Got :=
  let w := BitVec.ofNat 64 va
  match s.engineMap c m.ctx va true false with
  | .bad t => .bad t
  | .ok pa _ _ s =>
    let d := dieOf c
    if s.stalledHome c m.ctx (pa / 128) then .wait
    else if !s.stackAllows .engine m.ctx pa true true then .bad { cause := .accessFault, addr := w, write := true }
    else match s.homeRead .engine m.ctx d pa 128 .norm false with
    | .heldBack => .wait
    | .refused _ => .bad { cause := .accessFault, addr := w, write := true }
    | .error p _ => .bad { cause := .memoryError, addr := w, detail := BitVec.ofNat 64 p, write := true }
    | .ok b s =>
      let s := s.homeWrite .engine m.ctx d pa (releasedObject b (leBytes 8 len) m.sig true) .norm false
      .ok [] (s.wake (s.homeOf m.ctx d (pa / 128)) m.ctx va true).2

/-- `NOTIFY_WORD_WRITE`: after every payload byte has been performed (R126). -/
def execNotifyWordWrite (core : Fin 1280) (cmd : Nat) (s : State) : Result :=
  event (fun s => do
    let m ← (s.core core).cmd cmd
    match m.kind, m.comp with
    | .copy _ _ len _ _, .notify va =>
      if !s.running core m || m.done.length < m.kind.pieces then none
      else match s.writeNotify core m va len with
        | .ok _ s' => pure (s'.updCore core fun x => x.dropCmd cmd)
        | _ => none
    | _, _ => none) s

/-- The fault that stops a copy, with its position: the byte offset of the faulting 64 KiB page (R300). A fault at the notify
word lies at no offset of the command: its position is the length, DESIGN CHOICE (assumption 88). -/
def State.copyFault (s : State) (c : CoreId) (m : Cmd) : Option (TrapInfo × Nat) :=
  match m.kind with
  | .copy dst src len _ _ =>
    match leastBelow m.kind.pieces fun i => !m.done.contains i with
    | some i =>
      match s.doPacket c m i with
      | .bad t =>
        let base := if t.write then dst.addr else src.addr
        some (t, t.addr.toNat / 65536 * 65536 - base)
      | _ => none
    | none =>
      match m.comp with
      | .notify va =>
        match s.writeNotify c m va len with
        | .bad t => some (t, len)
        | _ => none
      | _ => none
  | .multicast _ dst src _ =>
    match leastBelow m.kind.pieces fun i => !m.done.contains i with
    | some i =>
      match s.doPacket c m i with
      | .bad t =>
        let base := if t.write then dst else src
        some (t, t.addr.toNat / 65536 * 65536 - base)
      | _ => none
    | none => none
  | _ => none

end Sys2Proof.Machine
end

