-- ==== Sys2Proof/Machine/Gather.lean ====
section
/-! DEFINITION. Gathers, scans, prefetch and the maintenance of the slices (R290 to R292, R296, R297, R407). -/

namespace Sys2Proof.Machine

/-! ## Slice gathers (R292) -/

/-- `gath` (R292). -/
def execGath (d a b rc : Reg) (s : State) : Result :=
  runM (do
    let regs := [a, b, d] ++ rcRegs rc
    let vs ← readAll regs none
    let base := vs.getD 0 0
    let desc := vs.getD 1 0
    let dst := vs.getD 2 0
    let e := 2 ^ wbits desc 50 48
    let list := wbits desc 31 0
    let count := wbits desc 47 32
    if base.toNat % e ≠ 0 then trapWith .misaligned base
    if list % 4 ≠ 0 then trapWith .misaligned (BitVec.ofNat 64 list)
    if dst.toNat % min e 16 ≠ 0 then trapWith .misaligned dst 0 true
    require (count ≠ 0 && wbits desc 63 51 = 0)
    checkLocal list (4 * count) false
    checkLocal dst.toNat (e * count) true
    let comp ← completionOf false rc (vs.getD 3 0)
    awaitLocalStores
    let id ← freshId
    accept id (.gather dst.toNat base.toNat (wbits desc 50 48) count list) comp []
    finish regs) s

/-- Read one element of a gather at its home slice. -/
def State.gatherElem (s : State) (c : CoreId) (m : Cmd) (p : Nat) : Got :=
  match m.kind with
  | .gather _ base lsize _ list =>
    let idx := ofLe ((s.core c).spad.read (list + 4 * p) 4)
    s.engineReadLine c m.ctx ((base + idx * 2 ^ lsize) % 2 ^ 64) (2 ^ lsize)
  | _ => .wait

/-- An element of a gather has been read. -/
def Cmd.hasElem (m : Cmd) (p : Nat) : Bool := m.done.contains p || (assoc m.chans p).isSome

/-- `GATHER_REQUEST`: an element is read at its home tile. No request is sent past one that has met a fault. -/
def execGatherRequest (core : Fin 1280) (cmd : Nat) (elem : Nat) (s : State) : Result :=
  event (fun s => do
    let m ← (s.core core).cmd cmd
    match m.kind with
    | .gather _ _ _ count _ =>
      let earlier := (List.range elem).all fun p => m.hasElem p || match s.gatherElem core m p with
        | .bad _ => false
        | _ => true
      if !s.running core m || count ≤ elem || m.hasElem elem || !earlier then none
      else match s.gatherElem core m elem with
        | .ok b s' => pure (s'.updCore core fun x => x.updCmd cmd fun q => { q with chans := (elem, ofLe b) :: q.chans })
        | _ => none
    | _ => none) s

/-- `GATHER_LAND`: the elements read land; when every element has landed, the bytes are counted in one count. -/
def execGatherLand (core : Fin 1280) (cmd : Nat) (s : State) : Result :=
  event (fun s => do
    let m ← (s.core core).cmd cmd
    match m.kind with
    | .gather dst _ lsize count _ =>
      let e := 2 ^ lsize
      let s1 := m.chans.foldl (fun s p => s.updCore core fun x => x.writeSpad (dst + p.1 * e) (leBytes e p.2)) s
      let step : Cmd → Cmd := fun q => { q with done := q.done ++ m.chans.map Prod.fst, chans := [] }
      let s2 := s1.updCore core fun x => x.updCmd cmd step
      if count ≤ m.done.length + m.chans.length then
        let s3 := match m.comp with
          | .object a => s2.updCore core fun x => x.countBytes a (e * count)
          | _ => s2
        pure (s3.updCore core fun x => x.dropCmd cmd)
      else pure s2
    | _ => none) s

/-- The fault that stops a gather, with its index (R300). -/
def State.gatherFault (s : State) (c : CoreId) (m : Cmd) : Option (TrapInfo × Nat) :=
  match m.kind with
  | .gather _ _ _ count _ =>
    if !m.chans.isEmpty then none
    else match leastBelow count fun p => !m.hasElem p with
      | some p =>
        match s.gatherElem c m p with
        | .bad t => some (t, p)
        | _ => none
      | none => none
  | _ => none

/-! ## Scans (R296, R297, R407) -/

/-- Write the dirty lines of the slices that `p` selects to the stacks; they stay, clean (R291, R297). -/
def State.cleanWhere (s : State) (p : MscLine → Bool) : State :=
  (List.finRange 320).foldl (fun s t =>
    ((s.tiles.get t).msc.filter fun l => p l && l.dirty != 0).foldl (fun s l =>
      (s.cleanLine l).updTile t fun x => x.updLine l.key l.line fun m => { m with dirty := 0 }) s) s

/-- Element format of a scan and its width in bytes. -/
def scanFmt (n : Nat) : Option (ElemFmt × Nat) :=
  match n with | 0 => some (.f32, 4) | 1 => some (.bf16, 2) | 2 => some (.e4m3, 1) | 3 => some (.e5m2, 1) | _ => none

/-- The width of an element of a scan. -/
def scanWidth (f : ElemFmt) : Nat := fmtBits f / 8

/-- The scan that a descriptor names, when its fields are in range (R296). -/
def scanDesc (b : List Byte) (ring base desc : Nat) : Option CmdKind :=
  let f := fun o n => ofLe ((b.drop o).take n)
  match scanFmt (f 12 1) with
  | none => none
  | some (fmt, w) =>
    let n := f 0 8
    let rsize := f 16 4
    if n ≠ 0 ∧ n < 2 ^ 32 ∧ n * w < 2 ^ 32 ∧ f 13 1 < 2 ∧ f 14 2 = 0 ∧ f 28 4 = 0 ∧ rsize % 8 = 0 ∧ 64 ≤ rsize
        ∧ rsize ≤ 524288 then
      some (.scan ring base n (BitVec.ofNat 32 (f 8 4)) fmt (f 13 1 == 1) rsize (f 20 4) desc)
    else none

/-- `kscan` (R296): at acceptance the slices write back their dirty lines of the region (R297). -/
def execKscan (d a b rc : Reg) (s : State) : Result :=
  runM (do
    let regs := [a, b, d] ++ rcRegs rc
    let vs ← readAll regs none
    let base := vs.getD 0 0
    let desc := vs.getD 1 0
    let ring := vs.getD 2 0
    if desc.toNat % 8 ≠ 0 then trapWith .misaligned desc
    let p ← ownSpad desc 32 true
    match scanDesc (s.here.spad.read p 32) ring.toNat base.toNat p with
    | some (.scan r g n th fmt abs rsize headp q) =>
      let w := scanWidth fmt
      if g % w ≠ 0 then trapWith .misaligned base
      if r % 8 ≠ 0 then trapWith .misaligned ring 0 true
      if headp % 4 ≠ 0 then trapWith .misaligned (BitVec.ofNat 64 headp)
      checkLocal r rsize true
      checkLocal headp 4 false
      let comp ← completionOf false rc (vs.getD 3 0)
      awaitLocalStores
      let ctx := s.me.hctx
      modify fun s => s.cleanWhere fun l =>
        l.key == ctx && (List.range 4).any fun i => s.sectorInRange ctx g (n * w) l.line i
      let id ← freshId
      accept id (.scan r g n th fmt abs rsize headp q) comp []
      finish regs
    | _ => illegalOperand) s

/-- A scan's region: base, bytes. -/
def Cmd.region (m : Cmd) : Nat × Nat :=
  match m.kind with
  | .scan _ base n _ fmt _ _ _ _ => (base, n * scanWidth fmt)
  | _ => (0, 0)

/-- Lines of a scan's region. -/
def Cmd.scanLines (m : Cmd) : Nat := linesOf m.region.1 m.region.2

/-- Virtual address of the i-th line of a scan's region. -/
def Cmd.scanVa (m : Cmd) (i : Nat) : Nat := (m.region.1 / 128 * 128 + 128 * i) % 2 ^ 64

/-- The bytes of the i-th line that belong to the region: from, to. -/
def Cmd.scanSpan (m : Cmd) (i : Nat) : Nat × Nat :=
  let (base, n) := m.region
  (if i = 0 then base % 128 else 0, min 128 (base % 128 + n - 128 * i))

/-- The channel whose unit scans a line, 32 to a stack; a line of far memory, which no stack holds, is scanned by
a unit of its own, DESIGN CHOICE (assumption 14). -/
def State.channelAt (s : State) (ctx : Ctx) (va : Nat) : Option Nat :=
  if !vaValid va then none
  else match s.walk ctx va with
    | .fault _ _ _ => none
    | .leaf level e =>
      match s.region (leafPa level e va) with
      | .hbm k off => some (k.val * 32 + channelOf off)
      | _ => some 384

/-- The next line of a channel: the lowest that is not done; an earlier line that does not translate hides it. -/
def State.nextScan (s : State) (m : Cmd) (ch : Nat) : Option Nat :=
  match leastBelow m.scanLines fun i => !m.done.contains i && match s.channelAt m.ctx (m.scanVa i) with
    | none => true
    | some c => c == ch with
  | some i => if s.channelAt m.ctx (m.scanVa i) = some ch then some i else none
  | none => none

/-- Read a sector of a line of a scan straight from the stack: 32 bytes, or the fault; a sector without a byte of the region
is not read (R407). -/
def State.scanSector (s : State) (c : CoreId) (m : Cmd) (i j : Nat) : Got :=
  let va := m.scanVa i
  let w := BitVec.ofNat 64 va
  match s.engineMap c m.ctx va false false with
  | .bad t => .bad t
  | .ok pa _ _ s =>
    if s.stackStateAt pa = .offline then .wait
    else if !s.stackAllows .engine m.ctx pa true false then .bad { cause := .accessFault, addr := w }
    else
      let (lo, hi) := m.scanSpan i
      if hi ≤ 32 * j || 32 * j + 32 ≤ lo then .ok (List.replicate 32 0) s
      else match s.readSector m.ctx (pa / 32 + j) with
        | (some q, s) => .ok q s
        | (none, _) => .bad { cause := .memoryError, addr := w, detail := BitVec.ofNat 64 (pa + 32 * j) }

/-- Bytes of its present line that a channel of a scan has read. -/
def Cmd.lineOf (m : Cmd) (ch : Nat) : List Byte := (assoc m.lineBuf ch).getD []

/-- How the next sector of a channel's line would be read; none when the whole line has been. -/
def State.scanNext (s : State) (c : CoreId) (m : Cmd) (ch i : Nat) : Option Got :=
  if (m.lineOf ch).length < 128 then some (s.scanSector c m i ((m.lineOf ch).length / 32)) else none

/-- An element passes a scan's threshold (R297): NaN never does. -/
def scanPasses (fmt : ElemFmt) (abs : Bool) (thresh code : Nat) : Bool :=
  let v := fmtValue fmt code
  let t := binary32.value thresh
  let u := if abs then v.abs else v
  match u, t with
  | .nan, _ => false
  | _, .nan => false
  | _, _ => !Num.same u t && 0 < Num.order u t

/-- Handle the elements of a line from a byte on, until its end or until the pair ring is full: the state, the
pairs written and the byte reached (R297). -/
def State.scanElems (s : State) (c : CoreId) (m : Cmd) (i : Nat) (line : List Byte) : Nat → Nat → Nat → State × Nat × Nat
  | 0, k, o => (s, k, o)
  | fuel + 1, k, o =>
    match m.kind with
    | .scan ring base _ thresh fmt abs rsize headp desc =>
      let w := scanWidth fmt
      if (m.scanSpan i).2 ≤ o then (s, k, o)
      else
        let elem := (line.drop o).take w
        if !scanPasses fmt abs thresh.toNat (ofLe elem) then s.scanElems c m i line fuel k (o + w)
        else
          let head := ofLe ((s.core c).spad.read headp 4)
          let tail := 8 * k % 2 ^ 32
          if rsize < (tail + 2 ^ 32 - head) % 2 ^ 32 + 8 then (s, k, o)
          else
            let p := (128 * i + o - base % 128) / w
            let pair := leBytes 4 p ++ elem ++ List.replicate (4 - w) 0
            let s := s.updCore c fun x =>
              (x.writeSpad (ring + 8 * k % rsize) pair).writeSpad (desc + 24) (leBytes 4 (8 * (k + 1) % 2 ^ 32))
            s.scanElems c m i line fuel (k + 1) (o + w)
    | _ => (s, k, o)

/-- A scan accepted earlier still has lines for a channel (R407). -/
def State.scanBefore (s : State) (m : Cmd) (ch : Nat) : Bool :=
  (List.finRange 1280).any fun c => (s.core c).cmds.any fun q =>
    q.id < m.id && s.running c q && match q.kind with
      | .scan _ _ _ _ _ _ _ _ _ => (s.nextScan q ch).isSome
      | _ => false

/-- `SCAN_LINE`: a channel's unit reads the next sector of its line, each once, or with the whole line read handles its
elements; at a halt it finishes its line (R297, R301, R407). -/
def execScanLine (core : Fin 1280) (cmd : Nat) (channel : Nat) (s : State) : Result :=
  event (fun s => do
    let m ← (s.core core).cmd cmd
    let i ← s.nextScan m channel
    let inLine := (assoc m.chans channel).isSome
    let stalled := if channel < 384 then s.stalledWay core (finOf 4 (channel / 96)) else s.stalled core
    if m.fault.isSome || ((s.core core).halting && !inLine) || s.scanBefore m channel || stalled then none
    else
      let o := (assoc m.chans channel).getD (m.scanSpan i).1
      match s.scanNext core m channel i with
      | some (.ok b s1) =>
        let step : Cmd → Cmd := fun q =>
          { q with chans := assocSet q.chans channel o, lineBuf := assocSet q.lineBuf channel (m.lineOf channel ++ b) }
        pure (s1.updCore core fun x => x.updCmd cmd step)
      | some _ => none
      | none =>
        let (s1, k, o') := s.scanElems core m i (m.lineOf channel) 129 m.pairs o
        let step : Cmd → Cmd := fun q =>
          if (m.scanSpan i).2 ≤ o' then
            { q with pairs := k, done := i :: q.done, chans := assocDel q.chans channel
                     lineBuf := assocDel q.lineBuf channel }
          else { q with pairs := k, chans := assocSet q.chans channel o' }
        pure (s1.updCore core fun x => x.updCmd cmd step)) s

/-- `SCAN_COMPLETE`: every channel is done, and the bytes of the region are counted in one count (R297). -/
def execScanComplete (core : Fin 1280) (cmd : Nat) (s : State) : Result :=
  event (fun s => do
    let m ← (s.core core).cmd cmd
    match m.kind with
    | .scan _ _ _ _ _ _ _ _ _ =>
      if m.done.length < m.scanLines then none
      else
        let s1 := match m.comp with
          | .object a => s.updCore core fun x => x.countBytes a m.region.2
          | _ => s
        pure (s1.updCore core fun x => x.dropCmd cmd)
    | _ => none) s

/-- A unit that is inside a line can go no further in it: the next sector is bad (R407). -/
def State.scanStuck (s : State) (c : CoreId) (m : Cmd) (ch : Nat) : Bool :=
  match s.nextScan m ch with
  | none => false
  | some i => match s.scanNext c m ch i with
    | some (.bad _) => true
    | _ => false

/-- The fault that stops a scan: the first line that its unit has reached and cannot read, with its position, once every
other unit has finished the line that it is in, or can go no further in it (R300). A line that does not translate belongs to
no channel: it is reached once every line before it is done, and its position names channel 0, DESIGN CHOICE
(assumption 88): R300 gives the channel and the line offset, and such a line has no channel. -/
def State.scanFault (s : State) (c : CoreId) (m : Cmd) : Option (TrapInfo × Word) :=
  (List.range m.scanLines).findSome? fun i =>
    let ch := s.channelAt m.ctx (m.scanVa i)
    let reached := !m.done.contains i && match ch with
      | some n => s.nextScan m n == some i && m.chans.all fun q => q.1 == n || s.scanStuck c m q.1
      | none => (List.range i).all m.done.contains
    if !reached then none
    else match (match ch with | some n => s.scanNext c m n i | none => some (s.scanSector c m i 0)) with
      | some (.bad t) => some (t, Config.scanPos (ch.getD 0) (128 * i))
      | _ => none

/-! ## Prefetch (R290, R390) -/

/-- `pft` (R290). -/
def execPft (hint : Hint) (a b : Reg) (s : State) : Result :=
  runM (do
    let (x, y) ← read2 a b none
    let stride := wbits y 63 32
    let rows := wbits y 31 16 + 1
    let lines := wbits y 15 0
    require (stride % 128 = 0 && lines ≠ 0 && rows * lines ≤ 2 ^ 24)
    if !vaValid x.toNat then trapWith .translation x
    awaitLocalStores
    let id ← freshId
    accept id (.prefetch (x.toNat / 128 * 128) stride rows lines hint) .none []
    finish [a, b]) s

/-- One line or row of a command is handled; with the last the command ends. -/
def Core.handled (x : Core) (m : Cmd) (i : Nat) : Core :=
  if m.kind.pieces ≤ m.done.length + 1 then x.dropCmd m.id
  else x.updCmd m.id fun q => { q with done := i :: q.done }

/-- Prefetch one line into its home slice: a line that does not translate, may not be read, lies on another page than
normal and REPLICA, or would bypass the slice (R389), is skipped; `none` while an OFFLINE stack holds the access or a
stall stops it (R290, R307, R310, R365, R399). -/
def State.prefetch (s : State) (c : CoreId) (ctx : Ctx) (va : Nat) (hint : Hint) : Option State :=
  match s.translateSpec ctx va with
  | none => some s
  | some (level, e) =>
    let ty := leafType e
    let pa := leafPa level e va
    let t := s.homeOf ctx (dieOf c) (pa / 128)
    if !(ty == some .normal || ty == some .replica) || !leafRd e || !(s.ctxs.get ctx).keyLive then some s
    else if s.bypasses t ctx (pa / 128) then some s
    else if s.heldAtStack t ctx (pa / 128) 15 || s.stalledHome c ctx (pa / 128) then none
    else if !s.sliceHit t ctx (pa / 128) 15 && !s.stackAllows .engine ctx pa true false then some s
    else some (s.sliceRead t ctx (pa / 128) 15 hint false).2.2

/-- `PREFETCH_LINE` (R290). -/
def execPrefetchLine (core : Fin 1280) (cmd : Nat) (line : Nat) (s : State) : Result :=
  event (fun s => do
    let m ← (s.core core).cmd cmd
    match m.kind with
    | .prefetch base stride rows lines hint =>
      if rows * lines ≤ line || m.done.contains line then none
      else
        let va := (base + line / lines * stride + 128 * (line % lines)) % 2 ^ 64
        (s.prefetch core m.ctx va hint).map fun s => s.updCore core fun x => x.handled m line
    | _ => none) s

/-! ## Maintenance of the slices (R291) -/

/-- `cwb` and `cinv` (R291). -/
def maintForm (inval : Bool) (a b : Reg) : M Unit := do
  let (x, y) ← read2 a b none
  require (y.toNat < 2 ^ 40 && vaValid x.toNat)
  awaitLocalStores
  if y != 0 then
    let id ← freshId
    accept id (.clean x.toNat y.toNat inval) .none []
  finish [a, b]

/-- `cwb` (R291). -/
def execCwb (a b : Reg) (s : State) : Result := runM (maintForm false a b) s

/-- `cinv` (R291). -/
def execCinv (a b : Reg) (s : State) : Result := runM (maintForm true a b) s

/-- Maintain one line at the slices that hold it; pages that do not translate, and pages of other types than normal
and REPLICA, are skipped (R291). -/
def State.maintain (s : State) (ctx : Ctx) (va : Nat) (inval : Bool) : State :=
  if !vaValid va then s
  else match s.walk ctx va with
    | .fault _ _ _ => s
    | .leaf level e =>
      if !(leafType e == some .normal || leafType e == some .replica) then s
      else
        let mine : MscLine → Bool := fun l => l.key == ctx && l.line == leafPa level e va / 128
        if inval then s.flushLine mine true true else s.cleanWhere mine

/-- `MAINTENANCE_LINE` (R291). -/
def execMaintenanceLine (core : Fin 1280) (cmd : Nat) (line : Nat) (s : State) : Result :=
  event (fun s => do
    let m ← (s.core core).cmd cmd
    match m.kind with
    | .clean base _ inval =>
      if m.kind.pieces ≤ line || m.done.contains line || s.stalled core then none
      else
        let s1 := s.maintain m.ctx ((base / 128 * 128 + 128 * line) % 2 ^ 64) inval
        pure (s1.updCore core fun x => x.handled m line)
    | _ => none) s

end Sys2Proof.Machine
end

