-- ==== Sys2Proof/Machine/Supervisor.lean ====
section
/-! DEFINITION. The four supervisor forms: taking a trap record and the three answers (R312 to R317). -/

namespace Sys2Proof.Machine

/-- A supervisor form outside slot 15 is a privilege trap (R74, R312). -/
def requireSupervisor : M Unit := do
  let s ← get
  if s.issuer.2 = 15 then pure () else trapWith .privilege

/-- `trecv` (R313). A record is not written into a landing, which only the ring engine writes (R99), DEDUCED
(assumption 12). -/
def execTrecv (d a : Reg) (s : State) : Result :=
  runM (do
    requireSupervisor
    let x ← read1 a (some d)
    let p := x.toNat
    if 0x80000 ≤ p then trapWith .localAddress x 0 true
    else if p % 64 ≠ 0 then trapWith .misaligned x 0 true
    else if s.here.inLanding p 64 then trapWith .localAddress x 0 true
    else match s.here.trapq with
      | [] => parkOn .trapq
      | r :: rest =>
        modify fun s => s.updHere fun c =>
          Core.writeSpad { c with trapq := rest, taken := c.taken ++ [r] } p r.bytes
        finishX [a] d (BitVec.ofNat 64 (r.tid.toNat % 16))) s

/-- The slot that a register names, 0 to 14 (R312). -/
def slotOperand (a : Reg) : M Slot := do
  requireSupervisor
  let x ← read1 a none
  if h : x.toNat < 15 then pure ⟨x.toNat, by omega⟩ else illegalOperand

/-- Engine kind of a command's records (R300, R302). -/
def CmdKind.engine : CmdKind → EngineKind
  | .copy _ _ _ _ _ => .copy
  | .multicast _ _ _ _ => .copy
  | .gather _ _ _ _ _ => .gather
  | .scan _ _ _ _ _ _ _ _ _ => .scan
  | .prefetch _ _ _ _ _ => .own
  | .clean _ _ _ => .own

/-- The operation goes on after its record has been answered (R278, R300, R314). -/
def TileOp.resume (o : TileOp) : TileOp :=
  { o with fault := none, posted := false, ahead := o.ahead.filter fun h => h.bytes.isSome }

/-- A stream goes on after its record has been answered: the access at its head is tried afresh, as a confirmed one (R311). -/
def retried : List (Option Ahead) → List (Option Ahead)
  | some h :: rest => some { h with held := false } :: rest
  | l => l

/-- An engine's fault for a slot's thread is answered: the engine continues (R300, R314). -/
def State.resumeEngine (s : State) (c : CoreId) (k : Slot) (e : EngineKind) : State :=
  match e with
  | .own => s
  | .accel => s.updCluster (clusterOf c) fun x =>
    { x with accel := x.accel.map fun a =>
        if a.core = c ∧ a.slot = k ∧ a.posted then { a with fault := none, posted := false, rob := retried a.rob } else a }
  | .tile =>
    let go : SubArray → SubArray := fun u => { u with queue := mapIf (fun o => o.posted) TileOp.resume u.queue }
    let f : SubArray → SubArray := fun u => if u.claim = some (c, k) then go u else u
    let g : Reclaim → Reclaim := fun r => (r.1, r.2.1, r.2.2.1, r.2.2.2.map fun p => (p.1, go p.2))
    { s.updCluster (clusterOf c) fun x => { x with tile := x.tile.map f } with
      reclaims := mapIf (fun r => r.1 == c && r.2.1 == k) g s.reclaims }
  | e =>
    let go : Cmd → Cmd := fun m => { m with fault := none, posted := false }
    s.updCore c fun x => { x with cmds := mapIf (fun m => m.slot == k && !m.gone && m.posted && m.kind.engine == e) go x.cmds }

/-- Answer every taken record of a slot (R314, R315). Without one nothing happens. -/
def State.answerTaken (s : State) (c : CoreId) (k : Slot) (stepping : Bool) : State :=
  let mine := (s.core c).taken.filter fun r => r.names k
  if mine.isEmpty then s
  else
    let s := mine.foldl (fun s r => s.resumeEngine c k r.engine) s
    (s.updCore c fun x => { x with taken := x.taken.filter fun r => !r.names k }).returnFromTrap c k stepping

/-- `tresume` (R314). -/
def execTresume (a : Reg) (s : State) : Result :=
  runM (do
    let k ← slotOperand a
    modify fun s => s.answerTaken s.issuer.1 k false
    finish [a]) s

/-- `tstep` (R315). -/
def execTstep (a : Reg) (s : State) : Result :=
  runM (do
    let k ← slotOperand a
    modify fun s => s.answerTaken s.issuer.1 k true
    finish [a]) s

/-! ## Ending a thread (R316) -/

/-- Mark a claimed sequence SKIP on a ring: the cell is sent (R244, R316). -/
def State.skipCell (s : State) (c : CoreId) (k : Slot) (ring seq : Nat) : State :=
  match s.ring ring with
  | none => s
  | some r => (s.post1 c k none (.cell ring seq .data true (r.landCells ≤ seq - r.headAt c) (List.replicate 120 0))).2

/-- The unused DATA claims of a thread are marked SKIP on every sequenced output ring of its stage on which the
sequence has not been placed (R316). -/
def State.skipClaims (s : State) (c : CoreId) (k : Slot) : State :=
  let t := s.thread c k
  let outs := ((s.core c).stage t.stage).handles.filterMap fun h =>
    if h.2.2 && ((s.ring h.2.1).map Ring.sequenced).getD false then some h.2.1 else none
  t.claims.foldl (fun s cl =>
    if cl.kind = .data then
      outs.foldl (fun s o => if cl.outUsed.contains o then s else s.skipCell c k o cl.seq) s
    else s) s

/-- Engine commands of a thread that a kill abandons (R300); prefetch and maintenance run on at the slices
(R291). -/
def Cmd.abandoned (m : Cmd) (k : Slot) : Bool := m.slot == k && !m.gone && m.kind.engine != .own

/-- A message of the thread in flight that a kill waits for: a `send` or device load awaiting its reply
(R316). -/
def State.killWaits (s : State) (c : CoreId) (k : Slot) : Bool :=
  s.net.any fun m => m.core == c && m.slot == k && !m.orphan && match m.body with
    | .send _ _ _ => m.stage == .sent
    | .device _ none => true
    | _ => false

/-- End the thread of a slot (R316). What it has sent is still performed; an answered or refused `send` is forgotten, and so
is a ring claim, for which it only waited. -/
def State.kill (s : State) (c : CoreId) (k : Slot) : State :=
  let s := s.skipClaims c k
  let s := s.updCore c fun x =>
    { x with trapq := x.trapq.filter fun r => !r.names k, taken := x.taken.filter fun r => !r.names k
             cmds := x.cmds.filter fun m => !m.abandoned k }
  let s := { s with net := s.net.filter fun m => !(m.core == c && m.slot == k && match m.body with
    | .send _ _ _ => m.stage != Stage.sent
    | .claim _ => true
    | _ => false) }
  s.leave c k

/-- The threads of a core that `tkill` has stopped end, when nothing keeps them (R316). -/
def State.endKills (s : State) (c : CoreId) : State :=
  (List.finRange 16).foldl (fun s k =>
    if k != 15 && (s.thread c k).killing && !s.killWaits c k then s.kill c k else s) s

/-- `tkill`: the thread is stopped at once, in one step (R317), and ends when nothing keeps it; the supervisor goes on when it
has (R316). -/
def execTkill (a : Reg) (s : State) : Result :=
  runM (do
    let k ← slotOperand a
    let c := s.issuer.1
    if s.me.prog.stage = 1 then finish [a]
    else if (s.thread c k).present then
      if s.killWaits c k then
        modify fun s => (s.updThread c k fun t => { t with status := .waiting (.slotFree k) }).updMe fun t =>
          { t with prog := { t.prog with stage := 1 } }
        keepOn (.slotFree k) false
      else
        modify fun s => s.kill c k
        finish [a]
    else finish [a]) s

end Sys2Proof.Machine
end

