-- ==== Sys2Proof/Machine/Accel.lean ====
section
/-! DEFINITION. The reference accelerator (R293 to R295, R310, R311), the cruiser (R298, R299) and the faults of
engines (R300, R304). -/

namespace Sys2Proof.Machine

/-! ## The reference accelerator: instructions -/

/-- The issuing thread's stream. -/
def State.myStream (s : State) : Option Stream :=
  match s.myUnit.accel with
  | some a => if (a.core, a.slot) = s.issuer then some a else none
  | none => none

/-- `racfg` (R293). -/
def execRacfg (a b : Reg) (s : State) : Result :=
  runM (do
    let (x, y) ← read2 a b none
    require (y == 1 || y == 2 || y == 4 || y == 8)
    if x.toNat % y.toNat ≠ 0 then trapWith .misaligned x
    if !vaValid x.toNat then trapWith .translation x
    require s.myStream.isNone
    modify fun s => s.updMe fun t => { t with racfg := some (x, y.toNat) }
    finish [a, b]) s

/-- `rastart`: parked threads are served in the order in which they parked (R294). -/
def execRastart (qi qv : Reg) (s : State) : Result :=
  runM (do
    match s.me.racfg with
    | none => illegalOperand
    | some (base, size) =>
      require s.myStream.isNone
      let s0 ← get
      let i ← nameQueue qi false
      let v ← nameQueue qv true
      let first := s0.firstOfCluster s.issuer.1 s.issuer.2 fun b => b == .accel
      if s0.myUnit.accel.isSome || !first then
        set s0
        stopOrdered .accel true
      else
        holdEnd i.id false (.inr .accel)
        holdEnd v.id true (.inr .accel)
        let a : Stream := { core := s.issuer.1, slot := s.issuer.2, qi := i.id, qv := v.id, base := base, size := size }
        modify fun s => s.updCluster (clusterOf s.issuer.1) fun x => { x with accel := some a }
        retire) s

/-- The snapshot of a stream (R295). -/
def Stream.status (a : Stream) : Word :=
  BitVec.ofNat 64 (2 ^ 63 + (if a.fault.isSome then 2 ^ 62 else 0) + a.rob.length * 2 ^ 40 + a.delivered % 2 ^ 40)

/-- `rastat` (R295). -/
def execRastat (d : Reg) (s : State) : Result :=
  runM (do
    checkRegs [] (some d)
    finishX [] d ((s.myStream.map Stream.status).getD 0)) s

/-! ## The stream (R294, R310, R311) -/

/-- The entries of a queue of a core. -/
def Core.entries (x : Core) (id : Nat) : List QEntry := ((x.queue id).map RQueue.entries).getD []

/-- Every token before a place in the reorder buffer has been taken by the consumer (R294). -/
def State.confirmedAt (s : State) (a : Stream) (n : Nat) : Bool :=
  (a.rob.take n).all Option.isSome && ((s.core a.core).entries a.qv).all fun e => e.kind == .data

/-- Address of an element. -/
def Stream.addr (a : Stream) (idx : Word) : Nat := (a.base.toNat + idx.toNat * a.size) % 2 ^ 64

/-- A speculative access for an index (R310): the value, a held fault, or a stop that waits for confirmation. -/
def State.lookAhead (s : State) (a : Stream) (idx : Word) : Ahead × State :=
  let (r, s') := s.speculate a.core (s.thread a.core a.slot).hctx (a.addr idx) a.size
  match r with
  | none => ({ idx := idx, stopped := true }, s')
  | some none => ({ idx := idx, held := true }, s')
  | some (some b) => ({ idx := idx, val := some (BitVec.ofNat 64 (ofLe b)) }, s')

/-- A confirmed access for an index (R311). -/
def State.confirmRead (s : State) (a : Stream) (h : Ahead) : Ahead × State :=
  match s.engineReadLine a.core (s.thread a.core a.slot).hctx (a.addr h.idx) a.size with
  | .ok b s' => ({ h with val := some (BitVec.ofNat 64 (ofLe b)), confirmed := true, stopped := false }, s')
  | _ => ({ h with confirmed := true, stopped := false }, s)

/-- The stream of a cluster changed. -/
def State.updStream (s : State) (cl : TileId) (f : Stream → Stream) : State :=
  s.updCluster cl fun x => { x with accel := x.accel.map f }

/-- `ACCEL_LOOKAHEAD`: the accelerator reads the next entry of its index queue, up to 64 ahead, and sends its
gather (R294). -/
def execAccelLookahead (cluster : Fin 320) (s : State) : Result :=
  event (fun s => do
    let a ← (s.clusters.get cluster).accel
    let x := s.core a.core
    let e ← (x.entries a.qi)[a.rob.length]?
    if 64 ≤ a.rob.length || x.halting then none
    else if e.kind != .data then pure (s.updStream cluster fun a => { a with rob := a.rob ++ [none] })
    else
      let (h, s') := if s.confirmedAt a a.rob.length then s.confirmRead a { idx := e.val } else s.lookAhead a e.val
      pure (s'.updStream cluster fun a => { a with rob := a.rob ++ [some h] })) s

/-- `SPECULATIVE_CONFIRM`: the first access that has become confirmed keeps the reply it holds; a held fault is
discarded and an access that had stopped is made, both afresh (R311). -/
def execSpeculativeConfirm (cluster : Fin 320) (s : State) : Result :=
  event (fun s => do
    let a ← (s.clusters.get cluster).accel
    let n ← leastBelow a.rob.length fun i => match a.rob[i]? with
      | some (some h) => !h.confirmed && s.confirmedAt a i
      | _ => false
    let h ← (a.rob[n]?).bind fun o => o
    if (s.core a.core).halting then none
    else
      let (h', s') := if h.val.isSome then ({ h with confirmed := true }, s) else s.confirmRead a h
      pure (s'.updStream cluster fun a => { a with rob := a.rob.set n (some h') })) s

/-- Deliver an entry at the head of the stream: it leaves the index queue and enters the value queue (R294). -/
def State.deliverEntry (s : State) (cl : TileId) (a : Stream) (e : QEntry) : State :=
  let s := s.updCore a.core fun x =>
    (x.updQueue a.qi fun q => { q with entries := q.entries.drop 1 }).updQueue a.qv fun q =>
      { q with entries := q.entries ++ [e] }
  s.updStream cl fun a =>
    { a with rob := a.rob.drop 1, delivered := if e.kind = .data then a.delivered + 1 else a.delivered }

/-- `ACCEL_DELIVER`: the oldest entry enters the value queue when it has room: a token as it stands, a value once
its index is confirmed and its reply is held (R59, R294). -/
def execAccelDeliver (cluster : Fin 320) (s : State) : Result :=
  event (fun s => do
    let a ← (s.clusters.get cluster).accel
    let x := s.core a.core
    let q ← x.queue a.qv
    let e ← (x.entries a.qi).head?
    if q.depth ≤ q.entries.length || a.fault.isSome || x.halting then none
    else match a.rob with
      | [] => none
      | none :: _ => pure (s.deliverEntry cluster a e)
      | some h :: _ =>
        if !h.confirmed then none
        else
          let (h', s') := if h.val.isSome then (h, s) else s.confirmRead a h
          h'.val.map fun v => s'.deliverEntry cluster a { val := v }) s

/-- The fault at which a stream's delivery stops (R294, R300). -/
def State.streamFault (s : State) (a : Stream) : Option (TrapInfo × Bool) :=
  match a.rob with
  | some h :: _ =>
    if h.confirmed && h.val.isNone then
      match s.engineReadLine a.core (s.thread a.core a.slot).hctx (a.addr h.idx) a.size with
      | .bad t => some (t, h.held)
      | _ => none
    else none
  | _ => none

/-! ## Engine faults (R300, R304) -/

/-- The fault that stops a command, with the position of its record. -/
def State.cmdFault (s : State) (c : CoreId) (m : Cmd) : Option (TrapInfo × Word) :=
  match m.kind.engine with
  | .copy => (s.copyFault c m).map fun p => (p.1, BitVec.ofNat 64 p.2)
  | .gather => (s.gatherFault c m).map fun p => (p.1, BitVec.ofNat 64 p.2)
  | .scan => s.scanFault c m
  | _ => none

/-- A command may post the fault that it has met: no earlier one stops it, and its core is not halting, or what the halt waits
for has met it, a packet sent before one that has landed or the line that a scan's unit is in (R301). -/
def State.mayFault (s : State) (c : CoreId) (m : Cmd) : Bool :=
  m.fault.isNone && (!(s.core c).halting || match m.kind with
    | .scan _ _ _ _ _ _ _ _ _ => !m.chans.isEmpty
    | _ => m.kind.isCopy && m.done.any fun i => m.done.length ≤ i)

/-- `ENGINE_FAULT`: a command that has met a fault, with every earlier piece done, posts its record; a number that
names no command of the core names the accelerator's stream of its thread. The command of a thread that has retired
is abandoned, DESIGN CHOICE (assumption 15). -/
def execEngineFault (core : Fin 1280) (cmd : Nat) (s : State) : Result :=
  event (fun s =>
    match (s.core core).cmd cmd with
    | some m => do
      let (t, pos) ← s.cmdFault core m
      if !s.mayFault core m then none
      else if m.gone then pure ((s.countFault t).updCore core fun x => x.dropCmd cmd)
      else
        let s' ← s.postEngine core m.slot m.kind.engine t pos false
        let stop : Cmd → Cmd := fun q => { q with fault := some (s.record core m.slot t), posted := true }
        pure (s'.updCore core fun x => x.updCmd cmd stop)
    | none => do
      let a ← (s.clusters.get (clusterOf core)).accel
      let (t, held) ← s.streamFault a
      if a.core != core || a.fault.isSome || (s.core core).halting then none
      else
        let s' ← s.postEngine core a.slot .accel t (BitVec.ofNat 64 a.delivered) held
        pure (s'.updStream (clusterOf core) fun a =>
          { a with fault := some (s.record core a.slot t), posted := true })) s

/-! ## The cruiser (R298, R299) -/

/-- Ask the home slices for `n` bytes of a loop record: exactly those, sector by sector (R298). -/
def loopRead (va n : Nat) : M (List Piece) :=
  (sectorRuns va (List.replicate n 0) (n + 1)).mapM fun r => do
    let m ← mapGlobal r.1 true false false
    if m.ty = .normal ∨ m.ty = .replica then
      awaitLine (m.pa / 128)
      let s ← get
      let t := s.homeTile s.me.hctx s.issuer.1 m.pa
      let id ← sendMsg (some (.tile t)) (.fill (m.pa / 128) (1 <<< (m.pa % 128 / 32)) .norm false false) r.1
      pure { msg := some id, pos := r.1 - va, len := min r.2.length (va + n - r.1), off := m.pa % 32, va := r.1 }
    else trapWith .accessFault (BitVec.ofNat 64 r.1) m.leaf

/-- The levels of a loop record: count and stride of each (R298). -/
def loopLevels (b : List Byte) (n : Nat) : List (Nat × Int) :=
  (List.range n).map fun l =>
    (ofLe ((b.drop (16 * l)).take 8), toSigned 64 (ofLe ((b.drop (16 * l + 8)).take 8)))

/-- `crcfg`: the first 16 bytes, then the levels; the thread waits for each (R298). -/
def execCrcfg (a : Reg) (s : State) : Result :=
  runM (do
    let x ← read1 a none
    if x.toNat % 8 ≠ 0 then trapWith .misaligned x
    match s.me.prog.data, s.me.prog.taken with
    | none, _ =>
      let ps ← loopRead x.toNat 16
      completeLoad ps .hold x.toNat []
    | some b, [] =>
      let n := ofLe (b.take 8)
      require (1 ≤ n && n ≤ 3)
      let ps ← loopRead (x.toNat + 16) (16 * n)
      let keep : Progress → Progress := fun p =>
        { p with data := none, taken := [BitVec.ofNat 64 n, BitVec.ofNat 64 (ofLe (b.drop 8))] }
      modify fun s => s.updMe fun t => { t with prog := keep t.prog }
      completeLoad ps .hold (x.toNat + 16) []
    | some b, n :: rest =>
      let levels := loopLevels b n.toNat
      require (levels.all fun l => 1 ≤ l.1 && l.1 < 2 ^ 32)
      modify fun s => s.updMe fun t => { t with crcfg := some (rest.headD 0, levels) }
      finish [a]) s

/-- The issuing thread's cruiser. -/
def State.myCruiser (s : State) : Option CruiserRun :=
  match s.myUnit.cruiser with
  | some r => if (r.core, r.slot) = s.issuer then some r else none
  | none => none

/-- `crgo` (R299). -/
def execCrgo (q : Reg) (s : State) : Result :=
  runM (do
    match s.me.crcfg with
    | none => illegalOperand
    | some (base, levels) =>
      require s.myCruiser.isNone
      let s0 ← get
      let v ← nameQueue q true
      let first := s0.firstOfCluster s.issuer.1 s.issuer.2 fun b => b == .cruiser
      if s0.myUnit.cruiser.isSome || !first then
        set s0
        stopOrdered .cruiser true
      else
        holdEnd v.id true (.inr .own)
        let r : CruiserRun :=
          { core := s.issuer.1, slot := s.issuer.2, q := v.id, base := base, levels := levels, idx := levels.map fun _ => 0 }
        modify fun s => (s.updCluster (clusterOf s.issuer.1) fun x => { x with cruiser := some r }).updMe fun t =>
          { t with emitted := 0 }
        retire) s

/-- `crstat` (R299). -/
def execCrstat (d : Reg) (s : State) : Result :=
  runM (do
    checkRegs [] (some d)
    let active := if s.myCruiser.isSome then 2 ^ 63 else 0
    finishX [] d (BitVec.ofNat 64 (active + s.me.emitted.toNat))) s

/-- The loop indices after a record, outermost first, from counts and indices: the next indices, how many levels
end with the record, and whether all do (R299). -/
def advanceIdx : List (Nat × Nat) → List Nat × Nat × Bool
  | [] => ([], 0, true)
  | (n, i) :: rest =>
    let (l, ended, carry) := advanceIdx rest
    if !carry then (i :: l, ended, false)
    else if i + 1 < n then ((i + 1) :: l, ended, false)
    else (0 :: l, ended + 1, true)

/-- The address that a cruiser's indices give (R299). -/
def CruiserRun.value (r : CruiserRun) : Word :=
  BitVec.ofInt 64 ((r.base.toNat : Int) + ((r.idx.zip r.levels).map fun p => (p.1 : Int) * p.2.2).sum)

/-- What a cruiser emits next, and how it stands afterwards. -/
def CruiserRun.emit (r : CruiserRun) : QEntry × CruiserRun :=
  match r.ends with
  | e :: rest => ({ kind := e }, { r with ends := rest })
  | [] =>
    let (idx, ended, all) := advanceIdx ((r.levels.map Prod.fst).zip r.idx)
    ({ val := r.value }, { r with
      idx := idx, ends := (List.range ended).map fun l => EntKind.ofLevel (l + 1), last := all })

/-- `CRUISER_EMIT`: one record or token in a die cycle while the queue has room; after the last token the cruiser
stops and frees its queue end (R299). -/
def execCruiserEmit (cluster : Fin 320) (s : State) : Result :=
  event (fun s => do
    let r ← (s.clusters.get cluster).cruiser
    let x := s.core r.core
    let q ← x.queue r.q
    let now := s.cycleOf r.core
    if q.depth ≤ q.entries.length || x.halting || r.cycle == some now then none
    else
      let (e, r') := r.emit
      let s := s.updCore r.core fun x => x.updQueue r.q fun q => { q with entries := q.entries ++ [e] }
      let s := if e.kind = .data then s.updThread r.core r.slot fun t => { t with emitted := t.emitted + 1 } else s
      if r'.last && r'.ends.isEmpty then
        pure ((s.updCluster cluster fun x => { x with cruiser := none }).updCore r.core fun x => x.releaseEnds (.inr .own))
      else pure (s.updCluster cluster fun x => { x with cruiser := some { r' with cycle := some now } })) s

end Sys2Proof.Machine
end

