-- ==== Sys2Proof/Machine/Majority.lean ====
section
/-! DEFINITION. Majority cells and the states of the stacks: copies and repairs at a stack, replies at the unit,
catch-up and scrubbing, and errors of stored sectors (R395, R398, R399, R401 to R406). -/

namespace Sys2Proof.Machine

/-! ## Interrupts and the loss log (R330, R393, R409) -/

/-- Set a bit of a context's INTSTAT; a change from 0 raises the context's MSI-X vector (R409). -/
def State.raise (s : State) (ctx : Ctx) (bit : Nat) : State :=
  if (s.ctxs.get ctx).intstat.getLsbD bit then s
  else { (s.updCtx ctx fun x => { x with intstat := x.intstat ||| (1#4 <<< bit) }) with
    msix := s.msix ++ [⟨ctx.val, by omega⟩] }

/-- Write bytes within one line for Kamgor or the control die at a context's virtual address (R394: under the
context's key); `none` where the page does not translate, does not allow writes or is not normal. -/
def State.ctlWrite (s : State) (ctx : Ctx) (va : Nat) (b : List Byte) : Option State :=
  if !vaValid va then none
  else match s.walk ctx va with
    | .fault _ _ _ => none
    | .leaf level e =>
      if leafType e = some .normal && leafWr e && (s.ctxs.get ctx).keyLive then
        some ((s.markLeaf ctx level va (leafUsed e true)).homeWrite .management ctx 0 (leafPa level e va) b .norm false)
      else none

/-- Read bytes within one line for Kamgor or the control die at a context's virtual address, at the home slice. A read that
fails leaves the machine with its error counted (R395). -/
inductive CtlRead
  | ok (b : List Byte) (s : State)
  | wait
  | fault (s : State)

/-- See `CtlRead`. -/
def State.ctlReadLine (s : State) (ctx : Ctx) (va n : Nat) : CtlRead :=
  if !vaValid va then .fault s
  else match s.walk ctx va with
    | .fault _ _ _ => .fault s
    | .leaf level e =>
      if leafType e = some .normal && leafRd e && (s.ctxs.get ctx).keyLive then
        match (s.markLeaf ctx level va (leafUsed e false)).homeRead .management ctx 0 (leafPa level e va) n .norm false with
        | .ok b s => .ok b s
        | .heldBack => .wait
        | .error _ s => .fault s
        | .refused s => .fault s
      else .fault s

/-- Lines of a context are lost: an entry is appended to its loss log, if it has one, and INTSTAT.LOSS is set (R330, R393,
R409). -/
def State.logLoss (s : State) (ctx : Ctx) (base lines : Nat) : State :=
  let x := s.ctxs.get ctx
  let s1 :=
    if x.losslog = 0 then s
    else
      let va := (x.losslog.toNat + 16 * (x.losses % 256)) % 2 ^ 64
      ((s.ctlWrite ctx va (leBytes 8 base ++ leBytes 8 lines)).getD s).updCtx ctx fun x => { x with losses := x.losses + 1 }
  s1.raise ctx 2

/-- Lines of the slices that `p` selects, by context. -/
def State.linesOfCtx (s : State) (ctx : Ctx) (p : MscLine → Bool) : Nat :=
  (s.tiles.toList.map fun t => (t.msc.filter fun l => l.key == ctx && p l).length).sum

/-- Log the lines that are lost, for every context that loses some (R393, R399): `n` counts them. -/
def State.logLost (s : State) (base : Nat) (n : Ctx → Nat) : State :=
  (List.finRange 64).foldl (fun t ctx => if n ctx = 0 then t else t.logLoss ctx base (n ctx)) s

/-- Log lines of the slices that are lost. -/
def State.logLosses (s : State) (base : Nat) (p : MscLine → Bool) : State := s.logLost base fun ctx => s.linesOfCtx ctx p

/-! ## Tags and copies (R400 to R402) -/

/-- A tag is newer than another (R401). -/
def tagNewer (a b : Word) : Bool :=
  let d := (wbits a 63 15 + 2 ^ 49 - wbits b 63 15) % 2 ^ 49
  (1 ≤ d && d < 2 ^ 48) || (d == 0 && wbits b 14 0 < wbits a 14 0)

/-- A granule's catch-up bit is set. -/
def Stack.behind (x : Stack) (g : Nat) : Bool := x.state == .catchup && (x.catchAll != x.catchOff.contains g)

/-- Clear a granule's catch-up bit. -/
def Stack.caughtUp (x : Stack) (g : Nat) : Stack := if x.behind g then { x with catchOff := g :: x.catchOff } else x

/-- The key that an access of a context uses: its slot, and the generation of the key there (R394). -/
def State.keyNow (s : State) (ctx : Ctx) : Ctx × Nat := (ctx, (s.ctxs.get ctx).keyGen)

/-- Judge a copy at a stack by its tag, in one step: the stack, and whether it accepts; `none` is ABSENT (R402,
R405). A copy whose stored sector is uncorrectable is replaced unless the tag that comes is older, DEDUCED
(assumption 16). -/
def Stack.judge (x : Stack) (g : Nat) (tag : Word) (data : BitVec 512) (key : Option (Ctx × Nat)) :
    Option (Stack × Bool) :=
  if x.state = .offline ∨ x.state = .failed then none
  else
    let c := x.copy g
    let new : MajCopy := { granule := g, data := data, tag := tag, key := key }
    if x.behind g then some ((x.setCopy new).caughtUp g, true)
    else if tagNewer tag c.tag || (c.err == some false && tag == c.tag) then some (x.setCopy new, true)
    else some (x, false)

/-- The stamp of a store is old enough for its copies to have come to a stack: no packet is that fast, and two copies of the
timer differ by up to 2 ns, so that a store which begins after this one is seen carries the newer tag, DEDUCED (assumption
78; R16, R128, R129). -/
def State.travelled (s : State) (tag : Word) : Bool := 3 ≤ (s.ticks % 2 ^ 49 + 2 ^ 49 - wbits tag 63 15) % 2 ^ 49

/-- The access table of a stack refuses a store's copy (R370, R371): it is the table at the copy's arrival that counts. A
repair carries what a store has stored. -/
def State.copyRefused (s : State) (m : Msg) (k : StackId) (g : Nat) (repair : Bool) : Bool :=
  !repair && !aclAllows (s.hbm.get k).acl.toList .core m.ctx (2 ^ 36 - s.carve + 64 * g) false true

/-- `MAJ_COPY_AT_STACK`: a copy or repair is judged and answered ACCEPT, STALE or ABSENT (R402), or refused (R371). -/
def execMajCopyAtStack (m : Nat) (s : State) : Result :=
  event (fun s => do
    let msg ← s.msg m
    match msg.body with
    | .majCopy _ k g tag data repair =>
      if msg.stage != .sent || !msg.moving || s.stalledMsg msg || !(repair || s.travelled tag) then none
      else match if msg.absent then none else (s.hbm.get k).judge g tag data (some (s.keyNow msg.ctx)) with
        | none => pure (s.answer m [] 0 .absent)
        | some (x, ok) =>
          if s.copyRefused msg k g repair then pure (s.answer m [] 0 (.access 0))
          else pure ((s.updStack k fun _ => x).answer m [if ok then 1 else 0])
    | _ => none) s

/-! ## Reads at the unit (R403) -/

/-- How the replies that a read has so far resolve. -/
inductive Vote
  | wait
  | winner (tag : Word) (data : BitVec 512) (repair : Option StackId) (awaited : Bool)
  | unresolved
deriving DecidableEq, Repr

/-- The winner among good replies in the order in which they came; `more` says that further replies may come
(R403). -/
def voteOf (good : List (StackId × Word × BitVec 512)) (more : Bool) : Vote :=
  match good with
  | (k1, t1, d1) :: (k2, t2, d2) :: rest =>
    if t1 = t2 then
      if d1 = d2 then .winner t1 d1 none false
      else match rest with
        | (_, t3, d3) :: _ =>
          if t3 = t1 ∧ d3 = d1 then .winner t3 d3 (some k2) false
          else if t3 = t2 ∧ d3 = d2 then .winner t3 d3 (some k1) false
          else .unresolved
        | [] => if more then .wait else .unresolved
    else if tagNewer t1 t2 then .winner t1 d1 (some k2) true
    else .winner t2 d2 (some k1) true
  | _ => if more then .wait else .unresolved

/-- The state with a majority operation changed. -/
def State.updOp (s : State) (id : Nat) (f : MajOp → MajOp) : State :=
  { s with majOps := mapIf (fun o => o.id == id) f s.majOps }

/-- Send a repair: a copy with the winner's tag and data (R403). -/
def State.sendRepair (s : State) (o : MajOp) (k : StackId) (w : Word × BitVec 512) : State :=
  let n := s.nextMsg
  let s := (s.post1 o.core o.slot none (.majCopy o.id k o.granule w.1 w.2 true)).2
  s.updMsg n fun m => { m with orphan := true }

/-- A message of a majority operation is in flight. -/
def State.majBusy (s : State) (id : Nat) : Bool :=
  s.net.any fun m => match m.body with
    | .majCopy o _ _ _ _ _ => o == id
    | .majRead o _ _ => o == id
    | _ => false

/-- A majority operation that is done leaves the unit with its last message. -/
def State.sweepOp (s : State) (id : Nat) : State :=
  if s.majBusy id then s else { s with majOps := s.majOps.filter fun o => !(o.id == id && o.done) }

/-- A read fails: its thread stops at the instruction, which has not executed (R403). -/
def State.majFail (s : State) (o : MajOp) (cause : Cause) (detail : Word) : State :=
  (s.stepBack o.core o.slot o.id []).takeTrap o.core o.slot
    { cause := cause, addr := BitVec.ofNat 64 o.va, detail := detail, write := o.write }

/-- A thread may be trapped for a read that has failed: no record of it is unanswered, and nothing that it has asked for
earlier can still fail (R87, R304). -/
def State.mayFail (s : State) (o : MajOp) : Bool :=
  let t := s.thread o.core o.slot
  s.mayStop o.core o.slot o.id (fun _ => false) && (t.firstPiece o.id).all t.firstByte

/-- A read returns its winner. -/
def State.majReturn (s : State) (o : MajOp) (w : Word × BitVec 512) : State :=
  (s.updOp o.id fun q => { q with done := true, winner := some w, repairing := none }).updThread o.core o.slot fun t =>
    t.deliver o.id (bytesOf w.2 0 64)

/-- Resolve a read with the replies it has (R403): return the winner, send the repairs, wait, or trap, as soon as its thread
may be trapped (`none` until then). -/
def State.majResolve (s : State) (id : Nat) : Option State :=
  match s.majOps.find? fun o => o.id == id with
  | none => some s
  | some o =>
    if o.done || o.repairing.isSome then some s
    else match voteOf o.good (o.good.length + o.bad.length < o.asked.length) with
      | .wait => some s
      | .unresolved =>
        if s.mayFail o then some (s.majFail o .majorityUnresolved (BitVec.ofNat 64 (majPa o.triple o.granule))) else none
      | .winner t d repair awaited =>
        let w := (t, d)
        let s1 := o.bad.foldl (fun s k => s.sendRepair o k w) s
        let s2 := match repair with
          | some k => s1.sendRepair o k w
          | none => s1
        some (if awaited then s2.updOp id fun q => { q with winner := some w, repairing := repair } else s2.majReturn o w)

/-- A reply to a read of an operation that has its winner: an older or failed copy is repaired (R403). -/
def State.lateReply (s : State) (o : MajOp) (k : StackId) (data : List Byte) (err : ReplyErr) : State :=
  match o.winner with
  | none => s
  | some w =>
    match err with
    | .none => if tagNewer w.1 (ofBytes 64 (data.take 8)) then s.sendRepair o k w else s
    | .memory _ => s.sendRepair o k w
    | _ => s

/-- `MAJ_READ_REPLY`: a reply to a read reaches the unit (R403). -/
def execMajReadReply (m : Nat) (s : State) : Result :=
  event (fun s => do
    let msg ← s.msg m
    match msg.body, msg.stage with
    | .majRead id k _, .reply data _ err =>
      if !msg.moving || s.stalledMsg msg then none
      else
        let s1 := s.drop m
        match s.majOps.find? fun o => o.id == id with
        | none => pure s1
        | some o =>
          let s1 := s1.lateReply o k data err
          if o.done then pure (s1.sweepOp id)
          else match err with
            | .none =>
              let r := (k, ofBytes 64 (data.take 8), ofBytes 512 (data.drop 8))
              ((s1.updOp id fun q => { q with good := q.good ++ [r] }).majResolve id).map fun s => s.sweepOp id
            | .memory _ => ((s1.updOp id fun q => { q with bad := q.bad ++ [k] }).majResolve id).map fun s => s.sweepOp id
            | .access d => if s1.mayFail o then pure ((s1.majFail o .accessFault d).sweepOp id) else none
            | _ =>
              let out : MajOp → MajOp := fun q => { q with asked := q.asked.filter fun j => j != k }
              ((s1.updOp id out).majResolve id).map fun s => s.sweepOp id
    | _, _ => none) s

/-! ## Replies to copies and repairs (R402, R403) -/

/-- A repair that a load waits for is answered: the load returns its winner; an ABSENT stack leaves the load's
IN set, and the load goes on with the others (R403). -/
def State.repairReply (s : State) (o : MajOp) (k : StackId) (absent : Bool) : Option State :=
  if o.repairing ≠ some k then some s
  else match absent, o.winner with
    | false, some w => some (s.majReturn o w)
    | _, _ =>
      let out : MajOp → MajOp := fun q =>
        { q with asked := q.asked.filter fun j => j != k, good := q.good.filter fun g => g.1 != k
                 winner := none, repairing := none }
      (s.updOp o.id out).majResolve o.id

/-- The stores that have two replies from stacks IN are complete: from stacks that were IN when the store was sent, or that
have become so since (R402). -/
def State.settleStores (s : State) : State :=
  let counts := fun (o : MajOp) (k : StackId) => o.asked.contains k || (s.hbm.get k).state == .in_
  { s with majOps := mapIf (fun o => o.stamped.isSome) (fun o =>
      { o with done := o.done || 2 ≤ (o.acks.filter fun a => counts o a.1).length }) s.majOps }

/-- `MAJ_REPLY`: the second reply from a stack that is IN completes a store; ABSENT counts as no reply, and a store that a
stack's access table refuses traps its thread (R371, R402). -/
def execMajReply (m : Nat) (s : State) : Result :=
  event (fun s => do
    let msg ← s.msg m
    match msg.body, msg.stage with
    | .majCopy id k _ _ _ repair, .reply data _ err =>
      if !msg.moving || s.stalledMsg msg then none
      else
        let s1 := s.drop m
        match s.majOps.find? fun o => o.id == id with
        | none => pure s1
        | some o =>
          if repair then (s1.repairReply o k (err == .absent)).map fun s => s.sweepOp id
          else match err with
            | .absent => pure (s1.sweepOp id)
            | .access _ =>
              if msg.orphan || o.done then pure (s1.sweepOp id)
              else if !s.mayTrap msg then none
              else pure (((s1.updOp id fun q => { q with done := true }).requestFails msg err msg.va true).sweepOp id)
            | _ =>
              pure (((s1.updOp id fun q => { q with acks := q.acks ++ [(k, data.head? == some 1)] }).settleStores).sweepOp id)
    | _, _ => none) s

/-! ## States of a stack (R398, R399, R405) -/

/-- The other stacks of a stack's triple. -/
def tripleMates (k : StackId) : List StackId :=
  (((List.finRange 4).map tripleStacks).find? fun l => l.contains k).getD [] |>.filter fun j => j != k

/-- No other stack of the triple is out of service (R398). -/
def State.matesIn (s : State) (k : StackId) : Bool := (tripleMates k).all fun j => (s.hbm.get j).state == .in_

/-- Copies that are on their way to a stack that goes out of service are answered ABSENT when they come, whatever the stack's
state is then (R402). -/
def State.absentCopies (s : State) (k : StackId) : State :=
  let bound : Msg → Bool := fun m => m.stage == .sent && match m.body with
    | .majCopy _ j _ _ _ _ => j == k
    | _ => false
  { s with net := mapIf bound (fun m => { m with absent := true }) s.net }

/-- `STACK_OFFLINE`: accepted from IN while the other two stacks of the triple are IN (R398). -/
def execStackOffline (stack : Fin 12) (s : State) : Result :=
  event (fun s =>
    if (s.hbm.get stack).state == .in_ && s.matesIn stack then
      some ((s.updStack stack fun x => { x with state := .offline }).absentCopies stack)
    else none) s

/-- Perform the writes that the controllers held (R399). -/
def State.serveHeld (s : State) (k : StackId) : State :=
  let ws := (s.hbm.get k).held
  ws.foldl (fun s w => s.writeSector w.2.2 w.1 w.2.1) (s.updStack k fun x => { x with held := [] })

/-- `STACK_CATCHUP`: from OFFLINE; every granule of the carve is behind, and the sweep begins (R398, R405). -/
def execStackCatchup (stack : Fin 12) (s : State) : Result :=
  event (fun s =>
    if (s.hbm.get stack).state == .offline then
      some ((s.updStack stack fun x =>
        { x with state := .catchup, catchAll := true, catchOff := [], swept := 0 }).serveHeld stack)
    else none) s

/-- A line of the slices lies on a stack. -/
def State.onStack (s : State) (k : StackId) (l : MscLine) : Bool :=
  match s.region (128 * l.line) with
  | .hbm j _ => j == k
  | _ => false

/-- `STACK_FAILED`: from IN or OFFLINE while the other two are IN; held writes are lost, each an uncorrectable error, the
slices' dirty lines of the stack are discarded, and the loss is logged (R398, R399). -/
def execStackFailed (stack : Fin 12) (s : State) : Result :=
  event (fun s =>
    let st := (s.hbm.get stack).state
    if (st == .in_ || st == .offline) && s.matesIn stack then
      let lost : MscLine → Bool := fun l => s.onStack stack l && l.dirty != 0
      let s1 := (s.hbm.get stack).held.foldl (fun s h => s.countError h.1 false) s
      let s1 := s1.updStack stack fun x => { x with state := .failed, held := [] }
      some ((s1.logLosses (4096 * stack.val) lost).flushLine lost false false)
    else none) s

/-! ## Catch-up and scrubbing (R405, R406) -/

/-- Granules of a carve. -/
def State.granules (s : State) : Nat := s.majR / 64

/-- Read a granule's copies on the stacks of its triple that are IN: the good ones, and the stacks whose copy is
uncorrectable. Errors are counted, and correctable ones corrected (R395). -/
def State.readCopies (s : State) (t : Fin 4) (g : Nat) :
    List (StackId × Word × BitVec 512) × List StackId × State :=
  (s.inStacks t).foldl (fun r k =>
    let (good, bad, s) := r
    let c := (s.hbm.get k).copy g
    match c.err with
    | some false => (good, bad ++ [k], s.updStack k fun x => { x with uecnt := execStackReply.satInc x.uecnt })
    | some true => (good ++ [(k, c.tag, c.data)], bad,
        s.updStack k fun x => { x.setCopy { c with err := none } with cecnt := execStackReply.satInc x.cecnt })
    | none => (good ++ [(k, c.tag, c.data)], bad, s)) ([], [], s)

/-- Judge a copy on a list of stacks. -/
def State.judgeAll (s : State) (ks : List StackId) (g : Nat) (w : Word × BitVec 512) (key : Option (Ctx × Nat)) : State :=
  ks.foldl (fun s k => match (s.hbm.get k).judge g w.1 w.2 key with
    | some (x, _) => s.updStack k fun _ => x
    | none => s) s

/-- The key that the winner among good copies was written under: sweeps copy what is stored (R394, R405, R406). -/
def State.winnerKey (s : State) (good : List (StackId × Word × BitVec 512)) (g : Nat) (w : Word × BitVec 512) :
    Option (Ctx × Nat) :=
  ((good.find? fun r => r.2 == w).map fun r => ((s.hbm.get r.1).copy g).key).getD none

/-- Triple of a stack. -/
def tripleOf (k : StackId) : Fin 4 := ((List.finRange 4).find? fun t => (tripleStacks t).contains k).getD 0

/-- `CATCHUP_GRANULE`: the granule at the scrub pointer is brought up to date from the winner of the two IN copies;
after the last one the stack is IN (R405). A granule whose copies do not resolve is left as it is, DESIGN CHOICE
(assumption 17). -/
def execCatchupGranule (stack : Fin 12) (s : State) : Result :=
  event (fun s =>
    let x := s.hbm.get stack
    let n := s.granules
    let finish : Stack → Stack := fun x =>
      if n ≤ x.swept then { x with state := .in_, catchAll := false, catchOff := [], swept := 0 } else x
    if x.state != .catchup then none
    else if n ≤ x.swept then some (s.updStack stack finish).settleStores
    else
      let g := x.scrub % n
      let s1 :=
        if !x.behind g then s
        else
          let (good, bad, s1) := s.readCopies (tripleOf stack) g
          match voteOf good false with
          | .winner t d repair _ =>
            let key := s1.winnerKey good g (t, d)
            let s2 := s1.judgeAll (repair.toList ++ bad) g (t, d) key
            s2.updStack stack fun y => (y.setCopy { granule := g, data := d, tag := t, key := key }).caughtUp g
          | _ => s1
      some (s1.updStack stack fun y => finish { y with scrub := (g + 1) % n, swept := y.swept + 1 }).settleStores) s

/-- `SCRUB_VISIT`: the copies are read as a load reads them and repaired; a tag more than 2^47 ns old is refreshed
(R406). -/
def execScrubVisit (triple : Fin 4) (granule : Nat) (s : State) : Result :=
  event (fun s =>
    if s.granules ≤ granule || (s.inStacks triple).length < 2 then none
    else
      let (good, bad, s1) := s.readCopies triple granule
      match voteOf good false with
      | .winner t d _ _ =>
        let old := (good.filter fun r => tagNewer t r.2.1 || (r.2.1 == t && r.2.2 != d)).map fun r => r.1
        let key := s1.winnerKey good granule (t, d)
        let s2 := s1.judgeAll (old ++ bad) granule (t, d) key
        let now := s.ticks % 2 ^ 49
        let age := (now + 2 ^ 49 - wbits t 63 15) % 2 ^ 49
        if 2 ^ 47 < age then
          let tag : Word := BitVec.ofNat 64 ((now + 2 ^ 49 - 2 ^ 46) % 2 ^ 49 * 2 ^ 15)
          some (s2.judgeAll (tripleStacks triple) granule (tag, d) key)
        else some s2
      | _ => some s1) s

/-! ## Errors of stored sectors (R395) -/

/-- `MEMORY_ERROR`: a stored sector, or a granule's copy on a stack, takes an error (R395). An uncorrectable one
stays. -/
def execMemoryError (pa : Nat) (correctable : Bool) (copy : Option (Fin 12)) (s : State) : Result :=
  event (fun s =>
    match s.region pa, copy with
    | .hbm _ _, none =>
      if assoc s.errors (pa / 32) = some false then none
      else some { s with errors := assocSet s.errors (pa / 32) correctable }
    | .maj t off, some k =>
      if !(tripleStacks t).contains k then none
      else
        let c := (s.hbm.get k).copy (off / 64)
        if c.err = some false then none
        else some (s.updStack k fun x => x.setCopy { c with err := some correctable })
    | _, _ => none) s

end Sys2Proof.Machine
end

