-- ==== Sys2Proof/Machine/Entry.lean ====
section
/-! DEFINITION. What the control die reads from memory to start work: launch-queue entries (R331, R332, R335),
pipeline records and their installation (R234 to R236, R241), and node records (R336, R337). -/

namespace Sys2Proof.Machine

/-! ## Reading memory -/

/-- Read a range for the control die at the home slices, line by line (R334, R341). -/
def State.ctlRead (s : State) (ctx : Ctx) (va n : Nat) : CtlRead :=
  (lineRuns va (n + 1) n).foldl (fun g r =>
    match g with
    | .ok b s =>
      match s.ctlReadLine ctx (r.1 % 2 ^ 64) r.2 with
      | .ok b' s' => .ok (b ++ b') s'
      | g' => g'
    | g => g) (.ok [] s)

/-- An address lies on a normal page of a context that allows reads, or writes. -/
def State.normalPage (s : State) (ctx : Ctx) (va : Nat) (wr : Bool) : Bool :=
  vaValid va && match s.walk ctx va with
    | .fault _ _ _ => false
    | .leaf _ e => leafType e == some .normal && if wr then leafWr e else leafRd e

/-- An address lies on a normal page of a context, whatever its permissions (R337). -/
def State.onNormalPage (s : State) (ctx : Ctx) (va : Nat) : Bool :=
  vaValid va && match s.walk ctx va with
    | .fault _ _ _ => false
    | .leaf _ e => leafType e == some .normal

/-- A field of a record: bytes `i` to `i + n - 1`. -/
def fieldOf (b : List Byte) (i n : Nat) : Nat := ofLe ((b.drop i).take n)

/-- Bytes `i` to `j` of a record are 0. -/
def zeroBytes (b : List Byte) (i j : Nat) : Bool := ((b.drop i).take (j + 1 - i)).all fun x => x == 0

/-! ## Work packets (R331, R332) -/

/-- A type that FMTA and FMTB may hold. -/
def shadowType (n : Nat) : Option TileType :=
  match tileTypeOf n with
  | some .fmt => none
  | t => t

/-- The format fields of an entry are allowed (R332). -/
def formatsOk (b : List Byte) : Bool :=
  (shadowType (fieldOf b 48 1 % 16)).isSome && (convOf (fieldOf b 48 1 / 16 % 8)).isSome
    && (shadowType (fieldOf b 49 1)).isSome
    && ((shadowType (fieldOf b 50 1)).map fun t => !TileType.grouped t) == some true
    && fieldOf b 51 1 < 3

/-- How many values AFFV has for an affinity (R331). -/
def affLimit : Nat → Nat
  | 0 => 1 | 1 => 4 | 2 => 320 | 3 => 1280 | _ => 0

/-- A work packet's fields as an entry gives them. -/
structure EntryFields where
  packet : Packet := {}
  /-- PIPE, under STAGE. -/
  pipe : Option Word := none
  done : Word := 0
deriving DecidableEq, Repr

/-- A work-packet entry of a context's queue, when its fields pass the checks of R331 and R332. -/
def packetOf (ctx : Ctx) (b : List Byte) : Option EntryFields :=
  let stage := fieldOf b 7 1 == 1
  let ok := fieldOf b 0 1 == 0 && fieldOf b 1 1 < 32 && fieldOf b 2 1 == ctx.val
    && fieldOf b 4 2 < affLimit (fieldOf b 3 1) && 1 ≤ fieldOf b 6 1 && fieldOf b 6 1 ≤ 8 && fieldOf b 7 1 ≤ 1
    && fieldOf b 8 8 % 4 == 0 && vaValid (fieldOf b 8 8) && fieldOf b 24 1 ≤ 32 && zeroBytes b 25 25
    && fieldOf b 26 2 ≤ 127 && fieldOf b 28 2 ≤ 512 && fieldOf b 30 1 ≤ 8 && zeroBytes b 31 31
    && zeroBytes b 41 47 && formatsOk b && zeroBytes b 60 63 && fieldOf b 64 8 % 128 == 0 && zeroBytes b 72 127
    && (stage || (fieldOf b 6 1 == 1 && fieldOf b 32 8 == 0))
  if !ok then none
  else
    let fmts := [fieldOf b 48 1 % 128, fieldOf b 49 1, fieldOf b 50 1, fieldOf b 52 4, fieldOf b 56 4, fieldOf b 51 1]
    some {
      packet := {
        ctx := ctx, prio := BitVec.ofNat 5 (fieldOf b 1 1), affk := fieldOf b 3 1, affv := fieldOf b 4 2
        repl := fieldOf b 6 1, entry := BitVec.ofNat 64 (fieldOf b 8 8), args := BitVec.ofNat 64 (fieldOf b 16 8)
        vregs := fieldOf b 24 1 * 4, spad := fieldOf b 26 2 * 4096, qent := fieldOf b 28 2, rings := fieldOf b 30 1
        fmts := fmts.map (BitVec.ofNat 64), stno := fieldOf b 40 1 }
      pipe := if stage then some (BitVec.ofNat 64 (fieldOf b 32 8)) else none
      done := BitVec.ofNat 64 (fieldOf b 64 8) }

/-- A graph start's base, node count and priority (R335). -/
def graphOf (ctx : Ctx) (b : List Byte) : Option (Word × Nat × BitVec 5) :=
  let n := fieldOf b 16 2
  if fieldOf b 0 1 == 1 && fieldOf b 1 1 < 32 && fieldOf b 2 1 == ctx.val && zeroBytes b 3 7
      && fieldOf b 8 8 % 64 == 0 && 1 ≤ n && n ≤ 4096 && zeroBytes b 18 127 then
    some (BitVec.ofNat 64 (fieldOf b 8 8), n, BitVec.ofNat 5 (fieldOf b 1 1))
  else none

/-! ## Pipeline records (R235, R236) -/

/-- How an access of the control die to a record ends. -/
inductive Parsed (α : Type)
  | ok (a : α) (s : State)
  | wait
  | bad (s : State)

/-- A ring record as read: producer, consumer, handles, mode, log2 of slots, landing bytes, boom and its size. -/
structure RingRec where
  prod : Nat := 0
  cons : Nat := 0
  hprod : Nat := 0
  hcons : Nat := 0
  sequenced : Bool := false
  log : Nat := 1
  landing : Nat := 0
  boom : Nat := 0
  boomSize : Nat := 0
deriving DecidableEq, Repr

/-- A binding record among stages with these templates (R235). -/
def bindingOf (st : List Packet) (b : List Byte) : Option (Nat × Nat × Nat × Nat × Nat) :=
  let (p, c) := (fieldOf b 0 1, fieldOf b 1 1)
  match st[p]?, st[c]? with
  | some x, some y =>
    if p != c && x.affk == 3 && y.affk == 3 && x.affv == y.affv && x.repl == 1 && y.repl == 1
        && fieldOf b 2 1 < 32 && fieldOf b 3 1 < 32 && 1 ≤ fieldOf b 4 2 && fieldOf b 4 2 ≤ 512 && zeroBytes b 6 15 then
      some (p, c, fieldOf b 2 1, fieldOf b 3 1, fieldOf b 4 2)
    else none
  | _, _ => none

/-- A ring record among stages with these templates (R235). -/
def ringOf (st : List Packet) (b : List Byte) : Option RingRec :=
  let r : RingRec := {
    prod := fieldOf b 0 1, cons := fieldOf b 1 1, hprod := fieldOf b 2 1, hcons := fieldOf b 3 1
    sequenced := fieldOf b 4 1 == 1, log := fieldOf b 5 1, landing := fieldOf b 6 2 * 4096, boom := fieldOf b 8 8
    boomSize := fieldOf b 16 8 }
  match st[r.prod]?, st[r.cons]? with
  | some x, some _ =>
    if r.hprod < 8 && r.hcons < 8 && fieldOf b 4 1 ≤ 1 && (r.sequenced || x.repl == 1) && 1 ≤ r.log && r.log ≤ 16
        && 4096 ≤ r.landing && r.landing ≤ 128 * 4096 && r.boom % 65536 == 0 && 128 * 2 ^ r.log ≤ r.boomSize
        && zeroBytes b 24 31 then some r
    else none
  | _, _ => none

/-- Cut bytes into records. -/
def recordsOf (size : Nat) (b : List Byte) : List (List Byte) :=
  (List.range (b.length / size)).map fun i => (b.drop (size * i)).take size

/-- All the values of a list of options, when every one is there. -/
def allSome {α : Type} (l : List (Option α)) : Option (List α) :=
  l.foldr (fun x r => match x, r with
    | some a, some t => some (a :: t)
    | _, _ => none) (some [])

/-- Every page of a ring's boom, over the whole size that its record gives, is a normal page of the context (R241). -/
def State.boomOk (s : State) (ctx : Ctx) (r : RingRec) : Bool :=
  r.boomSize < 2 ^ 48 && (List.range (ceilDiv r.boomSize 65536)).all fun i =>
    let va := (r.boom + 65536 * i) % 2 ^ 64
    s.normalPage ctx va true && s.normalPage ctx va false

/-- Read and check a pipeline record (R235, R236): stage templates, binding records and ring records. -/
def State.readPipe (s : State) (ctx : Ctx) (pipe : Word) :
    Parsed (List Packet × List (Nat × Nat × Nat × Nat × Nat) × List RingRec) :=
  if pipe.toNat % 64 ≠ 0 then .bad s
  else match s.ctlRead ctx pipe.toNat 64 with
    | .wait => .wait
    | .fault s => .bad s
    | .ok h s =>
      let (n, nb, nr) := (fieldOf h 0 2, fieldOf h 2 2, fieldOf h 4 2)
      let (ta, ba, ra) := (fieldOf h 8 8, fieldOf h 16 8, fieldOf h 24 8)
      if n = 0 ∨ 32 < n ∨ 512 < nb ∨ 128 < nr ∨ !zeroBytes h 6 7 ∨ !zeroBytes h 32 63
          ∨ (nb = 0 ∧ ba ≠ 0) ∨ (nr = 0 ∧ ra ≠ 0) then .bad s
      else match s.ctlRead ctx ta (128 * n) with
        | .wait => .wait
        | .fault s => .bad s
        | .ok tb s =>
          match s.ctlRead ctx ba (16 * nb) with
          | .wait => .wait
          | .fault s => .bad s
          | .ok bb s =>
            match s.ctlRead ctx ra (32 * nr) with
            | .wait => .wait
            | .fault s => .bad s
            | .ok rb s =>
              match allSome ((recordsOf 128 tb).map (packetOf ctx)) with
              | none => .bad s
              | some es =>
                let st := es.map EntryFields.packet
                match allSome ((recordsOf 16 bb).map (bindingOf st)), allSome ((recordsOf 32 rb).map (ringOf st)) with
                | some bs, some rs => if rs.all (s.boomOk ctx) then .ok (st, bs, rs) s else .bad s
                | _, _ => .bad s

/-! ## Scratchpad that is free (R99, R241, R345) -/

/-- Runs of a core's scratchpad that are taken: allotments, landings and the supervisor's page (R321). -/
def Core.spadTaken (x : Core) : List (Nat × Nat) :=
  (0x7F000, 0x1000) :: x.stages.map StageAlloc.spad ++ x.landings
    ++ x.slots.toList.filterMap fun t => if t.present && t.spsize != 0 then some (t.spbase.toNat, t.spsize.toNat) else none

/-- Two runs have no place in common. -/
def apart (a b : Nat × Nat) : Bool := b.2 = 0 || a.2 = 0 || a.1 + a.2 ≤ b.1 || b.1 + b.2 ≤ a.1

/-- The lowest free run of `n` bytes of scratchpad, in pages of 4 KiB. -/
def Core.freeSpadRun (x : Core) (n : Nat) : Option Nat :=
  (leastBelow 128 fun p => 4096 * p + n ≤ 0x80000 && x.spadTaken.all fun t => apart (4096 * p, n) t).map (· * 4096)

/-- Set a ring's landing aside on a core, every header with VALID 0 (R241); `none` while the core has no free run. -/
def State.land (s : State) (r : Ring) (c : CoreId) : Option (State × Nat) :=
  ((s.core c).freeSpadRun r.landSize).map fun base =>
    let clear := fun (x : Core) (i : Nat) => x.writeSpad (base + 128 * i) (List.replicate 8 0)
    (s.updCore c fun x => (List.range r.landCells).foldl clear { x with landings := x.landings ++ [(base, r.landSize)] }, base)

/-! ## Installation (R236) -/

/-- The headers of a ring's boom cells written with VALID 0 (R241); none while one of them cannot be written. -/
def State.clearBoom (s : State) (r : Ring) : Option State :=
  (List.range r.slots).foldl (fun s i =>
    s.bind fun s => s.ctlWrite r.ctx ((r.boom + 128 * i) % 2 ^ 64) (List.replicate 8 0)) (some s)

/-- Install one ring of an installation (R236, R241): its landing is set aside at once when the consumer's affinity
names a core. -/
def State.addRing (s : State) (inst : Nat) (ctx : Ctx) (st : List Packet) (q : RingRec) : Option (State × Nat) :=
  let (id, s) := s.fresh
  let r : Ring := {
    id := id, inst := inst, ctx := ctx, prodStage := q.prod, consStage := q.cons, sequenced := q.sequenced
    slotsLog := q.log, landSize := q.landing, boom := q.boom }
  let cons := st.getD q.cons {}
  (s.clearBoom r).bind fun s =>
    if cons.affk = 3 then
      let c := finOf 1280 cons.affv
      (s.land r c).map fun p => ({ p.1 with rings := p.1.rings ++ [{ r with land := some (c, p.2) }] }, id)
    else some ({ s with rings := s.rings ++ [r] }, id)

/-- Install the rings of a record in order. -/
def State.addRings (s : State) (inst : Nat) (ctx : Ctx) (st : List Packet) : List RingRec →
    Option (State × List (Nat × Nat × Nat × Nat × Nat))
  | [] => some (s, [])
  | q :: rest =>
    match s.addRing inst ctx st q with
    | none => none
    | some (s, id) => (s.addRings inst ctx st rest).map fun p => (p.1, (id, q.prod, q.cons, q.hprod, q.hcons) :: p.2)

/-- The installation that a packet's PIPE names: the live one, or a new one (R236). A landing that finds no free
scratchpad, or a boom whose headers cannot be written, holds the packet back, DESIGN CHOICE (assumption 18). -/
def State.installFor (s : State) (ctx : Ctx) (pipe : Word) : Parsed Install :=
  match s.installs.find? fun i => i.ctx == ctx && i.pipe == pipe with
  | some i => .ok i s
  | none =>
    match s.readPipe ctx pipe with
    | .wait => .wait
    | .bad s => .bad s
    | .ok (st, bs, rs) s =>
      let (id, s) := s.fresh
      match s.addRings id ctx st rs with
      | none => .wait
      | some (s, ids) =>
        let i : Install := { id := id, ctx := ctx, pipe := pipe, stages := st, bindings := bs, rings := ids }
        .ok i { s with installs := s.installs ++ [i] }

/-! ## Node records (R336, R337) -/

/-- What a node record holds in bytes 0 to 23 (R336). -/
def nodeKind (b : List Byte) : Option NodeKind :=
  let w := BitVec.ofNat 64 (fieldOf b 8 8)
  match fieldOf b 0 1 with
  | 0 => if zeroBytes b 1 1 && zeroBytes b 16 23 then some (.launch w) else none
  | 1 => if zeroBytes b 1 1 && zeroBytes b 20 23 then some (.cond w (fieldOf b 16 2) (fieldOf b 18 2)) else none
  | 2 =>
    let n := fieldOf b 20 4
    if zeroBytes b 1 1 && 1 ≤ n && n ≤ 65535 then some (.loop w (fieldOf b 16 2) (fieldOf b 18 2) n) else none
  | 3 => if fieldOf b 1 1 ≤ 1 && zeroBytes b 16 23 then some (.completion w (fieldOf b 1 1 == 1)) else none
  | _ => none

/-- A node record (R336). -/
def nodeOf (b : List Byte) : Option Node :=
  let n := fieldOf b 24 2
  match nodeKind b with
  | none => none
  | some k =>
    if zeroBytes b 4 7 && zeroBytes b 26 31 && n ≤ 16 && zeroBytes b (32 + 2 * n) 63 then
      some { kind := k, preds := fieldOf b 2 2, succs := (List.range n).map fun i => fieldOf b (32 + 2 * i) 2 }
    else none

/-- The range of a loop node. -/
def Node.range (x : Node) : Option (Nat × Nat) :=
  match x.kind with
  | .loop _ f l _ => some (f, l)
  | _ => none

/-- A node number lies in a range. -/
def inRange (r : Nat × Nat) (i : Nat) : Bool := r.1 ≤ i && i ≤ r.2

/-- The ranges of a graph's loops. -/
def rangesOf (l : List Node) : List (Nat × Nat) := l.filterMap Node.range

/-- The node is a `then` or an `else` (R337). -/
def isBranch (l : List Node) (i : Nat) : Bool :=
  l.any fun x => match x.kind with
    | .cond _ t e => t == i || e == i
    | _ => false

/-- Predecessors of a node. -/
def predsOf (l : List Node) (i : Nat) : List Nat :=
  (List.range l.length).flatMap fun j => ((l.getD j {}).succs.filter fun k => k == i).map fun _ => j

/-- The nodes that can be reached from a node by at most `n` edges include `i`. -/
def reaches (l : List Node) (i : Nat) : Nat → List Nat → Bool
  | 0, _ => false
  | n + 1, js =>
    let next := (js.flatMap fun j => (l.getD j {}).succs).eraseDups
    next.contains i || (!next.isEmpty && reaches l i n next)

/-- Two ranges are disjoint or nested (R337). -/
def rangesFit (a b : Nat × Nat) : Bool :=
  a.2 < b.1 || b.2 < a.1 || (a.1 ≤ b.1 && b.2 ≤ a.2) || (b.1 ≤ a.1 && a.2 ≤ b.2)

/-- A node meets the limits of R46 and R337 within its graph. R337 names R46 beside its own limits; that the sequencer
faults a graph that breaks R46 itself is DEDUCED from that (assumption 77). -/
def State.nodeOk (s : State) (ctx : Ctx) (l : List Node) (i : Nat) (x : Node) : Bool :=
  let n := l.length
  let rs := rangesOf l
  x.succs.all (· < n) && x.preds == (predsOf l i).length && !reaches l i n [i]
    && rs.all (fun r => x.succs.all fun j => inRange r i == inRange r j)
    && (!isBranch l i || (x.preds == 0 && x.succs.isEmpty))
    && (rs.filter fun r => inRange r i).length ≤ 4
    && match x.kind with
      | .launch _ => true
      | .cond p t e =>
        t < n && e < n && rs.all (fun r => !inRange r i || (inRange r t && inRange r e))
          && p.toNat % 8 == 0 && s.onNormalPage ctx p.toNat
      | .loop p f k _ =>
        f ≤ k && k < n && !inRange (f, k) i && rs.all (rangesFit (f, k))
          && p.toNat % 8 == 0 && s.onNormalPage ctx p.toNat
      | .completion o _ => o.toNat % 128 == 0 && s.onNormalPage ctx o.toNat

/-- Read every node record of a graph: the records, or the first that cannot be read or breaks R336. -/
def State.readNodes (s : State) (ctx : Ctx) (base : Word) (n : Nat) : Parsed (List Node × Option Nat) :=
  (List.range n).foldl (fun g i =>
    match g with
    | .ok (l, none) s =>
      match s.ctlRead ctx ((base.toNat + 64 * i) % 2 ^ 64) 64 with
      | .wait => .wait
      | .fault s => .ok (l, some i) s
      | .ok b s =>
        match nodeOf b with
        | some x => .ok (l ++ [x], none) s
        | none => .ok (l, some i) s
    | g => g) (.ok ([], none) s)

end Sys2Proof.Machine
end

