-- ==== Sys2Proof/Machine/Launch.lean ====
section
/-! DEFINITION. Launch queues and graphs: taking entries (R333, R334), placing packets (R331, R336, R343), walking
graphs (R335, R338 to R342) and completion (R339). -/

namespace Sys2Proof.Machine

/-! ## Queue registers (R333) -/

/-- Entries of a context's queue. -/
def Context.ringSize (x : Context) : Nat := 2 ^ x.lqlog.toNat

/-- A write of LQTAIL (R333): one that would leave more entries than the ring has is ignored. -/
def State.writeTail (s : State) (ctx : Ctx) (v : Word) : State :=
  s.updCtx ctx fun x =>
    let t : BitVec 32 := v.setWidth 32
    if x.ringSize < (t - x.lqhead).toNat then x else { x with lqtail := t }

/-- A write of LQCFG (R333): EN at any time, LOG2N only while EN is 0 and within 4 to 15. -/
def State.writeCfg (s : State) (ctx : Ctx) (v : Word) : State :=
  s.updCtx ctx fun x =>
    let n : BitVec 4 := v.setWidth 4
    { x with lqlog := if x.lqen || n.toNat < 4 then x.lqlog else n, lqen := v.getLsbD 8 }

/-- `LQTAIL_WRITE`: the host or Kamgor writes TAIL (R333). -/
def execLqtailWrite (ctx : Fin 64) (v : RegWord) (s : State) : Result :=
  .next (s.controlWrite v.host (some (0x1000 * ctx.val + 0x10)) fun s => s.writeTail ctx v.v)

/-- `LQCFG_WRITE`: the host or Kamgor writes LQCFG (R333). -/
def execLqcfgWrite (ctx : Fin 64) (v : RegWord) (s : State) : Result :=
  .next (s.controlWrite v.host (some (0x1000 * ctx.val + 0x08)) fun s => s.writeCfg ctx v.v)

/-! ## Ready lists (R334) -/

/-- Priority of an entry of a ready list. -/
def Listed.prio : Listed → BitVec 5
  | .packet p => p.prio
  | .graph _ _ p _ => p

/-- An entry enters a list behind those of its priority and above (R334). -/
def addListed (l : List Listed) (e : Listed) : List Listed :=
  let ahead := l.takeWhile fun x => e.prio.toNat ≤ x.prio.toNat
  ahead ++ e :: l.drop ahead.length

/-- The next take order. -/
def State.nextSeq (s : State) : Nat × State := (s.takeSeq, { s with takeSeq := s.takeSeq + 1 })

/-- Place a work packet in its context's ready list, with its launch where its completion is watched, and its
installation under STAGE (R236, R334, R339). -/
def State.placePacket (s : State) (ctx : Ctx) (b : List Byte) (node : Option (Nat × Nat)) : Parsed Unit :=
  match packetOf ctx b with
  | none => .bad s
  | some e =>
    if e.done ≠ 0 ∧ !s.normalPage ctx e.done.toNat true then .bad s
    else
      let go := fun (p : Packet) (s : State) =>
        let (id, s) := s.fresh
        let (seq, s) := s.nextSeq
        let watched := e.done != 0 || node.isSome
        let launch : Launch := { id := id, ctx := ctx, done := e.done, node := node, live := 1 }
        let s := if watched then { s with launches := s.launches ++ [launch] } else s
        let p := { p with id := id, seq := seq, launch := if watched then some id else none }
        s.updCtx ctx fun x => { x with list := addListed x.list (.packet p) }
      match e.pipe with
      | none => .ok () (go e.packet s)
      | some pipe =>
        match s.installFor ctx pipe with
        | .wait => .wait
        | .bad s => .bad s
        | .ok i s =>
          if e.packet.stno < i.stages.length then .ok () (go { e.packet with inst := some i.id } s) else .bad s

/-- The entry at HEAD is refused: it is counted and starts nothing (R332 to R334). -/
def State.refuseEntry (s : State) (ctx : Ctx) : State :=
  s.updCtx ctx fun x => { x with
    refd := true, refused := if x.refused = BitVec.allOnes 16 then x.refused else x.refused + 1 }

/-- HEAD moves on (R334). -/
def State.passEntry (s : State) (ctx : Ctx) : State := s.updCtx ctx fun x => { x with lqhead := x.lqhead + 1 }

/-- Take the bytes of an entry; `none` while a stack or a landing holds it back. -/
def State.takeBytes (s : State) (ctx : Ctx) (b : List Byte) : Option State :=
  match graphOf ctx b with
  | some (base, n, prio) =>
    let (seq, s) := s.nextSeq
    some (s.updCtx ctx fun x => { x with list := addListed x.list (.graph base n prio seq) })
  | none =>
    match s.placePacket ctx b none with
    | .ok () s => some s
    | .wait => none
    | .bad s => some (s.refuseEntry ctx)

/-- `TAKE_ENTRY`: the control die reads and checks the entry at HEAD (R334). -/
def execTakeEntry (ctx : Fin 64) (s : State) : Result :=
  event (fun s => do
    let x := s.ctxs.get ctx
    if !x.live || x.ending || !x.lqen || x.lqhead == x.lqtail then none
    else
      let va := (x.lqbase.toNat + 128 * (x.lqhead.toNat % x.ringSize)) % 2 ^ 64
      match s.ctlRead ctx va 128 with
      | .wait => none
      | .fault s => pure ((s.refuseEntry ctx).passEntry ctx)
      | .ok b s => do
        let s ← s.takeBytes ctx b
        pure (s.passEntry ctx)) s

/-! ## Packets to the dies (R334, R343) -/

/-- The launch of a packet belongs to a graph node. -/
def State.ofNode (s : State) (p : Packet) : Bool :=
  s.launches.any fun l => some l.id == p.launch && l.node.isSome

/-- The packet of a context that goes to a die next: at the head of its list. Behind a fifth graph start the packets
that nodes of running graphs placed go on, DEDUCED (assumption 19): those graphs could not end without them. -/
def State.nextPacket (s : State) (ctx : Ctx) : Option Packet :=
  let x := s.ctxs.get ctx
  match x.list with
  | .packet p :: _ => some p
  | .graph _ _ _ _ :: rest =>
    if x.graphs.length < 4 then none
    else rest.findSome? fun l => match l with
      | .packet p => if s.ofNode p then some p else none
      | .graph _ _ _ _ => none
  | [] => none

/-- Place of a context in the rotation after the one served last (R334). -/
def State.turn (s : State) (ctx : Ctx) : Nat := (ctx.val + 63 - s.lastCtx.val) % 64

/-- The context that the control die serves next: the highest priority, then the rotation (R334). -/
def State.served (s : State) : Option Ctx :=
  (List.finRange 64).foldl (fun best c =>
    match s.nextPacket c with
    | none => best
    | some p =>
      match best with
      | none => some c
      | some d =>
        let q := (s.nextPacket d).getD {}
        if q.prio.toNat < p.prio.toNat || (q.prio == p.prio && s.turn c < s.turn d) then some c else best) none

/-- The die that a packet goes to (R343); `any` avoids dies in reset (R369). -/
def State.dieFor (s : State) (p : Packet) : Option DieId :=
  match p.affk with
  | 0 =>
    s.liveDies.foldl (fun best d =>
      match best with
      | none => some d
      | some e => if (s.dies.get d).ready.length < (s.dies.get e).ready.length then some d else best) none
  | 1 => some (finOf 4 p.affv)
  | 2 => some (finOf 4 (p.affv / 80))
  | _ => some (finOf 4 (p.affv / 320))

/-- A packet enters a ready queue: by priority, then by take order (R343). -/
def addReady (l : List Packet) (p : Packet) : List Packet :=
  let ahead := l.takeWhile fun q => p.prio.toNat < q.prio.toNat || (q.prio == p.prio && q.seq ≤ p.seq)
  ahead ++ p :: l.drop ahead.length

/-- A packet's affinity admits a core (R331). -/
def Packet.admits (p : Packet) (c : CoreId) : Bool :=
  match p.affk with
  | 0 => true
  | 1 => p.affv == c.val / 320
  | 2 => p.affv == c.val / 4
  | _ => p.affv == c.val

/-- The cores of a die. -/
def coresOf (d : DieId) : List CoreId := (List.range 320).map fun i => finOf 1280 (d.val * 320 + i)

/-- A core counts skips against its head packet alone: with another head the count returns to 0 (R347). -/
def Core.checkHead (x : Core) (ready : List Packet) (c : CoreId) : Core :=
  match x.skips.2 with
  | none => x
  | some h => if (ready.find? fun p => p.admits c).map Packet.id = some h then x else { x with skips := (0, none) }

/-- The heads of a die's cores after a change of its ready queue (R347). -/
def State.checkHeads (s : State) (d : DieId) : State :=
  let ready := (s.dies.get d).ready
  if (coresOf d).all fun c => (s.core c).skips.2.isNone then s
  else { s with cores := .ofFn fun c => if dieOf c = d then (s.core c).checkHead ready c else s.core c }

/-- A packet in a die's ready queue. -/
def State.toDie (s : State) (d : DieId) (p : Packet) : State :=
  (s.updDie d fun x => { x with ready := addReady x.ready p }).checkHeads d

/-- `PACKET_TO_DIE`: the context served next gives its packet to a die (R334, R343); it waits while the die's crossings are
stalled (R365). -/
def execPacketToDie (ctx : Fin 64) (s : State) : Result :=
  event (fun s => do
    let p ← s.nextPacket ctx
    let d ← s.dieFor p
    if s.served != some ctx || (s.dies.get d).stallEnd.isSome then none
    else
      let keep : Listed → Bool := fun l => match l with
        | .packet q => q.id != p.id
        | .graph _ _ _ _ => true
      pure ({ (s.updCtx ctx fun x => { x with list := x.list.filter keep }).toDie d p with lastCtx := ctx })) s

/-! ## Graph state -/

/-- A graph of a context. -/
def Context.graph (x : Context) (id : Nat) : Option Graph := x.graphs.find? fun g => g.id == id

/-- The state with a graph of a context changed. -/
def State.updGraph (s : State) (ctx : Ctx) (id : Nat) (f : Graph → Graph) : State :=
  s.updCtx ctx fun x => { x with graphs := mapIf (fun g => g.id == id) f x.graphs }

/-- A node of a graph. -/
def Graph.node (g : Graph) (i : Nat) : Node := g.nodes.getD i {}

/-- A graph with a node's state set. -/
def Graph.setState (g : Graph) (i : Nat) (st : NodeState) : Graph :=
  { g with nodes := g.nodes.set i { g.node i with state := st } }

/-- The loop nodes whose range holds a node. -/
def Graph.loopsOver (g : Graph) (i : Nat) : List Nat :=
  (List.range g.nodes.length).filter fun j => match (g.node j).range with
    | some r => inRange r i
    | none => false

/-- The innermost loop over a node. -/
def Graph.innermost (g : Graph) (i : Nat) : Option Nat :=
  (g.loopsOver i).foldl (fun best j =>
    match best with
    | none => some j
    | some k =>
      let width := fun n => match (g.node n).range with
        | some r => r.2 - r.1
        | none => 0
      if width j < width k then some j else best) none

/-- The innermost loop over a node has started, where there is one. -/
def Graph.inPass (g : Graph) (i : Nat) : Bool :=
  match g.innermost i with
  | some j => (g.node j).state == .started
  | none => true

/-- A node is ready to start (R338): a `then` or an `else` once its conditional has chosen it, whatever range it lies
in. -/
def Graph.ready (g : Graph) (i : Nat) : Bool :=
  !g.faulted && i < g.nodes.length
    && if isBranch g.nodes i then (g.node i).state == .chosen
       else g.inPass i && (g.node i).state == .idle && (predsOf g.nodes i).all fun p => (g.node p).state == .complete

/-- A graph with a range reset for a pass (R340). Only a node that a conditional outside the range has chosen can stand
chosen or started then; it stays so, DEDUCED (assumption 91). -/
def Graph.resetRange (g : Graph) (r : Nat × Nat) : Graph :=
  let kept := fun (x : Node) => x.state == .chosen || x.state == .started
  { g with nodes := g.nodes.zipIdx.map fun p =>
      if inRange r p.2 && !kept p.1 then { p.1 with state := .idle, pass := 0, choice := none } else p.1 }

/-- Conditional nodes whose chosen node has completed complete (R339). -/
def Graph.settle (g : Graph) : Nat → Graph
  | 0 => g
  | n + 1 =>
    let due := fun (x : Node) => x.state == .started && match x.choice with
      | some i => (g.node i).state == .complete
      | none => false
    if g.nodes.any due then
      Graph.settle { g with nodes := g.nodes.map fun x => if due x then { x with state := .complete } else x } n
    else g

/-- A node has completed. -/
def Graph.completeNode (g : Graph) (i : Nat) : Graph := (g.setState i .complete).settle (g.nodes.length + 1)

/-- A conditional node starts and chooses a node (R339). A node that another conditional has chosen already is not
started a second time, DEDUCED (assumption 91). -/
def Graph.choose (g : Graph) (node i : Nat) : Graph :=
  let g := { g with nodes := g.nodes.set node { g.node node with state := .started, choice := some i } }
  (if (g.node i).state == .idle then g.setState i .chosen else g).settle (g.nodes.length + 1)

/-- A node that runs by itself: a launch or a completion. -/
def Node.runs (x : Node) : Bool :=
  match x.kind with
  | .launch _ => true
  | .completion _ _ => true
  | _ => false

/-- Every node that the graph started has completed, and none starts any more (R339, R342). -/
def Graph.over (g : Graph) : Bool :=
  if g.faulted then g.nodes.all fun x => x.state != .started || !x.runs
  else (g.nodes.all fun x => x.state != .started && x.state != .chosen)
    && (List.range g.nodes.length).all fun i => !g.ready i

/-- A graph that has ended leaves its context. -/
def State.endGraphs (s : State) (ctx : Ctx) : State :=
  s.updCtx ctx fun x => { x with graphs := x.graphs.filter fun g => !g.over }

/-- A graph stops on a fault at a node (R342). -/
def State.graphFault (s : State) (ctx : Ctx) (id node : Nat) : State :=
  let s := s.updGraph ctx id fun g => { g with faulted := true }
  let s := (s.updCtx ctx fun x => { x with gfault := true, faultNode := BitVec.ofNat 16 node }).raise ctx 1
  s.endGraphs ctx

/-- A context's graphs start nodes: it is neither pre-empted nor ended (R342, R369). -/
def State.graphsRun (s : State) (ctx : Ctx) : Bool :=
  (s.ctxs.get ctx).live && !(s.ctxs.get ctx).ending && (s.ctxs.get ctx).runState == .running

/-- `GRAPH_START`: the sequencer takes the graph start at the head of the list and checks every record before any
node starts (R335, R337, R342). -/
def execGraphStart (ctx : Fin 64) (s : State) : Result :=
  event (fun s => do
    let x := s.ctxs.get ctx
    match x.list with
    | .graph base n prio _ :: rest =>
      if 4 ≤ x.graphs.length then none
      else match s.readNodes ctx base n with
        | .ok (l, bad) s =>
          let s := s.updCtx ctx fun x => { x with list := rest }
          let bad := bad.or (leastBelow n fun i => !s.nodeOk ctx l i (l.getD i {}))
          match bad with
          | some i =>
            pure ((s.updCtx ctx fun x => { x with gfault := true, faultNode := BitVec.ofNat 16 i }).raise ctx 1)
          | none =>
            let (id, s) := s.fresh
            let g : Graph := { id := id, prio := prio, nodes := l }
            pure ((s.updCtx ctx fun x => { x with graphs := x.graphs ++ [g] }).endGraphs ctx)
        | _ => none
    | _ => none) s

/-- The predicate word of a node at its home slice (R341). -/
def State.predicate (s : State) (ctx : Ctx) (p : Word) : Parsed Nat :=
  match s.ctlRead ctx p.toNat 8 with
  | .ok b s => .ok (ofLe b) s
  | .wait => .wait
  | .fault s => .bad s

/-- Start a launch node: its template is read, checked and placed (R336, R339). -/
def State.startLaunch (s : State) (ctx : Ctx) (id node : Nat) (template : Word) : Option State :=
  match s.ctlRead ctx template.toNat 128 with
  | .wait => none
  | .fault s => some (s.graphFault ctx id node)
  | .ok b s =>
    if template.toNat % 128 ≠ 0 then some (s.graphFault ctx id node)
    else match s.placePacket ctx b (some (id, node)) with
      | .wait => none
      | .bad s => some (s.graphFault ctx id node)
      | .ok () s => some (s.updGraph ctx id fun g => g.setState node .started)

/-- `NODE_START`: a ready node of a running graph starts (R338, R339). -/
def execNodeStart (ctx : Fin 64) (graph : Nat) (node : Nat) (s : State) : Result :=
  event (fun s => do
    let g ← (s.ctxs.get ctx).graph graph
    if !s.graphsRun ctx || !g.ready node then none
    else match (g.node node).kind with
      | .launch t => s.startLaunch ctx graph node t
      | .cond p t e =>
        match s.predicate ctx p with
        | .wait => none
        | .bad s => pure (s.graphFault ctx graph node)
        | .ok v s => pure ((s.updGraph ctx graph fun g => g.choose node (if v ≠ 0 then t else e)).endGraphs ctx)
      | .loop _ f l _ =>
        pure (s.updGraph ctx graph fun g =>
          let g := (g.setState node .started).resetRange (f, l)
          { g with nodes := g.nodes.set node { g.node node with pass := 1 } })
      | .completion _ _ => pure (s.updGraph ctx graph fun g => g.setState node .started)) s

/-! ## Completion (R339) -/

/-- Something that a launch's threads sent or issued is not done: a request, or an engine command. -/
def State.launchBusy (s : State) (id : Nat) : Bool :=
  let runs := fun (x : Core) => x.cmds.any fun m => m.launch == some id
  (s.net.any fun m => m.launch == some id) || s.cores.toList.any runs
    || s.ctxs.toList.any fun y => y.savedCores.any fun e => runs e.core || e.replay.any fun m => m.launch == some id

/-- A launch has completed (R339). -/
def State.launchOver (s : State) (id : Nat) : Bool :=
  match s.launches.find? fun l => l.id == id with
  | some l => l.live = 0 && !s.launchBusy id
  | none => false

/-- `LOOP_PASS_END`: every node started in the pass has completed, and the predicate decides (R340). -/
def execLoopPassEnd (ctx : Fin 64) (graph : Nat) (node : Nat) (s : State) : Result :=
  event (fun s => do
    let g ← (s.ctxs.get ctx).graph graph
    let x := g.node node
    match x.kind with
    | .loop p f l limit =>
      let quiet := (List.range g.nodes.length).all fun i => !inRange (f, l) i
        || (!g.ready i && (g.node i).state != .started && (g.node i).state != .chosen)
      if !s.graphsRun ctx || g.faulted || x.state != .started || !quiet then none
      else match s.predicate ctx p with
        | .wait => none
        | .bad s => pure (s.graphFault ctx graph node)
        | .ok v s =>
          if v ≠ 0 ∧ x.pass < limit then
            pure (s.updGraph ctx graph fun g =>
              let g := g.resetRange (f, l)
              { g with nodes := g.nodes.set node { g.node node with pass := x.pass + 1 } })
          else pure ((s.updGraph ctx graph fun g => g.completeNode node).endGraphs ctx)
    | _ => none) s

/-- Write a completion object in one step at its home and wake every registration of the context on its value word
(R339): bytes 0 to 7 become 1, and the count in bytes 8 to 15 grows by 1. -/
def State.signalObject (s : State) (ctx : Ctx) (va : Nat) : Parsed Unit :=
  if !s.normalPage ctx va true || !(s.ctxs.get ctx).keyLive then .bad s
  else match s.walk ctx va with
    | .fault _ _ _ => .bad s
    | .leaf level e =>
      let pa := leafPa level e va
      match (s.markLeaf ctx level va (leafUsed e true)).homeRead .management ctx 0 pa 128 .norm false with
      | .heldBack => .wait
      | .refused s => .bad s
      | .error _ s => .bad s
      | .ok b s =>
        let b := (releasedObject b (leBytes 8 1) 0 true).take 16
        let s := s.homeWrite .management ctx 0 pa b .norm false
        .ok () (s.wake (s.homeOf ctx 0 (pa / 128)) ctx va true).2

/-- `LAUNCH_NODE_COMPLETE`: every thread of the node has retired and everything they sent and issued is done. A DONE object
that its packet names is written with the completion; one that cannot be written sets DFAULT (R339). -/
def execLaunchNodeComplete (ctx : Fin 64) (graph : Nat) (node : Nat) (s : State) : Result :=
  event (fun s => do
    let l ← s.launches.find? fun l => l.ctx == ctx && l.node == some (graph, node)
    if !s.launchOver l.id then none
    else
      let ended := fun (s : State) =>
        let s := { s with launches := s.launches.filter fun x => x.id != l.id }
        (s.updGraph ctx graph fun g => g.completeNode node).endGraphs ctx
      if l.done = 0 then pure (ended s)
      else match s.signalObject ctx l.done.toNat with
        | .wait => none
        | .bad s => pure (ended (s.updCtx ctx fun x => { x with dfault := true }))
        | .ok () s => pure (ended s)) s

/-- The completion object of a graph's node. -/
def Graph.object (g : Graph) (node : Nat) : Option (Word × Bool) :=
  match (g.node node).kind with
  | .completion o irq => if (g.node node).state == .started then some (o, irq) else none
  | _ => none

/-- `COMPLETION_OBJECT_WRITE`: a completion node's object is written, or the DONE object of a completed packet; the
launch of a packet is then named in place of a graph (R339, R342). -/
def execCompletionObjectWrite (ctx : Fin 64) (graph : Nat) (node : Nat) (s : State) : Result :=
  event (fun s =>
    match (s.ctxs.get ctx).graph graph with
    | some g =>
      match g.object node with
      | none => none
      | some (o, irq) =>
        match s.signalObject ctx o.toNat with
        | .wait => none
        | .bad s =>
          some ((s.updGraph ctx graph fun g => g.setState node .complete).graphFault ctx graph node)
        | .ok () s =>
          let s := (s.updGraph ctx graph fun g => g.completeNode node).endGraphs ctx
          some (if irq then s.raise ctx 0 else s)
    | none =>
      match s.launches.find? fun l => l.id == graph with
      | none => none
      | some l =>
        if l.ctx != ctx || l.done = 0 || l.node.isSome || !s.launchOver graph then none
        else
          let gone := fun (s : State) => { s with launches := s.launches.filter fun x => x.id != graph }
          match s.signalObject ctx l.done.toNat with
          | .wait => none
          | .bad s => some ((gone s).updCtx ctx fun x => { x with dfault := true })
          | .ok () s => some (gone s)) s

end Sys2Proof.Machine
end

