-- ==== Sys2Proof/Machine/Ring.lean ====
section
/-! DEFINITION. Steps of the device for rings, messages, align sets and reductions (R221, R228 to R231,
R241 to R243, R256, R259, R261). -/

namespace Sys2Proof.Machine

/-! ## Cells and heads (R241, R242) -/

/-- `RING_CELL_WRITE`: the cell is written in one step, in the landing or at the boom cell's home. A packet of this or of
the steps below that goes to a compute layer in reset is discarded (R225). -/
def execRingCellWrite (m : Nat) (s : State) : Result :=
  event (fun s => do
    let msg ← s.msg m
    match msg.body with
    | .cell id seq kind skip boom payload =>
      match s.ring id with
      | none => pure (s.drop m)
      | some r =>
        let (c, base) ← r.land
        if s.toStopped msg then pure (s.drop m)
        else if !msg.moving || s.stalledMsg msg || r.head + r.slots ≤ seq then none
        else
          let cell := leBytes 8 (cellHeader true skip kind seq) ++ payload
          let done := fun (s : State) => ((s.drop m).updRing id fun q => { q with count := q.count + 1 }).settleHead id
          if boom then do
            let (pa, s) ← s.boomAt r msg.core seq true
            let d := dieOf msg.core
            if s.writeHeld r.ctx d pa 128 .noal then none
            else pure (done (s.homeWrite .engine r.ctx d pa cell .noal true))
          else pure (done (s.updCore c fun x => x.writeSpad (base + 128 * (seq % r.landCells)) cell))
    | _ => none) s

/-- `HEAD_MESSAGE`: a producer keeps the largest head (R241). -/
def execHeadMessage (m : Nat) (s : State) : Result :=
  event (fun s => do
    let msg ← s.msg m
    match msg.body with
    | .head id c h =>
      if s.toStopped msg then pure (s.drop m)
      else if !msg.moving || s.stalledMsg msg then none
      else pure ((s.drop m).updRing id fun r => { r with heads := assocSet r.heads c (max h (r.headAt c)) })
    | _ => none) s

/-- `BOOM_READ_AHEAD`: the ring engine reads the first boom cell within 4 sequences of the head that it does
not hold yet and that is full (R242). -/
def execBoomReadAhead (ring : Nat) (s : State) : Result :=
  event (fun s => do
    let r ← s.ring ring
    let (c, _) ← r.land
    let step := fun (found : Option State) (i : Nat) =>
      match found with
      | some s' => some s'
      | none =>
        let seq := r.head + i
        if r.freed.contains seq || (s.landCell r seq).isSome || (assoc r.ahead seq).isSome then none
        else
          match s.boomAt r c seq false with
          | none => none
          | some (pa, s) =>
            if s.stalledHome c r.ctx (pa / 128) then none
            else match s.homeRead .engine r.ctx (dieOf c) pa 128 .noal true with
              | .ok b s' =>
                if cellFull b seq then
                  some ((s'.updRing ring fun q => { q with ahead := assocSet q.ahead seq b }).settleHead ring)
                else none
              | _ => none
    (List.range 5).foldl step none) s

/-! ## Claims (R243) -/

/-- The sequenced output rings of a thread's stage. -/
def State.outRings (s : State) (c : CoreId) (k : Slot) : List Nat :=
  ((s.core c).stage (s.thread c k).stage).handles.filterMap fun h =>
    if h.2.2 && ((s.ring h.2.1).map Ring.sequenced).getD false then some h.2.1 else none

/-- Settle a replica's last claim on a ring: an unread DATA claim is abandoned and its cell freed (R243). -/
def State.settleClaim (s : State) (id : Nat) (c : CoreId) (k : Slot) : State :=
  match (s.thread c k).claim id with
  | none => s
  | some cl =>
    let s := s.updThread c k fun t =>
      { t with claims := mapIf (fun q => q.ring == id) (fun q => { q with readUsed := true }) t.claims }
    if cl.readUsed then s else s.freeSeq id cl.seq c k

/-- A thread's claims with a new one first; its claims on other rings stay, and older DATA claims on this one while an
output of theirs is open (R244, R255, R316). -/
def Thread.addClaim (t : Thread) (outs : List Nat) (cl : Claim) : Thread :=
  let stays := fun (q : Claim) => q.ring != cl.ring || (q.kind == .data && outs.any fun o => !q.outUsed.contains o)
  { t with claims := cl :: t.claims.filter stays }

/-- The claims of one core's threads on a ring are performed in the order in which the threads parked (R32). -/
def State.claimTurn (s : State) (m : Msg) : Bool :=
  s.net.all fun n => n.core != m.core || n.slot == m.slot || n.orphan || n.body != m.body
    || (s.thread m.core m.slot).placeFor (· == .ringClaim) ≤ (s.thread n.core n.slot).placeFor (· == .ringClaim)
    || (s.thread n.core n.slot).status != .parked .ringClaim

/-- A replica's `rseq` is returned a DATA entry (R243). -/
def State.giveEntry (s : State) (id h : Nat) (c : CoreId) (k : Slot) (cell : List Byte) : State :=
  let cl : Claim := { ring := id, seq := h, kind := .data, cell := cell }
  let outs := s.outRings c k
  ((s.updRing id fun q => { q with claimHead := h + 1, claimed := (h, c, k) :: q.claimed }).updThread c k fun t =>
    { t.addClaim outs cl with prog := { t.prog with data := some (leBytes 8 (h % 2 ^ 40)) } }).settleHead id

/-- A replica's `rseq` meets a token: it is returned to it, or a replica marked for withdrawal retires in its place, as by
`tret` (R243, R245). -/
def State.giveToken (s : State) (id h : Nat) (c : CoreId) (k : Slot) (cell : List Byte) : State :=
  match s.ring id with
  | none => s
  | some r =>
    let s1 := s.updRing id fun q => q.takeToken h (c, k)
    let index := (r.replicas.find? fun p => p.1 == c && p.2.1 == k).map fun p => p.2.2
    if r.withdraw.isSome && r.withdraw == index then
      (((s1.settleToken id c k).updInputs r fun q => { q with withdraw := none }).leave c k).settleHead id
    else
      let cl : Claim := { ring := id, seq := h, kind := cellKind cell, cell := cell, readUsed := true }
      let outs := s.outRings c k
      ((s1.updThread c k fun t => { t.addClaim outs cl with
        prog := { t.prog with data := some (leBytes 8 (entryValue (cellKind cell) 0).toNat) } }).settleToken id c k).settleHead id

/-- The token that a replica takes next: the oldest that it is owed (R243). -/
def Ring.owed (r : Ring) (who : CoreId × Slot) : Option Nat := (r.tokens.find? fun p => p.2.contains who).map Prod.fst

/-- `RING_CLAIM`: the claim of a waiting `rseq` is performed at the landing core: the replica's earlier claims are settled,
then it is returned the oldest token that it is owed, or else the lowest full unclaimed sequence. A token of a stage
without replicas is owed to the thread that meets it. A replica that is to retire first waits for its tile operations
(R243, R245, R258). -/
def execRingClaim (m : Nat) (s : State) : Result :=
  event (fun s => do
    let msg ← s.msg m
    match msg.body with
    | .claim id =>
      let (c, k) := (msg.core, msg.slot)
      if msg.orphan || s.toStopped msg then pure (s.drop m)
      else if !msg.moving || s.stalledMsg msg || (s.core c).halting then none
      else if (s.thread c k).status != .parked .ringClaim then pure (s.drop m)
      else if !s.claimTurn msg then none
      else
        let s1 := (s.settleClaim id c k).settleHead id
        let r ← s1.ring id
        match r.owed (c, k) with
        | some h =>
          let cell := (s1.ringCell r h).getD []
          if r.withdraw.isSome && !s1.tileQuiet c k none then pure s1 else pure ((s1.drop m).giveToken id h c k cell)
        | none =>
          let h := max r.claimHead r.head
          match s1.ringCell r h with
          | none => pure s1
          | some cell =>
            if cellKind cell = .data then pure ((s1.drop m).giveEntry id h c k cell)
            else pure (((s1.drop m).updRing id fun q => q.reach h).giveToken id h c k cell)
    | _ => none) s

/-! ## Messages (R256) -/

/-- `SEND_DELIVERY`: the value is accepted, refused or finds no thread; the reply reaches the sender, which
completes, sends again later, or traps. -/
def execSendDelivery (m : Nat) (s : State) : Result :=
  event (fun s => do
    let msg ← s.msg m
    match msg.body with
    | .send dest i v =>
      let (c, k) := (msg.core, msg.slot)
      let home : CoreId := ⟨dest.val / 16, by omega⟩
      let d := s.placed msg.ctx home
      let j : Slot := ⟨dest.val % 16, by omega⟩
      let t := s.thread d j
      if s.toStopped msg then pure (s.drop m)
      else if msg.stage != .sent || !msg.moving || s.stalledMsg msg then none
      else if !t.present || t.hctx != msg.ctx then
        let s1 := s.drop m
        if msg.orphan || !(s.thread c k).present then pure s1
        else pure (s1.takeTrap c k { cause := .sendTarget, detail := BitVec.ofNat 64 dest.val })
      else if t.mfull.getLsbD i.val then
        if msg.orphan then pure (s.drop m)
        else pure ((s.answer m [] 0 .refused).updThread c k fun u => u.sinceNow (s.cycleOf c))
      else
        let s1 := (s.drop m).updThread d j fun u =>
          { u with m := u.m.set i v, mfull := u.mfull ||| (1 <<< i.val) }
        if msg.orphan then pure s1
        else pure (s1.updThread c k fun u => { u with prog := { u.prog with data := some [] } })
    | _ => none) s

/-- `SEND_RETRY`: 64 die cycles after a refusal the same message is sent again; on a core that halts the `send` has not
executed (R263, R352). -/
def execSendRetry (core : Fin 1280) (slot : Fin 16) (s : State) : Result :=
  event (fun s => do
    let t := s.thread core slot
    let msg ← s.net.find? fun m => m.core == core && m.slot == slot && !m.orphan && m.refusedSend
    if t.status != .parked .sendRetry || (s.core core).halting || s.cycleOf core < t.prog.since + 64 then none
    else pure (s.updMsg msg.id fun x => { x with stage := .sent })) s

/-! ## Time-outs (R259, R261) -/

/-- `ALIGN_TIMEOUT`: it releases only the thread that times out. On a core that halts the `align` has not executed (R263,
R352). -/
def execAlignTimeout (core : Fin 1280) (slot : Fin 16) (s : State) : Result :=
  event (fun s =>
    let t := s.thread core slot
    match t.status with
    | .parked (.align _ _) =>
      if (s.core core).halting || s.cycleOf core < t.prog.since + 256 then none else some (s.completeThread core slot)
    | _ => none) s

/-- `YIELD_EXPIRY`: 16 die cycles have passed, or no other slot of the core is ready. -/
def execYieldExpiry (core : Fin 1280) (slot : Fin 16) (s : State) : Result :=
  event (fun s =>
    let t := s.thread core slot
    if t.status != .waiting .yield || (s.core core).halting then none
    else if t.prog.since + 16 ≤ s.cycleOf core || (List.finRange 16).all fun j => j == slot || !s.isReady core j then
      some (s.completeThread core slot)
    else none) s

/-! ## The collective lane (R226 to R231) -/

/-- Router number of a core's cluster within its die. -/
def routerOf (c : CoreId) : Nat := c.val / 4 % 80

/-- The router that a parent port leads to (R227). -/
def parentRouter (e : Nat × Nat × Nat × Nat) : Option Nat :=
  match e.2.2.1 with
  | 1 => some (e.2.1 * 10 + e.1 - 1)
  | 2 => some (e.2.1 * 10 + e.1 + 1)
  | 3 => some (e.2.1 * 10 + e.1 - 10)
  | 4 => some (e.2.1 * 10 + e.1 + 10)
  | _ => none

/-- Place of a child in its parent's fold order: its port there, −x, +x, −y, +y (R229). The local members
come first, by core within the cluster. -/
def childPlace (e : Nat × Nat × Nat × Nat) : Nat :=
  match e.2.2.1 with
  | 1 => 5 | 2 => 4 | 3 => 7 | _ => 6

/-- The entry of a router in a tree. -/
def TreeRec.entry (t : TreeRec) (router : Nat) : Option (Nat × Nat × Nat × Nat) :=
  t.routers.find? fun e => entryRouter e == router

/-- The members at a router, and below it. -/
def TreeRec.below (t : TreeRec) : Nat → Nat → List Nat
  | 0, _ => []
  | n + 1, router =>
    ((List.range t.members.length).filter fun i => (t.members[i]?.map routerOf) == some router)
      ++ (t.routers.filter fun e => parentRouter e == some router).flatMap fun e => t.below n (entryRouter e)

/-- The inputs that a router waits for: places, with the members that each stands for. -/
def TreeRec.inputsOf (t : TreeRec) (router : Nat) : List (Nat × List Nat) :=
  let own := (List.range t.members.length).filterMap fun i =>
    match t.members[i]? with
    | some c => if routerOf c = router then some (c.val % 4, [i]) else none
    | none => none
  let kids := (t.routers.filter fun e => parentRouter e == some router).map fun e =>
    (childPlace e, t.below t.routers.length (entryRouter e))
  own ++ kids

/-- Episodes that a router holds. -/
def Die.held (d : Die) (tree : Fin 16) (router : Nat) : List Episode :=
  d.episodes.filter fun p => p.tree == tree && p.router == router

/-- The current episode of a router: the oldest it holds. -/
def Die.current (d : Die) (tree : Fin 16) (router : Nat) : Option Episode :=
  (d.held tree router).foldl (fun b p => match b with
    | none => some p
    | some q => if d.ahead tree router p.episode < d.ahead tree router q.episode then some p else b) none

/-- An input of an episode: place, members missing, status, F and elements. -/
abbrev RedInput := Nat × List Nat × Bool × Nat × List (BitVec 32)

/-- The cycle of a router's limit in its current episode lies behind (R230). -/
def Die.pastLimit (x : Die) (tree : Fin 16) (router : Nat) (p : Episode) : Bool :=
  match (x.trees.get tree).bind fun t => t.entry router with
  | some e => p.first + (e.2.2.2 + 1) * p.tred < x.cycle.toNat
  | none => false

/-- Put an input into a router's episode; a second packet of a member's vector adds to its first. -/
def addInput (l : List RedInput) (i : RedInput) : List RedInput :=
  match l.find? fun p => p.1 == i.1 with
  | some _ => mapIf (fun p => p.1 == i.1) (fun p => (p.1, p.2.1, p.2.2.1, p.2.2.2.1, p.2.2.2.2 ++ i.2.2.2.2)) l
  | none => l ++ [i]

/-- An input of an episode reaches a router: taken, held for its turn, or discarded when it is older than the
episode last forwarded (R228) or comes after the episode's limit, at which the fold is formed (R230). -/
def State.routerInput (s : State) (d : DieId) (tree : Fin 16) (router : Nat) (e : BitVec 8) (i : RedInput) : State :=
  let x := s.dies.get d
  let late := match x.current tree router with
    | some p => p.episode == e && (p.limit || x.pastLimit tree router p)
    | none => false
  if 128 ≤ x.ahead tree router e || late then s
  else
    let p : Episode :=
      match (x.held tree router).find? fun p => p.episode == e with
      | some p => p
      | none => { tree := tree, router := router, episode := e, first := x.cycle.toNat
                  tred := ((s.dcfg.get d.castSucc).1).toNat * 256 }
    let p := { p with inputs := addInput p.inputs i }
    s.updDie d fun x => { x with
      episodes := (x.episodes.filter fun q => !(q.tree == tree && q.router == router && q.episode == e)) ++ [p] }

/-- An input has all its elements. -/
def inputWhole (i : RedInput) : Bool := i.2.2.2.2.length * 4 == i.2.2.2.1

/-- `REDUCE_INPUT`: a member's packet reaches its router's local port. One of a newer episode waits there until
the current one has been forwarded (R228); what a router of a die in reset has been sent is lost with it (R225). -/
def execReduceInput (m : Nat) (s : State) : Result :=
  event (fun s => do
    let msg ← s.msg m
    match msg.body with
    | .reduce tree e i _ size data =>
      let d := dieOf (s.identity msg.core msg.ctx)
      let x := s.dies.get d
      match x.trees.get tree with
      | none => pure (s.drop m)
      | some t =>
        let core ← t.members[i]?
        let router := routerOf core
        let earlier := s.net.any fun n => n.core == msg.core && n.id < m && match n.body with
          | .reduce u _ _ _ _ _ => u == tree
          | _ => false
        let newer := match x.current tree router with
          | some p => x.ahead tree router p.episode < x.ahead tree router e && x.ahead tree router e < 128
          | none => false
        if x.inReset then pure (s.drop m)
        else if earlier || newer then none
        else pure ((s.drop m).routerInput d tree router e (core.val % 4, [], false, size, data))
    | _ => none) s

/-- The canonical NaN in the place of any NaN (R161). -/
def quietWord (w : BitVec 32) : BitVec 32 :=
  if binary32.value w.toNat = .nan then BitVec.ofNat 32 binary32.nanCode else w

/-- The left fold of a router's inputs in the order of their places (R229): the sum, its size, whether an input
was discarded for size, the places summed and the members those inputs were missing. The partial sum of a child that held
no input has no elements: it gives its status alone. -/
def foldInputs (l : List RedInput) : List (BitVec 32) × Nat × Bool × List Nat × List Nat :=
  let order := (List.range 8).filterMap fun p => l.find? fun i => i.1 == p && inputWhole i
  let status := order.any fun i => i.2.2.1
  match order.filter fun i => i.2.2.2.1 != 0 with
  | [] => ([], 0, status, [], [])
  | a :: rest =>
    let f := a.2.2.2.1
    rest.foldl (fun acc i =>
      let (sum, n, st, places, miss) := acc
      if i.2.2.2.1 = f then
        (List.zipWith (fun u v => BitVec.ofNat 32 (binary32.addCode u.toNat v.toNat)) sum i.2.2.2.2, n,
          st, places ++ [i.1], miss ++ i.2.1)
      else (sum, n, true, places, miss)) (a.2.2.2.2.map quietWord, f, status, [a.1], a.2.1)

/-- The current episode of a router is complete, or its limit has passed (R229). -/
def TreeRec.ready (t : TreeRec) (router : Nat) (p : Episode) : Bool :=
  p.limit || (t.inputsOf router).all fun w => p.inputs.any fun i => i.1 == w.1 && inputWhole i

/-- The fold of an episode, with every member missing from it. -/
def TreeRec.result (t : TreeRec) (router : Nat) (p : Episode) : List (BitVec 32) × Nat × Bool × List Nat :=
  let (sum, f, st, places, miss) := foldInputs p.inputs
  let absent := (t.inputsOf router).flatMap fun w => if places.contains w.1 then [] else w.2
  (sum, f, st, (miss ++ absent).eraseDups)

/-- A router has forwarded an episode: it is gone, and the limit of the next one begins with its first input
taken (R228, R230). -/
def State.episodeDone (s : State) (d : DieId) (tree : Fin 16) (router : Nat) (e : BitVec 8) : State :=
  let s := s.updDie d fun x => { x with
    episodes := x.episodes.filter fun q => !(q.tree == tree && q.router == router && q.episode == e)
    forwarded := (tree.val, router, e) :: x.forwarded.filter fun f => !(f.1 == tree.val && f.2.1 == router) }
  match (s.dies.get d).current tree router with
  | none => s
  | some n =>
    let again : Episode → Episode := fun q =>
      { q with first := (s.dies.get d).cycle.toNat, tred := ((s.dcfg.get d.castSucc).1).toNat * 256 }
    s.updDie d fun x => { x with
      episodes := mapIf (fun q => q.tree == tree && q.router == router && q.episode == n.episode) again x.episodes }

/-- `ROUTER_FORWARD`: a router below the root folds its inputs and forwards the fold to its parent (R229). -/
def execRouterForward (die : Fin 4) (tree : Fin 16) (router : Fin 80) (s : State) : Result :=
  event (fun s => do
    let x := s.dies.get die
    let t ← x.trees.get tree
    let e ← t.entry router.val
    let up ← parentRouter e
    let p ← x.current tree router.val
    if !t.ready router.val p then none
    else
      let (sum, f, st, miss) := t.result router.val p
      let s := s.routerInput die tree up p.episode (childPlace e, miss, st, f, sum)
      pure (s.episodeDone die tree router.val p.episode)) s

/-- The delivery address of an episode, once member 0 has issued its `reduce` (R231). -/
def Die.delivery (d : Die) (tree : Fin 16) (e : BitVec 8) : Option Nat :=
  (d.delivers.find? fun p => p.1 == tree && p.2.1 == e).map fun p => p.2.2

/-- The root has finished an episode: its delivery address goes with it. -/
def State.rootDone (s : State) (d : DieId) (tree : Fin 16) (router : Nat) (e : BitVec 8) : State :=
  (s.episodeDone d tree router e).updDie d fun x => { x with delivers := x.delivers.filter fun p => !(p.1 == tree && p.2.1 == e) }

/-- `RED_LIMIT`: the limit of a router has passed: its fold is formed from the inputs that it holds (R230). A root that
has no delivery address by then discards the episode (R231). -/
def execRedLimit (die : Fin 4) (tree : Fin 16) (router : Fin 80) (s : State) : Result :=
  event (fun s => do
    let x := s.dies.get die
    let t ← x.trees.get tree
    let e ← t.entry router.val
    let p ← x.current tree router.val
    if p.limit || x.cycle.toNat < p.first + (e.2.2.2 + 1) * p.tred then none
    else if (parentRouter e).isNone && (x.delivery tree p.episode).isNone then
      pure (s.rootDone die tree router.val p.episode)
    else
      let stop : Episode → Episode := fun q => { q with limit := true }
      pure (s.updDie die fun x => { x with
        episodes := mapIf (fun q => q.tree == tree && q.router == router.val && q.episode == p.episode) stop x.episodes })) s

/-- A 40-byte mask of members (R231). -/
def memberMask (l : List Nat) : List Byte :=
  (List.range 40).map fun i => BitVec.ofNat 8 ((List.range 8).foldl (fun v b =>
    if l.contains (8 * i + b) then v + 2 ^ b else v) 0)

/-- `ROOT_DELIVERY`: the root writes the record and the sum into member 0's core, at the address that member 0 gave, and
counts 48 + F bytes (R231). Without an address it waits for one until its limit, at which `RED_LIMIT` discards the episode. -/
def execRootDelivery (die : Fin 4) (tree : Fin 16) (s : State) : Result :=
  event (fun s => do
    let x := s.dies.get die
    let t ← x.trees.get tree
    let e ← t.routers.head?
    let router := entryRouter e
    let p ← x.current tree router
    let home ← t.members.head?
    if !t.ready router p then none
    else
      let (sum, f, st, miss) := t.result router p
      match x.delivery tree p.episode with
      | none => none
      | some a =>
        let s := s.rootDone die tree router p.episode
        let status := (if miss.isEmpty then 0 else 1) + (if st then 2 else 0)
        let rec_ := leBytes 4 status ++ leBytes 4 (t.members.length - miss.length) ++ memberMask miss
        let c := s.placed t.ctx home
        pure (s.updCore c fun z =>
          ((z.writeSpad (a + 16) rec_).writeSpad (a + 64) (sum.flatMap fun w => leBytes 4 w.toNat)).countBytes a (48 + f))) s

end Sys2Proof.Machine
end

