-- ==== Sys2Proof/Machine/Sched.lean ====
section
/-! DEFINITION. The dispatchers and schedulers: what fits a core (R345), taking a context and starting threads
(R23, R25, R346, R348), the head packet's skips (R347), stealing and migration (R344, R349, R350), clones and
withdrawals (R245). -/

namespace Sys2Proof.Machine

/-! ## What fits a core (R345) -/

/-- Cores that hold a context. -/
def State.holders (s : State) (ctx : Ctx) : List CoreId := (List.finRange 1280).filter fun c => (s.core c).ctx == some ctx

/-- Slots 0 to 14 are all free (R23). -/
def Core.idle (x : Core) : Bool := (List.finRange 16).all fun k => k == 15 || !(x.thread k).present

/-- The core may run a thread of the context: it holds it, or may take it (R23, R330, R343, R345). -/
def State.mayHold (s : State) (c : CoreId) (ctx : Ctx) : Bool :=
  let x := s.ctxs.get ctx
  let y := s.core c
  x.live && !x.ending && x.runState == .running && !(s.dies.get (dieOf c)).inReset && !y.halting
    && (y.ctx == some ctx || (y.idle && (s.holders ctx).length < x.saveslots))

/-- The lowest free slot whose HOLD bit is clear (R327, R346). -/
def Core.freeSlot (x : Core) : Option Slot :=
  (List.finRange 16).find? fun k => k != 15 && !(x.thread k).present && !x.hold.getLsbD k.val

/-- Runs of vector registers that are taken: threads' runs and stages' reserves but one (R179). -/
def Core.vTaken (x : Core) (but : Option Nat) : List (Nat × Nat) :=
  (x.slots.toList.filterMap fun t => if t.present then some (t.vbase, t.vcount.toNat) else none)
    ++ x.stages.filterMap fun g => if some g.id == but then none else some g.vres

/-- The lowest free run of `n` vector registers between two bounds. -/
def Core.freeV (x : Core) (but : Option Nat) (lo hi n : Nat) : Option Nat :=
  if n = 0 then some 0
  else leastBelow 129 fun b => lo ≤ b && b + n ≤ hi && (x.vTaken but).all fun t => apart (b, n) t

/-- Bindings of an installation in which a stage takes part: record number, its own number, the other stage and whether
it is the producer. -/
def Install.bindingsOf (i : Install) (st : Nat) : List (Nat × Nat × Nat × Bool) :=
  i.bindings.zipIdx.filterMap fun p =>
    let ((a, b, qa, qb, depth), j) := p
    if a = st then some (j, qa, depth, true) else if b = st then some (j, qb, depth, false) else none

/-- A declared queue that the core already holds (R237). -/
def Core.shared (x : Core) (inst j : Nat) : Option RQueue := x.queues.find? fun q => q.bind == some (inst, j)

/-- Entries of the queue store that are taken: declared queues once, and the rest of each stage's QENT (R237). -/
def Core.entriesTaken (x : Core) : Nat :=
  let declared := fun (g : StageAlloc) => (g.queues.map fun q =>
    match x.queue q.2.1 with
    | some r => if r.bind.isSome then r.depth else 0
    | none => 0).sum
  (x.stages.map fun g => g.qent - declared g).sum
    + (x.queues.map fun q => if q.bind.isSome then q.depth else 0).sum

/-- Entries that a stage needs from a core's store (R345). -/
def Core.entriesNeeded (x : Core) (i : Option Install) (st qent : Nat) : Nat :=
  match i with
  | none => qent
  | some i =>
    let bs := i.bindingsOf st
    qent - (bs.map fun b => b.2.2.1).sum
      + (bs.map fun b => if (x.shared i.id b.1).isSome then 0 else b.2.2.1).sum

/-- Ring handles in use on a core, of 64 (R345). -/
def Core.handlesTaken (x : Core) : Nat := (x.stages.map StageAlloc.rings).sum

/-- The installation of a packet. -/
def State.installOf (s : State) (p : Packet) : Option Install := s.installs.find? fun i => some i.id == p.inst

/-- Rings whose landing comes to the core that takes the consumer's replica 0 (R236). -/
def State.landsWith (s : State) (p : Packet) : List Ring :=
  if p.replica.1 ≠ 0 then [] else s.rings.filter fun r => some r.inst == p.inst && r.consStage == p.stno && r.land.isNone

/-- Set aside the landings of rings on a core. -/
def State.landAll (s : State) (c : CoreId) : List Ring → Option State
  | [] => some s
  | r :: rest =>
    match s.land r c with
    | none => none
    | some (s, base) => (s.updRing r.id fun q => { q with land := some (c, base) }).landAll c rest

/-- Where a thread goes. -/
structure Spot where
  slot : Slot := 0
  vbase : Nat := 0
  spbase : Nat := 0
deriving DecidableEq, Repr

/-- Place a packet's request on a core, with the landings that come with it set aside (R345, R346). -/
def State.fitPacket (s : State) (c : CoreId) (p : Packet) : Option (Spot × State) := do
  if !p.admits c || !s.mayHold c p.ctx then none
  else
    let x := s.core c
    let k ← x.freeSlot
    let v ← x.freeV none 0 128 p.vregs
    let need := x.entriesNeeded (s.installOf p) p.stno p.qent
    if 512 < x.entriesTaken + need || 64 < x.handlesTaken + p.rings then none
    else
      let s ← s.landAll c (s.landsWith p)
      let a ← if p.spad = 0 then some 0 else (s.core c).freeSpadRun p.spad
      pure ({ slot := k, vbase := v, spbase := a }, s)

/-- Place a task's request on a core; on the spawning core its vector registers come from the stage's reserve first
(R348). -/
def State.fitTask (s : State) (c : CoreId) (e : DequeEntry) (own : Bool) : Option Spot := do
  if !s.mayHold c e.ctx then none
  else
    let x := s.core c
    let k ← x.freeSlot
    let n := e.record.vregs * 4
    let g := x.stage e.stage
    let reserve := if own then x.freeV (some g.id) g.vres.1 (g.vres.1 + g.vres.2) n else none
    let v ← reserve.or (x.freeV none 0 128 n)
    let a ← if e.record.spad = 0 then some 0 else x.freeSpadRun (e.record.spad * 4096)
    pure { slot := k, vbase := v, spbase := a }

/-! ## Taking a context (R23, R346) -/

/-- The supervisor leaves its slot with the context. -/
def State.dropSupervisor (s : State) (c : CoreId) : State :=
  let s := (((s.leaveAlign c 15).orphan c 15).freeMonitors c 15).stopStreams c 15
  let s := (s.updCluster (clusterOf c) fun x => x.unclaim c 15).dropReclaim c 15
  s.updCore c fun x =>
    { (x.releaseEnds (.inl 15)).setThread 15 {} with
      kamgor := none, cmds := mapIf (fun m => m.slot == 15) (fun m => { m with gone := true }) x.cmds }

/-- Write back and invalidate the whole L1D of a core. -/
def State.flushL1 (s : State) (c : CoreId) : State :=
  let lines := (s.core c).l1d.map L1Line.line
  (lines.foldl (fun s l => (s.killFills c l).cleanL1 c none true l fun _ => true) s).updCore c fun x => { x with l1d := [] }

/-- A scratchpad zeroed but for the landings set aside in it (R346). Their written granules stay marked, so that a save holds
the landings whole (R246), DEDUCED (assumption 87). -/
def Core.zeroSpad (x : Core) : Core :=
  let kept := fun (a : Nat) => x.landings.any fun l => l.1 ≤ a && a < l.1 + l.2
  { x with spad := x.spad.filter fun p => kept p.1, dirtyGran := x.dirtyGran.filter fun g => kept (64 * g) }

/-- A core leaves a context: no saved identity is placed on it any longer. -/
def State.unplace (s : State) (c : CoreId) : State :=
  match (s.core c).ctx with
  | none => s
  | some d => s.updCtx d fun x => { x with placement := x.placement.filter fun p => p.2 != c }

/-- A core takes a new context (R346 step 1): the L1D is written back and invalidated, the scratchpad zeroed, and the
supervisor started. RESCUE counts from here (R224). -/
def State.takeContext (s : State) (c : CoreId) (ctx : Ctx) : State :=
  if (s.core c).ctx = some ctx then s
  else
    let s := ((s.flushL1 c).dropSupervisor c).unplace c
    let t := s.supervisorThread c ctx
    s.updCore c fun x =>
      { x.zeroSpad.setThread 15 t with ctx := some ctx, trapq := [], taken := [], rescue := 0 }

/-! ## Starting threads (R8, R25, R346) -/

/-- A thread at its start: identity, allotment, format shadows; every other register at its reset value. -/
def State.newThread (s : State) (c : CoreId) (ctx : Ctx) (q : Spot) (entry arg : Word) (replica : Nat × Nat)
    (prio : BitVec 5) (vregs spad stage : Nat) (fmts : List Word) (launch : Option Nat) : Thread :=
  let h := s.identity c ctx
  let f := fun i => fmts.getD i 0
  let t : Thread := {
    status := .ready, pc := entry, gens := seedGens 0, tid := BitVec.ofNat 15 (h.val * 16 + q.slot.val)
    coreNo := BitVec.ofNat 11 h.val, clust := BitVec.ofNat 7 (h.val / 4 % 80), dieNo := BitVec.ofNat 2 (h.val / 320)
    hctx := ctx, prio := prio, vcount := BitVec.ofNat 6 (min 32 vregs), spbase := BitVec.ofNat 19 q.spbase
    spsize := BitVec.ofNat 20 spad, vbase := q.vbase, replica := replica, stage := stage, launch := launch
    fmta := f 0, fmtb := f 1, fmtc := f 2, scla := f 3, sclb := f 4, grpsz := f 5 }
  (((t.setX 10 arg).setX 11 (BitVec.ofNat 64 replica.1)).setX 12 (BitVec.ofNat 64 replica.2)).sinceNow (s.cycleOf c)

/-- The declared queues of a stage on its core: found, or made and shared with the stage to come (R234, R237). -/
def State.bindQueues (s : State) (c : CoreId) (inst stage : Nat) :
    List (Nat × Nat × Nat × Bool) → State × List (Nat × Nat × Option Bool)
  | [] => (s, [])
  | (j, num, depth, prod) :: rest =>
    let (id, s) : Nat × State := match (s.core c).shared inst j with
      | some q =>
        (q.id, s.updCore c fun x =>
          { x with queues := mapIf (fun r => r.id == q.id) (fun r => { r with owners := stage :: r.owners, awaits := false }) x.queues })
      | none =>
        let (id, s) := s.fresh
        let q : RQueue := { id := id, depth := depth, owners := [stage], bind := some (inst, j), awaits := true }
        (id, s.updCore c fun x => { x with queues := x.queues ++ [q] })
    let (s, l) := s.bindQueues c inst stage rest
    (s, (num, id, some prod) :: l)

/-- Handles of a stage's rings (R234). -/
def Install.handlesOf (i : Install) (st : Nat) : List (Nat × Nat × Bool) :=
  i.rings.flatMap fun r =>
    let (id, prod, cons, hp, hc) := r
    (if prod = st then [(hp, id, true)] else []) ++ (if cons = st then [(hc, id, false)] else [])

/-- The rings that a stage of an installation consumes list a replica. -/
def State.addReplica (s : State) (i : Install) (st : Nat) (c : CoreId) (k : Slot) (index : Nat) : State :=
  { s with rings := mapIf (fun r => r.inst == i.id && r.consStage == st)
                          (fun r => { r with replicas := r.replicas ++ [(c, k, index)] }) s.rings }

/-- Start a stage thread from a packet that fits (R346). -/
def State.startStage (s : State) (c : CoreId) (p : Packet) (q : Spot) : State :=
  let s := s.takeContext c p.ctx
  let (id, s) := s.fresh
  let inst := s.installOf p
  let (s, queues) := match inst with
    | some i => s.bindQueues c i.id id (i.bindingsOf p.stno)
    | none => (s, [])
  let g : StageAlloc := {
    id := id, inst := p.inst, stno := p.stno, live := 1, vres := (q.vbase + 32, p.vregs - 32)
    spad := (q.spbase, p.spad), qent := p.qent, rings := p.rings, queues := queues
    handles := (inst.map fun i => i.handlesOf p.stno).getD [], repl := p.repl }
  let t := s.newThread c p.ctx q p.entry p.args p.replica p.prio p.vregs p.spad id p.fmts p.launch
  let s := s.updCore c fun x => { x.setThread q.slot t with stages := x.stages ++ [g] }
  match inst with
  | none => s
  | some i =>
    let more : Install → Install := fun i =>
      { i with live := i.live + 1, stages := if p.replica.1 = 0 then i.stages.set p.stno p else i.stages }
    (({ s with installs := mapIf (fun x => x.id == i.id) more s.installs } : State)).addReplica i p.stno c q.slot p.replica.1

/-- Start a task thread (R348). On the spawning core it belongs to the spawning stage, whose count it already is in;
elsewhere it has a stage of its own, which holds no queue entry and no handle. -/
def State.startTask (s : State) (c : CoreId) (e : DequeEntry) (q : Spot) (own : Bool) : State :=
  let s := s.takeContext c e.ctx
  let (id, s) := s.fresh
  let stage := if own then e.stage else id
  let t := s.newThread c e.ctx q e.record.entry e.record.arg (0, 1) e.record.prio (e.record.vregs * 4)
    (e.record.spad * 4096) stage e.fmts e.launch
  let t := { t with depth := e.depth, task := true }
  s.updCore c fun x =>
    { x.setThread q.slot t with stages := if own then x.stages else x.stages ++ [{ id := id, live := 1 }] }

/-- One more thread of a stage on a core. -/
def Core.joinStage (x : Core) (id : Nat) : Core :=
  { x with stages := mapIf (fun g => g.id == id) (fun g => { g with live := g.live + 1 }) x.stages }

/-- A packet that fits a core starts there: a stage, or a migrated task, which on its spawning core belongs to the spawning
stage again (R346, R348, R350). -/
def State.startPacket (s : State) (c : CoreId) (p : Packet) : Option State :=
  match p.task with
  | some e =>
    let own := (s.core c).stages.any fun g => g.id == e.stage
    if p.admits c then (s.fitTask c e own).map fun q =>
      (if own then s.updCore c fun x => x.joinStage e.stage else s).startTask c e q own
    else none
  | none => (s.fitPacket c p).map fun r => r.2.startStage c p r.1

/-! ## Dispatch (R346, R347) -/

/-- The newest entry of a core's deque that fits it (R348). -/
def State.nextTask (s : State) (c : CoreId) : Option (DequeEntry × Spot) :=
  (s.core c).deque.reverse.findSome? fun e => (s.fitTask c e true).map fun q => (e, q)

/-- The packet that a core dispatches next, its head packet and the skips against it (R347). -/
def State.nextReady (s : State) (c : CoreId) : Option (Packet × Packet × Nat × State) :=
  let d := s.dies.get (dieOf c)
  match d.ready.filter fun p => p.admits c with
  | [] => none
  | h :: rest =>
    match s.startPacket c h with
    | some s' => some (h, h, 0, s')
    | none =>
      let n := if (s.core c).skips.2 = some h.id then (s.core c).skips.1 else 0
      if n < d.age.toNat then rest.findSome? fun p => (s.startPacket c p).map fun s' => (p, h, n + 1, s') else none

/-- A packet leaves a die's ready queue. -/
def State.unready (s : State) (d : DieId) (id : Nat) : State :=
  (s.updDie d fun x => { x with ready := x.ready.filter fun p => p.id != id }).checkHeads d

/-- `DISPATCH`: one step of a core's dispatcher: the newest task of its deque that fits, and only then a packet
(R346, R347). The first dispatch fixes MAJCFG (R400). -/
def execDispatch (core : Fin 1280) (s : State) : Result :=
  event (fun s =>
    if s.boot != .up then none
    else match s.nextTask core with
    | some (e, q) =>
      let s := s.updCore core fun x => { x with deque := x.deque.filter fun f => f.id != e.id }
      some { s.startTask core e q true with majFixed := true }
    | none =>
      match s.nextReady core with
      | none => none
      | some (p, h, n, s') =>
        let s' := (s'.unready (dieOf core) p.id).updCore core fun x =>
          { x with skips := if p.id = h.id then (0, none) else (n, some h.id) }
        some { s' with majFixed := true }) s

/-! ## Stealing (R344, R349) -/

/-- A die is idle: no core can dispatch a packet of its queue, and one has a slot free (R344). -/
def State.dieIdle (s : State) (d : DieId) : Bool :=
  !(s.dies.get d).inReset && (coresOf d).all (fun c => (s.nextReady c).isNone)
    && (coresOf d).any fun c => (s.core c).freeSlot.isSome && !(s.core c).halting

/-- The oldest packet in take order. -/
def oldestPacket (l : List Packet) : Option Packet :=
  l.foldl (fun b p => match b with
    | none => some p
    | some q => if p.seq < q.seq then some p else b) none

/-- `DIE_STEAL`: an idle die asks a ring neighbour, east and west in turn (R344), when no crossing between them is stalled
(R365). -/
def execDieSteal (thief : Fin 4) (east : Bool) (s : State) : Result :=
  event (fun s =>
    let d := s.dies.get thief
    let victim : DieId := if east then thief + 1 else thief + 3
    let crossing := d.stallEnd.isSome || (s.dies.get victim).stallEnd.isSome
    if d.stealEast != east || s.boot != .up || crossing || !s.dieIdle thief then none
    else
      let s := s.updDie thief fun x => { x with stealEast := !east }
      let may := fun (p : Packet) => p.affk == 0 && (coresOf thief).any fun c => (s.startPacket c p).isSome
      match oldestPacket ((s.dies.get victim).ready.filter may) with
      | none => some s
      | some p => some ((s.unready victim p.id).toDie thief p)) s

/-- The cores that a core asks for a task, in the order in which it asks them: its own cluster, then the adjacent clusters of
its die, −x, +x, −y, +y (R349). -/
def stealOrder (c : CoreId) : List CoreId :=
  let t := c.val / 4
  let (x, y) := (t % 80 % 10, t % 80 / 10)
  let near := (if 0 < x then [t - 1] else []) ++ (if x < 9 then [t + 1] else [])
    ++ (if 0 < y then [t - 10] else []) ++ (if y < 7 then [t + 10] else [])
  ((t :: near).flatMap fun u => (List.range 4).map fun i => finOf 1280 (4 * u + i)).filter fun d => d != c

/-- The core that a core asks next. Behind the last it starts again with the first; after a task it starts again too,
DESIGN CHOICE (assumption 50). -/
def State.asksNext (s : State) (c : CoreId) : Option CoreId :=
  let l := stealOrder c
  l[(s.core c).stealAt.1 % l.length]?

/-- The oldest entry of a victim's deque that a thief may take (R349). -/
def State.stealable (s : State) (thief victim : CoreId) : Option (DequeEntry × Spot) :=
  (s.core victim).deque.findSome? fun e =>
    if e.aff != .core && (s.core thief).ctx == some e.ctx then (s.fitTask thief e false).map fun q => (e, q) else none

/-- A packet of the die's ready queue fits a core (R345, R349), whether or not the age limit holds it back (R347). -/
def State.readyFits (s : State) (c : CoreId) : Bool := (s.dies.get (dieOf c)).ready.any fun p => (s.startPacket c p).isSome

/-- `TASK_STEAL`: a core with nothing to run asks the next of its neighbours, once every 256 die cycles, and takes the
oldest entry of that core's deque that it may take (R349). -/
def execTaskSteal (thief victim : Fin 1280) (s : State) : Result :=
  event (fun s =>
    let x := s.core thief
    let now := s.cycleOf thief
    let early := match x.stealAt.2 with
      | some t => now < t + 256
      | none => false
    if s.asksNext thief != some victim || early || x.freeSlot.isNone || x.ctx.isNone || (s.nextTask thief).isSome
        || s.readyFits thief then none
    else
      match s.stealable thief victim with
      | none => some (s.updCore thief fun x => { x with stealAt := (x.stealAt.1 + 1, some now) })
      | some (e, q) =>
        let s := s.updCore victim fun x => ({ x with deque := x.deque.filter fun f => f.id != e.id }).leaveStage e.stage
        some ((s.startTask thief e q false).updCore thief fun x => { x with stealAt := (0, some now) })) s

/-- Die cycles for which an entry has waited in its deque (R350). -/
def DequeEntry.waited (e : DequeEntry) (now : Nat) : Nat := (now + 2 ^ 64 - e.since) % 2 ^ 64

/-- `TASK_MIGRATE`: an entry that has waited MIGR × 256 die cycles joins the die's ready queue (R350). -/
def execTaskMigrate (core : Fin 1280) (entry : Nat) (s : State) : Result :=
  event (fun s =>
    match (s.core core).deque.find? fun e => e.id == entry with
    | none => none
    | some e =>
      let d := dieOf core
      let wide := match e.aff with
        | .die | .pkg => true
        | _ => false
      if !wide || e.reserved.isSome || e.waited (s.cycleOf core) < (s.dies.get d).migr.toNat * 256 then none
      else
        let (seq, s) := s.nextSeq
        let p : Packet := {
          id := e.id, ctx := e.ctx, prio := e.record.prio, seq := seq, affk := if e.aff = .pkg then 0 else 1
          affv := if e.aff = .pkg then 0 else d.val, vregs := e.record.vregs * 4, spad := e.record.spad * 4096
          launch := e.launch, task := some e }
        some ((s.updCore core fun x =>
          ({ x with deque := x.deque.filter fun f => f.id != e.id }).leaveStage e.stage).toDie d p)) s

/-! ## The load balancer (R245) -/

/-- `LB_CLONE`: a copy of the stage's packet is dispatched on a core that can take it. -/
def execLbClone (ring : Nat) (core : Fin 1280) (s : State) : Result :=
  event (fun s => do
    let r ← s.ring ring
    let i ← s.installs.find? fun i => i.id == r.inst
    let p ← i.stages[r.consStage]?
    let home ← r.replicas.find? fun x => x.2.2 == 0
    let since ← r.highSince
    let index ← leastBelow 8 fun n => !(r.replicas.any fun x => x.2.2 == n)
    if s.cycleOf home.1 + 1 < since + 4096 || p.repl ≤ r.replicas.length || s.inputTokens r then none
    else
      let p := { p with replica := (index, r.replicas.length + 1) }
      let s ← s.startPacket core p
      pure ((s.countLaunch p.launch true).updRing ring fun q => { q with highSince := none })) s

/-- `LB_WITHDRAW`: the replica with the highest index is marked; replica 0 never is. -/
def execLbWithdraw (ring : Nat) (s : State) : Result :=
  event (fun s => do
    let r ← s.ring ring
    let home ← r.replicas.find? fun x => x.2.2 == 0
    let since ← r.lowSince
    let top := r.replicas.foldl (fun m x => max m x.2.2) 0
    if s.cycleOf home.1 + 1 < since + 65536 || top = 0 || s.inputTokens r || r.withdraw.isSome then none
    else pure (s.updInputs r fun q => { q with withdraw := some top })) s

end Sys2Proof.Machine
end

