-- ==== Sys2Proof/Machine/Preempt.lean ====
section
/-! DEFINITION. Pre-emption: the halt (R352), settling (R88, R154, R263, R277, R301), the save record (R353 to R356),
resume (R357), and the opaque save (R358). -/

namespace Sys2Proof.Machine

/-! ## The halt (R352) -/

/-- A thread parked at a `waita` has not executed it: its entry is freed, and a wake that comes from now on is not kept
(R154). One that has been woken already completes its `waita`. -/
def Thread.dropWait (t : Thread) : Thread :=
  match t.status with
  | .parked .registered => if t.prog.data.isSome then t else { t with prog := {} }
  | _ => t

/-- A core stops issuing (R352). -/
def State.haltCore (s : State) (c : CoreId) : State :=
  let s := (List.finRange 16).foldl (fun s k => s.freeMonitors c k) s
  let mine := fun (m : Msg) => m.core == c && match m.body with
    | .waita _ _ _ _ _ => true
    | _ => false
  let s := { s with net := mapIf mine (fun m => { m with orphan := true }) s.net }
  s.updCore c fun x => { x with halting := true, slots := x.slots.map Thread.dropWait }

/-- Kamgor pre-empts a context: every core that holds it stops issuing (R352). -/
def State.preempt (s : State) (ctx : Ctx) : State :=
  let x := s.ctxs.get ctx
  let s := s.updCtx ctx fun x => { x with run := false }
  if !x.live || x.runState != .running then s
  else (s.holders ctx).foldl State.haltCore (s.updCtx ctx fun x => { x with runState := .halting })

/-- `PREEMPT_REQUEST`: the host asks for a pre-emption (R352, R409). -/
def execPreemptRequest (ctx : Fin 64) (s : State) : Result := .next (s.preempt ctx)

/-! ## Settling (R88, R154, R263) -/

/-- A request that a halt does not wait for: a load that is cancelled, a probe, a registration, a claim that has not
been performed, a refused `send`, an instruction fetch. -/
def Msg.cancelled (m : Msg) : Bool :=
  match m.body with
  | .fill _ _ _ _ _ => true
  | .probe _ => true
  | .waita _ _ _ _ _ => true
  | .vaultRead _ _ => true
  | .spadRead _ _ _ => true
  | .majRead _ _ _ => true
  | .ifetch _ => true
  | .claim _ => true
  | .host _ _ (.read _) none => true
  | .peer _ _ (.read _) none => true
  | .send _ _ _ => m.stage == .reply [] 0 .refused
  | _ => false

/-- A packet of a `reduce` of which the router has taken none (R263). -/
def State.untaken (s : State) (m : Msg) : Bool :=
  match m.body with
  | .reduce _ _ _ _ _ _ => !m.orphan && (s.thread m.core m.slot).prog.msgs.all fun id => !s.gone id
  | _ => false

/-- The pair ring of a scan has no room for another pair (R297). -/
def Cmd.ringFull (m : Cmd) (x : Core) : Bool :=
  match m.kind with
  | .scan _ _ _ _ _ _ rsize headp _ =>
    rsize < (8 * m.pairs % 2 ^ 32 + 2 ^ 32 - ofLe (x.spad.read headp 4)) % 2 ^ 32 + 8
  | _ => false

/-- A posted request of a thread has failed while the thread stands trapped: it executes again when the thread goes on (R87;
assumption 60). -/
def State.waitsInTrap (s : State) (c : CoreId) (m : Msg) : Bool :=
  m.failed && m.ofThread c m.slot && (s.thread c m.slot).stands && (s.thread c m.slot).postedBy m

/-- An engine command stands where it can be saved (R301): the packets of a copy that have landed are the first ones, no
reply of a gather waits to land, and every unit of a scan has finished its line, or can go no further since the pair ring
is full and nobody empties it, DEDUCED (assumption 45). A fault stops a command where it is: it is posted when the packets
sent have landed and the other units have finished their lines (R300). -/
def Cmd.settledIn (m : Cmd) (x : Core) : Bool :=
  m.fault.isSome || match m.kind with
    | .gather _ _ _ _ _ => m.chans.isEmpty
    | .scan _ _ _ _ _ _ _ _ _ => m.chans.isEmpty || m.ringFull x
    | _ => !m.kind.isCopy || m.done.all fun i => i < m.done.length

/-- A core's outstanding requests are settled (R353 step 1). -/
def State.settled (s : State) (c : CoreId) : Bool :=
  (s.net.all fun m => m.core != c || m.cancelled || s.untaken m || s.waitsInTrap c m)
    && (s.majOps.all fun o => o.core != c || o.done || o.stamped.isNone)
    && ((List.finRange 16).all fun k => s.between c k && !(s.thread c k).killing)
    && (s.core c).cmds.all fun m => m.settledIn (s.core c)

/-- Prefetch and maintenance commands of a core run to their end at the slices (R301). A line that a stack holds back
ends with the command. -/
def State.runOut (s : State) (c : CoreId) (m : Cmd) : State :=
  match m.kind with
  | .prefetch base stride rows lines hint =>
    (List.range (rows * lines)).foldl (fun s i =>
      if m.done.contains i then s
      else (s.prefetch c m.ctx ((base + i / lines * stride + 128 * (i % lines)) % 2 ^ 64) hint).getD s) s
  | .clean base _ inval =>
    (List.range m.kind.pieces).foldl (fun s i =>
      if m.done.contains i then s else s.maintain m.ctx ((base / 128 * 128 + 128 * i) % 2 ^ 64) inval) s
  | _ => s

/-- A command as it is saved: a gather goes on from the lowest element not landed (R301). -/
def Cmd.settle (m : Cmd) : Cmd :=
  match m.kind with
  | .gather _ _ _ count _ =>
    { m with done := List.range ((leastBelow count fun i => !m.done.contains i).getD count), chans := [] }
  | _ => m

/-- A thread that stands trapped, its outstanding loads cancelled with what it had posted in vain (`lost`): they execute again
when it goes on (`Thread.takeUp`; assumption 46). -/
def Thread.cancelLoads (t : Thread) (lost : List Redo) : Thread :=
  let rs := lost ++ t.loads.map PendLoad.redo
  if t.after.isSome && !rs.isEmpty then t.giveUp lost
  else { t.release t.loads with loads := [], redo := rs.foldr insertRedo t.redo }

/-- A thread as it is saved: its present instruction has not executed (R31), and it stands at its oldest load that was
cancelled, or goes back there when its record has been answered (R88; assumption 46). What stands at a full output keeps its
answer; a parked thread keeps its place among those that wait (R32, R354). A supervisor whose record has been forwarded is
saved at the next instruction (R318). -/
def Thread.saved (t : Thread) (lost : List Redo) : Thread :=
  let rest : Thread → Thread := fun u => { u with inRep := false, ibuf := none }
  let kept : Progress := { t.keptProg with held := t.places }
  let back : Thread :=
    if t.loads.isEmpty then { t with prog := kept }
    else
      let u := t.giveUp []
      { u with prog := {}, kept := if u.after.isSome && t.after.isNone then kept else u.kept }
  match t.status with
  | .absent => t
  | .trapped => rest { t.cancelLoads lost with prog := t.keptProg }
  | .parked .kamgor => rest { t.cancelLoads lost with prog := { t.keptProg with stage := t.prog.stage } }
  | .parked _ => { rest back with status := .halted true }
  | _ => { rest back with status := .halted false }

/-- The threads of a core as they are saved. -/
def State.savedSlots (s : State) (c : CoreId) : Vector Thread 16 :=
  .ofFn fun k =>
    let lost := (s.net.filter fun m => m.core == c && m.slot == k && s.waitsInTrap c m).flatMap Msg.redo
    ((s.core c).slots.get k).saved lost

/-! ## The save record (R354 to R356) -/

/-- A field of a save record of which the spec gives the contents and not the layout: `n` bytes that depend on the
contents, in a way that the part fixes, DESIGN CHOICE (assumption 45). -/
def openField (sec n : Nat) (contents : List Nat) : List Byte := (List.range n).map (Config.recordByte sec contents)

/-- A section of a save record of which the spec gives the contents and not the layout (R354); no record exceeds 2 MiB
(R330). -/
def openSection (sec : Nat) (contents : List Nat) : List Byte :=
  openField sec (Config.recordLength sec contents % 2 ^ 18) contents

/-- The number of a thread's state (R27). -/
def Status.number : Status → Nat
  | .absent => 0
  | .ready => 1
  | .waiting _ => 2
  | .parked _ => 3
  | .trapped => 4
  | .halted p => if p then 3 else 1

/-- The number of an entry's kind (R237). -/
def EntKind.number : EntKind → Nat
  | .data => 0
  | .end1 => 1
  | .end2 => 2
  | .end3 => 3

/-- The number of an engine kind (R302). -/
def EngineKind.number : EngineKind → Nat
  | .own => 0
  | .copy => 1
  | .gather => 2
  | .accel => 3
  | .scan => 4
  | .tile => 5

/-- The number of a mode of a claim (R265). -/
def TileMode.number : TileMode → Nat
  | .independent => 0
  | .m1x4 => 1
  | .m2x2 => 2
  | .m4x1 => 3

/-- The values of bytes. -/
def byteNats (b : List Byte) : List Nat := b.map BitVec.toNat

/-- The values of a trap record, with whether it has been posted. -/
def faultNats (f : Option TrapRecord) (posted : Bool) : List Nat :=
  match f with
  | none => [0]
  | some r => [1, posted.toNat] ++ byteNats r.bytes

/-- What 0x348 to 0x3FF of a thread block holds: the registers of R324, the format shadows, the depth, the replica, the
thread's state and its trap-record flags (R355). -/
def Thread.identityNats (t : Thread) (names : List TrapRecord) : List Nat :=
  [t.tid.toNat, t.coreNo.toNat, t.clust.toNat, t.dieNo.toNat, t.hctx.val, t.prio.toNat, t.vcount.toNat, t.spbase.toNat
   , t.spsize.toNat, t.fmta.toNat, t.fmtb.toNat, t.fmtc.toNat, t.scla.toNat, t.sclb.toNat, t.grpsz.toNat, t.depth
   , t.replica.1, t.replica.2, t.status.number] ++ names.map fun r => r.engine.number

/-- What 0x500 to 0x5FF of a thread block holds: the configuration and the stream of the reference accelerator and the
cruiser (R355). -/
def Thread.unitNats (t : Thread) (a : Option Stream) (r : Option CruiserRun) : List Nat :=
  (match t.racfg with | some (w, n) => [w.toNat, n] | none => [])
    ++ (match t.crcfg with | some (w, ls) => w.toNat :: ls.flatMap fun l => [l.1, l.2.toNat] | none => [])
    ++ (t.emitted.toNat :: match a with | some a => [a.qi, a.qv, a.base.toNat, a.size, a.delivered] | none => [])
    ++ (match r with | some r => r.q :: r.idx ++ r.ends.map EntKind.number | none => [])

/-- What the section Core holds: the queue store with its bindings and claims, the trap queue, the taken set, TRAPQ and
SVSTATE, the deque with shadows and marks, the order of the parked threads, and landing heads (R354). -/
def State.coreNats (s : State) (c : CoreId) : List Nat :=
  let x := s.core c
  let record := fun (r : TrapRecord) => byteNats r.bytes
  (x.queues.flatMap fun q => q.id :: q.depth :: q.entries.flatMap fun e => [e.kind.number, e.val.toNat])
    ++ (x.slots.toList.flatMap fun t =>
      (t.ports.toList.flatMap fun p => match p with
        | some b => [b.num.toNat, b.obj, b.ring.toNat, b.out.toNat]
        | none => [])
      ++ (t.claims.flatMap fun q => [q.ring, q.seq, q.kind.number, q.readUsed.toNat, q.outUsed.length] ++ q.outUsed
                                    ++ byteNats q.cell)
      ++ t.places.map Prod.fst)
    ++ x.trapq.flatMap record ++ x.taken.flatMap record ++ [x.trapHigh.toNat, x.hold.toNat]
    ++ (x.deque.flatMap fun e =>
      [e.id, e.record.entry.toNat, e.record.arg.toNat, e.record.vregs, e.record.prio.toNat, e.record.spad, e.depth
       , e.aff.ctorIdx, (e.reserved.map (· + 1)).getD 0, e.waited (s.cycleOf c), e.ctx.val, e.stage
       , (e.launch.map (· + 1)).getD 0] ++ e.fmts.map BitVec.toNat)
    ++ ((s.rings.filter fun r => (r.land.map Prod.fst) == some c).flatMap fun r => [r.id, r.head])
    ++ s.rings.flatMap fun r => (r.heads.filter fun h => h.1 == c).map Prod.snd

/-- A macro-operation as numbers: which it is, and its operands. -/
def TileOpKind.nats : TileOpKind → List Nat
  | .zero => [0]
  | .mma ta tb ga gb a b => [1, ta.ctorIdx, tb.ctorIdx, ga.toNat, gb.toNat, a, b]
  | .mmac ta tb gb src b draws => [2, ta.ctorIdx, tb.ctorIdx, gb.toNat, src.val, b] ++ draws.map BitVec.toNat
  | .load ty addr stride => [3, ty.ctorIdx, addr, stride]
  | .store ty addr stride draws => [4, ty.ctorIdx, addr, stride] ++ draws.map BitVec.toNat
  | .move src => [5, src.val]

/-- A queued operation as numbers, with its next step. -/
def TileOp.nats (o : TileOp) : List Nat :=
  [o.id, o.acc.val, o.mode.number, o.ksteps, o.scla, o.sclb, o.grp, o.cvt.ctorIdx, o.step, (o.after.map (· + 1)).getD 0]
    ++ o.kind.nats ++ o.deps ++ faultNats o.fault o.posted

/-- What the section Tile holds of the claims: the mode, KSTEPS, the accumulators and the queued operations with their
next steps (R277, R354). -/
def claimNats (l : List (Fin 4 × SubArray)) : List Nat :=
  l.flatMap fun p =>
    [p.1.val, p.2.mode.number, p.2.ksteps] ++ p.2.acc.toList.map BitVec.toNat ++ p.2.queue.flatMap TileOp.nats

/-- An address of a copy as numbers. -/
def Place.nats : Place → List Nat
  | .loc a => [0, a]
  | .glob va => [1, va]

/-- What a command does, as numbers. -/
def CmdKind.nats : CmdKind → List Nat
  | .copy dst src len hint follow => 0 :: dst.nats ++ src.nats ++ [len, hintCode hint, follow.toNat]
  | .multicast mask dst src len => [1, mask.toNat, dst, src, len]
  | .gather dst base lsize count list => [2, dst, base, lsize, count, list]
  | .scan ring base n thresh fmt abs rsize headp desc =>
    [3, ring, base, n, thresh.toNat, fmt.ctorIdx, abs.toNat, rsize, headp, desc]
  | .prefetch base stride rows lines hint => [4, base, stride, rows, lines, hintCode hint]
  | .clean base len inval => [5, base, len, inval.toNat]

/-- A completion register as numbers. -/
def Completion.nats : Completion → List Nat
  | .none => [0]
  | .object a => [1, a]
  | .notify va => [2, va]

/-- A command as numbers, with how far it has come. -/
def Cmd.nats (m : Cmd) : List Nat :=
  [m.id, m.slot.val, m.ctx.val, m.pairs, m.sig.toNat, (m.launch.map (· + 1)).getD 0, m.gone.toNat] ++ m.kind.nats
    ++ m.comp.nats ++ m.done ++ (m.chans.flatMap fun q => [q.1, q.2])
    ++ (m.lineBuf.flatMap fun q => q.1 :: byteNats q.2) ++ m.late ++ faultNats m.fault m.posted

/-- What the section Engines holds: the commands with their operands and how far they have come (R301, R354). -/
def Core.engineNats (x : Core) : List Nat := x.cmds.flatMap Cmd.nats

/-- What the section Opaque holds: the core's requests in flight (R358). -/
def opaqueNats (ms : List Msg) : List Nat := ms.flatMap fun m => [m.id, m.slot.val, m.va.toNat]

/-- A thread block (R355). -/
def State.threadBlock (s : State) (c : CoreId) (k : Slot) : List Byte :=
  let t := s.thread c k
  let cl := s.clusters.get (clusterOf c)
  let w := leBytes 8
  let xs := (List.finRange 32).flatMap fun i => w (t.x.get i).toNat
  let ks := (List.range 8).flatMap fun i => bytesOf (t.getK (BitVec.ofNat 3 i)) 0 64
  let regs := [t.pc.toNat, t.shapeWord.toNat, t.repcnt.toNat, hintCode t.hint, t.srseed.toNat, t.instret.toNat
               , t.slip.toNat, t.qports.toNat, t.tbm.toNat].flatMap w
  let named := ((s.core c).trapq ++ (s.core c).taken).filter fun r => r.names k
  let ids := openField 0 184 (t.identityNats named)
  let ms := (List.finRange 8).flatMap fun i => w (t.m.get i).toNat
  let gap := openField 1 63 []
  let mineA := cl.accel.filter fun a => a.core == c && a.slot == k
  let mineC := cl.cruiser.filter fun r => r.core == c && r.slot == k
  let units := openField 2 256 (t.unitNats mineA mineC)
  let gens := (List.finRange 128).flatMap fun i => leBytes 4 (t.gens.get i).toNat
  let vs := (List.range t.vcount.toNat).flatMap fun i => bytesOf (t.getV (BitVec.ofNat 5 i)) 0 512
  xs ++ ks ++ regs ++ ids ++ bytesOf t.sigacq 0 64 ++ bytesOf t.wsig 0 64 ++ ms ++ [t.mfull] ++ gap ++ units ++ gens
    ++ List.replicate 2048 0 ++ vs

/-- A granule of a scratchpad. -/
def Core.granule (x : Core) (g : Nat) : List Byte := x.spad.read (64 * g) 64

/-- The code of a dirty granule (R356). -/
def granuleCode (b : List Byte) : Nat :=
  if b.all fun v => v == 0 then 0
  else if (List.range 8).all fun i => (b.drop (8 * i)).take 8 == b.take 8 then 1
  else 2

/-- The data bytes of a granule under its code (R356). -/
def granuleData (b : List Byte) : List Byte :=
  match granuleCode b with
  | 0 => []
  | 1 => b.take 8
  | _ => b

/-- A list padded with zeros to a multiple of `n` bytes. -/
def padTo (n : Nat) (b : List Byte) : List Byte := b ++ List.replicate (ceilDiv b.length n * n - b.length) 0

/-- The scratchpad section (R356). -/
def Core.spadSection (x : Core) : List Byte :=
  let dirty := (List.range 8192).filter fun g => x.dirtyGran.contains g
  let map := (List.range 1024).map fun i => BitVec.ofNat 8 ((List.range 8).foldl (fun v b =>
    if dirty.contains (8 * i + b) then v + 2 ^ b else v) 0)
  let codes := dirty.map fun g => granuleCode (x.granule g)
  let packed := (List.range (ceilDiv codes.length 4)).map fun i => BitVec.ofNat 8 ((List.range 4).foldl (fun v j =>
    v + codes.getD (4 * i + j) 0 * 4 ^ j) 0)
  map ++ padTo 8 packed ++ dirty.flatMap fun g => granuleData (x.granule g)

/-- Write bytes at a context's virtual address, line by line; lines that cannot be written are left. -/
def State.ctlWriteAll (s : State) (ctx : Ctx) (va : Nat) (b : List Byte) : State :=
  (lineRuns va (b.length + 1) b.length).foldl (fun s r =>
    (s.ctlWrite ctx (r.1 % 2 ^ 64) ((b.drop (r.1 - va)).take r.2)).getD s) s

/-- The sections of a record with their offsets and lengths, each from a multiple of 128 (R354). -/
def placeSections (start : Nat) : List (List Byte) → List (Nat × List Byte)
  | [] => []
  | b :: rest => (start, b) :: placeSections (ceilDiv (start + b.length) 128 * 128) rest

/-- The claims of a core's threads on sub-arrays of its cluster (R277). -/
def State.claimsOf (s : State) (c : CoreId) : List (Fin 4 × SubArray) :=
  let held := (List.finRange 4).filterMap fun i =>
    let u := (s.clusters.get (clusterOf c)).tile.get i
    match u.claim with
    | some (d, _) => if d = c then some (i, u) else none
    | none => none
  held ++ (s.reclaims.filter fun r => r.1 == c).flatMap fun r => r.2.2.2

/-- The opaque section: the requests in flight, up to 64 KiB (R358). -/
def opaqueSection (ms : List Msg) : List Byte :=
  let v := opaqueNats ms
  openField 6 (min 65536 (Config.recordLength 6 v)) v

/-- Write the save record of a core into a save slot (R330, R354). -/
def State.writeRecord (s : State) (ctx : Ctx) (c : CoreId) (slot : Nat) (isOpaque : Bool) : State :=
  let x := s.core c
  let mine := (List.finRange 16).filter fun k => (x.thread k).present
  let threads := mine.flatMap fun k => s.threadBlock c k
  let core := openSection 3 (s.coreNats c)
  let tile := openSection 4 (claimNats (s.claimsOf c))
  let engines := openSection 5 x.engineNats
  let op := if isOpaque then opaqueSection (s.net.filter fun m => m.core == c && !m.orphan) else []
  let parts := placeSections 128 [threads, core, tile, engines, x.spadSection, op]
  let mask := (mine.map fun k => 2 ^ k.val).sum
  let header := leBytes 4 1 ++ leBytes 2 c.val ++ [BitVec.ofNat 8 ctx.val, if isOpaque then 1 else 0]
    ++ leBytes 2 mask ++ List.replicate 6 0 ++ leBytes 8 0 ++ leBytes 8 128
    ++ parts.flatMap fun p => leBytes 8 p.1 ++ leBytes 8 p.2.length
  let y := s.ctxs.get ctx
  let base := y.savebase.toNat + slot * y.savestride.toNat
  ((0, header) :: parts).foldl (fun s p => s.ctlWriteAll ctx ((base + p.1) % 2 ^ 64) p.2) s

/-! ## Saving a core (R353) -/

/-- What of a core belongs to a context, and what stays with the core. -/
structure Parting where
  mine : Core := {}
  rest : Core := {}

/-- Part a core that leaves a context: work of another context that still waits in its deque or runs in its engines,
and landings of other contexts, stay. The counts of requests, the translation cache, the episode counts and the skips of the
die's head packet (R347) stay with the core. -/
def State.part (s : State) (c : CoreId) (ctx : Ctx) : Parting :=
  let x := s.core c
  let landing := fun (l : Nat × Nat) => s.rings.any fun r => r.ctx == ctx && r.land == some (c, l.1)
  let other := x.deque.filter fun e => e.ctx != ctx
  let keep := fun (id : Nat) => other.any fun e => e.stage == id
  let rest : Core := { x with
    slots := .replicate 16 {}, ctx := none, halting := false, deque := other, trapq := [], taken := [], hold := 0
    trapHigh := 0, rescue := 0, kamgor := none, l1d := []
    landings := x.landings.filter fun l => !landing l
    stages := x.stages.filter fun g => keep g.id
    queues := x.queues.filter fun q => q.owners.any keep
    cmds := x.cmds.filter fun m => m.ctx != ctx }
  let mine : Core := { x with
    deque := x.deque.filter fun e => e.ctx == ctx, landings := x.landings.filter landing
    stages := x.stages.filter fun g => !keep g.id, queues := x.queues.filter fun q => !q.owners.any keep
    cmds := x.cmds.filter fun m => m.ctx == ctx }
  { mine := mine, rest := rest.zeroSpad }

/-- Claims that the threads of a core have yet to take again are saved with it. -/
def State.forgetReclaims (s : State) (c : CoreId) : State := { s with reclaims := s.reclaims.filter fun r => r.1 != c }

/-- The cluster units that a core's threads hold are free. -/
def Cluster.leaveCore (x : Cluster) (c : CoreId) : Cluster :=
  let free : SubArray → SubArray := fun u =>
    match u.claim with
    | some (d, _) => if d = c then { u with claim := none, queue := [] } else u
    | none => u
  { x with
    tile := x.tile.map free
    accel := match x.accel with
      | some a => if a.core = c then none else some a
      | none => none
    cruiser := match x.cruiser with
      | some r => if r.core = c then none else some r
      | none => none }

/-- Every request of a core that is still in flight is orphaned, but for the fetches of its cluster's fetch port; packets of
a `reduce` that was not performed leave the lane, and so does a refused `send` (R263). -/
def State.orphanCore (s : State) (c : CoreId) : State :=
  let off := fun (m : Msg) => m.core == c && (s.untaken m || m.refusedSend)
  { s with
    net := mapIf (fun m => m.core == c && m.counted) (fun m => { m with orphan := true }) (s.net.filter fun m => !off m)
    majOps := mapIf (fun o => o.core == c) (fun o => { o with done := true }) s.majOps }

/-- A supervisor whose forwarded record waits for Kamgor is saved at the next instruction, marked by stage 9
(R318). -/
def Core.supervisorOn (x : Core) : Core :=
  match x.kamgor with
  | some (.forwarded _) =>
    let t := if (x.thread 15).prog.stage = 9 then x.thread 15 else (x.thread 15).advance
    x.setThread 15 { t with status := .parked .kamgor, prog := { stage := 9 } }
  | _ => x

/-- A deque entry as it is saved holds the cycles that it has waited, and goes on waiting from there on the die of its new
core: the time for which its context was saved is not among them, DESIGN CHOICE (assumption 89). -/
def DequeEntry.waiting (now : Nat) (e : DequeEntry) : DequeEntry := { e with since := (now + 2 ^ 64 - e.since) % 2 ^ 64 }

/-- Save a core in a save slot and free it (R353). -/
def State.saveCore (s : State) (ctx : Ctx) (slot : Nat) (c : CoreId) : State :=
  let s := ((s.core c).cmds.filter fun m => m.ctx == ctx && m.kind.engine == .own).foldl (fun s m => s.runOut c m) s
  let s := s.updCore c Core.supervisorOn
  let slots := s.savedSlots c
  let s := s.updCore c fun x => { x with
    slots := slots
    cmds := (x.cmds.filter fun m => m.ctx != ctx || m.kind.engine != .own).map fun m => if m.ctx = ctx then m.settle else m }
  let s := s.writeRecord ctx c slot false
  let p := s.part c ctx
  let cl := s.clusters.get (clusterOf c)
  let core := { p.mine with l1d := [], halting := false, deque := p.mine.deque.map (DequeEntry.waiting (s.cycleOf c)) }
  let mineA := match cl.accel with
    | some a => if a.core = c then some { a with rob := [] } else none
    | none => none
  let mineC := match cl.cruiser with
    | some r => if r.core = c then some r else none
    | none => none
  let e : SavedCore := {
    home := s.identity c ctx, core := core, tile := s.claimsOf c, accel := mineA, cruiser := mineC, saveSlot := slot }
  let s := ((s.orphanCore c).updCluster (clusterOf c) fun x => x.leaveCore c).forgetReclaims c
  (s.setCore c p.rest).updCtx ctx fun x => { x with savedCores := x.savedCores ++ [e] }

/-- The L1D of a core has been written back and invalidated, and every write-back acknowledged (R131, R353). -/
def State.l1Clean (s : State) (c : CoreId) : Bool :=
  (s.core c).l1d.isEmpty && !s.net.any fun m => m.core == c && match m.body with
    | .writeback _ _ _ _ => true
    | _ => false

/-- The save slot of a core: its rank by global core id among the cores that held the context at the halt, those that have
been saved already among them (R330). -/
def State.saveRank (s : State) (ctx : Ctx) (c : CoreId) : Nat :=
  let gone := (s.ctxs.get ctx).savedCores.map fun e => s.placed ctx e.home
  ((s.holders ctx ++ gone).filter fun d => d < c).length

/-- `CONTEXT_SAVE`: once every core of a halting context has settled, their L1Ds are written back; then every core
writes its record and is free, and CTXCTL.SAVED is set (R353, R409). -/
def execContextSave (ctx : Fin 64) (s : State) : Result :=
  event (fun s =>
    let x := s.ctxs.get ctx
    let cs := s.holders ctx
    let s := cs.foldl State.endKills s
    if x.runState != .halting || !cs.all s.settled then none
    else if !cs.all fun c => (s.core c).l1d.isEmpty then some (cs.foldl State.flushL1 s)
    else if !cs.all s.l1Clean then none
    else
      let ranks := cs.map fun c => (s.saveRank ctx c, c)
      let s := ranks.foldl (fun s p => s.saveCore ctx p.1 p.2) s
      some (s.updCtx ctx fun x => { x with runState := .saved, saved := true })) s

/-! ## Opaque saves (R358) -/

/-- Requests of a core that have not reached their targets, counted off its totals. -/
def State.uncount (s : State) (c : CoreId) (ms : List Msg) : State :=
  ms.foldl (fun s m =>
    match m.target, m.stage with
    | some g, .sent => s.updCore c fun x => { x with sent := assocSet x.sent g (x.sentTo g - 1) }
    | _, _ => s) s

/-- A look-ahead of a pre-empted stream: a fault that it holds is dropped, and the access waits for its confirmation
(R311). -/
def Ahead.dropHeld (h : Ahead) : Ahead := if h.held && !h.confirmed then { h with held := false, stopped := true } else h

/-- A thread of a core that is saved without settling: one at a `waita` has not executed it, and runs it again (R154, R357). -/
def Thread.unregistered (t : Thread) : Thread :=
  match t.status with
  | .parked .registered => if t.prog.data.isSome then t else { t with status := .halted true }
  | _ => t

/-- `OPAQUE_SAVE`: a halted core is saved without settling; its requests in flight, the write-backs of its L1D among them,
go into the opaque section. A part of another revision, which would refuse the section, is another package
(assumption 45). -/
def execOpaqueSave (core : Fin 1280) (s : State) : Result :=
  event (fun s => do
    let ctx ← (s.core core).ctx
    if (s.ctxs.get ctx).runState != .halting then none
    else if !(s.core core).l1d.isEmpty then pure (s.flushL1 core)
    else
      let slot := s.saveRank ctx core
      let s := s.writeRecord ctx core slot true
      let p := s.part core ctx
      let cl := s.clusters.get (clusterOf core)
      let ms := s.net.filter fun m => m.core == core && !m.orphan
      let mineA := match cl.accel with
        | some a => if a.core = core then some { a with rob := a.rob.map fun h => h.map Ahead.dropHeld } else none
        | none => none
      let mineC := match cl.cruiser with
        | some r => if r.core = core then some r else none
        | none => none
      let e : SavedCore := {
        home := s.identity core ctx, tile := s.claimsOf core
        core := { p.mine with
          halting := false, l1d := [], slots := p.mine.slots.map Thread.unregistered
          deque := p.mine.deque.map (DequeEntry.waiting (s.cycleOf core)) }
        accel := mineA, cruiser := mineC, saveSlot := slot, isOpaque := true, replay := ms
        ops := s.majOps.filter fun o => o.core == core }
      let s := (s.updCluster (clusterOf core) fun x => x.leaveCore core).forgetReclaims core
      let s := (s.setCore core p.rest).uncount core ms
      let s := s.updCtx ctx fun x => { x with savedCores := x.savedCores ++ [e] }
      pure { s with
        net := s.net.filter fun m => !(m.core == core && !m.orphan)
        majOps := s.majOps.filter fun o => o.core != core }) s

/-! ## Resume (R357) -/

/-- A saved core, the core it ran on, and the core it goes to. -/
abbrev Move := SavedCore × CoreId × CoreId

/-- The moves that a placement of the saved cores makes. -/
def State.moves (s : State) (ctx : Ctx) (place : List CoreId) : List Move :=
  List.zipWith (fun e d => (e, s.placed ctx e.home, d)) (s.ctxs.get ctx).savedCores place

/-- A core is free for a saved one (R357). -/
def State.freeCore (s : State) (d : CoreId) : Bool :=
  let x := s.core d
  x.ctx.isNone && !x.halting && x.landings.isEmpty && !(s.dies.get (dieOf d)).inReset
    && (List.finRange 16).all fun k => !(x.thread k).present

/-- A placement is allowed (R357): the cores of one cluster go together, each to the same place within one free cluster
or within their own, and the accelerator and the cruiser that the saved threads hold are free there. -/
def State.placeOk (s : State) (ms : List Move) : Bool :=
  ms.all fun (e, o, d) =>
    let cl := s.clusters.get (clusterOf d)
    s.freeCore d && o.val % 4 == d.val % 4
      && (clusterOf o == clusterOf d || (List.finRange 4).all fun i => s.freeCore (coreIn (clusterOf d) i))
      && (ms.all fun (_, o2, d2) => (clusterOf o == clusterOf o2) == (clusterOf d == clusterOf d2) && (o == o2) == (d == d2))
      && (e.accel.isNone || cl.accel.isNone) && (e.cruiser.isNone || cl.cruiser.isNone)

/-- The core that a core's number stands for after the moves. -/
def movedTo (ms : List Move) (c : CoreId) : CoreId := ((ms.find? fun m => m.2.1 == c).map fun m => m.2.2).getD c

/-- A ring with its cores renamed (R246, R357). -/
def Ring.moved (r : Ring) (f : CoreId → CoreId) : Ring :=
  { r with
    land := r.land.map fun l => (f l.1, l.2)
    heads := r.heads.map fun h => (f h.1, h.2)
    claimed := r.claimed.map fun h => (h.1, f h.2.1, h.2.2)
    tokens := r.tokens.map fun p => (p.1, p.2.map fun h => (f h.1, h.2))
    replicas := r.replicas.map fun h => (f h.1, h.2) }

/-- A request with its cores renamed. -/
def Body.moved (b : Body) (f : CoreId → CoreId) : Body :=
  match b with
  | .spadRead c a n => .spadRead (f c) a n
  | .spadWrite c a v => .spadWrite (f c) a v
  | .head r c h => .head r (f c) h
  | b => b

/-- The state in which a restored thread starts (R357): it tests its condition afresh. -/
def Thread.restored (t : Thread) (now : Nat) : Thread :=
  match t.status with
  | .halted _ => Thread.sinceNow now { t with status := .ready }
  | _ => t

/-- Episode counts of a restored core: those of the trees of its context, on the die of the member's own number, come from
the record (R228, R357). -/
def State.episodesOf (s : State) (ctx : Ctx) (e : SavedCore) (old : Core) : Vector (BitVec 8) 16 :=
  .ofFn fun i => match (s.dies.get (dieOf e.home)).trees.get i with
    | some t => if t.ctx = ctx then e.core.episodes.get i else old.episodes.get i
    | none => old.episodes.get i

/-- A restored thread takes its claim again, or stands parked until it can, at a place in the cluster's order (R265, R277). -/
def State.restoreClaim (s : State) (n : Nat) (d : CoreId) (k : Slot) (l : List (Fin 4 × SubArray)) : State :=
  if l.isEmpty then s else State.takeReclaims { s with reclaims := s.reclaims ++ [(d, k, n, l)] }

/-- Places of a thread moved on by `n`. -/
def Thread.placesOn (n : Nat) (t : Thread) : Thread :=
  let f : Nat × Blocker → Nat × Blocker := fun p => (p.1 + n, p.2)
  { t with prog := { t.prog with ticket := t.prog.ticket.map (· + n), held := t.prog.held.map f }
           kept := { t.kept with held := t.kept.held.map f } }

/-- The first place behind those of the threads of a core. -/
def Core.placesEnd (x : Core) : Nat :=
  x.slots.toList.foldl (fun n t => (t.places ++ t.kept.held).foldl (fun n p => max n (p.1 + 1)) n) 0

/-- Places in the orders of the cores that saved ones go to and of their clusters have all come before this one: the restored
claims stand there, and behind them the restored threads that are parked, in their order (R32, R265). -/
def State.placesFrom (s : State) (ms : List Move) : Nat :=
  ms.foldl (fun n m => max n (max (s.core m.2.2).ticket (s.clusters.get (clusterOf m.2.2)).order)) 0

/-- Put a saved core onto a free one (R357). RESCUE counts from 0 (R224). -/
def State.placeCore (s : State) (ctx : Ctx) (f : CoreId → CoreId) (n : Nat) (m : Move) : State :=
  let (e, _, d) := m
  let now := s.cycleOf d
  let old := s.core d
  let core : Core := { e.core with
    ctx := some ctx, sent := old.sent, episodes := s.episodesOf ctx e old
    tlb := old.tlb, last := old.last, issuedAt := old.issuedAt, stealAt := old.stealAt, skips := old.skips, posts := (0, 0)
    deque := e.core.deque.map (DequeEntry.waiting now)
    ticket := max e.core.ticket old.ticket, halting := false
    rescue := 0, cmds := old.cmds ++ e.core.cmds
    slots := e.core.slots.map fun t => (t.restored now).placesOn (n + 1) }
  let core := { core with ticket := max core.ticket core.placesEnd }
  let s := (s.setCore d core).updCluster (clusterOf d) fun x => { x with order := max x.order (max (n + 1) core.placesEnd) }
  let s := (List.finRange 16).foldl (fun s k => s.restoreClaim n d k (e.tile.filter fun p => (p.2.claim.map Prod.snd) == some k)) s
  let s := s.updCluster (clusterOf d) fun x =>
    { x with
      accel := (e.accel.map fun a => { a with core := d }).or x.accel
      cruiser := (e.cruiser.map fun r => { r with core := d, cycle := none }).or x.cruiser }
  if !e.isOpaque then s
  else
    let ms := e.replay.map fun m => { m with core := d, body := m.body.moved f }
    let s := ms.foldl (fun s m =>
      match m.target, m.stage with
      | some g, .sent => s.updCore d fun x => x.countSent g
      | _, _ => s) s
    { s with net := s.net ++ ms, majOps := s.majOps ++ e.ops.map fun o => { o with core := d } }

/-- Kamgor answers a supervisor: x10 is written and the supervisor goes on behind its `ecall` (R318). One that was saved
stands there already. -/
def State.answerSupervisor (s : State) (c : CoreId) (v : Word) : State :=
  let saved := (s.thread c 15).prog.stage == 9
  let s := (s.updThread c 15 fun t => t.setX 10 v).updCore c fun x => { x with kamgor := none }
  if saved then
    s.updThread c 15 fun t =>
      let t := Thread.takeUp { t with prog := { t.prog with stage := 0 } }
      { t with status := .ready, prog := { t.prog with since := s.cycleOf c } }
  else s.completeThread c 15

/-- Give a restored supervisor the answer that Kamgor has kept for it (R318). -/
def State.giveAnswer (s : State) (ctx : Ctx) (m : Move) : State :=
  let (e, _, d) := m
  match assoc (s.ctxs.get ctx).answers e.home with
  | none => s
  | some v => (s.answerSupervisor d v).updCtx ctx fun x => { x with answers := assocDel x.answers e.home }

/-! ## Reading a record back (R354 to R357) -/

/-- A thread with the values of the fields that a block lays out (R355). -/
def Thread.readBlock (t : Thread) (b : List Byte) : Thread :=
  let reg : Nat → Word := fun i => BitVec.ofNat 64 (fieldOf b (0x300 + 8 * i) 8)
  let ks := fun (t : Thread) i => t.setK (BitVec.ofNat 3 i) (ofBytes 512 ((b.drop (0x100 + 64 * i)).take 64))
  let vs := fun (t : Thread) i => t.setV (BitVec.ofNat 5 i) (ofBytes 4096 ((b.drop (4096 + 512 * i)).take 512))
  let t := if shapeOk (reg 1) then t.setShape (reg 1) else t
  let t := (List.range t.vcount.toNat).foldl vs ((List.range 8).foldl ks (t.setHint (reg 3)))
  { t with
    x := .ofFn fun i => if i = 0 then 0 else BitVec.ofNat 64 (fieldOf b (8 * i.val) 8)
    pc := reg 0, repcnt := if repcntOk (reg 2) then (reg 2).setWidth 7 else t.repcnt
    srseed := (reg 4).setWidth 32, instret := reg 5, slip := (reg 6).setWidth 32, tbm := reg 8
    sigacq := ofBytes 512 ((b.drop 0x400).take 64), wsig := ofBytes 512 ((b.drop 0x440).take 64)
    m := .ofFn fun i => BitVec.ofNat 64 (fieldOf b (0x480 + 8 * i.val) 8)
    mfull := b.getD 0x4C0 0
    gens := .ofFn fun i => BitVec.ofNat 32 (fieldOf b (0x600 + 4 * i.val) 4) }

/-- A saved thread with the fields that its block lays out (R355): a PC that has been changed is where it goes on, and other
registers that have been changed hold behind what executes again too. -/
def Thread.fromBlock (t : Thread) (b : List Byte) : Thread :=
  let u := { t.readBlock b with pc := t.pc }
  let u := u.behind (Undo.takeOver t u)
  let pc := BitVec.ofNat 64 (fieldOf b 0x300 8)
  if pc = t.pc then u else u.goTo pc

/-- The bytes of a granule by its code, and how many bytes of the section they take (R356). -/
def granuleFrom (code : Nat) (b : List Byte) : List Byte × Nat :=
  match code with
  | 1 => ((List.range 8).flatMap fun _ => b.take 8, 8)
  | 2 => (b.take 64, 64)
  | _ => ([], 0)

/-- A core whose scratchpad a section gives: it is cleared, and each coded granule is written (R356). -/
def Core.fromSection (x : Core) (b : List Byte) : Core :=
  let dirty := (List.range 8192).filter fun g => (b.getD (g / 8) 0).getLsbD (g % 8)
  let code : Nat → Nat := fun j => ((b.getD (1024 + j / 4) 0).toNat / 4 ^ (j % 4)) % 4
  let put := fun (p : Memory × List Byte) (q : Nat × Nat) =>
    let (g, n) := granuleFrom (code q.2) p.2
    (p.1.write (64 * q.1) g, p.2.drop n)
  { x with
    spad := (dirty.zipIdx.foldl put ([], b.drop (1024 + ceilDiv dirty.length 32 * 8))).1
    dirtyGran := (dirty.zipIdx.filter fun q => code q.2 != 3).map Prod.fst }

/-- Read a saved core back from its record (R354, R357): the fields that R355 lays out and the scratchpad stand in the
record; what the spec does not lay out, and a record that cannot be read, comes from the core as it was saved, DESIGN
CHOICE (assumption 45). -/
def State.readBack (s : State) (ctx : Ctx) (e : SavedCore) : SavedCore × State :=
  let y := s.ctxs.get ctx
  let base := y.savebase.toNat + e.saveSlot * y.savestride.toNat
  let get := fun (s : State) (off n : Nat) => s.ctlRead ctx ((base + off) % 2 ^ 64) n
  let mine := (List.finRange 16).filter fun k => (e.core.thread k).present
  let size : Slot → Nat := fun k => 4096 + 512 * (e.core.thread k).vcount.toNat
  if e.isOpaque then (e, s)
  else match get s 0 128 with
    | .ok h s1 =>
      let part := fun i => fieldOf h (16 + 8 * i) 8
      match get s1 (part 2) (mine.map size).sum with
      | .ok tb s2 =>
        match get s2 (part 10) (min (part 11) 0x81000) with
        | .ok sb s3 =>
          let load := fun (p : Core × List Byte) (k : Slot) =>
            (p.1.setThread k ((p.1.thread k).fromBlock p.2), p.2.drop (size k))
          ({ e with core := ((mine.foldl load (e.core, tb)).1).fromSection sb }, s3)
        | _ => (e, s)
      | _ => (e, s)
    | _ => (e, s)

/-- Every saved core of a resume, read back from its record. -/
def State.readMoves (s : State) (ctx : Ctx) (ms : List Move) : List Move × State :=
  ms.foldl (fun p m =>
    let (e, s) := p.2.readBack ctx m.1
    (p.1 ++ [(e, m.2)], s)) ([], s)

/-- Restore every saved core of a context (R357). -/
def State.resume (s : State) (ctx : Ctx) (ms : List Move) : State :=
  let (ms, s) := s.readMoves ctx ms
  let f := movedTo ms
  let s := { s with rings := mapIf (fun r => r.ctx == ctx) (fun r => r.moved f) s.rings }
  let n := s.placesFrom ms
  let s := ms.foldl (fun s m => s.placeCore ctx f n m) s
  let s := s.updCtx ctx fun x => { x with
    savedCores := [], runState := .running, saved := false
    placement := (ms.filter fun m => m.1.home != m.2.2).map fun m => (m.1.home, m.2.2) }
  ms.foldl (fun s m => s.giveAnswer ctx m) s

/-- `RESUME_REQUEST`: the host writes RUN as 1, and Kamgor restores a saved context onto free cores (R357, R409). -/
def execResumeRequest (ctx : Fin 64) (place : List (Fin 1280)) (s : State) : Result :=
  let s := s.updCtx ctx fun x => { x with run := true }
  let x := s.ctxs.get ctx
  let ms := s.moves ctx place
  if x.live && !x.ending && x.runState == .saved && place.length == x.savedCores.length && s.placeOk ms then
    .next (s.resume ctx ms)
  else .next s

end Sys2Proof.Machine
end

