-- ==== Sys2Proof/Machine/Regs.lean ====
section
/-! DEFINITION. Registers of the device outside the threads: context pages (R333, R397, R409), Kamgor's
configuration registers (R219, R224, R347, R383, R400, R410 to R412, R415) and access tables (R370, R371). -/

namespace Sys2Proof.Machine

/-! ## Context pages (R333, R409) -/

/-- LQSTAT as it reads (R333). -/
def Context.lqstat (x : Context) : Word :=
  BitVec.ofNat 64 (x.refused.toNat * 2 ^ 48 + x.graphs.length * 2 ^ 32 + x.faultNode.toNat * 2 ^ 16
    + x.dfault.toNat * 4 + x.gfault.toNat * 2 + x.refd.toNat)

/-- CTXCTL as it reads (R409). -/
def Context.ctxctl (x : Context) : Word := BitVec.ofNat 64 (x.saved.toNat * 2 ^ 8 + x.run.toNat)

/-- LQCFG as it reads (R333). -/
def Context.lqcfg (x : Context) : Word := BitVec.ofNat 64 (x.lqen.toNat * 2 ^ 8 + x.lqlog.toNat)

/-- A register of a context page (R409); any other offset reads 0. -/
def State.readPage (s : State) (ctx : Ctx) (off : Nat) : Word :=
  let x := s.ctxs.get ctx
  match off with
  | 0x00 => x.lqbase
  | 0x08 => x.lqcfg
  | 0x10 => x.lqtail.setWidth 64
  | 0x18 => x.lqhead.setWidth 64
  | 0x20 => x.lqstat
  | 0x40 => x.ctxctl
  | 0x48 => x.intstat.setWidth 64
  | _ => 0

/-- A write of LQBASE: ignored while EN is 1 (R333). -/
def State.writeBase (s : State) (ctx : Ctx) (v : Word) : State :=
  s.updCtx ctx fun x => if x.lqen then x else { x with lqbase := v &&& 0x01FFFFFFFFFFF000 }

/-- A write of LQSTAT: a 1 clears a bit, and clearing REFD zeroes REFUSED (R333). -/
def State.writeStat (s : State) (ctx : Ctx) (v : Word) : State :=
  s.updCtx ctx fun x => { x with
    refd := x.refd && !v.getLsbD 0, refused := if v.getLsbD 0 then 0 else x.refused
    gfault := x.gfault && !v.getLsbD 1, dfault := x.dfault && !v.getLsbD 2 }

/-- A write of CTXCTL: RUN as 0 asks for a pre-emption, as 1 for a resume, which Kamgor makes where it finds free
cores (R352, R357, R409). -/
def State.writeCtl (s : State) (ctx : Ctx) (v : Word) : State :=
  if v.getLsbD 0 then s.updCtx ctx fun x => { x with run := true } else s.preempt ctx

/-- A write of a register of a context page; fields that are RO, and any other offset, take nothing (R397, R409). -/
def State.writePage (s : State) (ctx : Ctx) (off : Nat) (v : Word) : State :=
  match off with
  | 0x00 => s.writeBase ctx v
  | 0x08 => s.writeCfg ctx v
  | 0x10 => s.writeTail ctx v
  | 0x20 => s.writeStat ctx v
  | 0x40 => s.writeCtl ctx v
  | 0x48 => s.updCtx ctx fun x => { x with intstat := x.intstat &&& ~~~(v.setWidth 4) }
  | _ => s

/-- `DEVICE_ACCESS`: the control die checks its access table and performs the access (R370, R397). -/
def execDeviceAccess (m : Nat) (s : State) : Result :=
  event (fun s => do
    let msg ← s.msg m
    match msg.body with
    | .device off w =>
      if msg.stage != .sent || !msg.moving || s.stalledMsg msg then none
      else if !aclAllows s.ctlAcl.toList .core msg.ctx off w.isNone w.isSome then pure (s.answer m [] 0 (.access 0))
      else
        let c := finOf 64 (off / 4096)
        match w with
        | none => pure (s.answer m (leBytes 8 (s.readPage c (off % 4096)).toNat))
        | some v => pure ((s.writePage c (off % 4096) v).answer m [])
    | _ => none) s

/-! ## Kamgor's registers -/

/-- A write of DCFG; a field out of its range keeps its value (R219). -/
def writeDcfg (old : BitVec 16 × BitVec 17) (v : Word) : BitVec 16 × BitVec 17 :=
  let t : BitVec 16 := v.extractLsb' 32 16
  let q : BitVec 17 := v.extractLsb' 0 17
  (if t = 0 then old.1 else t, if q.toNat < 256 ∨ 65536 < q.toNat then old.2 else q)

/-- A write of DSCFG (R347). -/
def Die.writeDscfg (d : Die) (v : Word) : Die :=
  let m : BitVec 16 := v.extractLsb' 16 16
  let a : BitVec 8 := v.extractLsb' 0 8
  { d with migr := if m = 0 then d.migr else m, age := if a = 0 then d.age else a }

/-- A write of MSCCTX; POL 11 is refused (R383). -/
def Context.writeMsc (x : Context) (v : Word) : Context :=
  let p : BitVec 2 := v.extractLsb' 32 2
  { x with pol := if p = 3 then x.pol else p, pinlim := v.setWidth 16 }

/-- A write of MAJCFG: before the first dispatch only. Every granule of the carve then holds zero data and tag 0
(R400). A size above the range is not taken, DESIGN CHOICE (assumption 22). -/
def State.writeMajcfg (s : State) (v : Word) : State :=
  let r : BitVec 19 := v.setWidth 19
  if s.majFixed || 262144 < r.toNat then s
  else { s with rsize := r, hbm := s.hbm.map fun x => { x with maj := [], majTags := [] } }

/-- A command of the mailbox has ended: RESULT, BUSY 0, MSI-X vector 64 (R410). -/
def State.mbDone (s : State) (r : BitVec 8) : State :=
  { s with mbresult := r, mbbusy := false, msix := s.msix ++ [64] }

/-- A write of MBCMD: ignored while BUSY; a nonzero OP starts a command, with its argument block as host memory then
holds it, and an unknown one ends at once with RESULT 2 (R410). -/
def State.writeMbcmd (s : State) (v : Word) : State :=
  if s.mbbusy then s
  else
    let s1 := { s with mbcmd := v &&& 0xFFFF }
    let op := wbits v 7 0
    if op = 0 then s1 else if 7 < op then s1.mbDone 2
    else { s1 with mbbusy := true, mbblk := (s.mbarg.toNat, s.hostMem.read s.mbarg.toNat 1024) }

/-- Writable bits of the words of a host window (R412) and of a remote one (R415). -/
def winMask (peer : Bool) (word : Fin 2) : Word :=
  match word, peer with
  | 0, _ => 0xFFFFFFFFFFFFF003
  | 1, false => 0x000000FFFFFFF001
  | 1, true => 0x00003FFFFFFFF001

/-- A pair with one of its words written. -/
def putWord (p : Word × Word) (i : Fin 2) (v : Word) : Word × Word := if i = 0 then (v, p.2) else (p.1, v)

/-- `REGISTER_WRITE`: RW fields take their bits, W1C bits clear, RO fields take nothing (R3). A router's event counter
is cleared by writing 0 (R224); another value is not taken, DESIGN CHOICE (assumption 22). An aperture's words are its
context and its virtual base (R411). `hostMode` says how the host's link has come up: in CXL mode, with AtomicOps enabled,
DESIGN CHOICE (assumption 92; R408). -/
def State.writeReg (s : State) (r : DevReg) (v : Word) : State :=
  match r with
  | .lqbase c => s.writeBase c v
  | .lqstat c => s.writeStat c v
  | .ctxctl c => s.writeCtl c v
  | .intstat c => s.writePage c 0x48 v
  | .lqhead _ => s
  | .dcfg d => { s with dcfg := s.dcfg.set d (writeDcfg (s.dcfg.get d) v) }
  | .dscfg d => s.updDie d fun x => x.writeDscfg v
  | .mscctx c => s.updCtx c fun x => x.writeMsc v
  | .majcfg => s.writeMajcfg v
  | .eventCount d i => if v = 0 then s.updDie d fun x => { x with events := x.events.set i 0 } else s
  | .mbcmd => s.writeMbcmd v
  | .mbarg => { s with mbarg := v }
  | .mbstat => s
  | .hostMode => { s with cxl := v.getLsbD 0, atomicOps := v.getLsbD 1 }
  | .hwin c i w => s.updCtx c fun x => { x with hwin := x.hwin.set i (putWord (x.hwin.get i) w (v &&& winMask false w)) }
  | .pwin p i w => s.updPeer p fun x => { x with win := x.win.set i (putWord (x.win.get i) w (v &&& winMask true w)) }
  | .aperture a w =>
    let old := s.apertures.get a
    { s with apertures := s.apertures.set a (if w = 0 then (finOf 64 v.toNat, old.2) else (old.1, v)) }

/-- Where the host reaches a register: the offset in BAR0 of the context pages and of the mailbox (R408 to R410). -/
def DevReg.hostOffset : DevReg → Option Nat
  | .lqbase c => some (0x1000 * c.val)
  | .lqhead c => some (0x1000 * c.val + 0x18)
  | .lqstat c => some (0x1000 * c.val + 0x20)
  | .ctxctl c => some (0x1000 * c.val + 0x40)
  | .intstat c => some (0x1000 * c.val + 0x48)
  | .mbcmd => some 0x1000000
  | .mbarg => some 0x1000008
  | .mbstat => some 0x1000010
  | _ => none

/-- MBSTAT as it reads (R410). -/
def State.mbstat (s : State) : Word := BitVec.ofNat 64 (s.mbresult.toNat * 2 ^ 8 + s.mbbusy.toNat)

/-- What the host reads at an offset of BAR0: a register of a context page or of the mailbox, else 0 (R408 to R410). A read
changes nothing, and no row of the opcode table makes one. -/
def State.readBar0 (s : State) (off : Nat) : Word :=
  if off < 0x40000 then s.readPage (finOf 64 (off / 4096)) (off % 4096)
  else match off with
    | 0x1000000 => s.mbcmd
    | 0x1000008 => s.mbarg
    | 0x1000010 => s.mbstat
    | _ => 0

/-- `REGISTER_WRITE` (R3), by the host or by Kamgor. -/
def execRegisterWrite (r : DevReg) (v : RegWord) (s : State) : Result :=
  .next (s.controlWrite v.host (DevReg.hostOffset r) fun s => s.writeReg r v.v)

/-! ## Access tables (R370, R371) -/

/-- An entry of an access table as written: reserved bits stay 0; `none` for a refused CLASS (R370). -/
def aclEntry (w0 w1 : Word) : Option AclEntry :=
  if 4 < wbits w1 11 9 then none else some { w0 := w0 &&& 0xFFFFFFFFFFFFF031, w1 := w1 &&& 0xFFFFFFFFFFFFFF3F }

/-- `ACCESS_TABLE_WRITE`: both words of an entry at once; accesses that come later see it (R371). A vault's table has
16 entries. -/
def execAccessTableWrite (target : AclTarget) (entry : Fin 64) (w0 w1 : Word) (s : State) : Result :=
  event (fun s => do
    let e ← aclEntry w0 w1
    match target with
    | .control => pure { s with ctlAcl := s.ctlAcl.set entry e }
    | .stack k => pure (s.updStack k fun x => { x with acl := x.acl.set entry e })
    | .vault t =>
      if h : entry.val < 16 then pure (s.updTile t fun x => { x with acl := x.acl.set entry.val e h }) else none) s

end Sys2Proof.Machine
end

