-- ==== Sys2Proof/Machine/Tables.lean ====
section
/-! DEFINITION. Kamgor's changes of page tables: map records, leaves and the invalidation of old translations (R306,
R309, R318, R394, R410). -/

namespace Sys2Proof.Machine

/-! ## Map records (R410) -/

/-- A map record. -/
structure MapRec where
  va : Nat := 0
  frame : Nat := 0
  len : Nat := 0
  level : Nat := 3
  /-- The leaf without ADDR. -/
  leaf : Word := 0
  defer : Bool := false
deriving DecidableEq, Repr

/-- Level of a page-size code. -/
def pageLevel : Nat → Option Nat
  | 0 => some 3 | 1 => some 2 | 2 => some 1 | _ => none

/-- The address range of a record is whole pages of valid addresses. -/
def rangeOk (va len level : Nat) : Bool :=
  va % 2 ^ levelShift level == 0 && len % 2 ^ levelShift level == 0 && vaValid va
    && (len == 0 || (vaValid (va + len - 1) && decide (va < 2 ^ 56) == decide (va + len - 1 < 2 ^ 56)))

/-- The range that a record names: address, length and level; `none` for a misformed one. -/
def rangeOf (b : List Byte) : Option (Nat × Nat × Nat) :=
  match pageLevel (fieldOf b 24 1) with
  | none => none
  | some level =>
    let (va, len) := (fieldOf b 0 8, fieldOf b 16 8)
    if rangeOk va len level then some (va, len, level) else none

/-- A map record; `none` for a misformed one. -/
def mapRecOf (b : List Byte) : Option MapRec :=
  match rangeOf b with
  | none => none
  | some (va, len, level) =>
    let (frame, f, port) := (fieldOf b 8 8, fieldOf b 25 1, fieldOf b 26 1)
    let ty := f % 8
    let leaf := 3 + 4 * ty + 32 * (f / 8 % 8) + 2 ^ 10 * (f / 64) + 2 ^ 56 * port
    if frame % 2 ^ levelShift level == 0 && frame + len ≤ 2 ^ 52 && ty ≤ 5 && (ty == 1 || f / 64 == 0)
        && port < 16 && (ty == 5 || port == 0) && fieldOf b 27 1 < 2 && zeroBytes b 28 31 then
      some { va := va, frame := frame, len := len, level := level, leaf := BitVec.ofNat 64 leaf, defer := fieldOf b 27 1 == 1 }
    else none

/-! ## Frames in use -/

/-- Two ranges of bytes have one in common. -/
def meet (a n b m : Nat) : Bool := a < b + m && b < a + n

/-- The page that an entry of a page table maps is a leaf's. -/
def isLeaf (e : Word) : Bool := e.getLsbD 0 && e.getLsbD 1

/-- Some context's leaf that `p` selects maps a byte of a range of frames. -/
def State.mappedAs (s : State) (p : Ctx → Word → Bool) (frame len : Nat) : Bool :=
  (List.finRange 64).any fun c => (s.ctxs.get c).pt.any fun q =>
    isLeaf q.2 && p c q.2 && meet frame len (leafAddr q.2) (2 ^ levelShift q.1.1)

/-- Some context maps a byte of a range of frames by a leaf that `p` selects, or has recorded such a leaf with DEFER (R387,
R410). -/
def State.mappedLater (s : State) (p : Word → Bool) (frame len : Nat) : Bool :=
  s.mappedAs (fun _ e => p e) frame len
    || s.ctxs.toList.any fun x => x.deferred.any fun r => p r.2.2.2.2 && meet frame len r.2.1 r.2.2.1

/-- A range of frames holds a page table of a live context: its root, or a table that a non-leaf entry names. -/
def State.holdsTables (s : State) (frame len : Nat) : Bool :=
  (List.finRange 64).any fun c =>
    (s.ctxs.get c).live && (meet frame len ((Config.tableFrame c.val 4 0).toNat * 4096) 0x4000
      || (s.ctxs.get c).pt.any fun q =>
        q.2.getLsbD 0 && !q.2.getLsbD 1 && meet frame len (leafAddr q.2) 0x2000)

/-- A REPLICA window of some context covers a byte of a range of frames (R387). -/
def State.inReplica (s : State) (frame len : Nat) : Bool :=
  s.ctxs.toList.any fun x => x.mscwin.toList.any fun w =>
    (w.mode == some .replica || w.mode == some .rpin) && meet frame len (128 * w.base) (128 * w.lines)

/-- The type of a leaf reaches the stacks. -/
def ownFrames (e : Word) : Bool := leafType e == some .normal || leafType e == some .replica

/-- Kamgor maps the record: none of the refusals of R410 holds. -/
def State.mapAllowed (s : State) (m : MapRec) : Bool :=
  let own := ownFrames m.leaf
  let size := 2 ^ levelShift m.level
  !(own && s.holdsTables m.frame m.len)
    && !(leafType m.leaf != some .replica && own && s.inReplica m.frame m.len)
    && ((leafType m.leaf != some .maj && leafType m.leaf != some .device)
      || (List.range (m.len / size)).all fun i =>
        s.leafOk m.level (m.leaf ||| BitVec.ofNat 64 (m.frame + size * i)))

/-! ## Changing the tables -/

/-- First byte and number of bytes of the addresses that an entry stands for, modulo 2^57. -/
def keyRange (k : Nat × Nat) : Nat × Nat := (k.2 * 2 ^ levelShift k.1, 2 ^ levelShift k.1)

/-- A leaf of a context that overlaps a range reaches beyond it. -/
def Context.straddles (x : Context) (va len : Nat) : Bool :=
  let a := va % 2 ^ 57
  x.pt.any fun q =>
    let (b, n) := keyRange q.1
    isLeaf q.2 && meet a len b n && (b < a || a + len < b + n)

/-- The tables without the leaves of a range. -/
def Context.dropLeaves (x : Context) (va len : Nat) : Context :=
  let a := va % 2 ^ 57
  { x with pt := x.pt.filter fun q =>
      let (b, n) := keyRange q.1
      !(isLeaf q.2 && meet a len b n) }

/-- A deferred range without the pages that meet `[lo, hi)`. -/
def cutRange (lo hi : Nat) (r : Nat × Nat × Nat × Nat × Word) : List (Nat × Nat × Nat × Nat × Word) :=
  let (va, frame, len, level, leaf) := r
  if len = 0 then []
  else if !meet lo (hi - lo) va len then [r]
  else
    let size := 2 ^ levelShift level
    let before := (lo - va) / size * size
    let skip := min len (ceilDiv (hi - va) size * size)
    (if before = 0 then [] else [(va, frame, before, level, leaf)])
      ++ if len ≤ skip then [] else [(va + skip, frame + skip, len - skip, level, leaf)]

/-- Deferred ranges without a range. -/
def Context.dropDeferred (x : Context) (va len : Nat) : Context :=
  { x with deferred := x.deferred.flatMap (cutRange va (va + len)) }

/-- Every translation of a range of a context is invalidated, in every share and every core (R309). -/
def State.dropTlb (s : State) (ctx : Ctx) (va len : Nat) : State :=
  let keep : TlbEntry → Bool := fun t => !(t.ctx == ctx && meet (va % 2 ^ 57) len (t.vpn * 2 ^ levelShift t.level) (2 ^ levelShift t.level))
  let core : Core → Core := fun x => if x.tlb.all keep then x else { x with tlb := x.tlb.filter keep }
  let die : Die → Die := fun d => { d with l2 := d.l2.filter keep }
  { s with cores := s.cores.map core, dies := s.dies.map die }

/-- The non-leaf entries above a page (R306). Where a table lies is Kamgor's. -/
def Context.pathTo (x : Context) (ctx : Ctx) (level va : Nat) : Context :=
  (List.range level).foldl (fun x l =>
    let k := ptKey l va
    match assoc x.pt k with
    | some _ => x
    | none =>
      let e : Word := ((Config.tableFrame ctx.val l k.2).setWidth 64 &&& ~~~1#64) <<< 12 ||| 1
      { x with pt := assocSet x.pt k e }) x

/-- A line of a slice over frames that Kamgor has zeroed: a pinned one stays and holds zeros (R386). -/
def MscLine.zeroed (l : MscLine) : MscLine := { l with data := 0, dirty := 0 }

/-- The frames of a range are handed to a context (R394): all of them that no page maps are zeroed under its key, what slices
hold of them is dropped or, where it is pinned, zeroed, and writes that wait for their stack are gone. -/
def State.zeroFrames (s : State) (ctx : Ctx) (frame len : Nat) : State :=
  let mine : Nat → Bool := fun line => frame ≤ 128 * line && 128 * line < frame + len
    && !s.mappedAs (fun _ e => ownFrames e) (128 * line) 128
  let tile : Tile → Tile := fun t =>
    { t with msc := (t.msc.filter fun l => l.pinned || !mine l.line).map fun l => if mine l.line then l.zeroed else l }
  let key := fun (p : Nat × Ctx × Nat) => (p.1, ctx, (s.ctxs.get ctx).keyGen)
  { s with
    tiles := s.tiles.map tile, mem := s.mem.clear fun a => mine (a / 128)
    errors := s.errors.filter fun e => !mine (e.1 / 4), keyed := mapIf (fun p => mine (p.1 / 4)) key s.keyed
    hbm := s.hbm.map fun x => { x with held := x.held.filter fun h => !mine (h.1 / 128) } }

/-- The same for majority frames (R394, R400): the granules of 64 KiB that no page maps hold zero data again on every stack of
their triple, with the time of Kamgor's write as their tag and 0 as the writer (R401). -/
def State.zeroGranules (s : State) (frame len : Nat) : State :=
  match s.region frame with
  | .maj t off =>
    let units := (List.range (len / 65536)).filter fun i =>
      !s.mappedAs (fun _ e => leafType e == some .maj) (frame + 65536 * i) 65536
    let tag : Word := BitVec.ofNat 64 (s.ticks % 2 ^ 49 * 2 ^ 15)
    let zero := fun (x : Stack) (i : Nat) =>
      let u := off / 65536 + i
      { x with maj := x.maj.filter fun c => c.granule / 1024 != u, majTags := assocSet x.majTags u tag }
    (tripleStacks t).foldl (fun s k => s.updStack k fun x => units.foldl zero x) s
  | _ => s

/-- Write the leaves of a range, with the tables that lead to them. -/
def State.writeLeaves (s : State) (ctx : Ctx) (va frame len level : Nat) (leaf : Word) : State :=
  let size := 2 ^ levelShift level
  let s := if ownFrames leaf then s.zeroFrames ctx frame len
    else if leafType leaf = some .maj then s.zeroGranules frame len else s
  s.updCtx ctx fun x => (List.range (len / size)).foldl (fun x i =>
    let a := va + size * i
    let x := (x.dropLeaves a size).pathTo ctx level a
    let under := fun (q : (Nat × Nat) × Word) =>
      let (b, n) := keyRange q.1
      level < q.1.1 && meet (a % 2 ^ 57) size b n
    let pt := x.pt.filter fun q => !under q
    { x with pt := assocSet pt (ptKey level a) (leaf ||| BitVec.ofNat 64 (frame + size * i)) }) x

/-- Map a record: leaves at once, or none until a fault under DEFER (R410). A range that a leaf of a larger page
straddles is refused, DESIGN CHOICE (assumption 23). -/
def State.mapRange (s : State) (ctx : Ctx) (m : MapRec) : Option State :=
  if (s.ctxs.get ctx).straddles m.va m.len || !s.mapAllowed m then none
  else
    let s := s.updCtx ctx fun x => (x.dropLeaves m.va m.len).dropDeferred m.va m.len
    let s := if m.defer then s.updCtx ctx fun x => { x with deferred := x.deferred ++ [(m.va, m.frame, m.len, m.level, m.leaf)] }
      else s.writeLeaves ctx m.va m.frame m.len m.level m.leaf
    some (s.dropTlb ctx m.va m.len)

/-- Remove a range's leaves (R410). -/
def State.unmapRange (s : State) (ctx : Ctx) (va len : Nat) : Option State :=
  if (s.ctxs.get ctx).straddles va len then none
  else some ((s.updCtx ctx fun x => (x.dropLeaves va len).dropDeferred va len).dropTlb ctx va len)

/-- Make the deferred range that holds an address present (R318), unless a REPLICA window covers its frames (R387). -/
def State.makePresent (s : State) (ctx : Ctx) (va : Nat) : Option State :=
  match (s.ctxs.get ctx).deferred.find? fun r => r.1 ≤ va && va < r.1 + r.2.2.1 with
  | none => none
  | some (a, frame, len, level, leaf) =>
    if leafType leaf = some .normal && s.inReplica frame len then none
    else
    let s := s.updCtx ctx fun x => { x with deferred := x.deferred.filter fun r => r.1 != a }
    some ((s.writeLeaves ctx a frame len level leaf).dropTlb ctx a len)

end Sys2Proof.Machine
end

