-- ==== Sys2Proof/Machine/Mailbox.lean ====
section
/-! DEFINITION. Kamgor's side: ending a context (R318, R369, R392), the mailbox commands (R226, R227, R330, R374, R384
to R388, R410), its answers to supervisors (R318, R319) and the host's apertures (R411). -/

namespace Sys2Proof.Machine

/-! ## Ending a context (R318, R369) -/

/-- The work threads of a core end as by `tkill`, one whose `send` or device load awaits its reply when that has come
(R316), and a pending request of its supervisor is answered 2 (R318). -/
def State.stopCore (s : State) (c : CoreId) : State :=
  let s := (List.finRange 15).foldl (fun s i =>
    let k : Slot := i.castSucc
    if !(s.thread c k).present then s
    else if s.killWaits c k then s.updThread c k fun t => { t with status := .waiting (.slotFree k) }
    else s.kill c k) s
  match (s.core c).kamgor with
  | some (.forwarded _) => s.answerSupervisor c 2
  | _ => s

/-- A context is being ended: its threads stop, and it is pre-empted for good (R318, R369). -/
def State.endContext (s : State) (ctx : Ctx) : State :=
  if !(s.ctxs.get ctx).live || (s.ctxs.get ctx).ending then s
  else
    let s := (s.holders ctx).foldl State.stopCore s
    (s.updCtx ctx fun x => { x with ending := true }).preempt ctx

/-- A context is ended and the host is told (R369). -/
def State.endAndTell (s : State) (ctx : Ctx) : State := (s.endContext ctx).raise ctx 3

/-- No core holds the context and none of its engine commands run (R388). -/
def State.idleCtx (s : State) (ctx : Ctx) : Bool :=
  (s.holders ctx).isEmpty && s.cores.toList.all fun x => x.cmds.all fun m => m.ctx != ctx

/-- Nothing of the context is in flight. -/
def State.quietCtx (s : State) (ctx : Ctx) : Bool :=
  s.idleCtx ctx && (s.net.all fun m => m.ctx != ctx) && s.majOps.all fun o => o.ctx != ctx || o.done

/-- A context's table entry after its end. Its launch-queue registers and INTSTAT stay. -/
def Context.closed (x : Context) : Context :=
  { x with
    live := false, ending := false, keyLive := false, pt := [], deferred := [], list := [], graphs := [], savedCores := []
    placement := [], answers := [], mscwin := .replicate 8 {}, pinuse := 0, runState := .running, saved := false }

/-- A die without what belongs to a context: translations, packets, trees and their episodes. -/
def Die.without (d : Die) (ctx : Ctx) : Die :=
  let mine := fun (i : Nat) => match d.trees.get (finOf 16 i) with
    | some t => t.ctx == ctx
    | none => false
  { d with
    l2 := d.l2.filter fun t => t.ctx != ctx
    ready := d.ready.filter fun p => p.ctx != ctx
    trees := d.trees.map fun t => match t with
      | some r => if r.ctx = ctx then none else some r
      | none => none
    episodes := d.episodes.filter fun e => !mine e.tree.val
    delivers := d.delivers.filter fun p => !mine p.1.val
    forwarded := d.forwarded.filter fun f => !mine f.1 }

/-- A core without what belongs to a context that it no longer holds. -/
def Core.without (x : Core) (ctx : Ctx) (landings : List Nat) : Core :=
  { x with
    tlb := x.tlb.filter fun t => t.ctx != ctx
    deque := x.deque.filter fun e => e.ctx != ctx
    landings := x.landings.filter fun l => !landings.contains l.1 }

/-- Destroy a context: every slice drops its lines without writing them, those that wait for an OFFLINE stack among them, its
key slot is dead, and its windows, trees
and work are gone (R392, R410). -/
def State.destroy (s : State) (ctx : Ctx) : State :=
  let s := s.flushLine (fun l => l.key == ctx) false false
  let mine := s.rings.filter fun r => r.ctx == ctx
  let bases := fun (c : CoreId) => mine.filterMap fun r => match r.land with
    | some (d, b) => if d = c then some b else none
    | none => none
  let tile : Tile → Tile := fun t => { t with monitors := t.monitors.filter fun r => r.ctx != ctx }
  let s : State := { s with
    cores := .ofFn fun c => (s.core c).without ctx (bases c)
    dies := s.dies.map fun d => Die.without d ctx
    tiles := s.tiles.map tile
    rings := s.rings.filter fun r => r.ctx != ctx, installs := s.installs.filter fun i => i.ctx != ctx
    launches := s.launches.filter fun l => l.ctx != ctx
    hbm := s.hbm.map fun x => { x with held := x.held.filter fun h => h.2.2 != ctx } }
  s.updCtx ctx Context.closed

/-! ## The mailbox (R410) -/

/-- Context that MBCMD names. -/
def State.mbCtx (s : State) : Option Ctx :=
  if h : wbits s.mbcmd 15 8 < 64 then some ⟨wbits s.mbcmd 15 8, h⟩ else none

/-- The argument block, as Kamgor read it when the command started (R410). -/
def State.mbBlock (s : State) (n : Nat) : List Byte := s.mbblk.2.take n

/-- A command runs while BUSY with its OP, once Kamgor runs. A block that is not aligned to 256 is refused, DESIGN CHOICE
(assumption 22); END has none. -/
def command (op : Nat) (p : State → Option State) : State → Result :=
  event fun s =>
    if !s.mbbusy || wbits s.mbcmd 7 0 != op || s.boot != .up then none
    else if op ≠ 2 && s.mbblk.1 % 256 ≠ 0 then some (s.mbDone 1)
    else p s

/-- A command that names a live context; another is refused with RESULT 1, DESIGN CHOICE (assumption 22). -/
def ctxCommand (op : Nat) (p : Ctx → State → Option State) : State → Result :=
  command op fun s =>
    match s.mbCtx with
    | some ctx => if (s.ctxs.get ctx).live then p ctx s else some (s.mbDone 1)
    | none => some (s.mbDone 1)

/-- What a change answers: RESULT 0, or 1 for a refusal. -/
def State.doneOr (s : State) (t : Option State) : State :=
  match t with
  | some t => t.mbDone 0
  | none => s.mbDone 1

/-! ### CREATE (R330) -/

/-- A context descriptor passes the checks of R330. -/
def createOk (ctx : Ctx) (b : List Byte) : Bool :=
  let policy := fieldOf b 5 1
  fieldOf b 0 4 == 1 && fieldOf b 4 1 == ctx.val && policy < 4 && zeroBytes b 6 15 && fieldOf b 16 8 % 4 == 0
    && vaValid (fieldOf b 16 8) && fieldOf b 32 8 % 65536 == 0 && vaValid (fieldOf b 32 8) && fieldOf b 40 8 % 65536 == 0
    && 2 ^ 21 ≤ fieldOf b 40 8 && 1 ≤ fieldOf b 48 2 && fieldOf b 48 2 ≤ 1280 && zeroBytes b 52 55
    && fieldOf b 56 8 % 4096 == 0 && vaValid (fieldOf b 56 8) && zeroBytes b 64 127
    && (policy / 2 == 0 || zeroBytes b 128 191) && zeroBytes b 192 255

/-- The table entry of a descriptor (R330). -/
def Context.created (x : Context) (b : List Byte) : Context :=
  let w := fun i => BitVec.ofNat 64 (fieldOf b i 8)
  { x with
    live := true, svRestart := fieldOf b 5 1 % 2 == 1, sventry := w 16, svarg := w 24, savebase := w 32, savestride := w 40
    saveslots := fieldOf b 48 2, pinlim := BitVec.ofNat 16 (fieldOf b 50 2), losslog := w 56, losses := 0
    keyLive := true, keyGen := x.keyGen + 1, run := true, saved := false, runState := .running, ending := false
    pt := [], deferred := [], pinuse := 0 }

/-- `CREATE`. Every slice's selector of the context starts at 512 (R382). -/
def execCreate (s : State) : Result :=
  command 1 (fun s =>
    match s.mbCtx with
    | none => some (s.mbDone 1)
    | some ctx =>
      let b := s.mbBlock 256
      if (s.ctxs.get ctx).live || !createOk ctx b then some (s.mbDone 1)
      else
        let s := s.updCtx ctx fun x => x.created b
        let tile : Tile → Tile := fun t => { t with selectors := t.selectors.set ctx 512 }
        some (State.mbDone { s with tiles := s.tiles.map tile } 0)) s

/-! ### END (R410) -/

/-- `END`: the context is ended; once it is saved and nothing of it is in flight, it is destroyed. -/
def execEndCtx (s : State) : Result :=
  ctxCommand 2 (fun ctx s =>
    if !(s.ctxs.get ctx).ending then some (s.endContext ctx)
    else if (s.ctxs.get ctx).runState != .saved || !s.quietCtx ctx then none
    else some (((s.destroy ctx).raise ctx 3).mbDone 0)) s

/-! ### MAP and UNMAP (R410) -/

/-- `MAP`. -/
def execMap (s : State) : Result :=
  ctxCommand 3 (fun ctx s => some (s.doneOr ((mapRecOf (s.mbBlock 32)).bind (s.mapRange ctx)))) s

/-- `UNMAP`. -/
def execUnmap (s : State) : Result :=
  ctxCommand 4 (fun ctx s => some (s.doneOr ((rangeOf (s.mbBlock 32)).bind fun r => s.unmapRange ctx r.1 r.2.1))) s

/-! ### WINDOWS (R384 to R388) -/

/-- A window request (R385). -/
structure WinReq where
  va : Nat := 0
  len : Nat := 0
  mode : Nat := 1
  tiles : List Nat := []
deriving DecidableEq, Repr

/-- A window request's fields are allowed (R384, R385). -/
def winReqOf (b : List Byte) : Option WinReq :=
  let (va, len, mode, n) := (fieldOf b 0 8, fieldOf b 8 8, fieldOf b 16 1, fieldOf b 17 1)
  let ids := (List.range 8).map fun i => fieldOf b (32 + 2 * i) 2
  if va % 128 == 0 && vaValid va && len % 128 == 0 && 128 ≤ len && len ≤ 2 ^ 35 && 1 ≤ mode && mode ≤ 3
      && (if mode = 1 then 1 ≤ n && n ≤ 8 else n == 0) && zeroBytes b 18 31
      && (ids.take n).all (· < 320) && (ids.drop n).all (· == 0) then
    some { va := va, len := len, mode := mode, tiles := ids.take n }
  else none

/-- The frames of a range as one run: its first byte, when every page is a normal or REPLICA page that `p` allows and
each frame follows the one before (R384). -/
def State.runOf (s : State) (ctx : Ctx) (va len : Nat) (p : Word → Bool) : Option Nat :=
  match s.walk ctx va with
  | .fault _ _ _ => none
  | .leaf level e =>
    let pa := leafPa level e va
    let pages := (va % 65536 + len + 65535) / 65536
    let fits := fun i =>
      let a := (va / 65536 + i) * 65536
      vaValid a && match s.walk ctx a with
        | .fault _ _ _ => false
        | .leaf level e => ownFrames e && p e && leafPa level e a == pa / 65536 * 65536 + 65536 * i
    if (List.range pages).all fits then some pa else none

/-- The MSCWIN entry of a request over frames from `pa` (R384). -/
def winOf (r : WinReq) (pa : Nat) : MscWin :=
  let sl := (List.range 7).foldl (fun v i => v + r.tiles.getD i 0 * 2 ^ (9 * i)) 0
  { w0 := BitVec.ofNat 64 (pa + r.mode * 4 + 1), w1 := BitVec.ofNat 64 ((r.tiles.length - 1) * 2 ^ 32 + r.len / 128)
    w2 := BitVec.ofNat 64 sl, w3 := BitVec.ofNat 64 (r.tiles.getD 7 0) }

/-- The first entry of a context without a window. -/
def Context.freeWin (x : Context) : Option (Fin 8) := (List.finRange 8).find? fun i => (x.mscwin.get i).mode.isNone

/-- The slice that serves in the place of a tile: a retired one never serves again (R378). -/
def State.liveTile (s : State) : Nat → TileId → TileId
  | 0, t => t
  | n + 1, t => match (s.tiles.get t).stub with
    | some u => s.liveTile n u
    | none => t

/-- Install a window (R384, R387, R388): the range's lines are first written back and dropped where they were. A retired tile
that the request names is replaced as in a window installed before, DEDUCED (assumption 79; R378). -/
def State.addWindow (s : State) (ctx : Ctx) (r : WinReq) : Option State := do
  let i ← (s.ctxs.get ctx).freeWin
  let replica := r.mode != 1
  let pa ← s.runOf ctx r.va r.len fun e => !replica || leafType e == some .replica
  let clash := (s.ctxs.get ctx).mscwin.toList.any fun w => w.mode.isSome && meet pa r.len (128 * w.base) (128 * w.lines)
  if clash || (replica && s.mappedLater (fun e => leafType e == some .normal) pa r.len) then none
  else
    let s := s.flushLine (fun l => l.key == ctx && pa / 128 ≤ l.line && l.line < pa / 128 + r.len / 128) true false
    let tiles := r.tiles.map fun t => (s.liveTile 320 (finOf 320 t)).val
    pure (s.updCtx ctx fun x => { x with mscwin := x.mscwin.set i (winOf { r with tiles := tiles } pa) })

/-- Remove every window of a context (R388): lines of PIN windows are written back, copies dropped, pins released. -/
def State.dropWindows (s : State) (ctx : Ctx) : State :=
  let s := s.flushLine (fun l => l.key == ctx && (s.windowOf ctx l.line).isSome) true false
  s.updCtx ctx fun x => { x with mscwin := .replicate 8 {} }

/-- `WINDOWS`: waits until no core holds the context and none of its commands run (R388). Each request is taken or
refused by itself; a count of 0 removes the context's windows, DEDUCED (assumption 21). -/
def execWindows (s : State) : Result :=
  ctxCommand 5 (fun ctx s =>
    let b := s.mbBlock (16 + 48 * 8)
    let n := fieldOf b 0 4
    if !s.idleCtx ctx then none
    else if 8 < n then some (s.mbDone 1)
    else if n = 0 then some ((s.dropWindows ctx).mbDone 0)
    else
      let reqs := (List.range n).map fun i => winReqOf ((b.drop (16 + 48 * i)).take 48)
      let (s, ok) := reqs.foldl (fun p r =>
        match r.bind (p.1.addWindow ctx) with
        | some t => (t, p.2)
        | none => (p.1, false)) (s, true)
      some (s.mbDone (if ok then 0 else 1))) s

/-! ### TREE (R226, R227) -/

/-- A router entry: x, y, parent port, height (R227). -/
def treeRouter (b : List Byte) : Option (Nat × Nat × Nat × Nat) :=
  let v := ofLe b
  let (x, y, p, h) := (bits v 3 0, bits v 6 4, bits v 9 7, bits v 14 10)
  if v < 2 ^ 15 && x < 10 && p ≤ 4 then some (x, y, p, h) else none

/-- The router that a parent port leads to. -/
def parentOf (r : Nat × Nat × Nat × Nat) : Option (Nat × Nat) :=
  let (x, y, p, _) := r
  match p with
  | 1 => if x = 0 then none else some (x - 1, y)
  | 2 => some (x + 1, y)
  | 3 => if y = 0 then none else some (x, y - 1)
  | 4 => some (x, y + 1)
  | _ => none

/-- A router entry at a place. -/
def routerAt (l : List (Nat × Nat × Nat × Nat)) (q : Nat × Nat) : Option (Nat × Nat × Nat × Nat) :=
  l.find? fun r => (r.1, r.2.1) == q

/-- Parent links lead from a router to the root within `n` steps. -/
def toRoot (l : List (Nat × Nat × Nat × Nat)) (r : Nat × Nat × Nat × Nat) : Nat → Bool
  | 0 => r.2.2.1 == 0
  | n + 1 => r.2.2.1 == 0 || match (parentOf r).bind (routerAt l) with
    | some q => toRoot l q n
    | none => false

/-- The routers of a record form a tree with entry 0 as its root and true heights (R226, R227). -/
def routersOk (l : List (Nat × Nat × Nat × Nat)) : Bool :=
  let kids := fun (r : Nat × Nat × Nat × Nat) => l.filter fun q => parentOf q == some (r.1, r.2.1)
  decide (l.map fun r => (r.1, r.2.1)).Nodup
    && (l.zipIdx.all fun p => (p.1.2.2.1 == 0) == (p.2 == 0))
    && (l.all fun r => toRoot l r l.length)
    && l.all fun r =>
      let h := (kids r).foldl (fun m q => max m (q.2.2.2 + 1)) 0
      r.2.2.2 == h

/-- Place of a core's router on its die (R9). -/
def routerOfCore (c : Nat) : Nat × Nat := (c / 4 % 80 % 10, c / 4 % 80 / 10)

/-- A tree record's die, members and routers (R226, R227). -/
def treeOf (ctx : Ctx) (b : List Byte) : Option (DieId × TreeRec) :=
  let (m, d, r) := (fieldOf b 0 2, fieldOf b 2 1, fieldOf b 4 2)
  let members := (List.range m).map fun i => fieldOf b (16 + 2 * i) 2
  let base := ceilDiv (16 + 2 * m) 4 * 4
  match allSome ((List.range r).map fun i => treeRouter ((b.drop (base + 4 * i)).take 4)) with
  | none => none
  | some l =>
    if 1 ≤ m && m ≤ 320 && d < 4 && 1 ≤ r && r ≤ 80 && zeroBytes b 6 15 && decide members.Nodup
        && (members.all fun c => c < 1280 && c / 320 == d && (routerAt l (routerOfCore c)).isSome) && routersOk l then
      some (finOf 4 d, { ctx := ctx, members := members.map (finOf 1280), routers := l })
    else none

/-- A member's episode count of a tree slot starts again at 0, on the core where it is placed, or with its saved core
(R228, R357). -/
def State.clearEpisode (s : State) (ctx : Ctx) (home : CoreId) (i : Fin 16) : State :=
  let zero : Core → Core := fun x => { x with episodes := x.episodes.set i 0 }
  let s := s.updCtx ctx fun y => { y with
    savedCores := mapIf (fun e => e.home == home) (fun e => { e with core := zero e.core }) y.savedCores }
  let c := s.placed ctx home
  let moved := match (s.core c).ctx with
    | some x => x != ctx && s.identity c x != c
    | none => false
  if moved then s else s.updCore c zero

/-- `TREE`: a record is installed into a slot of its die; a slot that another context holds is refused. The members'
episode counts start at 0 (R228). -/
def execTree (s : State) : Result :=
  ctxCommand 6 (fun ctx s =>
    let b := s.mbBlock 1024
    match treeOf ctx (b.drop 16) with
    | none => some (s.mbDone 1)
    | some (d, t) =>
      let n := fieldOf b 0 1
      let i := finOf 16 n
      let held := match (s.dies.get d).trees.get i with
        | some u => u.ctx != ctx
        | none => false
      if 16 ≤ n || held then some (s.mbDone 1)
      else
        let s := s.updDie d fun x => { x with
          trees := x.trees.set i (some t), episodes := x.episodes.filter fun e => e.tree != i
          forwarded := x.forwarded.filter fun f => f.1 != n, delivers := x.delivers.filter fun p => p.1 != i }
        let s := t.members.foldl (fun s c => s.clearEpisode ctx c i) s
        some (s.mbDone 0)) s

/-! ### ATTEST (R374) -/

/-- A report over a nonce (R374). -/
def State.report (s : State) (nonce : List Byte) : List Byte :=
  let image := fun (k : Nat) => match s.images.find? fun i => i.1 == k with
    | some (_, v, h) => leBytes 4 v.toNat ++ h
    | none => List.replicate 68 0
  let body := leBytes 4 1 ++ leBytes 4 Config.partRevision ++ leBytes 8 s.ticks ++ nonce
    ++ image 1 ++ image 2 ++ image 3 ++ image 4 ++ Config.identityKey ++ List.replicate 7 0
  body ++ Config.identitySign body ++ List.replicate 14 0

/-- `ATTEST`: the report is written from offset 64 of the block. -/
def execAttest (s : State) : Result :=
  command 7 (fun s =>
    let b := s.report (s.mbBlock 64)
    some (State.mbDone { s with hostMem := s.hostMem.write (s.mbblk.1 + 64) b } 0)) s

/-! ## Kamgor and the supervisors (R318, R319) -/

/-- What Kamgor answers to a record, and what it does first (R318). Whether it repairs a memory error is its own
policy: an input. A repaired sector holds bytes that the spec leaves open; a tile unit's record names it in the low 52 bits
of DETAIL (R303). -/
def State.serve (s : State) (ctx : Ctx) (r : List Byte) (repaired : Bool) : Word × State :=
  let cause := fieldOf r 4 1
  if (s.ctxs.get ctx).ending then (2, s)
  else if cause = Cause.code .pageFault then
    match s.makePresent ctx (fieldOf r 16 8) with
    | some s => (0, s)
    | none => (1, s)
  else if cause = Cause.code .memoryError ∧ repaired then
    let detail := fieldOf r 32 8
    let sec := (if fieldOf r 5 1 = EngineKind.code .tile then detail % 2 ^ 52 else detail) / 32
    let b := (List.range 32).map fun i => Config.freeByte (32 * s.free + i)
    (0, { s with errors := assocDel s.errors sec, mem := s.mem.write (32 * sec) b, free := s.free + 1 })
  else (1, s)

/-- `KAMGOR_ANSWER`: a forwarded record is answered. For a saved supervisor, named by the core it is to have, the answer
is kept (R318). -/
def execKamgorAnswer (core : Fin 1280) (repaired : Bool) (s : State) : Result :=
  event (fun s =>
    match (s.core core).kamgor, (s.core core).ctx with
    | some (.forwarded r), some ctx =>
      let (v, s) := s.serve ctx r repaired
      some (s.answerSupervisor core v)
    | _, _ =>
      let waits := fun (ctx : Ctx) => (s.ctxs.get ctx).savedCores.findSome? fun e =>
        match e.core.kamgor with
        | some (.forwarded r) => if e.home = core then some (ctx, r) else none
        | _ => none
      match (List.finRange 64).findSome? waits with
      | none => none
      | some (ctx, r) =>
        let (v, s) := s.serve ctx r repaired
        let off : SavedCore → SavedCore := fun e => { e with core := { e.core with kamgor := none } }
        some (s.updCtx ctx fun x => { x with
          savedCores := mapIf (fun e => e.home == core) off x.savedCores, answers := assocSet x.answers core v })) s

/-- `SUPERVISOR_TRAP`: Kamgor restarts the supervisor, or ends the context, by POLICY (R319, R330). -/
def execSupervisorTrap (core : Fin 1280) (s : State) : Result :=
  event (fun s =>
    match (s.core core).kamgor, (s.core core).ctx with
    | some (.stopped _), some ctx =>
      if (s.ctxs.get ctx).svRestart then some (s.restartSupervisor core)
      else some ((s.updCore core fun x => { x with kamgor := none }).endAndTell ctx)
    | _, _ => none) s

/-! ## Host apertures (R411) -/

/-- Where an access through an aperture goes: the physical address of its first byte, with the walker's marks (R306);
`none` is a refusal. A page that does not translate, or does not allow the access, is refused. -/
def State.aperturePa (s : State) (ctx : Ctx) (va : Nat) (wr : Bool) : Option (Nat × State) :=
  if !vaValid va || !(s.ctxs.get ctx).keyLive then none
  else match s.walk ctx va with
    | .fault _ _ _ => none
    | .leaf level e =>
      let ok := match leafType e with
        | some .normal => if wr then leafWr e else leafRd e
        | some .replica => !wr && leafRd e
        | _ => false
      if ok then some (leafPa level e va, s.markLeaf ctx level va (leafUsed e wr)) else none

/-- A read of a range for the host or a far device, line by line at the home slices. -/
def State.hostRead (s : State) (cls : AclClass) (ctx : Ctx) (va n : Nat) : CtlRead :=
  (lineRuns va (n + 1) n).foldl (fun g r =>
    match g with
    | .ok b s =>
      match s.aperturePa ctx (r.1 % 2 ^ 64) false with
      | none => .fault s
      | some (pa, s) =>
        match s.homeRead cls ctx 0 pa r.2 .norm false with
        | .ok b' s' => .ok (b ++ b') s'
        | .heldBack => .wait
        | .refused s => .fault s
        | .error _ s => .fault s
    | g => g) (.ok [] s)

/-- A write within one line for the host or a far device; `none` is a refusal. -/
def State.hostWriteLine (s : State) (cls : AclClass) (ctx : Ctx) (va : Nat) (b : List Byte) : Option State :=
  match s.aperturePa ctx va true with
  | none => none
  | some (pa, s) =>
    if s.writeRefused cls ctx pa then none else some (s.homeWrite cls ctx 0 pa b .norm false)

/-- A write of a range for the host or a far device is held at a stack that is OFFLINE (R399). -/
def State.hostHeld (s : State) (ctx : Ctx) (va n : Nat) : Bool :=
  (lineRuns va (n + 1) n).any fun r => match s.aperturePa ctx (r.1 % 2 ^ 64) true with
    | some (pa, _) => s.writeHeld ctx 0 pa r.2 .norm
    | none => false

/-- An atomic of the host or of a far device, in one step: one entry of the access table gives both permissions (R370), and a
word that is not aligned is refused. -/
def State.hostAtomic (s : State) (cls : AclClass) (ctx : Ctx) (va n : Nat) (op : AmoOp) (v c : Nat) : CtlRead :=
  match s.aperturePa ctx va true with
  | none => .fault s
  | some (pa, _) =>
    if va % n ≠ 0 || !s.stackAllows cls ctx pa true true then .fault s
    else match s.hostRead cls ctx va n with
      | .ok b s1 =>
        match s1.hostWriteLine cls ctx va (leBytes n ((amoResult op n (ofLe b) v c).getD (ofLe b))) with
        | some s2 => .ok b s2
        | none => .fault s1
      | g => g

/-- Operation and operands of a host's AtomicOp: value and compare (R408). -/
def HostOp.atomic : HostOp → Option (AmoOp × Word × Word)
  | .write _ => none
  | .fetchAdd v => some (.add, v, 0)
  | .swap v => some (.swap, v, 0)
  | .cas c v => some (.cas, v, c)

/-- The answer to a host read or AtomicOp: its bytes, or Unsupported Request; nothing while a stack holds it. -/
def CtlRead.answerHost : CtlRead → Option State
  | .wait => none
  | .fault s => some { s with hostReply := none }
  | .ok b s => some { s with hostReply := some b }

/-- `HOST_APERTURE_ACCESS`: translated in the aperture's context, checked with class host and performed at the home
slices; a refused read or AtomicOp answers Unsupported Request, a refused write is discarded and logged (R411). AtomicOps are
those of PCIe, of 32 and 64 bits (R408), PRESUMED (assumption 92). -/
def execHostApertureAccess (aperture : Fin 16) (off : Nat) (size : Nat) (write : Option HostOp) (s : State) : Result :=
  event (fun s =>
    let (ctx, base) := s.apertures.get aperture
    let va := (base.toNat + off) % 2 ^ 64
    if size = 0 || 2 ^ 32 < off + size then none
    else match write with
      | none => (s.hostRead .host ctx va size).answerHost
      | some (.fetchAdd _) | some (.swap _) | some (.cas _ _) =>
        match write.bind HostOp.atomic with
        | some (op, v, c) =>
          if size = 4 || size = 8 then (s.hostAtomic .host ctx va size op v.toNat c.toNat).answerHost
          else some { s with hostReply := none }
        | none => none
      | some (.write v) =>
        if 8 < size || s.hostHeld ctx va size then none
        else
          let b := leBytes size v.toNat
          let put := fun (t : State) (r : Nat × Nat) =>
            match t.hostWriteLine .host ctx (r.1 % 2 ^ 64) ((b.drop (r.1 - va)).take r.2) with
            | some t => t
            | none => { t with log := t.log ++ [(3, r.1 % 2 ^ 64)] }
          some ((lineRuns va (size + 1) size).foldl put s)) s

/-! ## Accesses by a far device (R415) -/

/-- Write a range for a far device, line by line; a line that is refused is discarded and logged. -/
def State.farStore (s : State) (ctx : Ctx) (va : Nat) (b : List Byte) : State :=
  (lineRuns va (b.length + 1) b.length).foldl (fun s r =>
    match s.hostWriteLine .peer ctx (r.1 % 2 ^ 64) ((b.drop (r.1 - va)).take r.2) with
    | some t => t
    | none => { s with log := s.log ++ [(1, r.1 % 2 ^ 64)] }) s

/-- An access that a far device makes through a port: translated in the context's tables, checked with class peer and
performed at the home, an atomic in one step; a refused read or atomic is answered with none, a refused store is
discarded and logged (R143, R415). A port whose link is down brings none (R416). -/
def State.farAccess (s : State) (p : Fin 16) (ctx : Ctx) (va : Nat) (req : ExtReq) : State :=
  let say := fun (s : State) (b : Option (List Byte)) => s.updPeer p fun x => { x with reply := b }
  if !(s.peers.get p).up then s
  else match req with
    | .read n =>
      match s.hostRead .peer ctx va n with
      | .ok b s' => say s' (some b)
      | .fault s => say s none
      | .wait => s
    | .write b => if s.hostHeld ctx va b.length then s else s.farStore ctx va b
    | .atomic op n v c =>
      match s.hostAtomic .peer ctx va n op v.toNat c.toNat with
      | .wait => s
      | .fault s => say s none
      | .ok b s => say s (some b)

end Sys2Proof.Machine
end

