-- ==== Sys2Proof/Machine/Network.lean ====
section
/-! DEFINITION. Recovery in the network: suspicion (R218), the tokens of the five domains (R220, R221), skid slots (R222)
and the counters (R224). Which route a packet takes otherwise no program sees (R130); a packet's position is that of the
router at which it waits. Domains 0 to 3 are the dies' stacks, domain 4 is the links. -/

namespace Sys2Proof.Machine

/-- The packet is in the mesh: it is no reduction packet (R226). -/
def Msg.inMesh (m : Msg) : Bool :=
  match m.body with
  | .reduce _ _ _ _ _ _ => false
  | _ => true

/-! ## Token rings (R220) -/

/-- Units of `time` in a memory cycle of 0.625 ns (R363). -/
def memUnits : Nat := tickUnits * 5 / 8

/-- Stations of a domain's token ring. Domain 4 is the links'. -/
def ringStations (d : Fin 5) : Nat := if d = 4 then 8 else 160

/-- Time of one hop of a domain's token: a memory cycle, or 20 ns. -/
def hopUnits (d : Fin 5) : Nat := if d = 4 then 20 * tickUnits else memUnits

/-- The station at which a token stands; none while it rides a packet (R221). -/
def Token.station? (t : Token) (d : Fin 5) (now : Nat) : Option Nat :=
  if now < t.since then none else some ((t.station + (now - t.since) / hopUnits d) % ringStations d)

/-- The station of a router. -/
def stationOf (r : Fin 160) : Nat :=
  let (y, x) := (r.val % 80 / 10, r.val % 10)
  if r.val < 80 then y * 10 + (if y % 2 = 0 then x else 9 - x)
  else 80 + (7 - y) * 10 + (if y % 2 = 1 then x else 9 - x)

/-- The token of a domain rides a packet for a time and enters its ring again at a station, from which it goes on: it acts
first at the next station, a hop later, DESIGN CHOICE (assumption 72): R221 does not say whether it may capture at the station
where it re-enters. -/
def State.rideTo (s : State) (d : Fin 5) (station ride : Nat) : State :=
  let token : Token := { station := (station + 1) % ringStations d, since := s.time + ride + hopUnits d }
  { s with tokens := s.tokens.set d token }

/-- Time of a ride through the skid lane: 5 memory cycles down or up, and 2 for a lateral hop (R20, R221). The lane is taken to
run on the memory clock on the compute layer too, DESIGN CHOICE (assumption 72): R20 gives a router's hop there 2 die cycles, and
no rule gives the lane's. -/
def rideUnits (a b : Fin 160) : Nat :=
  let far := fun (p q : Nat) => p - q + (q - p)
  memUnits * ((if a.val / 80 = b.val / 80 then 0 else 5)
    + 2 * (far (a.val % 10) (b.val % 10) + far (a.val % 80 / 10) (b.val % 80 / 10)))

/-! ## Links (R215) -/

/-- The next link of a packet that leaves a die for an end point, and whether it crosses it away from the link's first
end (R215, R220): the shorter way round the ring, east when both are equal; the control link for all else. -/
def nextLink (d : DieId) (e : Endpoint) : Fin 8 × Bool :=
  match e.die with
  | none => (finOf 8 (2 * d.val), false)
  | some t => if (t.val + 4 - d.val) % 4 = 3 then (finOf 8 (2 * ((d.val + 3) % 4) + 1), false) else (finOf 8 (2 * d.val + 1), true)

/-- The die at the far end of a link; none for the control die (R220). -/
def farDie (l : Fin 8) (up : Bool) : Option DieId :=
  if l.val % 2 = 0 then (if up then some (finOf 4 (l.val / 2)) else none)
  else some (finOf 4 (if up then l.val / 2 + 1 else l.val / 2))

/-- The router of a die at which a link attaches, on a row, or on a column for a control link: while the compute layer is
in reset, the router below it (R215, R225). -/
def State.edgeRouter (s : State) (d : DieId) (l : Fin 8) (lane : Fin 10) : Fin 160 :=
  let at_ := if l.val % 2 = 0 then 70 + lane.val else 10 * (lane.val % 8) + (if l.val / 2 = d.val then 9 else 0)
  finOf 160 (at_ + if (s.dies.get d).inReset then 80 else 0)

/-- The row, or for a control link the column, on which a packet at a router goes to a link (R215). -/
def laneOf (l : Fin 8) (r : Fin 160) : Fin 10 := finOf 10 (if l.val % 2 = 0 then r.val % 10 else r.val % 80 / 10)

/-- The router at which a stack's channel controller attaches (R417). -/
def controllerRouter (k : StackId) (channel : Nat) : Fin 160 :=
  let place := match k.val % 3 with
    | 0 => channel / 4 * 10
    | 1 => channel / 4 * 10 + 9
    | _ => channel * 10 / 32
  finOf 160 (80 + place)

/-- The router of an end point of a die (R9, R214, R417). -/
def Endpoint.router : Endpoint → Option (Fin 160)
  | .core c => some (finOf 160 (routerOf c))
  | .fetch t => some (finOf 160 (t.val % 80))
  | .tile t => some (finOf 160 (80 + t.val % 80))
  | .stack k channel => some (controllerRouter k channel)
  | _ => none

/-! ## Suspicion (R218) -/

/-- The domain of a router input, and the link of a link port (R215). -/
def State.suspectLink (s : State) (m : Msg) (p : Suspect) : Option (Fin 8 × Bool) :=
  match p.port with
  | 7 => some (nextLink p.die (s.destOf m))
  | 8 => some (finOf 8 (2 * p.die.val), true)
  | _ => none

/-- A packet may wait at a router input: the routers of a layer in reset are stopped (R225), and at a link port stands a
packet that goes over that link, from the control die in the column of its destination (R215). -/
def State.mayWait (s : State) (m : Msg) (p : Suspect) : Bool :=
  let e := (s.destOf m).die
  match p.port with
  | 7 =>
    let l := (nextLink p.die (s.destOf m)).1
    e != some p.die && s.edgeRouter p.die l (laneOf l p.router) == p.router
  | 8 =>
    let l : Fin 8 := finOf 8 (2 * p.die.val)
    (s.sourceOf m).die == none && e == some p.die && s.edgeRouter p.die l (laneOf l p.router) == p.router
      && ((s.destOf m).router.map (laneOf l)) == some (laneOf l p.router)
  | _ => 80 ≤ p.router.val || !(s.dies.get p.die).inReset

/-- `PACKET_SUSPECT`: the head packet of a router's input has waited T_susp. The wait itself is an input; router inputs
held at a stalled crossing do not advance it (R218, R365). One that was suspect at another input has left that by its
ordinary route. -/
def execPacketSuspect (m : Nat) (die : Fin 4) (router : RouterInput) (s : State) : Result :=
  event (fun s => do
    let msg ← s.msg m
    let p : Suspect := { die := die, router := router.router, port := router.port, since := s.time }
    let here := match msg.suspect with
      | some q => q.die == die && q.router == router.router && q.port == router.port
      | none => false
    if !msg.inMesh || here || msg.rescue != .no || (s.dies.get die).stallEnd.isSome || !s.mayWait msg p then none
    else pure (s.updMsg m fun x => { x with suspect := some p })) s

/-- The domain and the station of a suspect packet (R220). -/
def State.suspectAt (s : State) (m : Msg) (p : Suspect) : Fin 5 × Nat :=
  match s.suspectLink m p with
  | some (l, _) => (4, l.val)
  | none => (p.die.castSucc, stationOf p.router)

/-! ## Rescue (R221 to R223) -/

/-- The reserved ejection slot of an end point is free (R221, R223). -/
def State.ejectFree (s : State) (e : Endpoint) : Bool := !s.net.any fun n => n.rescue == .ejected && s.destOf n == e

/-- A skid slot of a link's end in a direction is free (R222). -/
def State.skidFree (s : State) (l : Fin 8) (up across : Bool) : Bool := !s.net.any fun n =>
  match n.rescue with
  | .skid k u a _ => k == l && u == up && a == across
  | _ => false

/-- Where a packet at a router of a die goes with the die's token, and the router at which it leaves the lane: to the
ejection slot of its destination there, or to the skid slot of the link that leads on; `none` while that slot is not free
(R221, R222). -/
def State.rescueTo (s : State) (m : Msg) (d : DieId) (r : Fin 160) : Option (Rescue × Fin 160) :=
  let e := s.destOf m
  if e.die = some d then (if s.ejectFree e then some (.ejected, e.router.getD r) else none)
  else
    let (l, up) := nextLink d e
    let lane := laneOf l r
    if s.skidFree l up false then some (.skid l up false lane, s.edgeRouter d l lane) else none

/-- Where a packet that crosses a link comes to: the far end's skid slot, or the control die (R222). -/
def State.acrossTo (s : State) (m : Msg) (l : Fin 8) (up : Bool) (lane : Fin 10) : Option Rescue :=
  match farDie l up with
  | none => if s.ejectFree (s.destOf m) then some .ejected else none
  | some _ => if s.skidFree l up true then some (.skid l up true lane) else none

/-- A move with a token: where the packet goes, the station at which the token enters its ring again, and the time of the
ride. -/
abbrev Ride := Rescue × Nat × Nat

/-- What the token of a suspect packet's domain does with it (R221). -/
def State.captureRide (s : State) (m : Msg) (p : Suspect) : Option Ride :=
  match s.suspectLink m p with
  | some (l, up) => (s.acrossTo m l up (laneOf l p.router)).map fun r => (r, l.val, hopUnits 4)
  | none => (s.rescueTo m p.die p.router).map fun r => (r.1, stationOf r.2, rideUnits p.router r.2)

/-- The domain and the station at which a packet in a skid slot waits for a token (R222). -/
def State.skidAt (s : State) (m : Msg) : Option (Fin 5 × Nat) :=
  match m.rescue with
  | .skid l _ false _ => some (4, l.val)
  | .skid l up true lane => (farDie l up).map fun d => (d.castSucc, stationOf (s.edgeRouter d l lane))
  | _ => none

/-- What the token does with a packet in a skid slot: over the link with the links' token, and from the far end with that
die's token (R222). -/
def State.skidRide (s : State) (m : Msg) : Option Ride :=
  match m.rescue with
  | .skid l up false lane => (s.acrossTo m l up lane).map fun r => (r, l.val, hopUnits 4)
  | .skid l up true lane => do
    let d ← farDie l up
    let q := s.edgeRouter d l lane
    let r ← s.rescueTo m d q
    pure (r.1, stationOf r.2, rideUnits q r.2)
  | _ => none

/-- The token of a domain stands at a station. -/
def State.tokenAt (s : State) (d : Fin 5) (station : Nat) : Bool := (s.tokens.get d).station? d s.time == some station

/-- A packet in a skid slot at a station can go on: it has priority (R222). -/
def State.skidWaits (s : State) (at_ : Fin 5 × Nat) : Bool :=
  s.net.any fun n => s.skidAt n == some at_ && (s.skidRide n).isSome

/-- A suspect packet comes before another of its station: it became suspect first; a tie goes to the lower input port
(R221). -/
def State.comesBefore (s : State) (n m : Msg) (p : Suspect) : Bool :=
  match n.suspect with
  | none => false
  | some q => n.id != m.id && s.suspectAt n q == s.suspectAt m p
      && (q.since < p.since || (p.since == q.since && q.port.val < p.port.val))

/-- When a suspect packet is captured, those that would have come before it have left their inputs by their ordinary routes:
they are suspect no longer (R218, R221). -/
def State.passedBy (s : State) (m : Msg) (p : Suspect) : State :=
  { s with net := mapIf (fun n => s.comesBefore n m p) (fun n => { n with suspect := none }) s.net }

/-- A counter of 32 bits rises and saturates (R224). -/
def satCount (v : BitVec 32) : BitVec 32 := if v = BitVec.allOnes 32 then v else v + 1

/-- RESCUE of an end point that is a core rises (R224). -/
def State.countRescue (s : State) (e : Endpoint) : State :=
  match e with
  | .core c => s.updCore c fun x => { x with rescue := satCount x.rescue }
  | _ => s

/-- A capture is counted at the router, unless it is at the control die, and at the cores at the packet's two ends
(R224). -/
def State.countCapture (s : State) (m : Msg) (p : Suspect) : State :=
  let s := if p.port = 8 then s
    else s.updDie p.die fun x => { x with events := x.events.set p.router (satCount (x.events.get p.router)) }
  let (a, b) := (s.sourceOf m, s.destOf m)
  let s := s.countRescue a
  if a = b then s else s.countRescue b

/-- `TOKEN_CAPTURE`: the token of a domain stands at the station of a suspect packet, whose next slot is free. It is the first
suspect of those that still stand there, behind packets in skid slots (R220 to R222). -/
def execTokenCapture (m : Nat) (domain : Fin 5) (s : State) : Result :=
  event (fun s => do
    let msg ← s.msg m
    let p ← msg.suspect
    let place := s.suspectAt msg p
    let (to_, station, ride) ← s.captureRide msg p
    if place.1 != domain || !s.tokenAt domain place.2 || !msg.inMesh || s.skidWaits place then none
    else
      let s := ((s.passedBy msg p).countCapture msg p).updMsg m fun x => { x with suspect := none, rescue := to_ }
      pure (s.rideTo domain station ride)) s

/-- `SKID_HANDOVER`: a rescued packet in a skid slot goes on with the token that stands at its station (R222). -/
def execSkidHandover (m : Nat) (domain : Fin 5) (s : State) : Result :=
  event (fun s => do
    let msg ← s.msg m
    let place ← s.skidAt msg
    let (to_, station, ride) ← s.skidRide msg
    if place.1 != domain || !s.tokenAt domain place.2 then none
    else pure ((s.updMsg m fun x => { x with rescue := to_ }).rideTo domain station ride)) s

end Sys2Proof.Machine
end

