-- ==== Sys2Proof/Machine/Slice.lean ====
section
/-! DEFINITION. Changes of the memory-side cache and of far memory: slice retirement (R378), hot-row capture (R391),
extents (R393, R414). -/

namespace Sys2Proof.Machine

/-! ## Slice retirement (R378) -/

/-- Every line of a slice is written back and dropped, pins released. -/
def State.drainSlice (s : State) (t : TileId) : State :=
  ((s.tiles.get t).msc.foldl (fun s l => (s.cleanLine l).unpin l) s).updTile t fun x => { x with msc := [] }

/-- A window with one tile replaced by another. -/
def MscWin.replaceTile (w : MscWin) (t u : TileId) : MscWin :=
  let put := fun (v : Word) (i : Nat) => if bits v.toNat (9 * i + 8) (9 * i) = t.val
    then (v &&& ~~~(0x1FF#64 <<< (9 * i))) ||| (BitVec.ofNat 64 u.val <<< (9 * i)) else v
  let n := w.slices
  if w.mode != some .pin then w
  else { w with w2 := (List.range (min n 7)).foldl put w.w2, w3 := if n = 8 then put w.w3 0 else w.w3 }

/-- Every registration at a tile is woken with status 0 (R152, R378). -/
def State.wakeTile (s : State) (t : TileId) : State :=
  let ms := (s.tiles.get t).monitors
  ms.foldl (fun s r => s.updThread r.core r.slot Thread.woken)
    (s.updTile t fun x => { x with monitors := [] })

/-- `SLICE_RETIRE`: a slice drains, its map entries and window places pass to another tile of the die, its registrations
wake, and it becomes a stub (R378). -/
def execSliceRetire (tile dest : Fin 320) (s : State) : Result :=
  event (fun s =>
    if tile == dest || dieOfTile tile != dieOfTile dest || (s.tiles.get tile).stub.isSome || (s.tiles.get dest).stub.isSome then none
    else
      let s := s.drainSlice tile
      let s := s.updDie (dieOfTile tile) fun d => { d with mscmap := d.mscmap.map fun u => if u = tile then dest else u }
      let ctx : Context → Context := fun x => { x with mscwin := x.mscwin.map fun w => w.replaceTile tile dest }
      let s := { s with ctxs := s.ctxs.map ctx }
      some ((s.wakeTile tile).updTile tile fun x => { x with stub := some dest })) s

/-- `STUB_FORWARD`: a request that reaches a stub goes on to its home under the new map; the stub counts it once the new
home has performed it (R378, R123). -/
def execStubForward (m : Nat) (s : State) : Result :=
  event (fun s => do
    let msg ← s.msg m
    let probe := match msg.body with
      | .probe _ => true
      | _ => false
    match msg.target with
    | some (.tile t) =>
      if msg.stage != .sent || !msg.moving || msg.forwarded || probe || (s.tiles.get t).stub.isNone then none
      else pure (s.updMsg m fun x => { x with forwarded := true, suspect := none, rescue := .no })
    | _ => none) s

/-! ## Hot-row capture (R391) -/

/-- The context under whose key a line is read: the one that wrote it under the key that it has, else one that maps its
frame. -/
def State.ownerOf (s : State) (line : Nat) : Option Ctx :=
  let live := fun (c : Ctx) => (s.ctxs.get c).keyLive
  let writer := (List.range 4).findSome? fun i => match assoc s.keyed (4 * line + i) with
    | some (c, g) => if live c && g == (s.ctxs.get c).keyGen then some c else none
    | none => none
  writer.or ((List.finRange 64).find? fun c => live c && (s.ctxs.get c).pt.any fun q =>
    isLeaf q.2 && ownFrames q.2 && meet (128 * line) 128 (leafAddr q.2) (2 ^ levelShift q.1.1))

/-- Capture one line: marked in its home slice, or read and inserted at age 0. A set with two captured ways, or with no
eligible way, takes none (R389, R391). -/
def State.captureLine (s : State) (line : Nat) : State :=
  match s.ownerOf line with
  | none => s
  | some ctx =>
    let t := s.homeOf ctx (s.lineDie line) line
    let full := 2 ≤ (((s.tiles.get t).ways (mscSet line)).filter fun l => l.captured).length
      || (s.tiles.get t).victim (mscSet line) == .bypass
    match (s.tiles.get t).find ctx line with
    | some _ => if full then s else s.updTile t fun x => x.updLine ctx line fun l => { l with captured := true }
    | none =>
      if full then s
      else
        let (ok, data, s1) := s.readSectors ctx line 15
        (s1.insert t ctx line .norm ok 0 data true).getD s

/-- The window of 32,000,000 ticks in which the timer stands (R391). -/
def State.windowNow (s : State) : Nat := s.ticks / 32000000

/-- `HOT_ROW_CAPTURE`: the lines of a row, by line number, are captured; once in a window (R391). That the row's activations
in the window have come to 2,048 is an input, DESIGN CHOICE (assumption 38): when a channel activates a row is timing. -/
def execHotRowCapture (stack : Fin 12) (row : List Nat) (s : State) : Result :=
  event (fun s =>
    let st := s.hbm.get stack
    let here := fun (line : Nat) => match s.region (128 * line) with
      | .hbm k _ => k == stack
      | _ => false
    if s.captureWin != s.windowNow || st.state == .offline || st.state == .failed || st.captured.contains row || !row.all here then none
    else some (row.foldl State.captureLine (s.updStack stack fun x => { x with captured := row :: x.captured }))) s

/-- `CAPTURE_WINDOW_END`: once the timer stands in a later window, every captured bit clears, and the line's age becomes 3
(R391). -/
def execCaptureWindowEnd (s : State) : Result :=
  let line : MscLine → MscLine := fun l => if l.captured then { l with captured := false, age := 3 } else l
  let tile : Tile → Tile := fun t => { t with msc := t.msc.map line }
  let stack : Stack → Stack := fun x => { x with captured := [] }
  event (fun s =>
    if s.windowNow ≤ s.captureWin then none
    else some { s with tiles := s.tiles.map tile, hbm := s.hbm.map stack, captureWin := s.windowNow }) s

/-! ## Extents (R393, R414) -/

/-- `EXTENT_GRANT`: in CXL mode an extent of at most 2^40 bytes is placed at 2^50 + e × 2^40 (R414). -/
def execExtentGrant (extent : Fin 1024) (size : Nat) (s : State) : Result :=
  event (fun s =>
    let held := (assoc s.extents extent.val).isSome && !s.revoked.contains extent.val
    if !s.cxl || size = 0 || 2 ^ 40 < size || held then none
    else some { s with
      extents := assocSet s.extents extent.val size, revoked := s.revoked.filter fun e => e != extent.val }) s

/-- A line lies in an extent. -/
def State.inExtent (s : State) (e : Nat) (line : Nat) : Bool :=
  match s.region (128 * line) with
  | .far f _ => f == e
  | _ => false

/-- Fills of an extent's lines that are in flight enter no L1D. -/
def State.dropFills (s : State) (c : CoreId) (e : Nat) : State :=
  (s.net.filterMap fun m => match m.body with
    | .fill line _ _ _ _ => if m.core == c && s.inExtent e line then some line else none
    | _ => none).foldl (fun s line => s.killFills c line) s

/-- A core's L1D lines of an extent are dropped; what is dirty reaches the far memory unless the release is forced. -/
def State.dropL1 (s : State) (c : CoreId) (e : Nat) (forced : Bool) : State :=
  let s := s.dropFills c e
  let mine := (s.core c).l1d.filter fun l => s.inExtent e l.line
  if mine.isEmpty then s
  else
    let ctx := ((s.core c).ctx).getD 0
    let put := fun (s : State) (l : L1Line) => (List.range 4).foldl (fun s i =>
      if l.dirty.getLsbD i then s.writeSector ctx (128 * l.line + 32 * i) (bytesOf l.data (32 * i) 32) else s) s
    let s := if forced then s else mine.foldl put s
    s.updCore c fun x => { x with l1d := x.l1d.filter fun l => !mine.any fun m => m.line == l.line }

/-- Dirty L1D lines of an extent in the cores that hold a context. -/
def State.l1Dirty (s : State) (e : Nat) (ctx : Ctx) : Nat :=
  (s.cores.toList.map fun x =>
    if x.ctx == some ctx then (x.l1d.filter fun l => s.inExtent e l.line && l.dirty != 0).length else 0).sum

/-- `EXTENT_RELEASE`: every slice writes back and drops the extent's lines; where the release is forced by a time-out, some have
been written back before (`Config.releaseDone`), and the rest are discarded and logged as lost. Every later access is an access
fault, as if no entry of an access table allowed it (R393): the cores keep no line of it either, DESIGN CHOICE
(assumption 24). -/
def execExtentRelease (extent : Fin 1024) (forced : Bool) (s : State) : Result :=
  event (fun s =>
    let e := extent.val
    if (assoc s.extents e).isNone || s.revoked.contains e then none
    else
      let mine : MscLine → Bool := fun l => s.inExtent e l.line
      let done : MscLine → Bool := fun l => mine l && (!forced || Config.releaseDone s.free l.line)
      let lost : Ctx → Nat := fun ctx => s.linesOfCtx ctx (fun l => mine l && !done l && l.dirty != 0) + s.l1Dirty e ctx
      let s1 := if forced then State.logLost { s with free := s.free + 1 } (2 ^ 50 + e * 2 ^ 40) lost else s
      let s2 := (s1.flushLine done true false).flushLine mine false false
      let s3 := (List.finRange 1280).foldl (fun s c => s.dropL1 c e forced) s2
      some { s3 with revoked := e :: s3.revoked }) s

end Sys2Proof.Machine
end

