-- ==== Sys2Proof/Machine/Reset.lean ====
section
/-! DEFINITION. Clocks and frequency steps (R364 to R366), resets (R225, R367 to R369), boot (R372, R373) and the
die-to-die links (R362). -/

namespace Sys2Proof.Machine

/-! ## Frequency steps (R364 to R366) -/

/-- `DFREQ_TGT_WRITE`: TGT is taken unless it is above 6 or a switch is scheduled; LOCK clears (R364). -/
def execDfreqTgtWrite (die : Fin 4) (v : Word) (s : State) : Result :=
  event (fun s =>
    let t : BitVec 4 := v.extractLsb' 8 4
    if 6 < t.toNat || (s.dies.get die).at_ != 0 then none
    else some (s.updDie die fun d => { d with tgt := t, lock := false })) s

/-- `PLL_LOCK`: the spare PLL has locked (R364). -/
def execPllLock (die : Fin 4) (s : State) : Result := .next (s.updDie die fun d => { d with lock := true })

/-- `DFSW_WRITE`: AT is taken when LOCK is 1 and it lies at least 1,000 ticks ahead (R364). -/
def execDfswWrite (die : Fin 4) (v : Word) (s : State) : Result :=
  event (fun s =>
    if !(s.dies.get die).lock || v.toNat < s.ticks + 1000 then none
    else some (s.updDie die fun d => { d with at_ := v })) s

/-- `FREQ_SWITCH`: at tick AT the die's clock passes to the new PLL, and the crossings stall (R365). F stays (R366). -/
def execFreqSwitch (die : Fin 4) (s : State) : Result :=
  event (fun s =>
    let d := s.dies.get die
    if d.at_ == 0 || s.ticks < d.at_.toNat then none
    else some (s.updDie die Die.switch)) s

/-- `CROSSING_STALL_END`: at AT + 64 the crossings pass traffic again (R365). -/
def execCrossingStallEnd (die : Fin 4) (s : State) : Result :=
  event (fun s => do
    let t ← (s.dies.get die).stallEnd
    if s.ticks < t.toNat then none else pure (s.updDie die fun d => { d with stallEnd := none })) s

/-! ## Compute-die reset (R225, R368, R369) -/

/-- A context holds a core of a die, or has an engine command, a landing or a tree member there (R369 step 2). -/
def State.touches (s : State) (ctx : Ctx) (d : DieId) : Bool :=
  (coresOf d).any (fun c => (s.core c).ctx == some ctx || (s.core c).cmds.any fun m => m.ctx == ctx)
    || (s.rings.any fun r => r.ctx == ctx && match r.land with
      | some (c, _) => dieOf c == d
      | none => false)
    || (s.dies.get d).trees.toList.any fun t => match t with
      | some r => r.ctx == ctx
      | none => false

/-- Packets of affinity `any` in a die's ready queue go to the other dies (R369 step 1). -/
def State.resend (s : State) (d : DieId) : State :=
  let out := (s.dies.get d).ready.filter fun p => p.affk == 0
  let s := s.updDie d fun x => { x with ready := x.ready.filter fun p => p.affk != 0 }
  out.foldl (fun s p => match s.dieFor p with
    | some e => s.toDie e p
    | none => s.toDie d p) s

/-- A die's own state in its reset: Kamgor sets CUR and TGT (R368), and nothing else of the compute layer stays, the event
counts of its routers and its scheduler's state among it (R14). DSCFG is taken to be held in the control die and stays, DESIGN
CHOICE (assumption 90): R347 does not say on which die it is, and R368 does not list it. -/
def Die.lost (d : Die) (cur tgt : Fin 7) : Die :=
  { d with
    inReset := true, cycle := 0, ncycle := 0, frac := 0, at_ := 0, stallEnd := none
    lock := d.lock && d.tgt.toNat == tgt.val
    cur := BitVec.ofNat 4 cur.val, tgt := BitVec.ofNat 4 tgt.val, inc := incOf cur.val
    l2 := [], episodes := [], forwarded := [], delivers := [], stealEast := true
    events := .ofFn fun i => if i.val < 80 then 0 else d.events.get i }

/-- A message bound for an end point of a stopped layer is discarded (R225). -/
def State.boundFor (s : State) (m : Msg) (d : DieId) : Bool :=
  m.core.val / 320 != d.val && match s.destOf m with
    | .core c => dieOf c == d
    | .fetch t => dieOfTile t == d
    | _ => false

/-- A reduction packet on the lane of a die, whose routers forward what they hold and then lose it with the die's state
(R225). -/
def State.onLane (s : State) (m : Msg) (d : DieId) : Bool :=
  match m.body with
  | .reduce _ _ _ _ _ _ => dieOf (s.identity m.core m.ctx) == d
  | _ => false

/-- A packet when a die's compute layer stops: the routers of that layer have forwarded what they held (R225). -/
def Msg.forwardedBy (m : Msg) (d : DieId) : Msg :=
  match m.suspect with
  | some p => if p.die = d ∧ p.router.val < 80 then { m with suspect := none } else m
  | none => m

/-- `COMPUTE_DIE_RESET` (R369): dispatch to the die stops, its contexts end but for saved ones, requests already sent
are performed with their replies discarded, registrations of its threads are freed, and its compute layer is lost (R14,
R368). -/
def execComputeDieReset (die : DieReset) (s : State) : Result :=
  event (fun s =>
    let ⟨die, cur, tgt⟩ := die
    if (s.dies.get die).inReset then none
    else
      let s := (s.updDie die fun x => { x with inReset := true }).resend die
      let s := (List.finRange 64).foldl (fun s ctx =>
        if (s.ctxs.get ctx).live && (s.ctxs.get ctx).runState != .saved && s.touches ctx die then s.endAndTell ctx else s) s
      let mine := fun (c : CoreId) => dieOf c == die
      let tile : Tile → Tile := fun t => { t with monitors := t.monitors.filter fun r => !mine r.core }
      let s := { s with
        net := mapIf (fun m => mine m.core) (fun m => { m with orphan := true })
          ((s.net.filter fun m : Msg => !s.boundFor m die && !s.onLane m die).map (Msg.forwardedBy · die))
        majOps := mapIf (fun o => mine o.core) (fun o => { o with done := true }) s.majOps
        cores := .ofFn fun c => if mine c then {} else s.core c
        reclaims := s.reclaims.filter fun r => !mine r.1
        clusters := .ofFn fun t => if dieOfTile t = die then {} else s.clusters.get t
        tiles := s.tiles.map tile }
      some (s.updDie die fun d => d.lost cur tgt)) s

/-- Translations that stood in another die's share while a die was in reset are invalidated (R308). -/
def State.dropRemapped (s : State) : State :=
  (List.finRange 4).foldl (fun s d => s.updDie d fun x =>
    { x with l2 := x.l2.filter fun t => s.shareOf t.ctx (t.vpn * 2 ^ levelShift t.level) == d }) s

/-- `DIE_RESET_RELEASE`: once what the die had sent has drained, the die loads its copy of the timer, its counts start at
0, and dispatch to it resumes (R367, R368, R369 step 4). The tiles' counts of the requests of its cores start again with
theirs, and the first cycle begins at once, DESIGN CHOICE (assumption 52). -/
def execDieResetRelease (die : Fin 4) (s : State) : Result :=
  event (fun s =>
    if !(s.dies.get die).inReset || s.net.any (fun m => dieOf m.core == die) then none
    else
      let fresh : Tile → Tile := fun t => { t with received := t.received.filter fun p => p.1 / 320 != die.val }
      let s := s.updDie die fun d => { d with
        inReset := false, skew := 0, cycle := 0, ncycle := 0, frac := 0, edge := s.time }
      some (State.dropRemapped { s with tiles := s.tiles.map fresh })) s

/-- `PACKAGE_RESET`: everything is lost and the boot starts again (R368). What lies outside the package, and the inputs
still to come, stay. -/
def execPackageReset (s : State) : Result :=
  let peer : PeerPort → PeerPort := fun p => { mem := p.mem }
  .next { State.reset with
    agenda := s.agenda, hostMem := s.hostMem, peers := s.peers.map peer, free := s.free, atomicOps := s.atomicOps, cxl := s.cxl }

/-! ## Boot (R372, R373) -/

/-- The message that an image's signature covers: header bytes 0 to 127 and the image (R372). -/
def signedPart (b : List Byte) : List Byte := b.take 128 ++ (b.drop 256).take (fieldOf b 12 4)

/-- CODE of the check of an image of a kind: 0 when it may run, else the first failure in the order of R373. A key slot
above 3 has no fused hash: a key mismatch, DESIGN CHOICE (assumption 22). -/
def imageCode (kind : Nat) (b : List Byte) : Nat :=
  let (slot, version, len) := (fieldOf b 5 1, fieldOf b 8 4, fieldOf b 12 4)
  let key := (b.drop 24).take 57
  if fieldOf b 0 4 ≠ 0x534B4657 ∨ fieldOf b 4 1 ≠ kind then 1
  else if Config.revoked slot then 2
  else if 3 < slot ∨ Config.shake256 key ≠ Config.fusedHash slot then 3
  else if version < Config.minVersion kind then 4
  else if len < 1 ∨ 2 ^ 28 < len ∨ b.length < 256 + len then 6
  else if !Config.ed448Verify key ((b.drop 128).take 114) (Config.shake256 (signedPart b)) then 5
  else 0

/-- The check of an image of a kind by the boot ROM (R373). -/
def State.checkImage (s : State) (kind : Fin 4) (b : List Byte) : State :=
  let code := imageCode (kind.val + 1) b
  if code = 0 then
    { s with
      images := s.images ++ [(kind.val + 1, BitVec.ofNat 64 (fieldOf b 8 4), Config.shake256 (signedPart b))]
      boot := if kind = 3 then .up else .checking (kind + 1) }
  else { s with boot := .recovery kind (BitVec.ofNat 8 code) }

/-- `BOOT_IMAGE_CHECK`: the boot ROM checks the next image (R373). -/
def execBootImageCheck (image : List Byte) (s : State) : Result :=
  event (fun s =>
    match s.boot with
    | .start => some (s.checkImage 0 image)
    | .checking k => some (s.checkImage k image)
    | _ => none) s

/-- BOOTST: STAGE is the kind being checked, 0 before the first and when every image runs; the word that the host interface
shows in recovery mode (R373). -/
def State.bootst (s : State) : Word :=
  match s.boot with
  | .start => 0
  | .checking k => BitVec.ofNat 64 ((k.val + 1) * 2 ^ 24)
  | .recovery k code => BitVec.ofNat 64 ((k.val + 1) * 2 ^ 24 + code.toNat * 2 ^ 16)
  | .up => 1

/-- The host reads BOOTST in recovery mode; the word is not shown otherwise (R373). -/
def State.shownBootst (s : State) : Option Word :=
  match s.boot with
  | .recovery _ _ => some s.bootst
  | _ => none

/-- `RECOVERY_IMAGE`: an image given through the recovery window is checked as at boot (R373). -/
def execRecoveryImage (image : List Byte) (s : State) : Result :=
  event (fun s =>
    match s.boot with
    | .recovery k _ => some (s.checkImage k image)
    | _ => none) s

/-! ## Links (R362) -/

/-- `LINK_MODULE_FAIL`: a module is disabled and the link runs on the rest; a link with no working module is a fatal
package error (R362). -/
def execLinkModuleFail (link : Fin 8) (module : Fin 12) (s : State) : Result :=
  let left := s.links.get link &&& ~~~(1#12 <<< module.val)
  if left = 0 then .fault (.fatalPackageError link.val) else .next { s with links := s.links.set link left }

end Sys2Proof.Machine
end

