-- ==== Sys2Proof/Machine/Dispatch.lean ====
section
/-! DEFINITION. Which meaning each instruction has. -/

namespace Sys2Proof.Machine

open Sys2Proof

/-- The meaning of an instruction that the thread `s.issuer` issues, or of a step of the device. -/
def exec (i : Instr) (s : State) : Host.Outcome State Fault Refusal :=
  match i with
  | .lui d imm => Sys2Proof.Machine.execLui d imm s
  | .auipc d imm => Sys2Proof.Machine.execAuipc d imm s
  | .jal d off => Sys2Proof.Machine.execJal d off s
  | .jalr d a imm => Sys2Proof.Machine.execJalr d a imm s
  | .beq a b off => Sys2Proof.Machine.execBeq a b off s
  | .bne a b off => Sys2Proof.Machine.execBne a b off s
  | .blt a b off => Sys2Proof.Machine.execBlt a b off s
  | .bge a b off => Sys2Proof.Machine.execBge a b off s
  | .bltu a b off => Sys2Proof.Machine.execBltu a b off s
  | .bgeu a b off => Sys2Proof.Machine.execBgeu a b off s
  | .lb d a imm => Sys2Proof.Machine.execLb d a imm s
  | .lh d a imm => Sys2Proof.Machine.execLh d a imm s
  | .lw d a imm => Sys2Proof.Machine.execLw d a imm s
  | .ld d a imm => Sys2Proof.Machine.execLd d a imm s
  | .lbu d a imm => Sys2Proof.Machine.execLbu d a imm s
  | .lhu d a imm => Sys2Proof.Machine.execLhu d a imm s
  | .lwu d a imm => Sys2Proof.Machine.execLwu d a imm s
  | .sb a b imm => Sys2Proof.Machine.execSb a b imm s
  | .sh a b imm => Sys2Proof.Machine.execSh a b imm s
  | .sw a b imm => Sys2Proof.Machine.execSw a b imm s
  | .sd a b imm => Sys2Proof.Machine.execSd a b imm s
  | .addi d a imm => Sys2Proof.Machine.execAddi d a imm s
  | .slti d a imm => Sys2Proof.Machine.execSlti d a imm s
  | .sltiu d a imm => Sys2Proof.Machine.execSltiu d a imm s
  | .xori d a imm => Sys2Proof.Machine.execXori d a imm s
  | .ori d a imm => Sys2Proof.Machine.execOri d a imm s
  | .andi d a imm => Sys2Proof.Machine.execAndi d a imm s
  | .slli d a sh => Sys2Proof.Machine.execSlli d a sh s
  | .srli d a sh => Sys2Proof.Machine.execSrli d a sh s
  | .srai d a sh => Sys2Proof.Machine.execSrai d a sh s
  | .add d a b => Sys2Proof.Machine.execAdd d a b s
  | .sll d a b => Sys2Proof.Machine.execSll d a b s
  | .slt d a b => Sys2Proof.Machine.execSlt d a b s
  | .sltu d a b => Sys2Proof.Machine.execSltu d a b s
  | .xor d a b => Sys2Proof.Machine.execXor d a b s
  | .srl d a b => Sys2Proof.Machine.execSrl d a b s
  | .or d a b => Sys2Proof.Machine.execOr d a b s
  | .and d a b => Sys2Proof.Machine.execAnd d a b s
  | .sub d a b => Sys2Proof.Machine.execSub d a b s
  | .sra d a b => Sys2Proof.Machine.execSra d a b s
  | .mul d a b => Sys2Proof.Machine.execMul d a b s
  | .mulh d a b => Sys2Proof.Machine.execMulh d a b s
  | .mulhsu d a b => Sys2Proof.Machine.execMulhsu d a b s
  | .mulhu d a b => Sys2Proof.Machine.execMulhu d a b s
  | .div d a b => Sys2Proof.Machine.execDiv d a b s
  | .divu d a b => Sys2Proof.Machine.execDivu d a b s
  | .rem d a b => Sys2Proof.Machine.execRem d a b s
  | .remu d a b => Sys2Proof.Machine.execRemu d a b s
  | .addiw d a imm => Sys2Proof.Machine.execAddiw d a imm s
  | .slliw d a sh => Sys2Proof.Machine.execSlliw d a sh s
  | .srliw d a sh => Sys2Proof.Machine.execSrliw d a sh s
  | .sraiw d a sh => Sys2Proof.Machine.execSraiw d a sh s
  | .addw d a b => Sys2Proof.Machine.execAddw d a b s
  | .sllw d a b => Sys2Proof.Machine.execSllw d a b s
  | .srlw d a b => Sys2Proof.Machine.execSrlw d a b s
  | .subw d a b => Sys2Proof.Machine.execSubw d a b s
  | .sraw d a b => Sys2Proof.Machine.execSraw d a b s
  | .mulw d a b => Sys2Proof.Machine.execMulw d a b s
  | .divw d a b => Sys2Proof.Machine.execDivw d a b s
  | .divuw d a b => Sys2Proof.Machine.execDivuw d a b s
  | .remw d a b => Sys2Proof.Machine.execRemw d a b s
  | .remuw d a b => Sys2Proof.Machine.execRemuw d a b s
  | .fence imm a d => Sys2Proof.Machine.execFence imm a d s
  | .fenceI imm a d => Sys2Proof.Machine.execFenceI imm a d s
  | .ecall => Sys2Proof.Machine.execEcall s
  | .ebreak => Sys2Proof.Machine.execEbreak s
  | .csrrw d a csr => Sys2Proof.Machine.execCsrrw d a csr s
  | .csrrs d a csr => Sys2Proof.Machine.execCsrrs d a csr s
  | .csrrc d a csr => Sys2Proof.Machine.execCsrrc d a csr s
  | .csrrwi d u csr => Sys2Proof.Machine.execCsrrwi d u csr s
  | .csrrsi d u csr => Sys2Proof.Machine.execCsrrsi d u csr s
  | .csrrci d u csr => Sys2Proof.Machine.execCsrrci d u csr s
  | .rep count mask step => Sys2Proof.Machine.execRep count mask step s
  | .bfx d a b => Sys2Proof.Machine.execBfx d a b s
  | .bfxu d a b => Sys2Proof.Machine.execBfxu d a b s
  | .bfi d a b => Sys2Proof.Machine.execBfi d a b s
  | .clz d a => Sys2Proof.Machine.execClz d a s
  | .ctz d a => Sys2Proof.Machine.execCtz d a s
  | .cpop d a => Sys2Proof.Machine.execCpop d a s
  | .rev8 d a => Sys2Proof.Machine.execRev8 d a s
  | .ldl d a size mode u => Sys2Proof.Machine.execLdl d a size mode u s
  | .stl a b size mode => Sys2Proof.Machine.execStl a b size mode s
  | .ldh d a size hint u => Sys2Proof.Machine.execLdh d a size hint u s
  | .sth a b size hint => Sys2Proof.Machine.execSth a b size hint s
  | .amoadd d b a dbl ord scope => Sys2Proof.Machine.execAmoadd d b a dbl ord scope s
  | .amoand d b a dbl ord scope => Sys2Proof.Machine.execAmoand d b a dbl ord scope s
  | .amoor d b a dbl ord scope => Sys2Proof.Machine.execAmoor d b a dbl ord scope s
  | .amoxor d b a dbl ord scope => Sys2Proof.Machine.execAmoxor d b a dbl ord scope s
  | .amomin d b a dbl ord scope => Sys2Proof.Machine.execAmomin d b a dbl ord scope s
  | .amomax d b a dbl ord scope => Sys2Proof.Machine.execAmomax d b a dbl ord scope s
  | .amominu d b a dbl ord scope => Sys2Proof.Machine.execAmominu d b a dbl ord scope s
  | .amomaxu d b a dbl ord scope => Sys2Proof.Machine.execAmomaxu d b a dbl ord scope s
  | .amoswap d b a dbl ord scope => Sys2Proof.Machine.execAmoswap d b a dbl ord scope s
  | .amocas d b a dbl ord scope => Sys2Proof.Machine.execAmocas d b a dbl ord scope s
  | .amodecp d a dbl ord scope => Sys2Proof.Machine.execAmodecp d a dbl ord scope s
  | .amofadd d b a dbl ord scope => Sys2Proof.Machine.execAmofadd d b a dbl ord scope s
  | .fnc scope cls => Sys2Proof.Machine.execFnc scope cls s
  | .ldaq d a dbl scope => Sys2Proof.Machine.execLdaq d a dbl scope s
  | .strl a b dbl scope => Sys2Proof.Machine.execStrl a b dbl scope s
  | .l1wb a b scope => Sys2Proof.Machine.execL1wb a b scope s
  | .l1inv a b scope => Sys2Proof.Machine.execL1inv a b scope s
  | .boinit a b => Sys2Proof.Machine.execBoinit a b s
  | .boexp a b => Sys2Proof.Machine.execBoexp a b s
  | .boarr a b => Sys2Proof.Machine.execBoarr a b s
  | .trecv d a => Sys2Proof.Machine.execTrecv d a s
  | .tresume a => Sys2Proof.Machine.execTresume a s
  | .tkill a => Sys2Proof.Machine.execTkill a s
  | .tstep a => Sys2Proof.Machine.execTstep a s
  | .qmap p ring out num => Sys2Proof.Machine.execQmap p ring out num s
  | .qunmap p => Sys2Proof.Machine.execQunmap p s
  | .qtok p level => Sys2Proof.Machine.execQtok p level s
  | .qpeek d p => Sys2Proof.Machine.execQpeek d p s
  | .qstat d p => Sys2Proof.Machine.execQstat d p s
  | .qbtok p level off => Sys2Proof.Machine.execQbtok p level off s
  | .rwaitf h c => Sys2Proof.Machine.execRwaitf h c s
  | .rwaite h c => Sys2Proof.Machine.execRwaite h c s
  | .radvc h c => Sys2Proof.Machine.execRadvc h c s
  | .radvp h c => Sys2Proof.Machine.execRadvp h c s
  | .rslot d h c => Sys2Proof.Machine.execRslot d h c s
  | .rseq d h => Sys2Proof.Machine.execRseq d h s
  | .send m a b => Sys2Proof.Machine.execSend m a b s
  | .mrecv d m => Sys2Proof.Machine.execMrecv d m s
  | .mtest d m => Sys2Proof.Machine.execMtest d m s
  | .spawn d a aff => Sys2Proof.Machine.execSpawn d a aff s
  | .tret => Sys2Proof.Machine.execTret s
  | .yield => Sys2Proof.Machine.execYield s
  | .waita d a b dbl => Sys2Proof.Machine.execWaita d a b dbl s
  | .notify d a all => Sys2Proof.Machine.execNotify d a all s
  | .bowait a b => Sys2Proof.Machine.execBowait a b s
  | .reduce v tree a => Sys2Proof.Machine.execReduce v tree a s
  | .align id => Sys2Proof.Machine.execAlign id s
  | .ipf a count => Sys2Proof.Machine.execIpf a count s
  | .vadd ty d a b k => Sys2Proof.Machine.execVadd ty d a b k s
  | .vsub ty d a b k => Sys2Proof.Machine.execVsub ty d a b k s
  | .vmul ty d a b k => Sys2Proof.Machine.execVmul ty d a b k s
  | .vma ty d a b k => Sys2Proof.Machine.execVma ty d a b k s
  | .vmin ty d a b k => Sys2Proof.Machine.execVmin ty d a b k s
  | .vmax ty d a b k => Sys2Proof.Machine.execVmax ty d a b k s
  | .vdiv d a b k => Sys2Proof.Machine.execVdiv d a b k s
  | .vsll ty d a b k => Sys2Proof.Machine.execVsll ty d a b k s
  | .vsrl ty d a b k => Sys2Proof.Machine.execVsrl ty d a b k s
  | .vsra ty d a b k => Sys2Proof.Machine.execVsra ty d a b k s
  | .vcmp ty cond kd a b k => Sys2Proof.Machine.execVcmp ty cond kd a b k s
  | .vsel ty d a b ks => Sys2Proof.Machine.execVsel ty d a b ks s
  | .vred ty op d a k => Sys2Proof.Machine.execVred ty op d a k s
  | .vscan ty op d a k => Sys2Proof.Machine.execVscan ty op d a k s
  | .vcvt ty conv src d a => Sys2Proof.Machine.execVcvt ty conv src d a s
  | .vabs ty d a k => Sys2Proof.Machine.execVabs ty d a k s
  | .vneg ty d a k => Sys2Proof.Machine.execVneg ty d a k s
  | .vsqrt d a k => Sys2Proof.Machine.execVsqrt d a k s
  | .vrcp d a k => Sys2Proof.Machine.execVrcp d a k s
  | .vrsqrt d a k => Sys2Proof.Machine.execVrsqrt d a k s
  | .vexp2 d a k => Sys2Proof.Machine.execVexp2 d a k s
  | .vlog2 d a k => Sys2Proof.Machine.execVlog2 d a k s
  | .vsort ty d a k => Sys2Proof.Machine.execVsort ty d a k s
  | .vtrn ty d a k => Sys2Proof.Machine.execVtrn ty d a k s
  | .vcomp ty d a k => Sys2Proof.Machine.execVcomp ty d a k s
  | .vexpd ty d a k => Sys2Proof.Machine.execVexpd ty d a k s
  | .vcvtNarrow nfmt conv wide d a => Sys2Proof.Machine.execVcvtNarrow nfmt conv wide d a s
  | .vqnt nfmt conv wide d a => Sys2Proof.Machine.execVqnt nfmt conv wide d a s
  | .vdq nfmt conv wide d a => Sys2Proof.Machine.execVdq nfmt conv wide d a s
  | .vshape a b => Sys2Proof.Machine.execVshape a b s
  | .vld v a b hint loc => Sys2Proof.Machine.execVld v a b hint loc s
  | .vst v a b hint loc => Sys2Proof.Machine.execVst v a b hint loc s
  | .vldx v a b hint loc => Sys2Proof.Machine.execVldx v a b hint loc s
  | .vstx v a b hint loc => Sys2Proof.Machine.execVstx v a b hint loc s
  | .vbc size d a => Sys2Proof.Machine.execVbc size d a s
  | .vins size d a b => Sys2Proof.Machine.execVins size d a b s
  | .vext size u d a b => Sys2Proof.Machine.execVext size u d a b s
  | .vmv d a k => Sys2Proof.Machine.execVmv d a k s
  | .vand d a b k => Sys2Proof.Machine.execVand d a b k s
  | .vor d a b k => Sys2Proof.Machine.execVor d a b k s
  | .vxor d a b k => Sys2Proof.Machine.execVxor d a b k s
  | .vrot size d a b => Sys2Proof.Machine.execVrot size d a b s
  | .vmatch size d a b => Sys2Proof.Machine.execVmatch size d a b s
  | .kand kd ka kb => Sys2Proof.Machine.execKand kd ka kb s
  | .kor kd ka kb => Sys2Proof.Machine.execKor kd ka kb s
  | .kxor kd ka kb => Sys2Proof.Machine.execKxor kd ka kb s
  | .knot kd ka => Sys2Proof.Machine.execKnot kd ka s
  | .kpop d ka => Sys2Proof.Machine.execKpop d ka s
  | .kfirst d ka => Sys2Proof.Machine.execKfirst d ka s
  | .kmv kd ka => Sys2Proof.Machine.execKmv kd ka s
  | .klen kd a => Sys2Proof.Machine.execKlen kd a s
  | .tcfg a => Sys2Proof.Machine.execTcfg a s
  | .tzero acc => Sys2Proof.Machine.execTzero acc s
  | .twait acc => Sys2Proof.Machine.execTwait acc s
  | .tmma ty ga gb acc a b => Sys2Proof.Machine.execTmma ty ga gb acc a b s
  | .tmmac ty gb acc src b => Sys2Proof.Machine.execTmmac ty gb acc src b s
  | .tlda ty acc a b => Sys2Proof.Machine.execTlda ty acc a b s
  | .tsta ty acc a b => Sys2Proof.Machine.execTsta ty acc a b s
  | .tmov acc src => Sys2Proof.Machine.execTmov acc src s
  | .put d a b rc ntf => Sys2Proof.Machine.execPut d a b rc ntf s
  | .get d a b rc ntf => Sys2Proof.Machine.execGet d a b rc ntf s
  | .putm d a b rc => Sys2Proof.Machine.execPutm d a b rc s
  | .getf d a b rc ntf => Sys2Proof.Machine.execGetf d a b rc ntf s
  | .gath d a b rc => Sys2Proof.Machine.execGath d a b rc s
  | .kscan d a b rc => Sys2Proof.Machine.execKscan d a b rc s
  | .racfg a b => Sys2Proof.Machine.execRacfg a b s
  | .rastart qi qv => Sys2Proof.Machine.execRastart qi qv s
  | .rastat d => Sys2Proof.Machine.execRastat d s
  | .crcfg a => Sys2Proof.Machine.execCrcfg a s
  | .crgo q => Sys2Proof.Machine.execCrgo q s
  | .crstat d => Sys2Proof.Machine.execCrstat d s
  | .pft hint a b => Sys2Proof.Machine.execPft hint a b s
  | .cwb a b => Sys2Proof.Machine.execCwb a b s
  | .cinv a b => Sys2Proof.Machine.execCinv a b s
  | .l1dFill m => Sys2Proof.Machine.execL1dFill m s
  | .mscRequest m => Sys2Proof.Machine.execMscRequest m s
  | .stackReply m => Sys2Proof.Machine.execStackReply m s
  | .writebackAtHome m => Sys2Proof.Machine.execWritebackAtHome m s
  | .writebackAck m => Sys2Proof.Machine.execWritebackAck m s
  | .atomicAtHome m => Sys2Proof.Machine.execAtomicAtHome m s
  | .syncAccessAtHome m => Sys2Proof.Machine.execSyncAccessAtHome m s
  | .waitaAtHome m => Sys2Proof.Machine.execWaitaAtHome m s
  | .notifyAtHome m => Sys2Proof.Machine.execNotifyAtHome m s
  | .fenceProbe m => Sys2Proof.Machine.execFenceProbe m s
  | .echoArrival m => Sys2Proof.Machine.execEchoArrival m s
  | .vaultAccess m => Sys2Proof.Machine.execVaultAccess m s
  | .remoteScratchpadAccess m => Sys2Proof.Machine.execRemoteScratchpadAccess m s
  | .deviceAccess m => Sys2Proof.Machine.execDeviceAccess m s
  | .sendDelivery m => Sys2Proof.Machine.execSendDelivery m s
  | .sendRetry core slot => Sys2Proof.Machine.execSendRetry core slot s
  | .alignTimeout core slot => Sys2Proof.Machine.execAlignTimeout core slot s
  | .yieldExpiry core slot => Sys2Proof.Machine.execYieldExpiry core slot s
  | .ringCellWrite m => Sys2Proof.Machine.execRingCellWrite m s
  | .headMessage m => Sys2Proof.Machine.execHeadMessage m s
  | .ringClaim m => Sys2Proof.Machine.execRingClaim m s
  | .boomReadAhead ring => Sys2Proof.Machine.execBoomReadAhead ring s
  | .lbClone ring core => Sys2Proof.Machine.execLbClone ring core s
  | .lbWithdraw ring => Sys2Proof.Machine.execLbWithdraw ring s
  | .cruiserEmit cluster => Sys2Proof.Machine.execCruiserEmit cluster s
  | .accelLookahead cluster => Sys2Proof.Machine.execAccelLookahead cluster s
  | .accelDeliver cluster => Sys2Proof.Machine.execAccelDeliver cluster s
  | .gatherRequest core cmd elem => Sys2Proof.Machine.execGatherRequest core cmd elem s
  | .gatherLand core cmd => Sys2Proof.Machine.execGatherLand core cmd s
  | .copyPacketLand core cmd pkt => Sys2Proof.Machine.execCopyPacketLand core cmd pkt s
  | .notifyWordWrite core cmd => Sys2Proof.Machine.execNotifyWordWrite core cmd s
  | .scanLine core cmd channel => Sys2Proof.Machine.execScanLine core cmd channel s
  | .scanComplete core cmd => Sys2Proof.Machine.execScanComplete core cmd s
  | .prefetchLine core cmd line => Sys2Proof.Machine.execPrefetchLine core cmd line s
  | .maintenanceLine core cmd line => Sys2Proof.Machine.execMaintenanceLine core cmd line s
  | .tileStep cluster sub => Sys2Proof.Machine.execTileStep cluster sub s
  | .tileStepFault cluster sub => Sys2Proof.Machine.execTileStepFault cluster sub s
  | .vaultRefusal cluster sub => Sys2Proof.Machine.execVaultRefusal cluster sub s
  | .engineFault core cmd => Sys2Proof.Machine.execEngineFault core cmd s
  | .tableWalk core va write => Sys2Proof.Machine.execTableWalk core va write s
  | .speculativeConfirm cluster => Sys2Proof.Machine.execSpeculativeConfirm cluster s
  | .instructionFetchMiss m => Sys2Proof.Machine.execInstructionFetchMiss m s
  | .fetchBlock cluster block => Sys2Proof.Machine.execFetchBlock cluster block s
  | .packetSuspect m die router => Sys2Proof.Machine.execPacketSuspect m die router s
  | .tokenCapture m domain => Sys2Proof.Machine.execTokenCapture m domain s
  | .skidHandover m domain => Sys2Proof.Machine.execSkidHandover m domain s
  | .reduceInput m => Sys2Proof.Machine.execReduceInput m s
  | .routerForward die tree router => Sys2Proof.Machine.execRouterForward die tree router s
  | .redLimit die tree router => Sys2Proof.Machine.execRedLimit die tree router s
  | .rootDelivery die tree => Sys2Proof.Machine.execRootDelivery die tree s
  | .takeEntry ctx => Sys2Proof.Machine.execTakeEntry ctx s
  | .packetToDie ctx => Sys2Proof.Machine.execPacketToDie ctx s
  | .dieSteal thief east => Sys2Proof.Machine.execDieSteal thief east s
  | .dispatch core => Sys2Proof.Machine.execDispatch core s
  | .taskSteal thief victim => Sys2Proof.Machine.execTaskSteal thief victim s
  | .taskMigrate core entry => Sys2Proof.Machine.execTaskMigrate core entry s
  | .graphStart ctx => Sys2Proof.Machine.execGraphStart ctx s
  | .nodeStart ctx graph node => Sys2Proof.Machine.execNodeStart ctx graph node s
  | .launchNodeComplete ctx graph node => Sys2Proof.Machine.execLaunchNodeComplete ctx graph node s
  | .loopPassEnd ctx graph node => Sys2Proof.Machine.execLoopPassEnd ctx graph node s
  | .completionObjectWrite ctx graph node => Sys2Proof.Machine.execCompletionObjectWrite ctx graph node s
  | .preemptRequest ctx => Sys2Proof.Machine.execPreemptRequest ctx s
  | .contextSave ctx => Sys2Proof.Machine.execContextSave ctx s
  | .resumeRequest ctx place => Sys2Proof.Machine.execResumeRequest ctx place s
  | .opaqueSave core => Sys2Proof.Machine.execOpaqueSave core s
  | .kamgorAnswer core repaired => Sys2Proof.Machine.execKamgorAnswer core repaired s
  | .supervisorTrap core => Sys2Proof.Machine.execSupervisorTrap core s
  | .lqtailWrite ctx v => Sys2Proof.Machine.execLqtailWrite ctx v s
  | .lqcfgWrite ctx v => Sys2Proof.Machine.execLqcfgWrite ctx v s
  | .registerWrite r v => Sys2Proof.Machine.execRegisterWrite r v s
  | .create => Sys2Proof.Machine.execCreate s
  | .endCtx => Sys2Proof.Machine.execEndCtx s
  | .map => Sys2Proof.Machine.execMap s
  | .unmap => Sys2Proof.Machine.execUnmap s
  | .windows => Sys2Proof.Machine.execWindows s
  | .tree => Sys2Proof.Machine.execTree s
  | .attest => Sys2Proof.Machine.execAttest s
  | .hostApertureAccess aperture off size write => Sys2Proof.Machine.execHostApertureAccess aperture off size write s
  | .hostRequest m => Sys2Proof.Machine.execHostRequest m s
  | .peerRequest m => Sys2Proof.Machine.execPeerRequest m s
  | .peerLinkFail port => Sys2Proof.Machine.execPeerLinkFail port s
  | .extentRelease extent forced => Sys2Proof.Machine.execExtentRelease extent forced s
  | .accessTableWrite target entry w0 w1 => Sys2Proof.Machine.execAccessTableWrite target entry w0 w1 s
  | .sliceRetire tile dest => Sys2Proof.Machine.execSliceRetire tile dest s
  | .stubForward m => Sys2Proof.Machine.execStubForward m s
  | .hotRowCapture stack row => Sys2Proof.Machine.execHotRowCapture stack row s
  | .captureWindowEnd => Sys2Proof.Machine.execCaptureWindowEnd s
  | .majCopyAtStack m => Sys2Proof.Machine.execMajCopyAtStack m s
  | .majReply m => Sys2Proof.Machine.execMajReply m s
  | .majReadReply m => Sys2Proof.Machine.execMajReadReply m s
  | .stackOffline stack => Sys2Proof.Machine.execStackOffline stack s
  | .stackCatchup stack => Sys2Proof.Machine.execStackCatchup stack s
  | .stackFailed stack => Sys2Proof.Machine.execStackFailed stack s
  | .catchupGranule stack => Sys2Proof.Machine.execCatchupGranule stack s
  | .scrubVisit triple granule => Sys2Proof.Machine.execScrubVisit triple granule s
  | .dfreqTgtWrite die v => Sys2Proof.Machine.execDfreqTgtWrite die v s
  | .pllLock die => Sys2Proof.Machine.execPllLock die s
  | .dfswWrite die v => Sys2Proof.Machine.execDfswWrite die v s
  | .freqSwitch die => Sys2Proof.Machine.execFreqSwitch die s
  | .crossingStallEnd die => Sys2Proof.Machine.execCrossingStallEnd die s
  | .computeDieReset die => Sys2Proof.Machine.execComputeDieReset die s
  | .dieResetRelease die => Sys2Proof.Machine.execDieResetRelease die s
  | .packageReset => Sys2Proof.Machine.execPackageReset s
  | .bootImageCheck image => Sys2Proof.Machine.execBootImageCheck image s
  | .recoveryImage image => Sys2Proof.Machine.execRecoveryImage image s
  | .linkModuleFail link module => Sys2Proof.Machine.execLinkModuleFail link module s
  | .illegalInstruction word => Sys2Proof.Machine.execIllegalInstruction word s
  | .replyToCore m => Sys2Proof.Machine.execReplyToCore m s
  | .memoryError pa correctable copy => Sys2Proof.Machine.execMemoryError pa correctable copy s
  | .peerLinkUp port => Sys2Proof.Machine.execPeerLinkUp port s
  | .extentGrant extent size => Sys2Proof.Machine.execExtentGrant extent size s

end Sys2Proof.Machine
end

