-- ==== Sys2Proof/Machine/Fetch.lean ====
section
/-! DEFINITION. How a program that is loaded from outside comes to stand in front of the fetch port: the
state that `withFetchWord` starts from (assumption 7). -/

namespace Sys2Proof.Machine

/-- A work thread that stands ready at address 0 with a fetched block that begins with a word. -/
def loadedThread (w : BitVec 32) : Thread :=
  { status := .ready, vcount := 32, spsize := 0x80000, rows := 1, rbytes := 512, gens := seedGens 0
    ibuf := some (0, wordBytes w ++ List.replicate 28 0) }

/-- A thread of context 0 ready in slot 0 of core 0, whose stage holds the whole scratchpad, with a word at
its program counter (R8, R23, R346, R351). -/
def State.placeWord (s : State) (w : BitVec 32) : State :=
  let s := s.updCtx 0 fun x => { x with live := true, keyLive := true }
  let stage : StageAlloc := { id := 0, live := 1, vres := (0, 32), spad := (0, 0x80000), qent := 64, rings := 4 }
  let s := s.updCore 0 fun x =>
    { x with ctx := some 0, halting := false, last := 15
             stages := stage :: x.stages.filter fun g => g.id != 0
             slots := x.slots.set 0 (loadedThread w) }
  { s with agenda := [], focus := 0 }

end Sys2Proof.Machine
end

