-- ==== Sys2Proof/Machine/Step.lean ====
section
/-! DEFINITION. One step of the machine. The input `agenda` names the next step of the device; when it is
empty, the focus core's next die cycle is taken. -/

namespace Sys2Proof.Machine

/-- A word issues: the instruction it decodes to; a word that decodes to no form is an illegal instruction
(R74). Earlier loads that are still outstanding keep their place before it (R87). -/
def issueWord (w : BitVec 32) (s : State) : Result :=
  match decode w with
  | .ok i => s.concluded (registerOnly i) (exec i s)
  | .error _ => s.concluded false (execIllegalInstruction w s)

/-- A core tries the threads in the order of its rotation until one issues: one that turns out to wait for an operand or
for the line of its second word was not ready (R27, R28). -/
def tryIssue (c : CoreId) : Nat → State → Result
  | 0, s => .next s
  | n + 1, s =>
    match s.chosen c with
    | none => .next s
    | some (w, t) =>
      match issueWord w t with
      | .next u => if u.notReady c t.issuer.2 then tryIssue c n (s.passedOver u c) else .next u
      | r => r

/-- A core issues from the first ready thread after the last one that issued, if there is one (R28). Threads that the
supervisor has stopped leave first, when nothing keeps them (R316). -/
def issueFrom (s : State) (c : CoreId) : Result := tryIssue c 16 (s.endKills c)

/-- Take one input. -/
def act (s : State) (a : Action) : Result :=
  match a with
  | .issue c => issueFrom s c
  | .event e => if isEvent e then exec e s else .next s
  | .cycle d => .next (s.cycleDue d)
  | .time n => .next (s.pass n)
  | .timer d n slower => .next (s.correctTimer d n slower)
  | .hostStore a b => .next { s with hostMem := s.hostMem.write a b }
  | .fetch cl => .next (s.serveFetch cl)
  | .evict c line => .next (s.evictAny c line)
  | .tileAhead cl sub place st a n glob => .next (s.tileAhead cl sub place st a n glob)
  | .farAccess p ctx va req => .next (s.farAccess p ctx va.toNat req)

/-- One step. -/
def step (s : State) : Result :=
  match s.agenda with
  | [] => issueFrom s.cycleStart s.focus
  | a :: rest => act { s with agenda := rest } a

/-- The state with an instruction placed where the next step issues from: context 0 is live, a work thread
of it stands ready in slot 0 of core 0 with the word fetched at its program counter. -/
def State.withFetchWord (s : State) (nbits w : Nat) : State := s.placeWord (BitVec.ofNat 32 (w % 2 ^ nbits))

end Sys2Proof.Machine
end

