-- ==== Sys2Proof/Safety.lean ====
section
/-! DEFINITION. What counts as a safe run, and the terms that claims use. No step of a safe run ends in a fault
or a refusal; a trap is no such end: it is a next state (R304). -/

namespace Sys2Proof

open Sys2Proof.Machine

/-- The step answers a next state. -/
def goesOn (s : State) : Prop := ∃ t, step s = .next t

/-- The first `n` steps answer next states. -/
def safeFor : Nat → State → Prop
  | 0, _ => True
  | n + 1, s => ∃ t, step s = .next t ∧ safeFor n t

end Sys2Proof

namespace Sys2Proof.Machine

/-! ## The issuing thread -/

/-- An integer register of the issuing thread. -/
def State.x (s : State) (r : Reg) : Word := s.me.getX r

/-- An integer register is plain: no port is bound to it (R49) and its value has arrived (R27). -/
def Thread.plain (t : Thread) (r : Reg) : Prop := t.binding r = none ∧ (r = 0 ∨ t.xpend.getLsbD r.toNat = false)

/-- Registers of the issuing thread that are plain. -/
def State.plain (s : State) (rs : List Reg) : Prop := ∀ r ∈ rs, s.me.plain r

/-- The vector registers named have arrived (R27). -/
def State.vplain (s : State) (rs : List Reg) : Prop := ∀ r ∈ rs, s.me.vpend.getLsbD r.toNat = false

/-- The issuing thread begins its instruction: nothing of it has been sent or received. -/
def State.begins (s : State) : Prop :=
  s.me.prog.stage = 0 ∧ s.me.prog.msgs = [] ∧ s.me.prog.data = none ∧ s.me.prog.got = [] ∧ s.me.prog.taken = [] ∧
    s.me.prog.probed = 0

/-- The issuing thread's instruction is at a later stage of its run: what it asked for has been answered. -/
def State.atStage (s : State) (n : Nat) (ids : List Nat) : State :=
  s.updMe fun t => { t with prog := { t.prog with stage := n, msgs := ids } }

/-- An operation of a meaning completes and leaves a state. -/
def does {α : Type} (m : M α) (s : State) (a : α) (t : State) : Prop := m s = .ok (a, t)

/-- What a source register gives: its value once that has arrived, or the `k`-th data entry from the head of the
queue or ring that a port register is bound to, unless the ring holds them for a thread that parked earlier, or the
unread claimed cell of a replica (R27, R32, R49, R51). -/
def State.given (s : State) (r : Reg) (k : Nat) : Option Word :=
  match s.me.binding r with
  | none => if r = 0 ∨ s.me.xpend.getLsbD r.toNat = false then some (s.x r) else none
  | some b =>
    if b.out then none
    else if b.ring then
      match s.ring b.obj, s.me.claim b.obj with
      | none, _ => none
      | some _, some c => if !c.readUsed && k == 0 && c.kind == .data then some (cellVal c.cell) else none
      | some r, none =>
        if 1 < s.myStage.repl || s.ringHeld r then none
        else (s.headEntries r (k + 1)).bind fun l =>
          let cell := (l.getD k (0, [])).2
          if cellKind cell = .data then some (cellVal cell) else none
    else (s.here.queue b.obj).bind fun q => (q.entries[k]?).bind fun e => if e.kind = .data then some e.val else none

/-- The one source register gives a value. -/
def State.reads1 (s : State) (a : Reg) (x : Word) : Prop := s.given a 0 = some x

/-- The two source registers give values, rs1 before rs2: a port named twice gives two entries (R77). -/
def State.reads2 (s : State) (a b : Reg) (x y : Word) : Prop :=
  s.given a 0 = some x ∧ s.given b (if a = b then 1 else 0) = some y

/-- The state after the entries that source ports gave have been taken (R49). -/
def State.took (s : State) (srcs : List Reg) : State := srcs.foldl State.dequeue s

/-- rd may be written: it is an arrived register, or an out-bound port (R27, R49). -/
def State.writable (s : State) (d : Reg) : Prop :=
  match s.me.binding d with
  | none => d = 0 ∨ s.me.xpend.getLsbD d.toNat = false
  | some b => b.out = true

/-- A value written to rd: into the register, or as an entry at the tail of the queue that an out-bound port is
bound to, when it has room and the thread's local stores elsewhere are performed (R49, R238). A port bound to a
ring is none of these. -/
def State.put (s : State) (d : Reg) (v : Word) : Option State :=
  match s.me.binding d with
  | none => some (s.updMe fun t => t.setX d v)
  | some b =>
    if b.ring || s.localStoresOut s.issuer.1 s.issuer.2 then none
    else (s.here.queue b.obj).bind fun q =>
      if q.entries.length < q.depth then
        some (s.updHere fun x => x.updQueue b.obj fun q => { q with entries := q.entries ++ [{ val := v, kind := .data }] })
      else none

/-- The state after the issuing thread has written `v` to rd and completed its instruction. -/
def State.wrote (s : State) (d : Reg) (v : Word) : State := (s.updMe fun t => t.setX d v).retire

/-- The address of the issuing thread's instruction word; under `rep` it is the one after the prefix (R185). -/
def State.wordPc (s : State) : Word := s.me.pc + if s.me.inRep then 4 else 0

/-! ## The integer forms, as the spec's tables give them (R78, R79, R94, R95) -/

/-- What an integer form computes: its destination, its sources, and the result from rd's old value and the values
of the sources (the second is 0 in a form with one source). -/
structure IntForm where
  d : Reg
  srcs : List Reg
  f : Word → Word → Word → Word

/-- A form with one source register. -/
def intForm1 (d a : Reg) (f : Word → Word) : IntForm := { d := d, srcs := [a], f := fun _ x _ => f x }

/-- A form with two source registers. -/
def intForm2 (d a b : Reg) (f : Word → Word → Word) : IntForm := { d := d, srcs := [a, b], f := fun _ x y => f x y }

/-- A form on the low 32 bits, its result widened by sign (R78). -/
def intFormW (d a b : Reg) (f : BitVec 32 → BitVec 32 → BitVec 32) : IntForm :=
  intForm2 d a b fun x y => (f (x.extractLsb' 0 32) (y.extractLsb' 0 32)).signExtend 64

/-- One for true, zero for false. -/
def bitWord (p : Prop) [Decidable p] : Word := if p then 1 else 0

/-- A mask of the low `w` bits. -/
def lowMask (w : Nat) : Word := (1#64 <<< w) - 1

/-- Width of the field that a descriptor names, clipped at bit 63; 0 names none (R94). -/
def descWidth (y : Word) : Nat :=
  let off := (y.extractLsb' 0 7).toNat
  let w := (y.extractLsb' 8 7).toNat
  if 64 ≤ off then 0 else min w (64 - off)

/-- The integer forms with register or immediate operands and an integer result. -/
def intForm : Instr → Option IntForm
  | .addi d a imm => some (intForm1 d a fun x => x + imm.signExtend 64)
  | .slti d a imm => some (intForm1 d a fun x => bitWord (x.toInt < (imm.signExtend 64).toInt))
  | .sltiu d a imm => some (intForm1 d a fun x => bitWord (x.toNat < (imm.signExtend 64).toNat))
  | .xori d a imm => some (intForm1 d a fun x => x ^^^ imm.signExtend 64)
  | .ori d a imm => some (intForm1 d a fun x => x ||| imm.signExtend 64)
  | .andi d a imm => some (intForm1 d a fun x => x &&& imm.signExtend 64)
  | .slli d a sh => some (intForm1 d a fun x => x <<< sh.toNat)
  | .srli d a sh => some (intForm1 d a fun x => x >>> sh.toNat)
  | .srai d a sh => some (intForm1 d a fun x => x.sshiftRight sh.toNat)
  | .addiw d a imm => some (intForm1 d a fun x => (x.extractLsb' 0 32 + imm.signExtend 32).signExtend 64)
  | .slliw d a sh => some (intForm1 d a fun x => (x.extractLsb' 0 32 <<< sh.toNat).signExtend 64)
  | .srliw d a sh => some (intForm1 d a fun x => (x.extractLsb' 0 32 >>> sh.toNat).signExtend 64)
  | .sraiw d a sh => some (intForm1 d a fun x => ((x.extractLsb' 0 32).sshiftRight sh.toNat).signExtend 64)
  | .add d a b => some (intForm2 d a b fun x y => x + y)
  | .sub d a b => some (intForm2 d a b fun x y => x - y)
  | .sll d a b => some (intForm2 d a b fun x y => x <<< (y.toNat % 64))
  | .srl d a b => some (intForm2 d a b fun x y => x >>> (y.toNat % 64))
  | .sra d a b => some (intForm2 d a b fun x y => x.sshiftRight (y.toNat % 64))
  | .slt d a b => some (intForm2 d a b fun x y => bitWord (x.toInt < y.toInt))
  | .sltu d a b => some (intForm2 d a b fun x y => bitWord (x.toNat < y.toNat))
  | .xor d a b => some (intForm2 d a b fun x y => x ^^^ y)
  | .or d a b => some (intForm2 d a b fun x y => x ||| y)
  | .and d a b => some (intForm2 d a b fun x y => x &&& y)
  | .addw d a b => some (intFormW d a b fun x y => x + y)
  | .subw d a b => some (intFormW d a b fun x y => x - y)
  | .sllw d a b => some (intFormW d a b fun x y => x <<< (y.toNat % 32))
  | .srlw d a b => some (intFormW d a b fun x y => x >>> (y.toNat % 32))
  | .sraw d a b => some (intFormW d a b fun x y => x.sshiftRight (y.toNat % 32))
  | .mul d a b => some (intForm2 d a b fun x y => x * y)
  | .mulh d a b => some (intForm2 d a b fun x y => (x.signExtend 128 * y.signExtend 128).extractLsb' 64 64)
  | .mulhsu d a b => some (intForm2 d a b fun x y => (x.signExtend 128 * y.zeroExtend 128).extractLsb' 64 64)
  | .mulhu d a b => some (intForm2 d a b fun x y => (x.zeroExtend 128 * y.zeroExtend 128).extractLsb' 64 64)
  | .mulw d a b => some (intFormW d a b fun x y => x * y)
  | .div d a b => some (intForm2 d a b fun x y => if y = 0 then -1 else x.sdiv y)
  | .divu d a b => some (intForm2 d a b fun x y => if y = 0 then -1 else x / y)
  | .rem d a b => some (intForm2 d a b fun x y => if y = 0 then x else x.srem y)
  | .remu d a b => some (intForm2 d a b fun x y => if y = 0 then x else x % y)
  | .divw d a b => some (intFormW d a b fun x y => if y = 0 then -1 else x.sdiv y)
  | .divuw d a b => some (intFormW d a b fun x y => if y = 0 then -1 else x / y)
  | .remw d a b => some (intFormW d a b fun x y => if y = 0 then x else x.srem y)
  | .remuw d a b => some (intFormW d a b fun x y => if y = 0 then x else x % y)
  | .bfx d a b => some (intForm2 d a b fun x y =>
      let w := descWidth y
      if w = 0 then 0 else ((x >>> (y.toNat % 128)) <<< (64 - w)).sshiftRight (64 - w))
  | .bfxu d a b => some (intForm2 d a b fun x y => (x >>> (y.toNat % 128)) &&& lowMask (descWidth y))
  | .bfi d a b => some
      { d := d, srcs := [a, b]
        f := fun old x y =>
          let m := lowMask (descWidth y)
          (old &&& ~~~(m <<< (y.toNat % 128))) ||| ((x &&& m) <<< (y.toNat % 128)) }
  | .clz d a => some (intForm1 d a fun x => BitVec.ofNat 64 (if x = 0 then 64 else 63 - Nat.log2 x.toNat))
  | .ctz d a => some (intForm1 d a fun x =>
      BitVec.ofNat 64 (((List.range 64).find? fun i => x.getLsbD i).getD 64))
  | .cpop d a => some (intForm1 d a fun x => BitVec.ofNat 64 (((List.range 64).filter fun i => x.getLsbD i).length))
  | .rev8 d a => some (intForm1 d a fun x =>
      x.extractLsb' 0 8 ++ x.extractLsb' 8 8 ++ x.extractLsb' 16 8 ++ x.extractLsb' 24 8 ++ x.extractLsb' 32 8
        ++ x.extractLsb' 40 8 ++ x.extractLsb' 48 8 ++ x.extractLsb' 56 8)
  | _ => none

/-- The sources of an integer form give values. -/
def State.readsForm (s : State) (F : IntForm) (x y : Word) : Prop :=
  match F.srcs with
  | [a] => s.reads1 a x
  | [a, b] => s.reads2 a b x y
  | _ => False

/-! ## The branch, load and store forms (R81, R82, R96 to R98) -/

/-- A branch: its registers, its offset field, and when it is taken. -/
def branchForm : Instr → Option (Reg × Reg × BitVec 12 × (Word → Word → Bool))
  | .beq a b off => some (a, b, off, fun x y => x == y)
  | .bne a b off => some (a, b, off, fun x y => x != y)
  | .blt a b off => some (a, b, off, fun x y => decide (x.toInt < y.toInt))
  | .bge a b off => some (a, b, off, fun x y => decide (y.toInt ≤ x.toInt))
  | .bltu a b off => some (a, b, off, fun x y => decide (x.toNat < y.toNat))
  | .bgeu a b off => some (a, b, off, fun x y => decide (y.toNat ≤ x.toNat))
  | _ => none

/-- A scalar load or store of the global space: data register, address register, offset, bytes, sign extension of a
load, and the hint of the encoding (`none`: the thread's HINT). -/
structure MemForm where
  r : Reg
  a : Reg
  off : Word
  size : Nat
  signed : Bool := false
  hint : Option Hint := none

/-- The loads. -/
def loadForm : Instr → Option MemForm
  | .lb d a imm => some { r := d, a := a, off := imm.signExtend 64, size := 1, signed := true }
  | .lh d a imm => some { r := d, a := a, off := imm.signExtend 64, size := 2, signed := true }
  | .lw d a imm => some { r := d, a := a, off := imm.signExtend 64, size := 4, signed := true }
  | .ld d a imm => some { r := d, a := a, off := imm.signExtend 64, size := 8, signed := true }
  | .lbu d a imm => some { r := d, a := a, off := imm.signExtend 64, size := 1 }
  | .lhu d a imm => some { r := d, a := a, off := imm.signExtend 64, size := 2 }
  | .lwu d a imm => some { r := d, a := a, off := imm.signExtend 64, size := 4 }
  | .ldh d a size hint u =>
    some { r := d, a := a, off := 0, size := MemSize.bytes size, signed := !u, hint := some hint }
  | _ => none

/-- The stores. -/
def storeForm : Instr → Option MemForm
  | .sb a b imm => some { r := b, a := a, off := imm.signExtend 64, size := 1 }
  | .sh a b imm => some { r := b, a := a, off := imm.signExtend 64, size := 2 }
  | .sw a b imm => some { r := b, a := a, off := imm.signExtend 64, size := 4 }
  | .sd a b imm => some { r := b, a := a, off := imm.signExtend 64, size := 8 }
  | .sth a b size hint => some { r := b, a := a, off := 0, size := MemSize.bytes size, hint := some hint }
  | _ => none

/-- The hint of an access (R93, R98). -/
def MemForm.hintOf (F : MemForm) (s : State) : Hint := F.hint.getD s.me.hint

/-- A loaded value widened to a register (R82). -/
def loadedWord (signed : Bool) (b : List Byte) : Word :=
  let v : BitVec 64 := BitVec.ofNat 64 (ofLe b)
  let n := 64 - 8 * b.length
  if signed then (v <<< n).sshiftRight n else v

/-- The access translates to a page, with the translations that it brings into the TLB (R106, R307). -/
def State.maps (s : State) (va : Nat) (rd wr : Bool) (m : Mapped) (s' : State) : Prop :=
  mapGlobal va rd wr false s = .ok (m, s')

/-! ## The atomics (R137) -/

/-- An atomic: operation, rd, the value register, the address register (x16 to x31), size, ordering and scope. -/
structure AmoForm where
  op : AmoOp
  rd : BitVec 4
  val : Option (BitVec 4)
  addr : BitVec 4
  dbl : Bool
  ord : AmoOrd
  scope : AmoScope

/-- The twelve atomics. -/
def atomicForm : Instr → Option AmoForm
  | .amoadd d b a dbl ord sc => some ⟨.add, d, some b, a, dbl, ord, sc⟩
  | .amoand d b a dbl ord sc => some ⟨.and, d, some b, a, dbl, ord, sc⟩
  | .amoor d b a dbl ord sc => some ⟨.or, d, some b, a, dbl, ord, sc⟩
  | .amoxor d b a dbl ord sc => some ⟨.xor, d, some b, a, dbl, ord, sc⟩
  | .amomin d b a dbl ord sc => some ⟨.min, d, some b, a, dbl, ord, sc⟩
  | .amomax d b a dbl ord sc => some ⟨.max, d, some b, a, dbl, ord, sc⟩
  | .amominu d b a dbl ord sc => some ⟨.minu, d, some b, a, dbl, ord, sc⟩
  | .amomaxu d b a dbl ord sc => some ⟨.maxu, d, some b, a, dbl, ord, sc⟩
  | .amoswap d b a dbl ord sc => some ⟨.swap, d, some b, a, dbl, ord, sc⟩
  | .amocas d b a dbl ord sc => some ⟨.cas, d, some b, a, dbl, ord, sc⟩
  | .amodecp d a dbl ord sc => some ⟨.decp, d, none, a, dbl, ord, sc⟩
  | .amofadd d b a dbl ord sc => some ⟨.fadd, d, some b, a, dbl, ord, sc⟩
  | _ => none

/-- The address register of an atomic. -/
def AmoForm.a (F : AmoForm) : Reg := F.addr.setWidth 5 + 16

/-- The result register of an atomic. -/
def AmoForm.d (F : AmoForm) : Reg := F.rd.setWidth 5

/-- The value register of an atomic; x0 stands for none. -/
def AmoForm.b (F : AmoForm) : Reg := (F.val.getD 0).setWidth 5

/-- The integer registers of the forms that look at all their registers before anything else: sources, destination,
and whether rd is read too (R27, R77). -/
def readsFirst (i : Instr) : Option (List Reg × Option Reg × Bool) :=
  match i with
  | .bfi d a b => some ([a, b], some d, true)
  | .lui d _ => some ([], some d, false)
  | .auipc d _ => some ([], some d, false)
  | .jal d _ => some ([], some d, false)
  | .jalr d a _ => some ([a], some d, false)
  | .beq a b _ => some ([a, b], none, false)
  | .bne a b _ => some ([a, b], none, false)
  | .blt a b _ => some ([a, b], none, false)
  | .bge a b _ => some ([a, b], none, false)
  | .bltu a b _ => some ([a, b], none, false)
  | .bgeu a b _ => some ([a, b], none, false)
  | .lb d a _ => some ([a], some d, false)
  | .lh d a _ => some ([a], some d, false)
  | .lw d a _ => some ([a], some d, false)
  | .ld d a _ => some ([a], some d, false)
  | .lbu d a _ => some ([a], some d, false)
  | .lhu d a _ => some ([a], some d, false)
  | .lwu d a _ => some ([a], some d, false)
  | .ldh d a _ _ _ => some ([a], some d, false)
  | .ldl d a _ _ _ => some ([a], some d, false)
  | .sb a b _ => some ([a, b], none, false)
  | .sh a b _ => some ([a, b], none, false)
  | .sw a b _ => some ([a, b], none, false)
  | .sd a b _ => some ([a, b], none, false)
  | .sth a b _ _ => some ([a, b], none, false)
  | .stl a b _ _ => some ([a, b], none, false)
  | .strl a b _ _ => some ([a, b], none, false)
  | .l1wb a b _ => some ([a, b], none, false)
  | .l1inv a b _ => some ([a, b], none, false)
  | .boinit a b => some ([a, b], none, false)
  | .boexp a b => some ([a, b], none, false)
  | .boarr a b => some ([a, b], none, false)
  | .bowait a b => some ([a, b], none, false)
  | .waita d a b _ => some ([a, b], some d, false)
  | .send _ a b => some ([a, b], none, false)
  | .mrecv d _ => some ([], some d, false)
  | .mtest d _ => some ([], some d, false)
  | .spawn d a _ => some ([a], some d, false)
  | .ipf a _ => some ([a], none, false)
  | .reduce _ _ a => some ([a], none, false)
  | .vshape a b => some ([a, b], none, false)
  | .vld _ a b _ _ => some ([a, b], none, false)
  | .vst _ a b _ _ => some ([a, b], none, false)
  | .vldx _ a _ _ _ => some ([a], none, false)
  | .vstx _ a _ _ _ => some ([a], none, false)
  | .kpop d _ => some ([], some d, false)
  | .kfirst d _ => some ([], some d, false)
  | .klen _ a => some ([a], none, false)
  | .tcfg a => some ([a], none, false)
  | .tmma _ _ _ _ a b => some ([a, b], none, false)
  | .tmmac _ _ _ _ b => some ([b], none, false)
  | .tlda _ _ a b => some ([a, b], none, false)
  | .tsta _ _ a b => some ([a, b], none, false)
  | .racfg a b => some ([a, b], none, false)
  | .rastat d => some ([], some d, false)
  | .crcfg a => some ([a], none, false)
  | .crstat d => some ([], some d, false)
  | .pft _ a b => some ([a, b], none, false)
  | .cwb a b => some ([a, b], none, false)
  | .cinv a b => some ([a, b], none, false)
  | i => (intForm i).map fun F => (F.srcs, some F.d, false)

/-! ## What stays -/

/-- Everything outside the cores stays: memory, slices, units, contexts and messages. -/
def State.sameOutside (s t : State) : Prop :=
  { t with cores := s.cores } = s

/-- Every other core, and on the issuing core everything but the thread slots and the trap queue, stays. -/
def State.sameCores (s t : State) : Prop :=
  (∀ c, c ≠ s.issuer.1 → t.core c = s.core c) ∧
  { t.here with slots := s.here.slots, trapq := s.here.trapq, trapHigh := s.here.trapHigh, posts := s.here.posts
                kamgor := s.here.kamgor } = s.here ∧
  ∀ k, k ≠ s.issuer.2 → t.thread s.issuer.1 k = s.thread s.issuer.1 k

/-- Of the issuing thread everything stays but an integer register, the program counter, the count of
instructions and of repetitions, and the marks of issue. -/
def Thread.sameBut (d : Reg) (t u : Thread) : Prop :=
  (∀ r, r ≠ d → u.getX r = t.getX r) ∧ u.getX 0 = 0 ∧
  { u with x := t.x, pc := t.pc, instret := t.instret, repcnt := t.repcnt, status := t.status, prog := t.prog
           inRep := t.inRep, stepping := t.stepping } = t

/-- Of a thread everything stays but the program counter, the count of instructions and of repetitions, and the marks of
issue: its registers of every kind, the control registers among them, its bindings, claims, loads and configurations. -/
def Thread.sameRest (t u : Thread) : Prop :=
  { u with pc := t.pc, instret := t.instret, repcnt := t.repcnt, status := t.status, prog := t.prog, inRep := t.inRep
           stepping := t.stepping } = t

/-- A core's trap queue with a record posted now: records of one die cycle stand in ascending slot, then ENGINE; else the
record is the last (R304). -/
def State.trapqWith (s : State) (c : CoreId) (r : TrapRecord) : List TrapRecord := ((s.core c).postAt (s.cycleOf c) r).trapq

/-- The frame of an instruction that writes one integer register: storage, every other thread and every other
register stay. -/
def State.frame (s t : State) (d : Reg) : Prop :=
  State.sameOutside s t ∧ State.sameCores s t ∧ Thread.sameBut d s.me t.me

/-! ## The governed vector forms (R195 to R197) -/

/-- A vector form under a governing mask: element bits, destination, sources, mask, and the result of an element from
the source elements and the destination's old one (R184, R189). -/
structure VecForm where
  w : Nat
  d : Reg
  srcs : List Reg
  k : BitVec 3
  f : List Nat → Nat → Nat

/-- The result of an element of a type: a floating value rounded once, to nearest even, or an integer modulo 2^w. -/
def vecElem (ty : VType) (fl : FloatSpec → Num) (int : Nat → Nat) : Nat :=
  match floatSpec (Sys2Proof.VType.fmt ty) with
  | some F => F.ofNum .rne 0 (fl F)
  | none => int (VType.bits ty) % 2 ^ VType.bits ty

/-- A typed form with two sources. -/
def vecForm2 (ty : VType) (d a b : Reg) (k : BitVec 3) (fl : Num → Num → Num) (int : Nat → Nat → Nat → Nat) : VecForm :=
  { w := VType.bits ty, d := d, srcs := [a, b], k := k
    f := fun l _ => vecElem ty (fun F => fl (F.value (l.getD 0 0)) (F.value (l.getD 1 0)))
      fun w => int w (l.getD 0 0) (l.getD 1 0) }

/-- A typed form with one source. -/
def vecForm1 (ty : VType) (d a : Reg) (k : BitVec 3) (fl : Num → Num) (int : Nat → Nat → Nat) : VecForm :=
  { w := VType.bits ty, d := d, srcs := [a], k := k
    f := fun l _ => vecElem ty (fun F => fl (F.value (l.getD 0 0))) fun w => int w (l.getD 0 0) }

/-- An untyped form on 4-byte elements. -/
def vecFormBits (d : Reg) (srcs : List Reg) (k : BitVec 3) (f : List Nat → Nat) : VecForm :=
  { w := 32, d := d, srcs := srcs, k := k, f := fun l _ => f l }

/-- A shift: the element and the low bits of the other, by the element's width. -/
def vecShift (ty : VType) (d a b : Reg) (k : BitVec 3) (f : Nat → Nat → Nat → Nat) : VecForm :=
  { w := VType.bits ty, d := d, srcs := [a, b], k := k
    f := fun l _ => f (VType.bits ty) (l.getD 0 0) (l.getD 1 0 % VType.bits ty) }

/-- The vector arithmetic, logic, shifts and the move. -/
def vecForm : Instr → Option VecForm
  | .vadd ty d a b k => some (vecForm2 ty d a b k Num.add fun _ x y => x + y)
  | .vsub ty d a b k => some (vecForm2 ty d a b k (fun x y => x.add y.neg) fun w x y => x + (2 ^ w - y))
  | .vmul ty d a b k => some (vecForm2 ty d a b k Num.mul fun _ x y => x * y)
  | .vma ty d a b k =>
    let r : List Nat → Nat → Nat := fun l z =>
      vecElem ty (fun F => ((F.value (l.getD 0 0)).mul (F.value (l.getD 1 0))).add (F.value z))
        fun _ => l.getD 0 0 * l.getD 1 0 + z
    some { w := VType.bits ty, d := d, srcs := [a, b], k := k, f := r }
  | .vmin ty d a b k => some (vecForm2 ty d a b k (numPick true) fun w x y => if toSigned w x ≤ toSigned w y then x else y)
  | .vmax ty d a b k => some (vecForm2 ty d a b k (numPick false) fun w x y => if toSigned w x ≤ toSigned w y then y else x)
  | .vdiv d a b k => some (vecForm2 .f32 d a b k Num.div fun _ _ _ => 0)
  | .vsll ty d a b k => some (vecShift ty d a b k fun w x n => x * 2 ^ n % 2 ^ w)
  | .vsrl ty d a b k => some (vecShift ty d a b k fun _ x n => x / 2 ^ n)
  | .vsra ty d a b k => some (vecShift ty d a b k fun w x n => (toSigned w x / 2 ^ n % 2 ^ w).toNat)
  | .vabs ty d a k => some (vecForm1 ty d a k Num.abs fun w x => if x < 2 ^ (w - 1) then x else 2 ^ w - x)
  | .vneg ty d a k => some (vecForm1 ty d a k Num.neg fun w x => 2 ^ w - x)
  | .vsqrt d a k => some (vecForm1 .f32 d a k Num.sqrt fun _ _ => 0)
  | .vrcp d a k => some (vecForm1 .f32 d a k (fun x => Num.div (.fin false 1 0) x) fun _ _ => 0)
  | .vrsqrt d a k => some (vecForm1 .f32 d a k Num.rsqrt fun _ _ => 0)
  | .vexp2 d a k => some (vecForm1 .f32 d a k Num.exp2 fun _ _ => 0)
  | .vlog2 d a k => some (vecForm1 .f32 d a k Num.log2 fun _ _ => 0)
  | .vmv d a k => some (vecFormBits d [a] k fun l => l.getD 0 0)
  | .vand d a b k => some (vecFormBits d [a, b] k fun l => l.getD 0 0 &&& l.getD 1 0)
  | .vor d a b k => some (vecFormBits d [a, b] k fun l => l.getD 0 0 ||| l.getD 1 0)
  | .vxor d a b k => some (vecFormBits d [a, b] k fun l => l.getD 0 0 ^^^ l.getD 1 0)
  | _ => none

/-- The operands of a vector instruction with `n` elements are legal (R183). -/
def State.vLegal (s : State) (n : Nat) (dst : Option VOp) (srcs : List VOp) : Prop :=
  (∀ p ∈ dst.toList ++ srcs, s.me.groupOk p.1 (spanOf n p.2) = true) ∧
  ∀ d ∈ dst, ∀ p ∈ srcs, groupsMeet d.1 (spanOf n d.2) p.1 (spanOf n p.2) = false

/-- The tests of an instruction's vector groups, tile types and accumulators, which come before its integer registers are
looked at, pass (R74, R183, R264, R272). -/
def State.formOk (s : State) : Instr → Prop
  | .vld v _ _ _ _ => s.vLegal 1 (some (v, 32)) []
  | .vst v _ _ _ _ => s.vLegal 1 (some (v, 32)) []
  | .vldx v _ b _ _ => s.vLegal 1 (some (v, 32)) [(b, 32)]
  | .vstx v _ b _ _ => s.vLegal 1 none [(v, 32), (b, 32)]
  | .tmma ty _ _ acc _ _ => ∃ r, does (tmmaForm ty acc) s r s
  | .tmmac ty _ acc src _ => ∃ r, does (tmmacForm ty acc src) s r s
  | .tlda ty acc _ _ => ∃ t m, does (moveType ty) s t s ∧ does (tileMode acc.toNat []) s m s
  | .tsta ty acc _ _ => ∃ t m, does (moveType ty) s t s ∧ does (tileMode acc.toNat []) s m s
  | _ => True

/-- The operands have arrived (R27). -/
def State.vReady (s : State) (n : Nat) (ops : List VOp) : Prop :=
  ∀ p ∈ ops, s.vplain (groupRegs p.1 (spanOf n p.2))

/-- The operands are legal and have arrived. -/
def State.vOk (s : State) (n : Nat) (dst : Option VOp) (srcs : List VOp) : Prop :=
  s.vLegal n dst srcs ∧ s.vReady n (dst.toList ++ srcs)

/-- Element `j` of `w` bits of a vector register of the issuing thread. -/
def State.vElem (s : State) (r : Reg) (w j : Nat) : Nat := elemAt (s.me.getV r).toNat w j

/-- The state after the issuing thread has written elements of a group and completed (R182). -/
def State.vWrote (s : State) (n : Nat) (p : VOp) (f : Nat → Option Nat) : State :=
  (s.updMe fun t => t.vPut n p f).retire

/-- The condition of a compare holds (R198). -/
def condHolds (ty : VType) (c : Cond) (x y : Nat) : Bool :=
  match floatSpec (Sys2Proof.VType.fmt ty) with
  | some F =>
    let a := F.value x
    let b := F.value y
    let nan := a = .nan ∨ b = .nan
    match c with
    | .eq => !nan && Num.same a b
    | .ne => nan || !Num.same a b
    | .lt => !nan && !Num.same a b && Num.order a b == -1
    | .le => !nan && (Num.same a b || Num.order a b == -1)
  | none =>
    let a := toSigned (VType.bits ty) x
    let b := toSigned (VType.bits ty) y
    match c with
    | .eq => a = b
    | .ne => a ≠ b
    | .lt => a < b
    | .le => a ≤ b

/-! ## The tile unit and the engines -/

/-- The source registers give values, in order; a port named again gives the next entry (R77, R279). -/
def State.readsAll (s : State) (rs : List Reg) (vs : List Word) : Prop :=
  vs.length = rs.length ∧ ∀ i r, rs[i]? = some r → s.given r ((rs.take i).count r) = vs[i]?

/-- An operation may enter the queues of the sub-arrays that hold an output tile: the thread's stores elsewhere in the
local space are performed (R279), the die's crossings pass traffic (R365), each queue has room, and no thread of the
cluster has waited longer for one (R265, R275). -/
def State.tileRoom (s : State) (m : TileMode) (acc : Nat) : Prop :=
  s.localStoresOut s.issuer.1 s.issuer.2 = false ∧ s.stalled s.issuer.1 = false ∧
  (∀ i ∈ tileSubs m acc, (s.myUnit.tile.get i).queue.length < 8) ∧
  s.firstOfCluster s.issuer.1 s.issuer.2 (fun b => match b with
    | .tileFull n => n &&& subMask (tileSubs m acc) != 0
    | _ => false) = true

/-- The state `t` is `s` with an operation at the tail of the queues of its sub-arrays, under a new identity. -/
def State.queued (s t : State) (op : TileOp) : Prop :=
  ∃ id, (∀ i, t.myUnit.tile.get i =
      if i ∈ tileSubs op.mode op.acc.val then
        { s.myUnit.tile.get i with queue := (s.myUnit.tile.get i).queue ++ [{ op with id := id }] }
      else s.myUnit.tile.get i) ∧
    { t with clusters := s.clusters, nextId := s.nextId } = s ∧ ∀ c, c ≠ clusterOf s.issuer.1 → t.clusters.get c = s.clusters.get c

/-- The state `t` holds one more command of the issuing thread than `s` (R279). -/
def State.accepts (s t : State) (kind : CmdKind) (comp : Completion) : Prop :=
  ∃ m : Cmd, t.here.cmds = s.here.cmds ++ [m] ∧ m.kind = kind ∧ m.comp = comp ∧ m.slot = s.issuer.2 ∧ m.ctx = s.me.hctx ∧
    m.launch = s.me.launch ∧ m.done = [] ∧ m.fault = none

/-- A range of a copy in the local space: within the thread's allotment, or within one vault (R285). -/
def State.copyRange (s : State) (a n : Nat) : Prop :=
  (a + n ≤ 0x80000 ∧ s.me.allots s.issuer.2 a n = true) ∨
    (0x40000000 ≤ a ∧ a + n ≤ 0x90000000 ∧ (a - 0x40000000) / 0x400000 = (a + n - 1 - 0x40000000) / 0x400000)

/-! ## Device steps -/

/-- A message passes: it is not in a skid slot, and no die whose crossings are stalled lies on its way (R222, R365). -/
def State.flows (s : State) (m : Msg) : Prop := m.moving = true ∧ s.stalledMsg m = false

/-- The memories of the package and of the host are in canonical form: addresses strictly rising, and no entry that
equals what an unlisted address reads as. -/
def State.memoryForm (s : State) : Prop := Memory.wf s.mem = true ∧ Memory.wf s.vault = true ∧ Memory.wf s.hostMem = true

end Sys2Proof.Machine
end

