-- ==== Sys2Proof/Certificates/Slice0/Obligations.lean ====
section
/-! DEFINITION. The statements for the provers. -/

section

open Sys2Proof Sys2Proof.Machine

/-- R78, R79, R94, R95: an integer form reads its sources, each a register or an entry of an in-bound port, writes
its result to rd, a register or an out-bound queue port, and completes.
R78, R210: `lui`, `auipc`, `kpop` and `kfirst` read no register; `auipc` adds to the address of its own word. -/
def Obligations.integer_forms_write_their_results : Prop :=
  (∀ (i : Instr) (F : IntForm) (s t : State) (x y : Word),
     intForm i = some F → s.readsForm F x y → s.writable F.d →
     (∀ d a b, i = .bfi d a b → s.me.binding d = none) →
     (s.took F.srcs).put F.d (F.f (s.x F.d) x y) = some t →
     exec i s = .next t.retire) ∧
  (∀ (s : State) (d : Reg) (imm : BitVec 20) (ka : BitVec 3) (t : State), s.writable d →
     (s.put d ((imm ++ 0#12).signExtend 64) = some t → exec (.lui d imm) s = .next t.retire) ∧
     (s.put d (s.wordPc + (imm ++ 0#12).signExtend 64) = some t → exec (.auipc d imm) s = .next t.retire) ∧
     (s.put d (BitVec.ofNat 64 ((List.range 512).filter fun i => (s.me.getK ka).getLsbD i).length) = some t →
       exec (.kpop d ka) s = .next t.retire) ∧
     (s.put d (BitVec.ofNat 64 (((List.range 512).find? fun i => (s.me.getK ka).getLsbD i).getD 512)) = some t →
       exec (.kfirst d ka) s = .next t.retire))

/-- R49, R77: a form that reads an out-bound port, writes an in-bound one, or reads and writes a bound rd, traps
with an illegal operand before any entry moves.
R27: an instruction that names a register whose value is outstanding waits, and nothing else changes; the tests of
its vector groups and tile types come before (R74). -/
def Obligations.registers_are_checked_first : Prop :=
  (∀ (i : Instr) (s : State) (srcs : List Reg) (d : Option Reg) (rmw : Bool), readsFirst i = some (srcs, d, rmw) →
     ((∃ r ∈ srcs, ∃ b, s.me.binding r = some b ∧ b.out = true) ∨
       (∃ r ∈ d, ∃ b, s.me.binding r = some b ∧ (b.out = false ∨ rmw = true))) →
     exec i s = .next (s.takeTrap s.issuer.1 s.issuer.2 { cause := .illegalOperand })) ∧
  (∀ (i : Instr) (s : State) (srcs : List Reg) (d : Option Reg) (rmw : Bool), readsFirst i = some (srcs, d, rmw) →
     (∀ r ∈ srcs, ∀ b, s.me.binding r = some b → b.out = false) →
     (∀ r ∈ d, ∀ b, s.me.binding r = some b → b.out = true ∧ rmw = false) →
     (∃ r ∈ srcs ++ d.toList, r ≠ 0 ∧ s.me.binding r = none ∧ s.me.xpend.getLsbD r.toNat = true) → s.formOk i →
     ∃ p, p ≠ 0 ∧ exec i s = .next (s.blockMe (.regs p 0) false))

/-- R29, R50: the first source being an in-bound queue port, an empty queue parks the thread at the instruction,
and a token at the head traps and stays there.
R29, R49: an integer form whose result goes to a full queue parks, and its sources keep their entries. -/
def Obligations.queue_ports_park_and_trap : Prop :=
  (∀ (i : Instr) (s : State) (a : Reg) (rest : List Reg) (d : Option Reg) (rmw : Bool) (b : Binding) (q : RQueue),
     readsFirst i = some (a :: rest, d, rmw) → s.formOk i →
     (∀ r ∈ rest, s.me.boundAs r true = false ∧ (s.me.binding r = none → r = 0 ∨ s.me.xpend.getLsbD r.toNat = false)) →
     (∀ r ∈ d, s.writable r ∧ (rmw = true → s.me.binding r = none)) →
     s.me.binding a = some b → b.out = false → b.ring = false → s.here.queue b.obj = some q →
     (q.entries = [] → exec i s = .next (s.blockMe (.queueIn b.obj) true)) ∧
     (∀ e l, q.entries = e :: l → e.kind ≠ .data →
       exec i s = .next (s.takeTrap s.issuer.1 s.issuer.2
         { cause := .queueToken, detail := BitVec.ofNat 64 e.kind.level }))) ∧
  (∀ (i : Instr) (F : IntForm) (s : State) (x y : Word) (b : Binding) (q : RQueue),
     intForm i = some F → s.readsForm F x y → (∀ d a c, i ≠ .bfi d a c) →
     s.me.binding F.d = some b → b.out = true → b.ring = false →
     (s.took F.srcs).me.binding F.d = some b →
     (s.took F.srcs).localStoresOut (s.took F.srcs).issuer.1 (s.took F.srcs).issuer.2 = false →
     (s.took F.srcs).here.queue b.obj = some q → q.depth ≤ q.entries.length →
     exec i s = .next (s.blockMe (.queueOut b.obj) true))

/-- R185, R315, R323: completing an instruction adds 4 to the program counter and 1 to INSTRET and leaves the thread
ready; inside a `rep` pair the count falls by one and the pair is left after the last; a single step ends in a STEP
trap. No other register, integer, vector, mask, message or control, no other thread and no storage changes.
R87, R88: an instruction that executes again, after a later one has had its effects, ends where the thread had got to, with
its result in the registers that the thread had there; that is the model's reading (log entry 60). -/
def Obligations.completing_an_instruction : Prop :=
  (∀ (s : State) (r : Redo) (u : Undo), s.me.redo = [r] → s.me.after = some u → s.me.stepping = false →
    s.retire.me.pc = u.pc ∧ s.retire.me.x = (r.carry s.me u).x ∧ s.retire.me.v = (r.carry s.me u).v ∧
      s.retire.me.k = u.k ∧ s.retire.me.status = .ready ∧ s.retire.me.redo = [] ∧ s.retire.me.after = none ∧
      State.sameOutside s s.retire ∧ State.sameCores s s.retire) ∧
  ∀ s : State, (s.me.stepping = true → s.issuer.2 ≠ 15) → s.me.redo = [] →
    s.retire.me.instret = s.me.instret + 1 ∧
    (s.me.inRep = false → s.retire.me.pc = s.me.pc + 4 ∧ s.retire.me.repcnt = s.me.repcnt) ∧
    (s.me.inRep = true → s.retire.me.repcnt = s.me.repcnt - 1 ∧
      s.retire.me.pc = if s.me.repcnt = 1 then s.me.pc + 8 else s.me.pc) ∧
    (s.me.stepping = false → s.retire.me.status = .ready ∧ s.retire.here.trapq = s.here.trapq) ∧
    (s.me.stepping = true → s.retire.me.status = .trapped ∧
      ∃ r, s.retire.here.trapq = s.trapqWith s.issuer.1 r ∧ r.cause = .step ∧ r.pc = s.retire.me.pc) ∧
    s.retire.me.x = s.me.x ∧ s.retire.me.v = s.me.v ∧ s.retire.me.k = s.me.k ∧ Thread.sameRest s.me s.retire.me ∧
    State.sameOutside s s.retire ∧ State.sameCores s s.retire

/-- The frame of the integer forms on registers: rd takes the result, x0 stays 0, and every other register, flag-like
field, special register, thread, core and byte of storage is unchanged. -/
def Obligations.integer_forms_frame : Prop :=
  ∀ (i : Instr) (F : IntForm) (s : State), intForm i = some F → s.plain (F.d :: F.srcs) → s.me.redo = [] →
    ∃ t, exec i s = .next t ∧ State.frame s t F.d ∧
      (F.d ≠ 0 → t.x F.d = F.f (s.x F.d) (s.x (F.srcs.headD 0)) (s.x (F.srcs.getLastD 0)))

/-- R81: a branch goes to the program counter plus its offset when its condition holds, and to the next word when
not; a taken branch to a target with bit 1 set traps and stays.
R81: `jal` and `jalr` write the address of the next word into rd and jump; `jalr` clears bit 0 of its sum and
uses rs1's old value. -/
def Obligations.branches_and_jumps : Prop :=
  (∀ (i : Instr) (s : State) (a b : Reg) (off : BitVec 12) (p : Word → Word → Bool) (x y : Word),
     branchForm i = some (a, b, off, p) → s.reads2 a b x y →
     let target := s.me.pc + (off ++ 0#1).signExtend 64
     (p x y = false → exec i s = .next (s.took [a, b]).retire) ∧
     (p x y = true → target.getLsbD 1 = false → exec i s = .next ((s.took [a, b]).jumpTo target)) ∧
     (p x y = true → target.getLsbD 1 = true →
       exec i s = .next (s.takeTrap s.issuer.1 s.issuer.2
         { cause := .misalignedFetch, addr := target, detail := target }))) ∧
  (∀ (s u : State) (d a : Reg) (off : BitVec 20) (imm : BitVec 12) (x : Word), s.writable d →
     (let target := s.me.pc + (off ++ 0#1).signExtend 64
      (target.getLsbD 1 = false → s.put d (s.me.pc + 4) = some u → exec (.jal d off) s = .next (u.jumpTo target)) ∧
      (target.getLsbD 1 = true → exec (.jal d off) s = .next (s.takeTrap s.issuer.1 s.issuer.2
        { cause := .misalignedFetch, addr := target, detail := target }))) ∧
     (s.reads1 a x →
       let target := (x + imm.signExtend 64) &&& ~~~1#64
       (target.getLsbD 1 = false → (s.took [a]).put d (s.me.pc + 4) = some u →
         exec (.jalr d a imm) s = .next (u.jumpTo target)) ∧
       (target.getLsbD 1 = true → exec (.jalr d a imm) s = .next (s.takeTrap s.issuer.1 s.issuer.2
         { cause := .misalignedFetch, addr := target, detail := target }))))

/-- R82, R87: a load or store at an address that is no multiple of its size traps with MISALIGNED.
R97, R99: a local address above 32 bits, or one that lies in no region, traps with LOCAL_ADDRESS. -/
def Obligations.bad_addresses_trap : Prop :=
  (∀ (i : Instr) (F : MemForm) (s : State) (x y : Word),
     (loadForm i = some F → s.reads1 F.a x → s.writable F.r → (x + F.off).toNat % F.size ≠ 0 →
       exec i s = .next (s.takeTrap s.issuer.1 s.issuer.2 { cause := .misaligned, addr := x + F.off })) ∧
     (storeForm i = some F → s.reads2 F.a F.r x y → (x + F.off).toNat % F.size ≠ 0 →
       exec i s = .next (s.takeTrap s.issuer.1 s.issuer.2 { cause := .misaligned, addr := x + F.off, write := true }))) ∧
  (∀ (s : State) (d a b : Reg) (size : MemSize) (u : Bool) (mode : LocMode) (x y : Word),
     (2 ^ 32 ≤ x.toNat ∨ (x.toNat % MemSize.bytes size = 0 ∧ locPlace mode s.issuer.1 x.toNat = none)) →
     (s.reads1 a x → s.writable d → s.me.prog.data = none →
       exec (.ldl d a size mode u) s = .next (s.takeTrap s.issuer.1 s.issuer.2 { cause := .localAddress, addr := x })) ∧
     (s.reads2 a b x y →
       exec (.stl a b size mode) s =
         .next (s.takeTrap s.issuer.1 s.issuer.2 { cause := .localAddress, addr := x, write := true })))

/-- R82, R84: a load from a normal or REPLICA page whose sector is valid in the L1D takes its bytes from there, widens them
and writes rd; the line becomes the most recently used, and nothing else of memory changes. R80, R84: a load from a normal or
REPLICA page whose sector is not valid, and is not being fetched for the core, asks the line's home tile for the sector,
leaves rd outstanding and lets the thread go on. That the least recently used line is kept as an order of the lines is the
model's own form of the L1D. -/
def Obligations.loads : Prop :=
  (∀ (i : Instr) (F : MemForm) (s s1 t : State) (x : Word) (m : Mapped) (l : L1Line),
     loadForm i = some F → s.reads1 F.a x → s.writable F.r → s.me.prog.data = none →
     (x + F.off).toNat % F.size = 0 → s.maps (x + F.off).toNat true false m s1 →
     (m.ty = .normal ∨ m.ty = .replica) → s1.lineBusy s1.issuer.1 (m.pa / 128) = false →
     s1.here.l1 (m.pa / 128) = some l → l.valid.getLsbD (m.pa % 128 / 32) = true →
     ((s1.updHere fun c => c.l1Touch (m.pa / 128)).took [F.a]).put F.r
       (loadedWord F.signed (bytesOf l.data (m.pa % 128) F.size)) = some t →
     exec i s = .next t.retire) ∧
  (∀ (i : Instr) (F : MemForm) (s s1 : State) (x : Word) (m : Mapped),
     loadForm i = some F → s.reads1 F.a x → s.me.binding F.r = none →
     (F.r = 0 ∨ s.me.xpend.getLsbD F.r.toNat = false) → s.me.prog.data = none →
     (x + F.off).toNat % F.size = 0 → s.maps (x + F.off).toNat true false m s1 →
     (m.ty = .normal ∨ m.ty = .replica) → s1.lineBusy s1.issuer.1 (m.pa / 128) = false →
     s1.here.l1Valid (m.pa / 128) (m.pa % 128 / 32) = false →
     s1.sectorBusy s1.issuer.1 (m.pa / 128) (m.pa % 128 / 32) = false → s.me.holdsAt [F.a] = false →
     let r := s1.post1 s1.issuer.1 s1.issuer.2 (some (.tile (s1.homeTile s1.me.hctx s1.issuer.1 m.pa)))
       (.fill (m.pa / 128) (1 <<< (m.pa % 128 / 32)) (F.hintOf s) (F.hintOf s != .noal) false) (x + F.off).toNat
     ∃ l : PendLoad, l.dst = .x F.r F.size F.signed ∧ l.pieces.map Piece.msg = [some r.1] ∧ l.pc = s.me.pc ∧ l.undo.x = s.me.x ∧
       exec i s = .next (State.took (r.2.updMe fun t =>
         { t with loads := t.loads ++ [l], xpend := if F.r = 0 then t.xpend else t.xpend ||| (1 <<< F.r.toNat) }) [F.a]).retire)

/-- R84, R118: a store to a normal page whose sector is valid in the L1D writes its bytes there, marks the sector dirty,
and enters the line in the thread's write signature.
R84, R85: a store with hint `noal` to a normal page whose sector is not valid goes to the line's home tile as a
byte-masked update; nothing is allocated. Under another hint the sector is asked of the home first, the thread waiting, and a
sector that has come enters the L1D with the store, which completes. -/
def Obligations.stores : Prop :=
  (∀ (i : Instr) (F : MemForm) (s s1 : State) (x y : Word) (m : Mapped),
     storeForm i = some F → s.reads2 F.a F.r x y → (x + F.off).toNat % F.size = 0 →
     s.maps (x + F.off).toNat false true m s1 → m.ty = .normal →
     s1.here.l1Valid (m.pa / 128) (m.pa % 128 / 32) = true →
     exec i s = .next (State.took ((s1.updHere fun c => c.l1Write m.pa (leBytes F.size y.toNat)).updMe
       fun t => { t with wsig := t.wsig ||| lineSig (m.pa / 128) }) [F.a, F.r]).retire) ∧
  (∀ (i : Instr) (F : MemForm) (s s1 : State) (x y : Word) (m : Mapped),
     storeForm i = some F → F.hintOf s = .noal → s.reads2 F.a F.r x y →
     (x + F.off).toNat % F.size = 0 → s.maps (x + F.off).toNat false true m s1 → m.ty = .normal →
     s1.here.l1Valid (m.pa / 128) (m.pa % 128 / 32) = false → s1.lineBusy s1.issuer.1 (m.pa / 128) = false →
     exec i s = .next (State.took (((s1.post1 s1.issuer.1 s1.issuer.2
         (some (.tile (s1.homeTile s1.me.hctx s1.issuer.1 (128 * (m.pa / 128)))))
         (.update (m.pa / 128) [(m.pa, leBytes F.size y.toNat)]) (x + F.off).toNat).2.killFills s1.issuer.1 (m.pa / 128)).updMe
       fun t => { t with wsig := t.wsig ||| lineSig (m.pa / 128) }) [F.a, F.r]).retire) ∧
  (∀ (i : Instr) (F : MemForm) (s s1 : State) (x y : Word) (m : Mapped),
     storeForm i = some F → F.hintOf s ≠ .noal → s.reads2 F.a F.r x y →
     (x + F.off).toNat % F.size = 0 → s.maps (x + F.off).toNat false true m s1 → m.ty = .normal →
     s1.here.l1Valid (m.pa / 128) (m.pa % 128 / 32) = false → s1.me.prog.stage = 0 →
     let line := m.pa / 128
     let sec := m.pa % 128 / 32
     (∀ b, s1.me.prog.fetched line sec = some b →
       exec i s = .next (State.took ((State.updHere (s1.fillL1 s1.issuer.1 s1.issuer.2 line sec b (F.hintOf s)) fun c =>
         c.l1Write m.pa (leBytes F.size y.toNat)).updMe fun t => { t with wsig := t.wsig ||| lineSig line })
         [F.a, F.r]).retire) ∧
     (s1.me.prog.fetched line sec = none → s1.lineBusy s1.issuer.1 line = false →
       s1.sectorBusy s1.issuer.1 line sec = false → s1.fetching line sec = false →
       let r := s1.post1 s1.issuer.1 s1.issuer.2 (some (.tile (s1.homeTile s1.me.hctx s1.issuer.1 (128 * line))))
         (.fill line (1 <<< sec) (F.hintOf s) true true) (x + F.off).toNat
       exec i s = .next ((r.2.updMe fun t => { t with prog := { t.prog with msgs := r.1 :: t.prog.msgs } }).blockMe .msgs
         false)))

/-- The frame of a store into the L1D: every byte of the line but those stored reads as before, and so does every other
line; the line's valid sectors stay, and only the stored sector becomes dirty. -/
def Obligations.l1d_store_frame : Prop :=
  ∀ (c : Core) (pa : Nat) (b : List Byte) (l : L1Line), c.l1 (pa / 128) = some l → pa % 128 + b.length ≤ 128 →
    ∃ l', (c.l1Write pa b).l1 (pa / 128) = some l' ∧ l'.valid = l.valid ∧
      l'.dirty = l.dirty ||| (1 <<< (pa % 128 / 32)) ∧
      (∀ j, j < 128 → (j < pa % 128 ∨ pa % 128 + b.length ≤ j) → bytesOf l'.data j 1 = bytesOf l.data j 1) ∧
      (∀ j, j < b.length → bytesOf l'.data (pa % 128 + j) 1 = [b.getD j 0]) ∧
      (∀ line, line ≠ pa / 128 → (c.l1Write pa b).l1 line = c.l1 line) ∧ (c.l1Write pa b).spad = c.spad

/-- R97, R99: `ldl` under `.own` reads the thread's scratchpad allotment and `stl` writes it; the stored bytes are those
of X[rs2], and every other byte of the scratchpad reads as before.
R149 to R151: the four barrier instructions complete on an object of the allotment, with the object that each leaves. -/
def Obligations.local_loads_and_stores : Prop :=
  ∀ (s t : State) (d a b : Reg) (size : MemSize) (u : Bool) (x y : Word),
    x.toNat % MemSize.bytes size = 0 → x.toNat + MemSize.bytes size ≤ 0x80000 →
    s.me.allots s.issuer.2 x.toNat (MemSize.bytes size) = true →
    (s.reads1 a x → s.writable d → s.me.prog.data = none →
      (s.took [a]).put d (loadedWord (!u) (s.here.spad.read x.toNat (MemSize.bytes size))) = some t →
      exec (.ldl d a size .own u) s = .next t.retire) ∧
    (s.reads2 a b x y → (s.issuer.2 = 15 → s.here.inLanding x.toNat (MemSize.bytes size) = false) →
      exec (.stl a b size .own) s =
        .next (State.took (s.updHere fun c => c.writeSpad x.toNat (leBytes (MemSize.bytes size) y.toNat)) [a, b]).retire ∧
      ∀ n, n < x.toNat ∨ x.toNat + MemSize.bytes size ≤ n →
        (s.here.writeSpad x.toNat (leBytes (MemSize.bytes size) y.toNat)).spad.read1 n = s.here.spad.read1 n) ∧
    (s.reads2 a b x y → x.toNat % 16 = 0 → x.toNat + 16 ≤ 0x80000 → s.me.allots s.issuer.2 x.toNat 16 = true →
      s.intoLanding x.toNat 16 = false → y ≠ 0 → y.toNat < 2 ^ 32 →
      exec (.boinit a b) s = .next (State.took (s.updHere fun c => c.writeSpad x.toNat
        (leBytes 4 y.toNat ++ [0, 0, 0, 0] ++ [0, 1] ++ [0, 0, 0, 0, 0, 0])) [a, b]).retire ∧
      ((s.here.barrier x.toNat).armed ≠ 1 → exec (.boexp a b) s = .next (State.retire (State.took (s.updHere fun c =>
        c.setBarrier x.toNat ({ s.here.barrier x.toNat with expected := y.toNat, armed := 1 } : BarrierObj).flip) [a, b]))) ∧
      (s.localStoresOut s.issuer.1 s.issuer.2 = false → (s.here.barrier x.toNat).arrived + y.toNat < 2 ^ 32 →
        exec (.boarr a b) s = .next (State.retire (State.took (s.updHere fun c =>
          c.setBarrier x.toNat ((s.here.barrier x.toNat).count y.toNat)) [a, b]))) ∧
      ((s.here.barrier x.toNat).phase ≠ y.extractLsb' 0 8 → exec (.bowait a b) s = .next (s.took [a, b]).retire))

/-- R302, R304, R305: taking a trap posts the 64-byte record of the stopped thread in its core's trap queue, behind those
of earlier cycles, those of one cycle in ascending slot and then ENGINE, and stops the thread at its instruction; in slot 15
no record is posted, the supervisor parks and Kamgor is told. No register and no storage changes. A thread taken from a
`waita` at which it is parked is registered at no home, and a claim of an `rseq` at which it is parked is not made (R152, R263).
R302: the bytes of a trap record. -/
def Obligations.traps_and_their_records : Prop :=
  (∀ (s : State) (c : CoreId) (k : Slot) (i : TrapInfo),
     let t := s.takeTrap c k i
     (k ≠ 15 → (t.thread c k).status = .trapped ∧
       ∃ r : TrapRecord, (t.core c).trapq = s.trapqWith c r ∧ r.cause = i.cause ∧ r.pc = (s.thread c k).pc ∧
         r.addr = i.addr ∧ r.detail = i.detail ∧ r.write = i.write ∧ r.fetch = i.fetch ∧ r.engine = .own ∧ r.held = false ∧
         r.level = i.level ∧ r.tid = (s.thread c k).tid.setWidth 32 ∧ r.repcnt = (s.thread c k).repcnt.setWidth 8 ∧
         r.time = s.timeref (dieOf c) ∧ r.pos = 0 ∧ r.rep = s.inPair c k ∧
         r.word = s.recordWord c k) ∧
     (k = 15 → (t.thread c k).status = .parked .kamgor ∧ (t.core c).trapq = (s.core c).trapq ∧
       ∃ r : TrapRecord, (t.core c).kamgor = some (.stopped r) ∧ r.cause = i.cause ∧ r.pc = (s.thread c k).pc) ∧
     (t.thread c k).x = (s.thread c k).x ∧ (t.thread c k).v = (s.thread c k).v ∧ (t.thread c k).k = (s.thread c k).k ∧
     (t.thread c k).pc = (s.thread c k).pc ∧ (t.thread c k).instret = (s.thread c k).instret ∧
     { t with cores := s.cores, tiles := s.tiles, net := s.net } = s ∧
     ((s.thread c k).status ≠ .parked .registered → t.tiles = s.tiles ∧
       ((s.thread c k).status ≠ .parked .ringClaim → t.net = s.net)) ∧
     ((s.thread c k).status = .parked .ringClaim →
       ∀ m ∈ t.net, m.core = c → m.slot = k → m.isClaim = true → m.orphan = true) ∧
     ((s.thread c k).status = .parked .registered →
       ∀ (x : TileId) (m : Monitor), m ∈ (t.tiles.get x).monitors → m.core = c → m.slot ≠ k) ∧
     (∀ d, d ≠ c → t.core d = s.core d) ∧ (t.core c).spad = (s.core c).spad ∧
     (t.core c).l1d = (s.core c).l1d) ∧
  (∀ r : TrapRecord, r.bytes.length = 64 ∧
     ofLe (r.bytes.take 4) = r.tid.toNat ∧
     ofLe ((r.bytes.drop 4).take 1) = r.cause.code ∧ ofLe ((r.bytes.drop 5).take 1) = r.engine.code ∧
     ofLe ((r.bytes.drop 6).take 1) = r.write.toNat + 2 * r.fetch.toNat + 4 * r.held.toNat + 8 * r.rep.toNat ∧
     ofLe ((r.bytes.drop 7).take 1) = r.level.toNat ∧
     ofLe ((r.bytes.drop 8).take 8) = r.pc.toNat ∧ ofLe ((r.bytes.drop 16).take 8) = r.addr.toNat ∧
     ofLe ((r.bytes.drop 24).take 8) = r.pos.toNat ∧ ofLe ((r.bytes.drop 32).take 8) = r.detail.toNat ∧
     ofLe ((r.bytes.drop 40).take 4) = r.word.toNat ∧ ofLe ((r.bytes.drop 44).take 1) = r.repcnt.toNat ∧
     ofLe ((r.bytes.drop 45).take 3) = 0 ∧ ofLe ((r.bytes.drop 48).take 8) = r.time.toNat ∧ ofLe ((r.bytes.drop 56).take 8) = 0)

/-- R91: `ecall` and `ebreak` of a work thread trap with their causes: the thread stops, and the record posted holds the
instruction's own address; no register and no storage changes. A word that is no instruction (R74) traps so with
ILLEGAL_INSTRUCTION. -/
def Obligations.trapping_instructions : Prop :=
  ∀ (s : State) (w : BitVec 32) (i : Instr) (c : Cause), s.issuer.2 ≠ 15 → s.me.status ≠ .parked .registered → s.me.status ≠ .parked .ringClaim →
    (i, c) ∈ [(Instr.ecall, Cause.ecall), (.ebreak, .ebreak), (.illegalInstruction w, .illegalInstruction)] →
    ∃ (t : State) (r : TrapRecord), exec i s = .next t ∧ t = s.takeTrap s.issuer.1 s.issuer.2 { cause := c } ∧
      t.me.status = .trapped ∧ t.here.trapq = s.trapqWith s.issuer.1 r ∧ r.cause = c ∧ r.pc = s.me.pc ∧ t.me.pc = s.me.pc ∧
      t.me.x = s.me.x ∧ t.me.v = s.me.v ∧ t.me.k = s.me.k ∧ t.me.m = s.me.m ∧
      t.here.spad = s.here.spad ∧ t.here.l1d = s.here.l1d ∧ State.sameOutside s t ∧ State.sameCores s t

/-- R305, R318, R319: in slot 15 `ecall` forwards the 64 bytes at X[10] to Kamgor and parks; an `ebreak` parks the
supervisor and tells Kamgor. Kamgor answers the one, and restarts the supervisor after the other where POLICY says so. -/
def Obligations.supervisor_calls_kamgor : Prop :=
  (∀ s : State, s.issuer.2 = 15 → s.plain [10] →
    ((s.x 10).toNat % 64 = 0 → (s.x 10).toNat + 64 ≤ 0x80000 →
      ∃ t, exec .ecall s = .next t ∧ t.me.status = .parked .kamgor ∧
        t.here.kamgor = some (.forwarded (s.here.spad.read (s.x 10).toNat 64)) ∧ t.here.trapq = s.here.trapq ∧
        t.me.pc = s.me.pc ∧ t.me.x = s.me.x) ∧
    (∃ t, exec .ebreak s = .next t ∧ t.me.status = .parked .kamgor ∧ t.here.trapq = s.here.trapq ∧
      ∃ r, t.here.kamgor = some (.stopped r) ∧ r.cause = .ebreak ∧ r.pc = s.me.pc)) ∧
  (∀ (s : State) (core : CoreId) (ctx : Ctx), (s.core core).ctx = some ctx →
    (∀ r repaired, (s.core core).kamgor = some (.forwarded r) → exec (.kamgorAnswer core repaired) s =
      .next ((s.serve ctx r repaired).2.answerSupervisor core (s.serve ctx r repaired).1)) ∧
    (∀ r, (s.core core).kamgor = some (.stopped r) → (s.ctxs.get ctx).svRestart = true →
      exec (.supervisorTrap core) s = .next (s.restartSupervisor core)))

/-- R73, R92: the Zicsr forms give rd the old value and write the register as one step; `csrrs`, `csrrc` and their
immediate forms write only when the source is not 0.
R73: a number that names no register, and a write of a register that is read-only, also by a `csrrs` or `csrrc` that names
a register other than x0 or an immediate other than 0, is an illegal instruction; a supervisor register outside slot 15 is a privilege trap. -/
def Obligations.control_register_accesses : Prop :=
  (∀ (s u t : State) (d a : Reg) (n : BitVec 12) (r : Csr) (x : Word),
     Csr.ofNumber n = some r → (r.supervisor = true → s.issuer.2 = 15) → s.writable d →
     (let old := s.readCsr r
      (s.reads1 a x →
       (r.writable = true → does (writeCsr r x) s () u → (u.took [a]).put d old = some t →
         exec (.csrrw d a n) s = .next t.retire) ∧
       ((r.writable = true ∨ a = 0) → (if x = 0 then u = s else does (writeCsr r (old ||| x)) s () u) →
         (u.took [a]).put d old = some t → exec (.csrrs d a n) s = .next t.retire) ∧
       ((r.writable = true ∨ a = 0) → (if x = 0 then u = s else does (writeCsr r (old &&& ~~~x)) s () u) →
         (u.took [a]).put d old = some t → exec (.csrrc d a n) s = .next t.retire)) ∧
      (let z : Word := a.zeroExtend 64
       (r.writable = true → does (writeCsr r z) s () u → u.put d old = some t → exec (.csrrwi d a n) s = .next t.retire) ∧
       ((r.writable = true ∨ a = 0) → (if z = 0 then u = s else does (writeCsr r (old ||| z)) s () u) →
         u.put d old = some t → exec (.csrrsi d a n) s = .next t.retire) ∧
       ((r.writable = true ∨ a = 0) → (if z = 0 then u = s else does (writeCsr r (old &&& ~~~z)) s () u) →
         u.put d old = some t → exec (.csrrci d a n) s = .next t.retire)))) ∧
  (∀ (s : State) (d a : Reg) (n : BitVec 12),
     (Csr.ofNumber n = none → ∀ i ∈ [Instr.csrrw d a n, .csrrs d a n, .csrrc d a n, .csrrwi d a n, .csrrsi d a n, .csrrci d a n],
       exec i s = .next (s.takeTrap s.issuer.1 s.issuer.2 { cause := .illegalInstruction })) ∧
     (∀ r, Csr.ofNumber n = some r → r.writable = false →
       ∀ i ∈ [Instr.csrrw d a n, .csrrwi d a n],
         exec i s = .next (s.takeTrap s.issuer.1 s.issuer.2 { cause := .illegalInstruction })) ∧
     (∀ r, Csr.ofNumber n = some r → r.writable = false → a ≠ 0 →
       ∀ i ∈ [Instr.csrrs d a n, .csrrc d a n, .csrrsi d a n, .csrrci d a n],
         exec i s = .next (s.takeTrap s.issuer.1 s.issuer.2 { cause := .illegalInstruction })) ∧
     (∀ r, Csr.ofNumber n = some r → r.supervisor = true → s.issuer.2 ≠ 15 →
       ∀ i ∈ [Instr.csrrw d a n, .csrrs d a n, .csrrc d a n, .csrrwi d a n, .csrrsi d a n, .csrrci d a n],
         exec i s = .next (s.takeTrap s.issuer.1 s.issuer.2 { cause := .privilege })))

/-- R72, R92, R180, R185: what a write of SHAPE, REPCNT, HINT and SRSEED leaves, and which values SHAPE and REPCNT refuse;
a refused value traps with an illegal operand. -/
def Obligations.control_register_writes : Prop :=
  ∀ (s : State) (v : Word),
    let rows := (v.extractLsb' 0 8).toNat
    let rbytes := (v.extractLsb' 16 10).toNat
    (1 ≤ rows → rows ≤ 128 → 4 ≤ rbytes → rbytes ≤ 512 → rbytes % 4 = 0 → rows * rbytes ≤ 512 →
      does (writeCsr .shape v) s () (s.updMe fun t => { t with rows := v.extractLsb' 0 8, rbytes := v.extractLsb' 16 10 })) ∧
    (rows = 0 ∨ 128 < rows ∨ rbytes < 4 ∨ rbytes % 4 ≠ 0 ∨ 512 < rows * rbytes →
      ∀ d a, s.reads1 a v → s.writable d →
        exec (.csrrw d a 0x800) s = .next (s.takeTrap s.issuer.1 s.issuer.2 { cause := .illegalOperand })) ∧
    ((v.extractLsb' 0 7).toNat ≤ 64 →
      does (writeCsr .repcnt v) s () (s.updMe fun t => { t with repcnt := v.extractLsb' 0 7 })) ∧
    (64 < (v.extractLsb' 0 7).toNat → ∀ d a, s.reads1 a v → s.writable d →
      exec (.csrrw d a 0x801) s = .next (s.takeTrap s.issuer.1 s.issuer.2 { cause := .illegalOperand })) ∧
    (∃ u, does (writeCsr .hint v) s () u ∧ u.readCsr .hint = v &&& 3) ∧
    (∃ u, does (writeCsr .srseed v) s () u ∧ u.readCsr .srseed = v &&& 0xFFFFFFFF ∧
      ∀ i : Fin 128, u.me.gens.get i = seedGen (v.extractLsb' 0 32) i.val)

/-- R185, R187: `rep` runs one repetition of the word behind it, with the stepped fields moved by the repetition's number
times the step; for an `add` on plain registers rd is written and one repetition fewer is left. -/
def Obligations.repetitions : Prop :=
  ∀ (s : State) (count : BitVec 6) (mask : BitVec 3) (step : BitVec 2) (w : BitVec 32) (v : Instr),
    s.me.wordAt (s.me.pc.toNat + 4) = some w → decode w = .ok v →
    let n := count.toNat + 1
    let left := if s.me.repcnt.toNat = 0 ∨ n < s.me.repcnt.toNat then n else s.me.repcnt.toNat
    let i := (n - left) * 2 ^ step.toNat
    let s' := s.updMe fun t => { t with repcnt := BitVec.ofNat 7 left, inRep := true }
    (∀ f, repBody v { rd := if mask.getLsbD 0 then some i else none, rs1 := if mask.getLsbD 1 then some i else none,
                      rs2 := if mask.getLsbD 2 then some i else none } = some f →
      exec (.rep count mask step) s = f s') ∧
    (∀ d a b : Reg, v = .add d a b →
      let moved := fun (bit : Nat) (r : Reg) => if mask.getLsbD bit then r.toNat + i else r.toNat
      (moved 0 d ≤ 31 → moved 1 a ≤ 31 → moved 2 b ≤ 31 →
        let d' := BitVec.ofNat 5 (moved 0 d)
        let a' := BitVec.ofNat 5 (moved 1 a)
        let b' := BitVec.ofNat 5 (moved 2 b)
        s.plain [a', b', d'] → exec (.rep count mask step) s = .next (s'.wrote d' (s.x a' + s.x b'))) ∧
      ((31 < moved 0 d ∨ 31 < moved 1 a ∨ 31 < moved 2 b) →
        exec (.rep count mask step) s = .next (s'.takeTrap s.issuer.1 s.issuer.2 { cause := .illegalOperand })))

/-- R89, R123, R145: a fence that waits for nothing, or whose echoes are all back, completes; of class all or `.mem` it clears
the TBM bits that it probed. Every MISC-MEM word with funct3 000 is `fnc.pkg`. R123: a fence with targets to probe sends each
a probe with the core's request count and parks; it does not complete. R90, R148: once their write-backs are acknowledged,
`fence.i` empties the cluster's instruction cache and the thread's fetched block, and `l1wb` and `l1inv` complete; with no
dirty sector in the L1D and no write-back of the core on its way they do so at once, and `l1inv` leaves no valid sector of a
line that meets the range. That it takes the whole of a line of which the range covers a part is the model's reading (log
entry 76). Which TBM bits a fence of a narrow scope clears is read by inference (log entry 10) and is not claimed here. -/
def Obligations.fences_and_cache_instructions : Prop :=
  ((∀ (s : State) (scope : Scope) (cls : FenceClass) (imm : BitVec 12) (a d : Reg),
      exec (.fence imm a d) s = exec (.fnc .pkg .all) s ∧
      (s.me.prog.stage = 1 →
        exec (.fnc scope cls) s = .next (State.retire (s.updMe fun t =>
          { t with tbm := if cls = .all ∨ cls = .mem then t.tbm &&& ~~~t.prog.probed else t.tbm }))) ∧
      (s.begins → s.localStoresOut s.issuer.1 s.issuer.2 = false → s.deviceBusy s.issuer.1 s.issuer.2 = false →
        s.majOut s.issuer.1 s.issuer.2 = false → s.here.engineBusy s.issuer.2 = false →
        (scope = .core ∨ cls = .eng → exec (.fnc scope cls) s = .next s.retire) ∧
        (scope ≠ .core → cls ≠ .eng → s.probeTargets scope = [] →
          exec (.fnc scope cls) s = .next (State.retire (s.updMe fun t =>
            { t with tbm := if cls = .all ∨ cls = .mem then t.tbm &&& ~~~(s.probedBits scope) else t.tbm }))))) ∧
   (∀ (s : State) (scope : Scope) (cls : FenceClass),
      s.begins → s.localStoresOut s.issuer.1 s.issuer.2 = false → s.deviceBusy s.issuer.1 s.issuer.2 = false →
      s.majOut s.issuer.1 s.issuer.2 = false → s.here.engineBusy s.issuer.2 = false →
      scope ≠ .core → cls ≠ .eng → s.probeTargets scope ≠ [] →
      ∃ t, exec (.fnc scope cls) s = .next t ∧ t.me.status = .parked .msgs ∧ t.me.pc = s.me.pc ∧ t.me.tbm = s.me.tbm ∧
        (t.net.drop s.net.length).map (fun m => (m.target, m.body)) =
          (s.probeTargets scope).map fun p => (some p.1, Body.probe p.2))) ∧
  (∀ (s : State) (a b d : Reg) (imm : BitVec 12) (scope : Scope) (x y : Word),
     (s.me.prog.stage = 1 → s.me.redo = [] → ∃ t, exec (.fenceI imm a d) s = .next t ∧ t.me.ibuf = none ∧
       (t.clusters.get (clusterOf s.issuer.1)).icache = [] ∧ t.me.x = s.me.x ∧ t.mem = s.mem ∧ t.here.l1d = s.here.l1d) ∧
     (s.reads2 a b x y → y.toNat < 2 ^ 40 → vaValid x.toNat = true →
       (s.me.prog.stage = 1 → exec (.l1wb a b scope) s = .next (s.took [a, b]).retire ∧
         exec (.l1inv a b scope) s = .next (s.took [a, b]).retire) ∧
       (s.me.prog.stage = 0 → (∀ l ∈ s.here.l1d, l.dirty = 0) →
         (∀ m ∈ s.net, m.core = s.issuer.1 → m.writesBack (fun _ _ => true) = false) →
         exec (.l1wb a b scope) s = .next (State.took (s.atStage 1 []) [a, b]).retire ∧
         (s.plain [a, b] → ∃ t, exec (.l1inv a b scope) s = .next t ∧
           ∀ l ∈ t.here.l1d, s.lineIn scope s.issuer.1 s.me.hctx l.line = true →
             s.lineInRange s.me.hctx x.toNat y.toNat l.line = true → l.valid = 0))))

/-- R138, R139: an atomic to a normal page that neither acquires nor releases drops the core's sector of the word, sends the
operation to the word's home tile, leaves rd outstanding and completes; an acquire one waits for its reply and then
completes. -/
def Obligations.atomics_are_sent_to_the_home : Prop :=
  ∀ (i : Instr) (F : AmoForm) (s s1 s2 : State) (x : Word) (m : Mapped),
    atomicForm i = some F →
    (s.me.prog.stage = 3 → exec i s = .next (s.took [F.a]).retire) ∧
    (s.me.prog.stage = 0 → s.reads1 F.a x → s.plain [F.b, F.d] →
      x.toNat % amoBytes F.dbl = 0 → s.maps x.toNat true true m s1 → m.ty = .normal →
      does (dropSector m.pa) s1 () s2 → s2.lineBusy s2.issuer.1 (m.pa / 128) = false →
      let r := fun (u : State) (p : Sig) => u.post1 u.issuer.1 u.issuer.2 (some (.tile (u.homeTile u.me.hctx u.issuer.1 m.pa)))
        (.atomic F.op m.pa x.toNat F.dbl F.ord (AmoScope.scope F.scope) (s.x F.b) (s.x F.d) F.d p) x.toNat
      let pend := fun (u : State) => u.updMe fun t =>
        { t with xpend := if F.d = 0 then t.xpend else t.xpend ||| (1 <<< F.d.toNat) }
      (F.ord ≠ .acq → AmoOrd.isRel F.ord = false →
        exec i s = .next (State.took (pend (r s2 0).2) [F.a]).retire) ∧
      (F.ord = .acq → x.toNat % 128 = 0 →
        exec i s = .next (((pend (r s2 0).2).atStage 3 [(r s2 0).1]).blockMe .msgs false)) ∧
      (AmoOrd.isRel F.ord = true → x.toNat % 128 = 0 → ∀ s3 s4 s5 p,
        does (releaseSteps (AmoScope.scope F.scope)) s2 () s3 → s3.lineBusy s3.issuer.1 (m.pa / 128) = false →
        does (publish (AmoScope.scope F.scope)) s3 p s4 →
        does (keepSigs (r s4 p).1 (s3.me.cleared (AmoScope.scope F.scope))) (r s4 p).2 () s5 →
        exec i s = .next (State.took (pend s5) [F.a]).retire))

/-- R146, R147, R152, R153: `ldaq`, `strl`, `waita` and `notify` on a normal page are sent to the home; `ldaq` and `waita`
hold the thread and complete when the answer is there. That `ldaq` drops the core's own sector of the object first, as an
atomic does, is the model's reading of R111 (log entry 85). -/
def Obligations.acquire_release_wait_notify : Prop :=
  ∀ (s s1 s2 : State) (d a b : Reg) (dbl all : Bool) (scope : Scope) (x y : Word) (m : Mapped),
    let pend := fun (u : State) => u.updMe fun t =>
      { t with xpend := if d = 0 then t.xpend else t.xpend ||| (1 <<< d.toNat) }
    let home := fun (u : State) => Target.tile (u.homeTile u.me.hctx u.issuer.1 m.pa)
    (s.me.prog.stage = 3 → s.me.binding d = none → exec (.ldaq d a dbl scope) s = .next (s.took [a]).retire) ∧
    (s.me.prog.stage = 0 → s.reads1 a x → s.writable d → s.me.binding d = none → x.toNat % 128 = 0 →
      s.maps x.toNat true false m s1 → m.ty = .normal →
      does (dropSector m.pa) s1 () s2 → s2.lineBusy s2.issuer.1 (m.pa / 128) = false →
      let r := s2.post1 s2.issuer.1 s2.issuer.2 (some (home s2)) (.ldaq m.pa dbl scope d) x.toNat
      exec (.ldaq d a dbl scope) s = .next (((pend r.2).atStage 3 [r.1]).blockMe .msgs false)) ∧
    (s.reads2 a b x y → x.toNat % 128 = 0 → s.maps x.toNat true true m s1 → m.ty = .normal →
      ∀ s3 s4 s5 p, does (releaseSteps scope) s1 () s2 → does (dropSector m.pa) s2 () s3 →
        s3.lineBusy s3.issuer.1 (m.pa / 128) = false → does (publish scope) s3 p s4 →
        let r := s4.post1 s4.issuer.1 s4.issuer.2 (some (home s4)) (.strl m.pa x.toNat dbl y p) x.toNat
        does (keepSigs r.1 (s3.me.cleared scope)) r.2 () s5 →
        exec (.strl a b dbl scope) s = .next (s5.took [a, b]).retire) ∧
    (s.reads2 a b x y → s.writable d →
      (∀ st t, s.me.prog.data = some st → (s.took [a, b]).put d (BitVec.ofNat 64 (ofLe st)) = some t →
        exec (.waita d a b dbl) s = .next t.retire) ∧
      (s.me.prog.data = none → x.toNat % amoBytes dbl = 0 → s.maps x.toNat true false m s1 → m.ty = .normal →
        s1.lineBusy s1.issuer.1 (m.pa / 128) = false → s.me.binding d = none →
        let r := s1.post1 s1.issuer.1 s1.issuer.2
          (some (home s)) (.waita m.pa x.toNat dbl y d) x.toNat
        exec (.waita d a b dbl) s = .next ((r.2.atStage 1 [r.1]).blockMe .registered true))) ∧
    (s.me.prog.stage = 0 → s.reads1 a x → s.writable d → s.me.binding d = none → s.maps x.toNat true true m s1 →
      m.ty = .normal → s1.lineBusy s1.issuer.1 (m.pa / 128) = false →
      exec (.notify d a all) s = .next (State.took
        ((s1.post1 s1.issuer.1 s1.issuer.2 (some (home s))
          (.notify m.pa x.toNat all d) x.toNat).2.updMe fun t =>
            { t with xpend := if d = 0 then t.xpend else t.xpend ||| (1 <<< d.toNat) }) [a]).retire)

/-- R150: the barrier instructions on an object of the thread's allotment: EXPECTED, ARRIVED, PHASE and ARMED after each, the
flip included (R149); `boarr` waits for the thread's earlier local stores; the cases that trap, in the order in which they
are checked; the encodings. R151: `bowait` completes when PHASE is not the byte given, and parks while it is. The supervisor
may not write an object that lies in a landing (R99, R241). -/
def Obligations.barrier_objects : Prop :=
  (∀ (s : State) (a b : Reg) (x y : Word), s.reads2 a b x y → x.toNat % 16 = 0 → x.toNat + 16 ≤ 0x80000 →
    s.me.allots s.issuer.2 x.toNat 16 = true →
    let o := s.here.barrier x.toNat
    let after := fun (f : BarrierObj) => State.retire (State.took (s.updHere fun c => c.setBarrier x.toNat f) [a, b])
    let flips := fun (f : BarrierObj) =>
      if f.armed = 1 ∧ f.expected ≤ f.arrived then
        { expected := f.expected, arrived := f.arrived - f.expected, phase := f.phase + 1, armed := 0 } else f
    let may := s.intoLanding x.toNat 16 = false
    (may → y ≠ 0 → y.toNat < 2 ^ 32 → exec (.boinit a b) s = .next (State.took (s.updHere fun c => c.writeSpad x.toNat
      (leBytes 4 y.toNat ++ [0, 0, 0, 0] ++ [0, 1] ++ [0, 0, 0, 0, 0, 0])) [a, b]).retire) ∧
    (may → y ≠ 0 → y.toNat < 2 ^ 32 → o.armed ≠ 1 →
      exec (.boexp a b) s = .next (after (flips { o with expected := y.toNat, armed := 1 }))) ∧
    (may → y.toNat < 2 ^ 32 → y ≠ 0 → o.arrived + y.toNat < 2 ^ 32 → s.localStoresOut s.issuer.1 s.issuer.2 = false →
      exec (.boarr a b) s = .next (after (flips { o with arrived := o.arrived + y.toNat }))) ∧
    (may → y = 0 → s.localStoresOut s.issuer.1 s.issuer.2 = false →
      exec (.boarr a b) s = .next (s.took [a, b]).retire) ∧
    (o.phase ≠ y.extractLsb' 0 8 → exec (.bowait a b) s = .next (s.took [a, b]).retire) ∧
    (o.phase = y.extractLsb' 0 8 → exec (.bowait a b) s = .next (s.blockMe (.bowait (x.toNat + 8) o.phase) true)) ∧
    (may → y.toNat < 2 ^ 32 → s.localStoresOut s.issuer.1 s.issuer.2 = true →
      exec (.boarr a b) s = .next (s.blockMe .vault false)) ∧
    (may → y ≠ 0 → y.toNat < 2 ^ 32 → o.armed = 1 →
      exec (.boexp a b) s = .next (s.takeTrap s.issuer.1 s.issuer.2 { cause := .illegalOperand })) ∧
    (may → y.toNat < 2 ^ 32 → s.localStoresOut s.issuer.1 s.issuer.2 = false → 2 ^ 32 ≤ o.arrived + y.toNat →
      exec (.boarr a b) s = .next (s.takeTrap s.issuer.1 s.issuer.2 { cause := .illegalOperand }))) ∧
  (∀ (s : State) (a b : Reg) (x y : Word), s.reads2 a b x y →
    (∀ i ∈ [Instr.boinit a b, .boexp a b, .boarr a b],
      2 ^ 32 ≤ y.toNat ∨ (y = 0 ∧ i ≠ .boarr a b) →
        exec i s = .next (s.takeTrap s.issuer.1 s.issuer.2 { cause := .illegalOperand })) ∧
    (∀ (i : Instr) (wr : Bool), (i, wr) ∈ [(Instr.boinit a b, true), (.boexp a b, true), (.boarr a b, true), (.bowait a b, false)] →
      wr = false ∨ (y.toNat < 2 ^ 32 ∧ (y = 0 → i = .boarr a b)) →
        (x.toNat % 16 ≠ 0 → exec i s =
          .next (s.takeTrap s.issuer.1 s.issuer.2 { cause := .misaligned, addr := x, write := wr })) ∧
        (x.toNat % 16 = 0 →
          (0x80000 < x.toNat + 16 ∨ s.me.allots s.issuer.2 x.toNat 16 = false ∨ (wr = true ∧ s.intoLanding x.toNat 16 = true)) →
          exec i s =
            .next (s.takeTrap s.issuer.1 s.issuer.2 { cause := .localAddress, addr := x, write := wr })))) ∧
  (∀ a b : Reg,
    encode (.boinit a b) = some (0b0000000#7 ++ b ++ a ++ 0b110#3 ++ 0#5 ++ 0b1111011#7) ∧
    encode (.boexp a b) = some (0b0000001#7 ++ b ++ a ++ 0b110#3 ++ 0#5 ++ 0b1111011#7) ∧
    encode (.boarr a b) = some (0b0000010#7 ++ b ++ a ++ 0b110#3 ++ 0#5 ++ 0b1111011#7) ∧
    encode (.boinit 20#5 21#5) = some 0x015A607B#32)

/-- R312 to R317: the supervisor forms trap with PRIVILEGE outside slot 15. R304, R313 to R316: in slot 15 `trecv` takes the
oldest record into the scratchpad and gives its slot; `tresume` and `tstep` answer the taken records of a slot, whose thread
runs again once none is left; `tkill` ends the thread of a slot. That the privilege test comes before the tests of slot
numbers and addresses is read by inference (log entry 42), and that trecv does not write into a landing is too (log entry 12).
-/
def Obligations.supervisor_instructions : Prop :=
  (∀ (s : State) (d a : Reg), s.issuer.2 ≠ 15 → ∀ i ∈ [Instr.trecv d a, .tresume a, .tkill a, .tstep a],
     exec i s = .next (s.takeTrap s.issuer.1 s.issuer.2 { cause := .privilege })) ∧
  (∀ (s t : State) (d a : Reg) (x : Word), s.issuer.2 = 15 → s.reads1 a x →
     (s.writable d → x.toNat + 64 ≤ 0x80000 → x.toNat % 64 = 0 → s.here.inLanding x.toNat 64 = false →
       (∀ r rest, s.here.trapq = r :: rest →
         (State.took (s.updHere fun c => Core.writeSpad { c with trapq := rest, taken := c.taken ++ [r] } x.toNat r.bytes)
           [a]).put d (BitVec.ofNat 64 (r.tid.toNat % 16)) = some t →
         exec (.trecv d a) s = .next t.retire) ∧
       (s.here.trapq = [] → exec (.trecv d a) s = .next (s.blockMe .trapq true))) ∧
     (∀ h : x.toNat < 15,
       let k : Slot := ⟨x.toNat, by omega⟩
       exec (.tresume a) s = .next (State.took (s.answerTaken s.issuer.1 k false) [a]).retire ∧
       exec (.tstep a) s = .next (State.took (s.answerTaken s.issuer.1 k true) [a]).retire ∧
       (s.me.prog.stage = 0 → (s.thread s.issuer.1 k).present = true →
         (s.killWaits s.issuer.1 k = false → exec (.tkill a) s = .next (State.took (s.kill s.issuer.1 k) [a]).retire) ∧
         (s.killWaits s.issuer.1 k = true → ∃ t, exec (.tkill a) s = .next t ∧ t.me.pc = s.me.pc ∧
           (t.thread s.issuer.1 k).status = .waiting (.slotFree k) ∧ t.me.status = .waiting (.slotFree k))) ∧
       (s.me.prog.stage = 1 → exec (.tkill a) s = .next (s.took [a]).retire) ∧
       ((s.thread s.issuer.1 k).present = false → exec (.tkill a) s = .next (s.took [a]).retire)) ∧
     (15 ≤ x.toNat → ∀ i ∈ [Instr.tresume a, .tkill a, .tstep a],
       exec i s = .next (s.takeTrap s.issuer.1 s.issuer.2 { cause := .illegalOperand })))

/-- R304, R314, R315: the answer to a thread's last taken record makes it ready at its program counter; with a record of it
still in the queue it stays trapped; with no taken record nothing happens.
R88: a load that a halt cancelled while the thread stood trapped is executed again first, with the registers that it had; that
later instructions keep their effects then is the model's reading (log entries 46 and 60). -/
def Obligations.returning_from_a_trap : Prop :=
  ∀ (s : State) (c : CoreId) (k : Slot) (step : Bool),
    ((s.core c).taken.any (fun r => r.names k) = false → s.answerTaken c k step = s) ∧
    ((s.core c).taken.any (fun r => r.names k) = true → (∀ r ∈ (s.core c).taken, r.names k = true → r.engine = .own) →
      let t := s.answerTaken c k step
      (∀ r ∈ (t.core c).taken, r.names k = false) ∧
      ((s.thread c k).redo = [] ∨ (s.thread c k).after.isSome = true →
        (t.thread c k).pc = (s.thread c k).pc ∧ (t.thread c k).x = (s.thread c k).x) ∧
      (∀ r, (s.thread c k).redo = [r] → (s.thread c k).after = none → (s.thread c k).status = .trapped →
        (s.core c).trapq.any (fun r => r.names k) = false →
        (t.thread c k).pc = r.undo.pc ∧ (t.thread c k).x = r.undo.x ∧ ((t.thread c k).after.map Undo.pc) = some (s.thread c k).pc) ∧
      ((s.core c).trapq.any (fun r => r.names k) = true → (t.thread c k).status = (s.thread c k).status) ∧
      ((s.core c).trapq.any (fun r => r.names k) = false → (s.thread c k).status = .trapped →
        (t.thread c k).status = .ready ∧ (t.thread c k).stepping = step))

/-- R249: `qmap` binds a port to a free end of a queue on the stage's side, or to a ring handle on its side, and marks the
end as held; `qunmap` releases it. Neither moves an entry or changes the port's register.
R50, R237, R250 to R253: tokens and looks at a port. `qtok` appends a token to a queue with room and parks at a full one;
`qbtok` takes a token of its level or above and jumps, and falls through on any other entry; `qpeek` gives the head's value
or minus its level and moves nothing; `qstat` gives the counts of a queue. -/
def Obligations.queue_forms : Prop :=
  (∀ (s s1 : State) (p num : Reg) (out : Bool) (q : RQueue) (r : Ring) (b : Binding), 24 ≤ p.toNat →
     (s.me.binding p = none →
       (does (nameQueue num out) s q s1 →
         exec (.qmap p false out num) s = .next (State.retire ((s1.updHere fun x => x.updQueue q.id fun q =>
           if out then { q with prod := some (.inl s.issuer.2) } else { q with cons := some (.inl s.issuer.2) }).updMe fun t =>
             t.bind p (some { ring := false, out := out, num := num, obj := q.id })))) ∧
       (does (handleRing (num.setWidth 3) out) s r s → s.ringEndHeld r.id out = false →
         exec (.qmap p true out num) s = .next (State.retire (s.updMe fun t =>
           t.bind p (some { ring := true, out := out, num := num, obj := r.id }))))) ∧
     (s.me.binding p = some b → b.ring = false →
       exec (.qunmap p) s = .next (State.retire ((s.updHere fun x => x.updQueue b.obj fun q =>
         if b.out then { q with prod := none } else { q with cons := none }).updMe fun t => t.bind p none))) ∧
     (s.me.binding p = some b → b.ring = true →
       exec (.qunmap p) s = .next (State.retire (s.updMe fun t => t.bind p none))) ∧
     (s.me.binding p = some b → ∀ ring,
       exec (.qmap p ring out num) s = .next (s.takeTrap s.issuer.1 s.issuer.2 { cause := .illegalOperand })) ∧
     (s.me.binding p = none →
       exec (.qunmap p) s = .next (s.takeTrap s.issuer.1 s.issuer.2 { cause := .illegalOperand }))) ∧
  (∀ (s t : State) (d p : Reg) (level : TokLevel) (off : BitVec 12) (b : Binding) (q : RQueue) (e : QEntry),
     24 ≤ p.toNat → s.me.binding p = some b →
     (b.out = true → b.ring = false → s.here.queue b.obj = some q → s.localStoresOut s.issuer.1 s.issuer.2 = false →
       (q.entries.length < q.depth → exec (.qtok p level) s = .next (State.retire (s.updHere fun x => x.updQueue b.obj fun q =>
         { q with entries := q.entries ++ [{ val := 0, kind := TokLevel.kind level }] }))) ∧
       (q.depth ≤ q.entries.length → exec (.qtok p level) s = .next (s.blockMe (.queueOut b.obj) true))) ∧
     (b.out = false → (b.ring = true → does (checkClaim b.obj) s () s) → does (peekPort b 0) s e s →
       let target := s.me.pc + (off ++ 0#1).signExtend 64
       (target.getLsbD 1 = false → (TokLevel.kind level).level ≤ e.kind.level →
         exec (.qbtok p level off) s = .next ((s.took [p]).jumpTo target)) ∧
       (target.getLsbD 1 = false → e.kind.level < (TokLevel.kind level).level → exec (.qbtok p level off) s = .next s.retire) ∧
       (target.getLsbD 1 = true → exec (.qbtok p level off) s = .next (s.takeTrap s.issuer.1 s.issuer.2
         { cause := .misalignedFetch, addr := target, detail := target })) ∧
       (s.writable d → s.put d (if e.kind = .data then e.val else -(BitVec.ofNat 64 e.kind.level)) = some t →
         exec (.qpeek d p) s = .next t.retire)) ∧
     (b.ring = false → s.here.queue b.obj = some q → s.writable d →
       s.put d (if b.out then BitVec.ofNat 64 ((q.depth - q.entries.length) % 2 ^ 23 * 2 ^ 25)
         else BitVec.ofNat 64 (q.entries.length * 2 ^ 8 + match q.entries.head? with
           | some e => 4 + e.kind.level
           | none => 0)) = some t →
       exec (.qstat d p) s = .next t.retire))

/-- R254, R255: the ring forms of an unreplicated stage: `rwaitf` and `rslot` take nothing, `radvc` takes data entries and
traps on a token, both park behind a thread that parked earlier and finds its entries (R32), `rwaite` waits for room, `radvp`
marks the claimed sequence SKIP, and `rseq` sends its claim and gives what was claimed. -/
def Obligations.ring_forms : Prop :=
  ∀ (s s1 t : State) (d c : Reg) (h : BitVec 3) (n : Word) (r : Ring), s.reads1 c n →
    (does (handleRing h false) s r s → s.myStage.repl ≤ 1 →
      (n.toNat ≤ r.slots →
        ((n = 0 ∨ (s.ringHeld r = false ∧ (s.headEntries r n.toNat).isSome = true)) → exec (.rwaitf h c) s = .next (s.took [c]).retire) ∧
        (n ≠ 0 → s.ringHeld r = true ∨ s.headEntries r n.toNat = none → exec (.rwaitf h c) s = .next ((s.blockMe (.ringIn r.id n.toNat) true))) ∧
        (n = 0 → exec (.radvc h c) s = .next (s.took [c]).retire) ∧
        (∀ l, n ≠ 0 → s.ringHeld r = false → s.headEntries r n.toNat = some l →
          ((∀ p ∈ l, cellKind p.2 = .data) → ∀ last, (l.getLast?).map Prod.fst = some last →
            exec (.radvc h c) s = .next (State.took (s.advanceHead r.id (last + 1) s.issuer.1 s.issuer.2) [c]).retire) ∧
          (∀ p, l.find? (fun p => cellKind p.2 != .data) = some p →
            exec (.radvc h c) s = .next (s.takeTrap s.issuer.1 s.issuer.2
              { cause := .queueToken, detail := BitVec.ofNat 64 (cellKind p.2).level })))) ∧
      (∀ l p, s.writable d → s.me.claim r.id = none → (n.extractLsb' 0 4).toNat ≠ 15 → (n.extractLsb' 4 16).toNat < r.slots →
        s.headEntries r ((n.extractLsb' 4 16).toNat + 1) = some l → l[(n.extractLsb' 4 16).toNat]? = some p →
        (s.took [c]).put d (if cellKind p.2 = .data
          then BitVec.ofNat 64 (ofLe ((p.2.drop (8 + 8 * (n.extractLsb' 0 4).toNat)).take 8))
          else -(BitVec.ofNat 64 (cellKind p.2).level)) = some t →
        exec (.rslot d h c) s = .next t.retire)) ∧
    (does (handleRing h true) s r s →
      (n.toNat ≤ r.slots → r.sequenced = false → (n = 0 ∨ (r.land.isSome = true ∧
          r.next + n.toNat - 1 < r.headAt s.issuer.1 + r.slots)) → exec (.rwaite h c) s = .next (s.took [c]).retire) ∧
      (r.sequenced = true → n = 1 → does (ringPut r.id .data true (List.replicate 120 0)) s () s1 →
        exec (.radvp h c) s = .next (s1.took [c]).retire) ∧
      (r.sequenced = true → n = 0 → exec (.radvp h c) s = .next (s.took [c]).retire)) ∧
    (does (handleRing h false) s r s → s.writable d →
      (s.me.prog.data = none →
        let m := s.post1 s.issuer.1 s.issuer.2 none (.claim r.id)
        exec (.rseq d h) s = .next ((m.2.atStage 1 [m.1]).blockMe .ringClaim true)) ∧
      (∀ v, s.me.prog.data = some v → s.put d (BitVec.ofNat 64 (ofLe v)) = some t → exec (.rseq d h) s = .next t.retire))

/-- R256: `send` sends its value and parks, and completes once the value is accepted; a target id above 20,479 is an illegal
operand. `mrecv` takes a full message register and parks at an empty one; `mtest` looks. -/
def Obligations.message_forms : Prop :=
  ∀ (s t : State) (d a b : Reg) (m : BitVec 3) (x y : Word),
    (s.reads2 a b x y →
      (s.me.prog.data.isSome = true → exec (.send m a b) s = .next (s.took [a, b]).retire) ∧
      (∀ h : x.toNat < 20480, s.me.prog.data = none → s.localStoresOut s.issuer.1 s.issuer.2 = false →
        let r := s.post1 s.issuer.1 s.issuer.2 none (.send ⟨x.toNat, h⟩ m.toFin y)
        exec (.send m a b) s = .next ((r.2.atStage 1 [r.1]).blockMe .sendRetry true)) ∧
      (20480 ≤ x.toNat → s.me.prog.data = none →
        exec (.send m a b) s = .next (s.takeTrap s.issuer.1 s.issuer.2 { cause := .illegalOperand }))) ∧
    (s.writable d →
      (s.me.mfull.getLsbD m.toNat = true →
        (s.updMe fun u => { u with mfull := u.mfull &&& ~~~(1#8 <<< m.toNat) }).put d (s.me.m.get m.toFin) = some t →
        exec (.mrecv d m) s = .next t.retire) ∧
      (s.me.mfull.getLsbD m.toNat = false → exec (.mrecv d m) s = .next (s.blockMe (.message m.toFin) true)) ∧
      (s.put d (if s.me.mfull.getLsbD m.toNat then 1 else 0) = some t → exec (.mtest d m) s = .next t.retire))

/-- R257: `spawn` copies a well-formed task record from the thread's allotment to the tail of the core's deque, with the
child's depth one above the thread's, and gives 0 for an ordinary entry, where no other thread of the core has stopped for one.
R26, R258, R259, R261, R262, R320: `tret` frees the slot once the thread's tile operations are complete, and in slot 15
starts the supervisor again; `yield` waits; `align` parks, or releases the set with its last member; `ipf` never traps and
completes. -/
def Obligations.thread_forms : Prop :=
  (∀ (s : State) (d a : Reg) (aff : Affinity) (x : Word) (record : TaskRec), s.reads1 a x → s.writable d →
     x.toNat % 32 = 0 → x.toNat + 32 ≤ 0x80000 → s.me.allots s.issuer.2 x.toNat 32 = true →
     taskRecord (s.here.spad.read x.toNat 32) = some record → s.localStoresOut s.issuer.1 s.issuer.2 = false →
     (s.here.deque.filter fun e => e.reserved == none).length < 56 →
     (∀ j, j ≠ s.issuer.2 → (s.thread s.issuer.1 j).stopsFor (· == .deque) = false) →
     ∃ (u : State) (e : DequeEntry), u.here.deque = s.here.deque ++ [e] ∧ e.record = record ∧ e.depth = s.me.depth + 1 ∧
       e.aff = aff ∧ e.ctx = s.me.hctx ∧ e.reserved = none ∧ u.me = s.me ∧ u.mem = s.mem ∧
       ∀ t, (u.took [a]).put d 0 = some t → exec (.spawn d a aff) s = .next t.retire) ∧
  (∀ (s : State) (a : Reg) (x : Word) (id count : BitVec 4),
     (s.issuer.2 ≠ 15 → s.tileQuiet s.issuer.1 s.issuer.2 none = true →
       exec .tret s = .next (s.leave s.issuer.1 s.issuer.2)) ∧
     (s.issuer.2 = 15 → ∃ t, exec .tret s = .next t ∧ t.me.status = .ready ∧
       t.me.pc = (s.ctxs.get s.me.hctx).sventry ∧ (s.ctxs.get s.me.hctx).svarg = t.x 10 ∧
       t.here.trapq = s.here.taken ++ s.here.trapq ∧ t.here.taken = []) ∧
     (s.issuer.2 ≠ 15 → s.tileQuiet s.issuer.1 s.issuer.2 none = false →
       exec .tret s = .next (s.blockMe (.tileOps none) false)) ∧
     (exec .yield s = .next (s.blockMe .yield false)) ∧
     (s.me.alignSet = some id → ∃ t, exec (.align id) s = .next t ∧
       ((∃ p ∈ s.alignMembers (clusterOf s.issuer.1) s.me.hctx id, p ≠ s.issuer ∧
           ∀ pc, (s.thread p.1 p.2).parkedAlign id pc = false) →
         t.me.status = .parked (.align id s.me.pc) ∧ t.me.pc = s.me.pc ∧ t.me.instret = s.me.instret) ∧
       ((∀ p ∈ s.alignMembers (clusterOf s.issuer.1) s.me.hctx id, p ≠ s.issuer →
           (s.thread p.1 p.2).parkedAlign id s.me.pc = true ∧ (s.thread p.1 p.2).pc = s.me.pc) →
         s.me.inRep = false → s.me.stepping = false → s.me.redo = [] →
         t.me.status = .ready ∧ t.me.pc = s.me.pc + 4 ∧ t.me.instret = s.me.instret + 1)) ∧
     (s.reads1 a x → ∃ u, exec (.ipf a count) s = .next (State.took u [a]).retire ∧
       u = (List.range (count.toNat + 1)).foldl (fun s i => s.askLine ((x.toNat / 128 * 128 + 128 * i) % 2 ^ 64)) s))

/-- R260: a member's `reduce.f32` sends its vector in packets of at most 256 bytes under the core's next episode number, and
completes, the episode number one higher, when they have arrived. -/
def Obligations.reducing : Prop :=
  ∀ (s : State) (v a : Reg) (tree : BitVec 4) (x : Word) (r : TreeRec) (i : Nat), s.reads1 a x →
    s.myTree tree = some r → r.members.findIdx? (fun c => c.val == s.me.coreNo.toNat) = some i →
    (i = 0 → x.toNat % 16 = 0 ∧ x.toNat + (64 + s.me.footprint) ≤ 0x80000 ∧
      s.me.allots s.issuer.2 x.toNat (64 + s.me.footprint) = true ∧ s.intoLanding x.toNat (64 + s.me.footprint) = false) →
    s.me.footprint % 4 = 0 → v.toNat < s.me.vcount.toNat → s.vplain [v] →
    (s.me.prog.stage = 1 → exec (.reduce v tree a) s = .next (State.took (s.updHere fun c =>
      { c with episodes := c.episodes.set tree.toFin (c.episodes.get tree.toFin + 1) }) [a]).retire) ∧
    (s.me.prog.stage = 0 → s.reducing tree.toFin = false → ∃ t, exec (.reduce v tree a) s = .next t ∧
      t.me.status = .waiting .msgs ∧ (t.net.drop s.net.length).map Msg.body =
        (List.range (ceilDiv s.me.footprint 256)).map fun p =>
          .reduce tree.toFin (s.here.episodes.get tree.toFin) i (256 * p) s.me.footprint
            (words32 (((bytesOf (s.me.getV v) 0 s.me.footprint).drop (256 * p)).take 256)))

/-- R183, R184, R189, R195 to R197: a governed vector form with legal, arrived operands completes; every active element takes
the form's result, every other element, and every byte beyond the elements, keeps its value, and no other register, vector,
integer, mask, message or control register, thread or byte of storage changes. An operand group that is not legal, or that the
destination meets, traps. R182: elements written to a group read back, the group's other bits keep their values, and no
register outside the group changes. The rounding of vexp2 and vlog2 is read by inference (log entry 8). -/
def Obligations.vector_forms : Prop :=
  (∀ (i : Instr) (F : VecForm) (s : State), vecForm i = some F → s.me.footprint ≤ 512 → s.me.redo = [] →
     let n := s.me.footprint * 8 / F.w
     let srcs := F.srcs.map fun r => (r, F.w)
     (s.vOk n (some (F.d, F.w)) srcs → ∃ t, exec i s = .next t ∧
       (∀ j < n, t.vElem F.d F.w j =
         if (s.me.getK F.k).getLsbD j then F.f (F.srcs.map fun r => s.vElem r F.w j) (s.vElem F.d F.w j)
         else s.vElem F.d F.w j) ∧
       (t.me.getV F.d).toNat / 2 ^ (F.w * n) = (s.me.getV F.d).toNat / 2 ^ (F.w * n) ∧
       (∀ r, r ≠ F.d → t.me.getV r = s.me.getV r) ∧ Thread.sameRest { s.me with v := t.me.v } t.me ∧
       State.sameOutside s t ∧ State.sameCores s t) ∧
     (¬ s.vLegal n (some (F.d, F.w)) srcs →
       exec i s = .next (s.takeTrap s.issuer.1 s.issuer.2 { cause := .illegalOperand }))) ∧
  (∀ (t : Thread) (n : Nat) (d : Reg) (w : Nat) (f : Nat → Option Nat), 0 < w → d.toNat + spanOf n w ≤ 32 →
     (∀ j < n, ∀ x, f j = some x → x < 2 ^ w) →
     let u := t.vPut n (d, w) f
     let g := spanOf n w
     (∀ j < n, elemAt (u.groupBits d g) w j = (f j).getD (elemAt (t.groupBits d g) w j)) ∧
     u.groupBits d g / 2 ^ (w * n) = t.groupBits d g / 2 ^ (w * n) ∧
     (∀ r : Reg, r.toNat < d.toNat ∨ d.toNat + g ≤ r.toNat → u.getV r = t.getV r) ∧ { u with v := t.v } = t)

/-- R184, R198, R199, R210: a compare writes the active bits of kd, keeps the inactive ones below n and clears the rest;
`vsel` selects bit for bit; the mask forms act on all 512 bits, k0 reading as ones. -/
def Obligations.masks_and_compares : Prop :=
  ∀ (s : State) (ty : VType) (c : Cond) (kd ka kb k : BitVec 3) (d a b : Reg) (x : Word),
    let w := VType.bits ty
    let n := s.me.footprint * 8 / w
    (s.vOk n none [(a, w), (b, w)] → s.me.footprint ≤ 512 → kd ≠ 0 →
      ∃ m : KReg, exec (.vcmp ty c kd a b k) s = .next (s.updMe fun t => t.setK kd m).retire ∧
        ∀ j < 512, m.getLsbD j = (decide (j < n) &&
          if (s.me.getK k).getLsbD j then condHolds ty c (s.vElem a w j) (s.vElem b w j)
          else (s.me.getK kd).getLsbD j)) ∧
    (s.vOk n (some (d, w)) [(a, w), (b, w)] →
      exec (.vsel ty d a b k) s = .next (s.vWrote n (d, w) fun j =>
        some (if (s.me.getK k).getLsbD j then s.vElem a w j else s.vElem b w j))) ∧
    s.me.getK 0 = BitVec.allOnes 512 ∧
    exec (.kand kd ka kb) s = .next (s.updMe fun t => t.setK kd (s.me.getK ka &&& s.me.getK kb)).retire ∧
    exec (.kor kd ka kb) s = .next (s.updMe fun t => t.setK kd (s.me.getK ka ||| s.me.getK kb)).retire ∧
    exec (.kxor kd ka kb) s = .next (s.updMe fun t => t.setK kd (s.me.getK ka ^^^ s.me.getK kb)).retire ∧
    exec (.knot kd ka) s = .next (s.updMe fun t => t.setK kd (~~~(s.me.getK ka))).retire ∧
    exec (.kmv kd ka) s = .next (s.updMe fun t => t.setK kd (s.me.getK ka)).retire ∧
    (s.reads1 a x → ∃ m : KReg,
      exec (.klen kd a) s = .next (State.took (s.updMe fun t => t.setK kd m) [a]).retire ∧
      ∀ j < 512, m.getLsbD j = decide (j < x.toNat))

/-- R172, R173, R204, R209: a reduction writes element 0 with the tree's result over the elements, identities standing for
the inactive ones; a scan writes the active prefixes; a sort places the active elements of each row, in ascending order
with NaNs canonical and last, into the row's active positions. -/
def Obligations.reductions_and_sorts : Prop :=
  ∀ (s : State) (ty : VType) (op : RedOp) (k : BitVec 3) (d a : Reg),
    let w := VType.bits ty
    let n := s.me.footprint * 8 / w
    let m := s.me.getK k
    let l := s.me.vElems n (a, w)
    let c := s.me.rbytes.toNat * 8 / w
    s.vOk n (some (d, w)) [(a, w)] →
      (∃ r, exec (.vred ty op d a k) s = .next (s.vWrote n (d, w) fun j => if j = 0 then some r else none) ∧
        r = reduceElems ty op (l.mapIdx fun j x => if m.getLsbD j then x else redIdentity ty op)) ∧
      (exec (.vscan ty op d a k) s = .next (s.vWrote n (d, w) fun j =>
        if m.getLsbD j then
          ((scanElems (redStep ty op) (l.mapIdx fun j x => if m.getLsbD j then x else redIdentity ty op) none)[j]?).map
            (canon ty)
        else none)) ∧
      (∃ g : Nat → Option Nat, exec (.vsort ty d a k) s = .next (s.vWrote n (d, w) g) ∧
        (∀ j, m.getLsbD j = false → g j = none) ∧
        ∀ r < s.me.rows.toNat,
          let js := (List.range c).filter fun i => m.getLsbD (r * c + i)
          (js.map fun i => (g (r * c + i)).getD 0).Pairwise (fun x y => sortKey ty x ≤ sortKey ty y) ∧
          (js.map fun i => (g (r * c + i)).getD 0).Perm (js.map fun i => canon ty (l.getD (r * c + i) 0)))

/-- R205 to R208: the rearrangements copy elements bit for bit: `vtrn` transposes the grid, `vcomp` packs the active
elements and clears the rest, `vexpd` unpacks into the active positions, `vrot` rotates, `vmatch` looks up. Operands that are
not legal, the destination meeting a source among them, trap. -/
def Obligations.rearrangements : Prop :=
  ∀ (s : State) (ty : VType) (size : ElemSize) (k : BitVec 3) (d a b : Reg) (x : Word),
    (let w := VType.bits ty
     let n := s.me.footprint * 8 / w
     let m := s.me.getK k
     let l := s.me.vElems n (a, w)
     let c := s.me.rbytes.toNat * 8 / w
     let rank := fun j => ((List.range j).filter fun i => m.getLsbD i).length
     s.vOk n (some (d, w)) [(a, w)] →
      exec (.vtrn ty d a k) s = .next (s.vWrote n (d, w) fun j =>
        if m.getLsbD j then l[j % s.me.rows.toNat * c + j / s.me.rows.toNat]? else none) ∧
      (∃ g : Nat → Nat, exec (.vcomp ty d a k) s = .next (s.vWrote n (d, w) fun j => some (g j)) ∧
        (∀ j < n, m.getLsbD j = true → g (rank j) = l.getD j 0) ∧ ∀ j, rank n ≤ j → g j = 0) ∧
      exec (.vexpd ty d a k) s = .next (s.vWrote n (d, w) fun j =>
        if m.getLsbD j then l[rank j]? else none)) ∧
    (let w := VType.bits ty
     ¬ s.vLegal (s.me.footprint * 8 / w) (some (d, w)) [(a, w)] → ∀ i ∈ [Instr.vtrn ty d a k, .vcomp ty d a k, .vexpd ty d a k],
       exec i s = .next (s.takeTrap s.issuer.1 s.issuer.2 { cause := .illegalOperand })) ∧
    (let w := 8 * ElemSize.bytes size
     let n := s.me.footprint / ElemSize.bytes size
     s.me.footprint % ElemSize.bytes size = 0 → s.me.footprint ≤ 512 →
      (s.vOk n (some (d, w)) [(a, w)] → s.reads1 b x →
        exec (.vrot size d a b) s = .next (State.took (s.updMe fun t => t.vPut n (d, w) fun j =>
          some (s.vElem a w ((j + x.toNat % n) % n))) [b]).retire) ∧
      (s.vOk n (some (d, w)) [(a, w), (b, w)] → n ≤ 2 ^ w - 2 →
        ∃ g : Nat → Nat, exec (.vmatch size d a b) s = .next (s.vWrote n (d, w) fun j => some (g j)) ∧
          ∀ j < n, (g j < n ∧ s.vElem b w (g j) = s.vElem a w j ∧ ∀ i < g j, s.vElem b w i ≠ s.vElem a w j) ∨
            (g j = 2 ^ w - 1 ∧ ∀ i < n, s.vElem b w i ≠ s.vElem a w j)) ∧
      (2 ^ w - 2 < n ∨ ¬ s.vLegal n (some (d, w)) [(a, w), (b, w)] → exec (.vmatch size d a b) s =
        .next (s.takeTrap s.issuer.1 s.issuer.2 { cause := .illegalOperand })) ∧
      (¬ s.vLegal n (some (d, w)) [(a, w)] → exec (.vrot size d a b) s =
        .next (s.takeTrap s.issuer.1 s.issuer.2 { cause := .illegalOperand })))

/-- R168, R200, R201, R211, R212: a conversion rounds every element once by its code; a stochastic code draws one output for
every element in ascending order, and the others draw none. `vqnt` scales blocks of 256, saturates, and writes the scale bytes
into the register after its destination; `vdq` reads them from the register after its source. That vdq under a stochastic code
draws for elements of a block with scale 0xFF too is read by inference (log entry 9). -/
def Obligations.conversions : Prop :=
  ∀ (s : State) (d a : Reg) (conv : Conv) (nf : NarrowFmt) (wide : WideType),
    (∀ (i : Instr) (dst src : ElemFmt),
      ((∃ ty, i = .vcvt ty conv src d a ∧ dst = Sys2Proof.VType.fmt ty) ∨
        (i = .vcvtNarrow nf conv wide d a ∧ dst = NarrowFmt.elem nf ∧ src = WideType.elem wide)) →
      let wd := fmtBits dst
      let ws := fmtBits src
      let n := s.me.footprint * 8 / min wd ws
      let draws := drawAll s.me.gens n fun _ => isStochastic conv
      sixBitOk s.me dst = true → sixBitOk s.me src = true → s.vOk n (some (d, wd)) [(a, ws)] →
      exec i s = .next (State.retire (s.updMe fun t => { t.vPut n (d, wd) (fun j =>
        some (convert dst conv (draws.1.getD j 0) (fmtValue src ((s.me.vElems n (a, ws)).getD j 0)))) with gens := draws.2 }))) ∧
    (let wn := fmtBits (NarrowFmt.elem nf)
     let ww := fmtBits (WideType.elem wide)
     let n := s.me.footprint * 8 / wn
     let g := spanOf n wn
     sixBitOk s.me (NarrowFmt.elem nf) = true →
      (let l := (s.me.vElems n (a, ww)).map (fmtValue (WideType.elem wide))
       let scale := fun b => blockScale (narrowEmax nf) ((l.drop (256 * b)).take 256)
       let draws := drawAll s.me.gens n fun j => isStochastic conv && scale (j / 256) != 255
       let sr : Reg := d + BitVec.ofNat 5 g
       s.vOk n (some (d, wn)) [(a, ww)] → d.toNat + g < s.me.vcount.toNat → groupsMeet sr 1 a (spanOf n ww) = false →
       s.vplain [sr] →
       exec (.vqnt nf conv wide d a) s = .next (State.retire (s.updMe fun t =>
        let u := t.vPut n (d, wn) fun j => some (if scale (j / 256) = 255 then 0
          else convertSat (NarrowFmt.elem nf) conv (draws.1.getD j 0) ((l.getD j .nan).scale (127 - scale (j / 256))))
        let v := u.setV sr (putBytes (u.getV sr) 0 ((List.range (ceilDiv n 256)).map fun b => BitVec.ofNat 8 (scale b)))
        { v with gens := draws.2 }))) ∧
      (let scale := fun b => ((bytesOf (s.me.getV (a + BitVec.ofNat 5 g)) 0 (ceilDiv n 256)).getD b 0).toNat
       let draws := drawAll s.me.gens n fun _ => isStochastic conv
       let sr : Reg := a + BitVec.ofNat 5 g
       s.vOk n (some (d, ww)) [(a, wn)] → a.toNat + g < s.me.vcount.toNat → groupsMeet sr 1 d (spanOf n ww) = false →
       s.vplain [sr] →
       exec (.vdq nf conv wide d a) s = .next (State.retire (s.updMe fun t => { t.vPut n (d, ww) (fun j =>
         some (convert (WideType.elem wide) conv (draws.1.getD j 0) (if scale (j / 256) = 255 then .nan
           else (fmtValue (NarrowFmt.elem nf) ((s.me.vElems n (a, wn)).getD j 0)).scale (scale (j / 256) - 127)))) with
         gens := draws.2 }))))

/-- R181, R194: `vshape` sets SHAPE within its limits and traps outside them; `vbc`, `vins` and `vext` place values between
integer and vector registers; an index at or past n, or a footprint that is no multiple of the size, traps. -/
def Obligations.vector_moves : Prop :=
  ∀ (s t : State) (size : ElemSize) (u : Bool) (d a b : Reg) (x y : Word),
    let e := ElemSize.bytes size
    let n := s.me.footprint / e
    (s.reads2 a b x y →
      (1 ≤ x.toNat ∧ x.toNat ≤ 128 ∧ 4 ≤ y.toNat ∧ y.toNat ≤ 512 ∧ y.toNat % 4 = 0 ∧ x.toNat * y.toNat ≤ 512 →
        ∃ u, exec (.vshape a b) s = .next (State.took u [a, b]).retire ∧ u.me.rows.toNat = x.toNat ∧
          u.me.rbytes.toNat = y.toNat ∧ u = s.updMe fun t => { t with rows := u.me.rows, rbytes := u.me.rbytes }) ∧
      (¬ (1 ≤ x.toNat ∧ x.toNat ≤ 128 ∧ 4 ≤ y.toNat ∧ y.toNat ≤ 512 ∧ y.toNat % 4 = 0 ∧ x.toNat * y.toNat ≤ 512) →
        exec (.vshape a b) s = .next (s.takeTrap s.issuer.1 s.issuer.2 { cause := .illegalOperand }))) ∧
    (s.me.footprint % e = 0 → s.vOk n (some (d, 8 * e)) [] →
      (s.reads1 a x → exec (.vbc size d a) s = .next (State.took (s.updMe fun t =>
        t.vPut n (d, 8 * e) fun _ => some (x.toNat % 2 ^ (8 * e))) [a]).retire) ∧
      (s.reads2 a b x y →
        (y.toNat < n → exec (.vins size d a b) s = .next (State.took (s.updMe fun t =>
          t.vPut n (d, 8 * e) fun j => if j = y.toNat then some (x.toNat % 2 ^ (8 * e)) else none) [a, b]).retire) ∧
        (n ≤ y.toNat → exec (.vins size d a b) s =
          .next (s.takeTrap s.issuer.1 s.issuer.2 { cause := .illegalOperand })))) ∧
    (s.me.footprint % e = 0 → s.me.footprint ≤ 512 → s.vOk n none [(a, 8 * e)] → s.reads1 b y → s.writable d →
      (y.toNat < n → (s.took [b]).put d (let v := BitVec.ofNat 64 (s.vElem a (8 * e) y.toNat)
          if u then v else (v <<< (64 - 8 * e)).sshiftRight (64 - 8 * e)) = some t →
        exec (.vext size u d a b) s = .next t.retire) ∧
      (n ≤ y.toNat → exec (.vext size u d a b) s =
        .next (s.takeTrap s.issuer.1 s.issuer.2 { cause := .illegalOperand }))) ∧
    (s.me.footprint % e ≠ 0 →
      ∀ i ∈ [Instr.vbc size d a, .vins size d a b, .vext size u d a b, .vrot size d a b, .vmatch size d a b],
        exec i s = .next (s.takeTrap s.issuer.1 s.issuer.2 { cause := .illegalOperand }))

/-- R192, R193: the vector loads and stores move rows of the shape, or elements at signed offsets. Under `.loc` they move
4-byte words of the allotment at once, and words of vaults by requests; a global load whose pieces are not all there leaves vd
outstanding and goes on; a global store into normal pages whose sectors the L1D holds writes them there, the parts in order,
and enters their lines in the write signature; an address or a stride that is no multiple of 4 traps. That ADDR is the second
row's address when only the stride is no multiple of 4 is the model's choice (log entry 88). -/
def Obligations.vector_loads_and_stores : Prop :=
  ∀ (s : State) (v a b : Reg) (hint : Hint) (x y : Word),
    let stride : Int := if b = 0 then s.me.rbytes.toNat else y.toInt
    let row := fun r => (x + BitVec.ofInt 64 ((r : Nat) * stride)).toNat
    let ok := fun n => n + 4 ≤ 0x80000 ∧ s.me.allots s.issuer.2 n 4 = true ∧ (s.issuer.2 = 15 → s.here.inLanding n 4 = false)
    s.me.groupOk v 1 = true → s.vplain [v] → s.me.prog.data = none → s.me.prog.stage = 0 →
    (s.reads2 a b x y → x.toNat % 4 = 0 → stride % 4 = 0 → s.me.rbytes.toNat % 4 = 0 → s.me.footprint ≤ 512 →
      (∀ r < s.me.rows.toNat, ∀ i < s.me.rbytes.toNat / 4, ok (row r + 4 * i)) →
      (∃ w : VReg, exec (.vld v a b hint true) s = .next (State.took (s.updMe fun t => t.setV v w) [a, b]).retire ∧
        (∀ r < s.me.rows.toNat, ∀ i < s.me.rbytes.toNat,
          bytesOf w (r * s.me.rbytes.toNat + i) 1 = [s.here.spad.read1 (row r + i)]) ∧
        ∀ i < 512, s.me.footprint ≤ i → bytesOf w i 1 = bytesOf (s.me.getV v) i 1) ∧
      exec (.vst v a b hint true) s = .next (State.took (s.updHere fun c =>
        (List.range s.me.rows.toNat).foldl (fun c r => (List.range (s.me.rbytes.toNat / 4)).foldl (fun c i =>
          c.writeSpad (row r + 4 * i) (bytesOf (s.me.getV v) (r * s.me.rbytes.toNat + 4 * i) 4)) c) c) [a, b]).retire) ∧
    (s.reads1 a x → s.me.groupOk b 1 = true → s.vplain [b] → s.me.footprint ≤ 512 →
      let ea := fun j => (x + ((s.me.getV b).extractLsb' (32 * j) 32).signExtend 64).toNat
      (∀ j < s.me.footprint / 4, ea j % 4 = 0 ∧ ok (ea j)) →
      (b ≠ v → ∃ w : VReg, exec (.vldx v a b hint true) s = .next (State.took (s.updMe fun t => t.setV v w) [a]).retire ∧
        (∀ j < s.me.footprint / 4, bytesOf w (4 * j) 4 = s.here.spad.read (ea j) 4)) ∧
      exec (.vstx v a b hint true) s = .next (State.took (s.updHere fun c =>
        (List.range (s.me.footprint / 4)).foldl (fun c j => c.writeSpad (ea j) (bytesOf (s.me.getV v) (4 * j) 4)) c)
        [a]).retire) ∧
    (s.reads2 a b x y → x.toNat % 4 = 0 → stride % 4 = 0 → s.me.holdsAt [a, b] = false → ∀ (ps : List Piece) (s1 : State),
      does (loadRuns hint true (rowRuns s.me x stride)) s (ps, false) s1 → (∃ p ∈ ps, p.msg.isSome = true) →
      ∃ l : PendLoad, l.dst = .v v ∧ l.pieces = ps ∧
        exec (.vld v a b hint false) s = .next (State.took (s1.updMe fun t =>
          { t with loads := t.loads ++ [l], vpend := t.vpend ||| (1 <<< v.toNat) }) [a, b]).retire) ∧
    (s.reads1 a x → s.me.groupOk b 1 = true → s.vplain [b] → s.me.holdsAt [a] = false →
      let es := (List.range (s.me.footprint / 4)).map fun j =>
        (x + ((s.me.getV b).extractLsb' (32 * j) 32).signExtend 64).toNat
      (∀ e ∈ es, e % 4 = 0) → b ≠ v → ∀ (loc : Bool) (ps : List Piece) (s1 : State),
      (if loc then does (loadWordsLoc (es.mapIdx fun j e => (e, 4 * j))) s ps s1
        else does (loadRuns hint false (es.mapIdx fun j e => (e, 4 * j, 4))) s (ps, false) s1) →
      (∃ p ∈ ps, p.msg.isSome = true) →
      ∃ l : PendLoad, l.dst = .v v ∧ l.pieces = ps ∧
        exec (.vldx v a b hint loc) s = .next (State.took (s1.updMe fun t =>
          { t with loads := t.loads ++ [l], vpend := t.vpend ||| (1 <<< v.toNat) }) [a]).retire) ∧
    (s.reads2 a b x y → x.toNat % 4 = 0 → stride % 4 = 0 → s.me.holdsAt [a, b] = false → ∀ (ps : List Piece) (s1 : State),
      does (loadWordsLoc (rowWords s.me x stride)) s ps s1 → (∃ p ∈ ps, p.msg.isSome = true) →
      ∃ l : PendLoad, l.dst = .v v ∧ l.pieces = ps ∧
        exec (.vld v a b hint true) s = .next (State.took (s1.updMe fun t =>
          { t with loads := t.loads ++ [l], vpend := t.vpend ||| (1 <<< v.toNat) }) [a, b]).retire) ∧
    (∀ (s1 : State) (ps : List StorePart), s1.me.prog.stage = 0 → (∀ p ∈ ps, p.m.ty = .normal ∧
        s1.here.l1Valid (p.m.pa / 128) (p.m.pa % 128 / 32) = true) →
      let stored := (ps.foldl (s1.storePart hint) (s1, [])).1.updMe fun t =>
        { t with wsig := ps.foldl (fun g p => g ||| lineSig (p.m.pa / 128)) t.wsig }
      (s.reads2 a b x y → x.toNat % 4 = 0 → stride % 4 = 0 →
        does (mapStores false true ((rowRuns s.me x stride).map fun r =>
          (r.1, bytesOf (s.me.getV v) r.2.1 r.2.2))) s ps s1 →
        exec (.vst v a b hint false) s = .next (State.took stored [a, b]).retire) ∧
      (s.reads1 a x → s.me.groupOk b 1 = true → s.vplain [b] →
        let es := (List.range (s.me.footprint / 4)).map fun j =>
          (x + ((s.me.getV b).extractLsb' (32 * j) 32).signExtend 64).toNat
        (∀ e ∈ es, e % 4 = 0) →
        does (mapStores false false (es.mapIdx fun j e => (e, bytesOf (s.me.getV v) (4 * j) 4))) s ps s1 →
        exec (.vstx v a b hint false) s = .next (State.took stored [a]).retire)) ∧
    (s.reads2 a b x y → x.toNat % 4 = 0 → stride % 4 = 0 → ∀ s1,
      does (storeWordsLoc ((rowWords s.me x stride).map fun w => (w.1, bytesOf (s.me.getV v) w.2 4))) s () s1 →
      exec (.vst v a b hint true) s = .next (s1.took [a, b]).retire) ∧
    (s.reads2 a b x y → x.toNat % 4 = 0 → stride % 4 ≠ 0 → ∀ loc,
      exec (.vld v a b hint loc) s =
        .next (s.takeTrap s.issuer.1 s.issuer.2 { cause := .misaligned, addr := x + BitVec.ofInt 64 stride }) ∧
      exec (.vst v a b hint loc) s = .next (s.takeTrap s.issuer.1 s.issuer.2
        { cause := .misaligned, addr := x + BitVec.ofInt 64 stride, write := true })) ∧
    (s.reads2 a b x y → x.toNat % 4 ≠ 0 → ∀ loc,
      exec (.vld v a b hint loc) s = .next (s.takeTrap s.issuer.1 s.issuer.2 { cause := .misaligned, addr := x }) ∧
      exec (.vst v a b hint loc) s =
        .next (s.takeTrap s.issuer.1 s.issuer.2 { cause := .misaligned, addr := x, write := true }))

/-- R264 to R267, R275, R280 to R284: a tile instruction whose operands check places its operation, with the scales, group
size and code of the thread's registers, at the tail of the queues of its destination's sub-arrays, and completes; `tcfg`
claims or frees sub-arrays once the thread's operations are complete; `twait` completes when an accumulator is quiet. A thread
without a claim claims its destination's sub-array with the operation; a chained product or a move whose source is its
destination traps. -/
def Obligations.tile_forms : Prop :=
  ∀ (s s1 t : State) (ty ta tb : TileType) (ga gb : Bool) (acc src a b : Reg) (x y : Word) (m : TileMode) (ks : Nat) (op : TileOp),
    (s.myClaim ≠ [] → s.tileRoom op.mode op.acc.val → ∃ u, does (queueOp op) s () u ∧ s.queued u op) ∧
    (does (tileMode acc.toNat []) s (m, ks) s →
      (does (queueOp (s.me.tileOp .zero acc m 1 [])) s () t → exec (.tzero acc) s = .next t.retire) ∧
      (s.reads2 a b x y → does (moveType ty) s ta s →
        let n := m.cols * TileType.width ta / 8
        let stride := if b = 0 then n else y.toNat
        let rows := (List.range m.rows).map fun i => (x.toNat + i * stride) % 2 ^ 64
        x.toNat % 4 = 0 → stride % 4 = 0 → (∀ r ∈ rows, s.me.rowOk s.issuer.2 n r = true) →
        (does (queueOp (s.me.tileOp (.load ta x.toNat stride) acc m 1 [])) s () t →
          exec (.tlda ty acc a b) s = .next (t.took [a, b]).retire) ∧
        (∀ draws, (∀ r ∈ rows, s.intoLanding r n = false) → does (awaitPlace m acc.toNat) s () s → does (tileDraws ta (m.rows * m.cols)) s draws s1 →
          does (queueOp (s.me.tileOp (.store ta x.toNat stride draws) acc m 1 [])) s1 () t →
          exec (.tsta ty acc a b) s = .next (t.took [a, b]).retire)) ∧
      (s.reads2 a b x y → does (productTypes ty) s (ta, tb) s → tilePair ta tb = true →
        let g := s.me.groupSize
        let kAll := ks * ktPair ta tb g
        does (checkOperand ga x (kAll * m.rows * TileType.width ta / 8)) s () s →
        does (checkOperand gb y (kAll * m.cols * TileType.width tb / 8)) s () s →
        does (requireScales ta (wbits s.me.scla 31 0)) s () s → does (requireScales tb (wbits s.me.sclb 31 0)) s () s →
        does (checkScales ta (wbits s.me.scla 31 0) g kAll m.rows) s () s →
        does (checkScales tb (wbits s.me.sclb 31 0) g kAll m.cols) s () s →
        does (checkBase ga x) s () s → does (checkBase gb y) s () s →
        does (queueOp (s.me.tileOp (.mma ta tb ga gb x.toNat y.toNat) acc m ks [])) s () t →
        exec (.tmma ty ga gb acc a b) s = .next (t.took [a, b]).retire)) ∧
    (acc ≠ src → does (tileMode acc.toNat [src.toNat]) s (m, ks) s →
      (does (queueOp (s.me.tileOp (.move src.toFin) acc m 1 (s.writersOf m acc.toNat src.toNat))) s () t →
        exec (.tmov acc src) s = .next t.retire) ∧
      (∀ draws, s.reads1 b y → does (productTypes ty) s (ta, tb) s → tilePair ta tb = true → TileType.grouped ta = false →
        let g := s.me.groupSize
        (TileType.grouped tb = true → m.cols % g = 0) →
        does (checkOperand gb y (m.cols * m.cols * TileType.width tb / 8)) s () s →
        does (requireScales tb (wbits s.me.sclb 31 0)) s () s →
        does (checkScales tb (wbits s.me.sclb 31 0) g m.cols m.cols) s () s → does (checkBase gb y) s () s → does (awaitPlace m acc.toNat) s () s →
        does (tileDraws ta (m.rows * m.cols)) s draws s1 →
        does (queueOp (s.me.tileOp (.mmac ta tb gb src.toFin y.toNat draws) acc m (m.cols / chainKt ta tb g m.cols)
          (s.writersOf m acc.toNat src.toNat))) s1 () t →
        exec (.tmmac ty gb acc src b) s = .next (t.took [b]).retire)) ∧
    (acc = src → exec (.tmov acc src) s = .next (s.takeTrap s.issuer.1 s.issuer.2 { cause := .illegalOperand }) ∧
      exec (.tmmac ty gb acc src b) s = .next (s.takeTrap s.issuer.1 s.issuer.2 { cause := .illegalOperand })) ∧
    (s.myClaim = [] → op.mode = .independent → s.tileRoom op.mode op.acc.val →
      does (awaitSubs (tileSubs op.mode op.acc.val)) s () s →
      ∃ u id, does (queueOp op) s () u ∧ u.cores = s.cores ∧ ∀ i, u.myUnit.tile.get i =
        if i ∈ tileSubs op.mode op.acc.val then
          { (s.myUnit.tile.get i).take s.issuer s.me.hctx .independent 1 with
            queue := (s.myUnit.tile.get i).queue ++ [{ op with id := id }] }
        else s.myUnit.tile.get i) ∧
    ((s.accMode acc.toNat).isSome = true →
      (s.tileQuiet s.issuer.1 s.issuer.2 (some acc.toFin) = true → exec (.twait acc) s = .next s.retire) ∧
      (s.tileQuiet s.issuer.1 s.issuer.2 (some acc.toFin) = false →
        exec (.twait acc) s = .next (s.blockMe (.tileOps (some acc.toFin)) true))) ∧
    (s.accMode acc.toNat = none →
      exec (.twait acc) s = .next (s.takeTrap s.issuer.1 s.issuer.2 { cause := .illegalOperand })) ∧
    (s.reads1 a x → s.tileQuiet s.issuer.1 s.issuer.2 none = true →
      (x = 7 → exec (.tcfg a) s =
        .next (State.took (s.updCluster (clusterOf s.issuer.1) fun u => u.unclaim s.issuer.1 s.issuer.2) [a]).retire) ∧
      (∀ subs, does (awaitSubs subs) s () s → x.toNat / 2 ^ 16 = 0 → x.getLsbD 3 = false →
        let first := wbits x 5 4
        let count := wbits x 7 6
        ((wbits x 2 0 = 0 ∧ m = .independent ∧ first + count ≤ 3 ∧
            subs = (List.finRange 4).filter fun i => first ≤ i.val ∧ i.val ≤ first + count) ∨
          (((wbits x 2 0 = 1 ∧ m = .m1x4) ∨ (wbits x 2 0 = 2 ∧ m = .m2x2) ∨ (wbits x 2 0 = 3 ∧ m = .m4x1)) ∧ first = 0 ∧
            count = 0 ∧ subs = [0, 1, 2, 3])) →
        ∃ u, exec (.tcfg a) s = .next (State.took u [a]).retire ∧ u.cores = s.cores ∧
          (∀ i ∈ subs, (u.myUnit.tile.get i).claim = some s.issuer ∧ (u.myUnit.tile.get i).mode = m ∧
            (u.myUnit.tile.get i).ksteps = wbits x 15 8 + 1 ∧
            ((s.myUnit.tile.get i).lastCtx ≠ some s.me.hctx → (u.myUnit.tile.get i).acc = .replicate 8 0)) ∧
          ∀ i, i ∉ subs → (u.myUnit.tile.get i).claim ≠ some s.issuer))

/-- R279, R285 to R288: a copy whose operands check enters its core's queue and the instruction completes; the source, the
destination, the length and the completion stand in the command. A full queue leaves the thread waiting; a length of 0 or
above 4 MiB traps. `getf` also places its follow-on's operation, which waits for the copy, and skips the follow-on. The
operand order of a copy's destination and completion is the model's choice (log entry 13), and a word behind a getf that is no
tmma or tmmac is read by inference (log entry 31). -/
def Obligations.copy_forms : Prop :=
  ∀ (s s1 s2 : State) (d a b rc : Reg) (ntf : Bool) (vs : List Word) (comp : Completion),
    let regs := [a, b, d] ++ (if rc = 0 then [] else [rc])
    let src := (vs.getD 0 0).toNat
    let n := (vs.getD 1 0).toNat
    let dst := (vs.getD 2 0).toNat
    (s.readsAll regs vs → 1 ≤ n → n ≤ 0x400000 →
      (does (completionOf ntf rc (vs.getD 3 0)) s comp s1 → s1.localStoresOut s1.issuer.1 s1.issuer.2 = false →
        (s.copyRange src n →
          (s1.here.copies < 32 → ∃ t, exec (.put d a b rc ntf) s = .next (State.took t regs).retire ∧
            s1.accepts t (.copy (.glob dst) (.loc src) n s.me.hint false) comp ∧ t.here.spad = s1.here.spad) ∧
          (32 ≤ s1.here.copies → exec (.put d a b rc ntf) s = .next (s.blockMe .copyQueue false))) ∧
        (s.copyRange dst n → s.intoLanding dst n = false →
          (s1.here.copies < 32 → ∃ t, exec (.get d a b rc ntf) s = .next (State.took t regs).retire ∧
            s1.accepts t (.copy (.loc dst) (.glob src) n s.me.hint false) comp ∧ t.here.l1d = s1.here.l1d ∧ t.mem = s1.mem) ∧
          (32 ≤ s1.here.copies → exec (.get d a b rc ntf) s = .next (s.blockMe .copyQueue false)))) ∧
      (s.copyRange src n → dst / 2 ^ 32 ≠ 0 → dst / 2 ^ 36 = 0 →
        let mask : BitVec 4 := BitVec.ofNat 4 (dst / 2 ^ 32)
        let ok := fun p k => s.intoLanding p k = false ∧ ∀ i : Fin 4, mask.getLsbD i.val = true →
          s.spadAllowed .csel (coreIn (clusterOf s.issuer.1) i) p k = true
        ok (dst % 2 ^ 32) n →
        ((rc = 0 ∧ comp = .none) ∨ (rc ≠ 0 ∧ comp = .object (vs.getD 3 0).toNat ∧ (vs.getD 3 0).toNat % 16 = 0 ∧
          ok (vs.getD 3 0).toNat 16)) →
        s.localStoresOut s.issuer.1 s.issuer.2 = false → s.here.copies < 32 →
        ∃ t, exec (.putm d a b rc) s = .next (State.took t regs).retire ∧
          s.accepts t (.multicast mask (dst % 2 ^ 32) src n) comp)) ∧
    (s.readsAll regs vs → n = 0 ∨ 0x400000 < n → ∀ i ∈ [Instr.put d a b rc ntf, .get d a b rc ntf, .putm d a b rc],
      exec i s = .next (s.takeTrap s.issuer.1 s.issuer.2 { cause := .illegalOperand })) ∧
    (∀ (w : BitVec 32) (ty : TileType) (ga gb : Bool) (acc p q : Reg) (op : TileOp), s.me.wordAt (s.me.pc.toNat + 4) = some w →
      s.copyRange dst n → s.intoLanding dst n = false → 1 ≤ n → n ≤ 0x400000 → does (completionOf ntf rc (vs.getD 3 0)) s comp s1 →
      s1.localStoresOut s1.issuer.1 s1.issuer.2 = false → s1.here.copies < 32 →
      let op' := { op with after := some s2.nextId }
      (∀ x y, decode w = .ok (.tmma ty ga gb acc p q) → s.readsAll (regs ++ [p, q]) (vs ++ [x, y]) →
        vs.length = regs.length → (∃ r, does (tmmaForm ty acc) s r s) → does (tmmaOp ty ga gb acc x y) s1 op s2 →
        ∀ u, does (queueOp op') { s2 with nextId := s2.nextId + 1 } () u →
        ∃ t, exec (.getf d a b rc ntf) s = .next (State.jumpTo (State.took t (regs ++ [p, q])) (s.me.pc + 8)) ∧
          u.accepts t (.copy (.loc dst) (.glob src) n s.me.hint true) comp ∧ t.clusters = u.clusters) ∧
      (∀ y, decode w = .ok (.tmmac ty gb acc p q) → s.readsAll (regs ++ [q]) (vs ++ [y]) →
        vs.length = regs.length → (∃ r, does (tmmacForm ty acc p) s r s) → does (tmmacOp ty gb acc p y) s1 op s2 →
        ∀ u, does (queueOp op') { s2 with nextId := s2.nextId + 1 } () u →
        ∃ t, exec (.getf d a b rc ntf) s = .next (State.jumpTo (State.took t (regs ++ [q])) (s.me.pc + 8)) ∧
          u.accepts t (.copy (.loc dst) (.glob src) n s.me.hint true) comp ∧ t.clusters = u.clusters)) ∧
    (∀ w, s.me.wordAt (s.me.pc.toNat + 4) = some w →
      (∀ ty ga gb acc p q, decode w ≠ .ok (.tmma ty ga gb acc p q)) → (∀ ty gb acc p q, decode w ≠ .ok (.tmmac ty gb acc p q)) →
      exec (.getf d a b rc ntf) s = .next (s.takeTrap s.issuer.1 s.issuer.2 { cause := .illegalOperand }))

/-- R290 to R299: the other engine forms. A gather, a scan, a prefetch and the maintenance of the slices are accepted as
commands; `racfg`, `rastart` and `rastat` configure, start and look at the reference accelerator's stream; `crcfg`, `crgo` and
`crstat` do so for the cruiser. The order in which `gath` and `kscan` read their operands, rs1, rs2, rd and then the word rc,
is the model's choice (log entry 13). From what kscan computes TAIL is read by inference (log entry 27). -/
def Obligations.engine_forms : Prop :=
  ∀ (s s1 s2 t : State) (d a b rc : Reg) (hint : Hint) (vs : List Word) (comp : Completion) (x y : Word) (i v : RQueue),
    let regs := [a, b, d] ++ (if rc = 0 then [] else [rc])
    (s.readsAll regs vs →
      let base := (vs.getD 0 0).toNat
      let desc := vs.getD 1 0
      let dst := (vs.getD 2 0).toNat
      (let lsize := wbits desc 50 48
       let list := wbits desc 31 0
       let count := wbits desc 47 32
       base % 2 ^ lsize = 0 → list % 4 = 0 → dst % min (2 ^ lsize) 16 = 0 → count ≠ 0 → wbits desc 63 51 = 0 →
       does (checkLocal list (4 * count) false) s () s → does (checkLocal dst (2 ^ lsize * count) true) s () s →
       does (completionOf false rc (vs.getD 3 0)) s comp s1 → s1.localStoresOut s1.issuer.1 s1.issuer.2 = false →
       ∃ t, exec (.gath d a b rc) s = .next (State.took t regs).retire ∧
         s1.accepts t (.gather dst base lsize count list) comp) ∧
      (∀ p n th fmt abs rsize headp, desc.toNat % 8 = 0 → does (ownSpad desc 32 true) s p s →
       scanDesc (s.here.spad.read p 32) dst base p = some (.scan dst base n th fmt abs rsize headp p) →
       base % scanWidth fmt = 0 → dst % 8 = 0 → headp % 4 = 0 → does (checkLocal dst rsize true) s () s →
       does (checkLocal headp 4 false) s () s → does (completionOf false rc (vs.getD 3 0)) s comp s1 →
       s1.localStoresOut s1.issuer.1 s1.issuer.2 = false →
       ∃ t, exec (.kscan d a b rc) s = .next (State.took t regs).retire ∧
         s1.accepts t (.scan dst base n th fmt abs rsize headp p) comp ∧ t.here.spad = s1.here.spad)) ∧
    (s.reads2 a b x y → s.localStoresOut s.issuer.1 s.issuer.2 = false →
      (let stride := wbits y 63 32
       let rows := wbits y 31 16 + 1
       let lines := wbits y 15 0
       stride % 128 = 0 → lines ≠ 0 → rows * lines ≤ 2 ^ 24 → vaValid x.toNat = true →
       ∃ t, exec (.pft hint a b) s = .next (State.took t [a, b]).retire ∧
         s.accepts t (.prefetch (x.toNat / 128 * 128) stride rows lines hint) .none) ∧
      (vaValid x.toNat = true → y ≠ 0 → y.toNat < 2 ^ 40 →
        (∃ t, exec (.cwb a b) s = .next (State.took t [a, b]).retire ∧ s.accepts t (.clean x.toNat y.toNat false) .none) ∧
        ∃ t, exec (.cinv a b) s = .next (State.took t [a, b]).retire ∧ s.accepts t (.clean x.toNat y.toNat true) .none) ∧
      (vaValid x.toNat = true → y = 0 → ∀ i ∈ [Instr.cwb a b, .cinv a b], exec i s = .next (s.took [a, b]).retire)) ∧
    (s.reads2 a b x y → y ∈ [1, 2, 4, 8] → x.toNat % y.toNat = 0 → vaValid x.toNat = true → s.myStream = none →
      exec (.racfg a b) s = .next (State.took (s.updMe fun t => { t with racfg := some (x, y.toNat) }) [a, b]).retire) ∧
    (∀ base size, s.me.racfg = some (base, size) → s.myStream = none → does (nameQueue a false) s i s1 →
      does (nameQueue b true) s1 v s2 →
      (s.myUnit.accel = none → s.firstOfCluster s.issuer.1 s.issuer.2 (fun b => b == .accel) = true →
        ∃ t : State, exec (.rastart a b) s = .next t.retire ∧ t.me = s2.me ∧
          ∃ st : Stream, t.myUnit.accel = some st ∧ st.core = s.issuer.1 ∧ st.slot = s.issuer.2 ∧ st.qi = i.id ∧
            st.qv = v.id ∧ st.base = base ∧ st.size = size ∧ st.rob = [] ∧ st.delivered = 0 ∧ st.fault = none) ∧
      (s.myUnit.accel.isSome = true → ∃ t, exec (.rastart a b) s = .next t ∧ t.me.status = .parked .accel ∧
        t.me.pc = s.me.pc ∧ t.here.queues = s.here.queues)) ∧
    (s.writable d → s.put d ((s.myStream.map Stream.status).getD 0) = some t → exec (.rastat d) s = .next t.retire) ∧
    (s.reads1 a x → x.toNat % 8 = 0 →
      (s.me.prog.data = none → ∀ ps, does (loopRead x.toNat 16) s ps s1 → ps.any (fun p => p.msg.isSome) = true →
        ∃ t, exec (.crcfg a) s = .next t ∧ t.me.status = .waiting .msgs ∧ t.me.pc = s.me.pc) ∧
      (∀ bytes n l, s.me.prog.data = some bytes → s.me.prog.taken = [n, l] →
        let levels := (List.range n.toNat).map fun j =>
          (ofLe ((bytes.drop (16 * j)).take 8), (BitVec.ofNat 64 (ofLe ((bytes.drop (16 * j + 8)).take 8))).toInt)
        (∀ p ∈ levels, 1 ≤ p.1 ∧ p.1 < 2 ^ 32) →
        exec (.crcfg a) s = .next (State.took (s.updMe fun t => { t with crcfg := some (l, levels) }) [a]).retire)) ∧
    (∀ base levels, s.me.crcfg = some (base, levels) → s.myCruiser = none → does (nameQueue a true) s v s1 →
      s.myUnit.cruiser = none → s.firstOfCluster s.issuer.1 s.issuer.2 (fun b => b == .cruiser) = true →
      ∃ t : State, exec (.crgo a) s = .next t.retire ∧ t.me.emitted = 0 ∧
        ∃ r : CruiserRun, t.myUnit.cruiser = some r ∧ r.core = s.issuer.1 ∧ r.slot = s.issuer.2 ∧ r.q = v.id ∧ r.base = base ∧
          r.levels = levels ∧ r.idx = levels.map fun _ => 0) ∧
    (s.writable d → s.put d (BitVec.ofNat 64 ((if s.myCruiser.isSome then 2 ^ 63 else 0) + s.me.emitted.toNat)) = some t →
      exec (.crstat d) s = .next t.retire)

/-- R17, R84, R85, R100, R105, R108, R123, R145, R370, R379: requests at their homes. A read is served on a hit and goes to
the stack on a miss; the controller answers an allowed read and refuses another; the sector enters the L1D and the load
takes its bytes; a write-back or an update is written at its home and acknowledged, or answered with its error; a probe echoes
once its tile has received the count, and every request of the core to it that was sent before the probe; a vault or another
core's scratchpad is read or written; host memory, an open port's far memory and a context page are read (R143, R397, R413,
R415). Parts of one store that go out in several messages are written only when none of them is refused (R87, R105, R191). The
model's readings and choices here: a request that needs a stack is held while the stack is OFFLINE, and one that a stack's
access table refuses is answered so at the home (log entry 5); a write-back whose thread has ended, or that a taken-back thread
does not wait for, is only logged when it fails (log entry 73); an echo waits for the earlier requests themselves, not for the
count alone (log entry 67). -/
def Obligations.requests_at_home : Prop :=
  ∀ (s : State) (m : Nat) (msg : Msg), s.msg m = some msg →
    (∀ line mask hint, msg.reads = some (line, mask, hint) →
      let t := s.homeOf msg.ctx (dieOf msg.core) line
      let r := s.sliceRead t msg.ctx line mask hint true
      let bytes := if mask = 15 then bytesOf r.1 0 128
        else bytesOf r.1 (32 * ((List.range 4).find? fun i => mask.getLsbD i).getD 0) 32
      (s.atHome msg = true → s.sliceHit t msg.ctx line mask = true → r.2.1 = 0 →
        exec (.mscRequest m) s = .next (r.2.2.perform msg bytes)) ∧
      (s.atHome msg = true → s.sliceHit t msg.ctx line mask = false →
        exec (.mscRequest m) s = .next (s.updMsg m fun x => { x with stage := .atStack, suspect := none, rescue := .no })) ∧
      (msg.stage = .atStack → msg.moving = true → s.stalledMiss msg line = false → s.stackStateAt (128 * line) ≠ .offline →
        (s.stackAllows .core msg.ctx (128 * line) true false = true → r.2.1 = 0 →
          exec (.stackReply m) s = .next (r.2.2.perform msg bytes)) ∧
        (s.stackAllows .core msg.ctx (128 * line) true false = false →
          exec (.stackReply m) s = .next (s.perform msg [] 0 (.access 0))))) ∧
    (∀ line mask hint alloc store data sig sec, msg.body = .fill line mask hint alloc store →
      msg.stage = .reply data sig .none → s.flows msg → msg.orphan = false → sec < 4 → mask = 1#4 <<< sec →
      (store = false → exec (.l1dFill m) s = .next (State.updThread
        (if alloc then (s.drop m).fillL1 msg.core msg.slot line sec (ofBytes 256 data) hint else s.drop m)
        msg.core msg.slot fun t => t.deliver m data)) ∧
      (store = true → alloc = true → exec (.l1dFill m) s = .next ((s.drop m).updThread msg.core msg.slot fun t =>
        { t with prog := { t.prog with got := (line, sec, ofBytes 256 data) :: t.prog.got } }))) ∧
    (∀ line mask hint alloc store data sig err, msg.body = .fill line mask hint alloc store →
      msg.stage = .reply data sig err → err ≠ .none → s.flows msg → msg.orphan = false → s.mayTrap msg = true →
      exec (.l1dFill m) s =
        .next ((s.drop m).requestFails msg err ((s.thread msg.core msg.slot).pieceVa msg) store)) ∧
    (∀ line ws hint,
      ((∃ sec data, msg.body = .writeback line sec data hint ∧ ws = [(128 * line + 32 * sec, bytesOf data 0 32)]) ∨
        (msg.body = .update line ws ∧ hint = .noal)) →
      s.atHome msg = true → s.earlierOnLine msg line = false →
      (∀ w ∈ ws, s.writeHeld msg.ctx (dieOf msg.core) w.1 w.2.length hint = false) →
      let error := ws.findSome? fun w => s.writeError msg.ctx (dieOf msg.core) w.1 w.2.length hint
      ((∀ n ∈ s.net, msg.partner n = true → n.failed = false ∧
          (n.stage = .sent → s.writesFail n = none ∧ s.writesHeld n = false)) →
        (error = none → exec (.writebackAtHome m) s = .next ((ws.foldl (fun s w =>
          s.homeWrite .core msg.ctx (dieOf msg.core) w.1 w.2 hint true) s).perform msg [])) ∧
        (∀ e, error = some e → exec (.writebackAtHome m) s = .next (s.perform msg [] 0 e))) ∧
      (∀ n ∈ s.net, msg.partner n = true → n.stage = .sent → n.id < m → (s.writesFail n).isSome = true →
        exec (.writebackAtHome m) s = .next (s.perform msg []))) ∧
    (∀ data sig, msg.isAck = true → msg.stage = .reply data sig .none → s.flows msg →
      exec (.writebackAck m) s = .next (s.drop m)) ∧
    (∀ data sig err, msg.isAck = true → msg.stage = .reply data sig err → err ≠ .none → s.flows msg → msg.orphan = false →
      (msg.quiet = true → exec (.writebackAck m) s = .next ((s.drop m).logQuiet msg)) ∧
      (msg.quiet = false → (s.thread msg.core msg.slot).present = true → s.mayTrap msg = true →
        exec (.writebackAck m) s = .next ((s.drop m).requestFails msg err msg.va true))) ∧
    (∀ count t, msg.body = .probe count → msg.target = some (.tile t) → msg.stage = .sent → s.flows msg →
      count ≤ (assoc (s.tiles.get t).received msg.core.val).getD 0 → s.earlierTo msg (.tile t) = false → exec (.fenceProbe m) s = .next (s.answer m [])) ∧
    (∀ count data sig err, msg.body = .probe count → msg.stage = .reply data sig err → s.flows msg →
      exec (.echoArrival m) s = .next (s.drop m)) ∧
    (msg.stage = .sent → s.flows msg →
      (∀ off n, msg.body = .vaultRead off n →
        (s.vaultAllows .core msg.ctx off n true false = true →
          exec (.vaultAccess m) s = .next (s.answer m (s.vault.read off n))) ∧
        (s.vaultAllows .core msg.ctx off n true false = false →
          exec (.vaultAccess m) s = .next (s.answer m [] 0 (.access 0)))) ∧
      (∀ off b, msg.body = .vaultWrite off b →
        (∀ n ∈ s.net, msg.partner n = true → n.failed = false ∧ (n.stage = .sent → s.vaultError n = none)) →
        (s.vaultAllows .core msg.ctx off b.length false true = true →
          exec (.vaultAccess m) s = .next (State.answer { s with vault := s.vault.write off b } m [])) ∧
        (s.vaultAllows .core msg.ctx off b.length false true = false →
          exec (.vaultAccess m) s = .next (s.answer m [] 0 (.access 0)))) ∧
      (∀ c a n, msg.body = .spadRead c a n → s.toStopped msg = false →
        exec (.remoteScratchpadAccess m) s = .next (s.answer m ((s.core c).spad.read a n))) ∧
      (∀ c a b, msg.body = .spadWrite c a b → s.toStopped msg = false →
        exec (.remoteScratchpadAccess m) s = .next ((s.updCore c fun x => x.writeSpad a b).answer m []))) ∧
    (∀ line data sig, msg.body = .ifetch line → msg.stage = .reply data sig .none → s.flows msg → msg.orphan = false →
      exec (.instructionFetchMiss m) s =
        .next (((s.drop m).updCluster (clusterOf msg.core) fun x => x.fillIcache line (ofBytes 1024 data)).lineCame
          (clusterOf msg.core) line m)) ∧
    (∀ w off n rd, msg.body = .host w off (.read n) rd → s.atHome msg = true →
      exec (.hostRequest m) s = .next (s.perform msg (s.hostMem.read (s.hostBus msg.ctx w off) n))) ∧
    (∀ p off n rd, msg.body = .peer p off (.read n) rd → s.atHome msg = true → (s.peers.get p).up = true →
      Config.farAccess (s.farPlace p off).1 (s.farPlace p off).2 n false = true →
      ∃ t, exec (.peerRequest m) s = .next t ∧
        t = s.perform msg ((s.peers.get p).mem.read (farKey (s.farPlace p off)) n)) ∧
    (∀ off, msg.body = .device off none → msg.stage = .sent → s.flows msg →
      aclAllows s.ctlAcl.toList .core msg.ctx off true false = true → exec (.deviceAccess m) s =
        .next (s.answer m (leBytes 8 (s.readPage (finOf 64 (off / 4096)) (off % 4096)).toNat)))

/-- R112, R137 to R142, R146, R147, R152, R153, R155: the atomic unit's one step reads the old value, writes the result,
releases or wakes as its ordering says, and answers the old value; `ldaq` and `strl` read and release a sync object; a `waita`
answers 1 for another value and 2 when the table is full, and is registered otherwise; `notify` wakes; the answer writes rd
and ends an acquire. A request that fails traps its thread at the instruction that sent it, with the registers that it had
there; that later instructions which have had effects outside the thread keep them, and that the thread goes on behind them
once the failed one has executed again, is the model's reading (log entry 60). Which sectors an atomic reads at its home is
read by inference (log entry 40). -/
def Obligations.synchronisation_at_home : Prop :=
  ∀ (s s1 : State) (m : Nat) (msg : Msg) (b : List Byte), s.msg m = some msg →
    let d := dieOf msg.core
    (∀ op pa va dbl ord scope v c rd p, msg.body = .atomic op pa va dbl ord scope v c rd p → s.atHome msg = true →
      s.earlierOnLine msg (pa / 128) = false →
      let n := amoBytes dbl
      let whole := ord = .acq ∨ AmoOrd.isRel ord = true
      s.homeUpdate msg.ctx d (if whole then 128 * (pa / 128) else pa) (if whole then 128 else n) true = .ok b s1 →
      let old := ofLe (b.take n)
      let new := amoResult op n old v.toNat c.toNat
      let s2 := if AmoOrd.isRel ord then
          s1.homeWrite .core msg.ctx d (128 * (pa / 128)) (releasedObject b (leBytes n (new.getD old)) p true) .norm false
        else (new.map fun w => s1.homeWrite .core msg.ctx d pa (leBytes n w) .norm false).getD s1
      let s3 := ((AmoOrd.wakeAll ord).map fun all => (s2.wake (s2.homeOf msg.ctx d (pa / 128)) msg.ctx va all).2).getD s2
      exec (.atomicAtHome m) s = .next (s3.perform msg (leBytes n old)
        (if ord = .acq then ofBytes 512 ((b.drop 64).take 64) else 0))) ∧
    (∀ pa dbl scope rd, msg.body = .ldaq pa dbl scope rd → s.atHome msg = true → s.earlierOnLine msg (pa / 128) = false →
      s.homeRead .core msg.ctx d (128 * (pa / 128)) 128 .norm true = .ok b s1 →
      exec (.syncAccessAtHome m) s =
        .next (s1.perform msg (b.take (amoBytes dbl)) (ofBytes 512 ((b.drop 64).take 64)))) ∧
    (∀ pa va dbl v p, msg.body = .strl pa va dbl v p → s.atHome msg = true → s.earlierOnLine msg (pa / 128) = false →
      s.homeUpdate msg.ctx d (128 * (pa / 128)) 128 false = .ok b s1 →
      exec (.syncAccessAtHome m) s = .next ((s1.homeWrite .core msg.ctx d (128 * (pa / 128))
        (releasedObject b (leBytes (amoBytes dbl) v.toNat) p false) .norm false).perform msg [])) ∧
    (∀ pa va dbl expected rd, msg.body = .waita pa va dbl expected rd → s.atHome msg = true →
      s.earlierOnLine msg (pa / 128) = false → s.homeRead .core msg.ctx d pa (amoBytes dbl) .norm false = .ok b s1 →
      let t := s1.homeOf msg.ctx d (pa / 128)
      let same := ofLe b = expected.toNat % 2 ^ (8 * amoBytes dbl)
      (¬ same → exec (.waitaAtHome m) s = .next (s1.perform msg [1])) ∧
      (same → 64 ≤ (s1.tiles.get t).monitors.length → exec (.waitaAtHome m) s = .next (s1.perform msg [2])) ∧
      (same → (s1.tiles.get t).monitors.length < 64 → msg.orphan = false →
        exec (.waitaAtHome m) s = .next (((s1.receive msg).drop m).updTile t fun x =>
          { x with monitors := x.monitors ++
            [{ ctx := msg.ctx, va := va / 8 * 8, core := msg.core, slot := msg.slot, rd := rd }] }))) ∧
    (∀ pa va all rd, msg.body = .notify pa va all rd → s.atHome msg = true → s.earlierOnLine msg (pa / 128) = false →
      let r := s.wake (s.homeOf msg.ctx d (pa / 128)) msg.ctx va all
      exec (.notifyAtHome m) s = .next (r.2.perform msg (leBytes 8 r.1))) ∧
    (∀ data sig, msg.isData = true → msg.stage = .reply data sig .none → s.flows msg → msg.orphan = false →
      (s.thread msg.core msg.slot).present = true →
      (∀ r v, msg.result data = some (r, v) →
        let u := ((s.drop m).updThread msg.core msg.slot fun t => (t.deliver m data).holdData m (leBytes 8 v.toNat)).updThread
          msg.core msg.slot fun t => t.replyX r v
        (msg.acquires sig = none → exec (.replyToCore m) s = .next u) ∧
        (∀ scope g, msg.acquires sig = some (scope, g) →
          exec (.replyToCore m) s = .next (u.acquire msg.core msg.slot scope g))) ∧
      (msg.result data = none → msg.acquires sig = none → exec (.replyToCore m) s =
        .next ((s.drop m).updThread msg.core msg.slot fun t => (t.deliver m data).holdData m data))) ∧
    (∀ data sig err, msg.isData = true → msg.stage = .reply data sig err → err ≠ .none → s.flows msg →
      msg.orphan = false → (s.thread msg.core msg.slot).present = true → s.mayTrap msg = true →
      ∃ t, exec (.replyToCore m) s = .next t ∧
        (msg.slot ≠ 15 → (t.thread msg.core msg.slot).status = .trapped) ∧
        let old := s.thread msg.core msg.slot
        let new := t.thread msg.core msg.slot
        old.redo = [] → old.after = none →
        (∀ n ∈ s.net, n.id ≠ m → n.ofThread msg.core msg.slot = true → n.failed = false) →
        (old.loads = [] → old.postedBy msg = false → new.pc = old.pc ∧ new.x = old.x) ∧
        (∀ u, old.loads = [] → old.postedBy msg = true → msg.undo = some u →
          new.pc = u.pc ∧ new.x = u.x ∧ (new.after.map fun a => (a.pc, a.x)) = some (old.pc, old.x)) ∧
        (∀ l, old.loads = [l] → (l.pieces.any fun p => p.msg == some m) = true → msg.undo = none →
          new.pc = l.undo.pc ∧ new.x = l.undo.x ∧
          (l.passed = false → new.after = none) ∧
          (l.passed = true → (new.after.map fun a => (a.pc, a.x)) = some (old.pc, old.x))))

/-- R256, R259, R261, R306, R308, R351: a message is accepted by an empty register, refused by a full one, sent again 64
cycles later (R263: not when its thread has been saved), and traps its sender where no thread of the context stands; `align`
times out after 256 cycles and `yield` after 16; a walk for an access under way fills the translation caches; the fetch port
gives the oldest request its block. Which entry a full translation cache gives up is the model's choice (log entry 3). -/
def Obligations.deliveries_and_timeouts : Prop :=
  ∀ (s s1 : State) (m : Nat) (msg : Msg) (core : CoreId) (slot : Slot),
    (∀ dest i v, s.msg m = some msg → msg.body = .send dest i v → msg.stage = .sent → s.flows msg →
      let d := s.placed msg.ctx ⟨dest.val / 16, by omega⟩
      let j : Slot := ⟨dest.val % 16, by omega⟩
      s.toStopped msg = false →
      ((s.thread d j).present = true → (s.thread d j).hctx = msg.ctx →
        ((s.thread d j).mfull.getLsbD i.val = false → msg.orphan = false → exec (.sendDelivery m) s =
          .next (((s.drop m).updThread d j fun u => { u with m := u.m.set i v, mfull := u.mfull ||| (1 <<< i.val) }).updThread
            msg.core msg.slot fun u => { u with prog := { u.prog with data := some [] } })) ∧
        ((s.thread d j).mfull.getLsbD i.val = true →
          (msg.orphan = false → exec (.sendDelivery m) s =
            .next ((s.answer m [] 0 .refused).updThread msg.core msg.slot fun u => u.sinceNow (s.cycleOf msg.core))) ∧
          (msg.orphan = true → exec (.sendDelivery m) s = .next (s.drop m)))) ∧
      ((s.thread d j).present = false ∨ (s.thread d j).hctx ≠ msg.ctx → msg.orphan = false →
        (s.thread msg.core msg.slot).present = true → exec (.sendDelivery m) s =
          .next ((s.drop m).takeTrap msg.core msg.slot { cause := .sendTarget, detail := BitVec.ofNat 64 dest.val }))) ∧
    ((s.net.find? fun m => m.core == core && m.slot == slot && !m.orphan && m.refusedSend) = some msg → (s.thread core slot).status = .parked .sendRetry →
      ((s.core core).halting = false → (s.thread core slot).prog.since + 64 ≤ s.cycleOf core →
        exec (.sendRetry core slot) s = .next (s.updMsg msg.id fun x => { x with stage := .sent })) ∧
      ((s.core core).halting = true ∨ s.cycleOf core < (s.thread core slot).prog.since + 64 →
        exec (.sendRetry core slot) s = .next s)) ∧
    (∀ id pc, (s.thread core slot).status = .parked (.align id pc) →
      ((s.core core).halting = false → (s.thread core slot).prog.since + 256 ≤ s.cycleOf core →
        exec (.alignTimeout core slot) s = .next (s.completeThread core slot)) ∧
      ((s.core core).halting = true ∨ s.cycleOf core < (s.thread core slot).prog.since + 256 → exec (.alignTimeout core slot) s = .next s)) ∧
    ((s.thread core slot).status = .waiting .yield → (s.core core).halting = false →
      ((s.thread core slot).prog.since + 16 ≤ s.cycleOf core ∨ (∀ j, j ≠ slot → s.isReady core j = false) →
        exec (.yieldExpiry core slot) s = .next (s.completeThread core slot)) ∧
      (s.cycleOf core < (s.thread core slot).prog.since + 16 → (∃ j, j ≠ slot ∧ s.isReady core j = true) →
        exec (.yieldExpiry core slot) s = .next s)) ∧
    ((s.thread core slot).inRep = false → (s.thread core slot).stepping = false → (s.thread core slot).redo = [] →
      let t := (s.completeThread core slot).thread core slot
      t.status = .ready ∧ t.pc = (s.thread core slot).pc + 4 ∧ t.instret = (s.thread core slot).instret + 1 ∧
        t.x = (s.thread core slot).x) ∧
    (∀ ctx va wr level e, (s.core core).ctx = some ctx → vaValid va = true → s.walk ctx va = .leaf level e →
      (s.accessUnderWay core level va wr = true → ∀ l f, s.translate core ctx va wr = .ok s1 l f →
        exec (.tableWalk core va wr) s = .next s1) ∧
      (s.accessUnderWay core level va wr = false → leafA e = false → exec (.tableWalk core va wr) s = .next s)) ∧
    (∀ cl n c k va pa data, oldest (s.fetchRequests cl) = some (n, c, k, va) → s.mapFetch c k va = .ok (pa, s1) →
      assoc (s.clusters.get cl).icache (pa / 128) = some data →
      exec (.fetchBlock cl (pa / 32)) s =
        .next (s1.giveBlock cl (s.thread c k).hctx va (bytesOf data (pa % 128) 32)))

/-- R241 to R243, R245: a ring's cell is written in one step, in its landing or at the boom cell's home; a producer keeps the
largest head; the ring engine reads a full boom cell ahead and passes SKIP cells at the claim head; a claim is returned the
oldest token that its replica is owed, or else takes the lowest full sequence; the load balancer clones the stage of a ring
that has been high for 4,096 cycles, and marks the highest replica of one that has been low for 65,536. On which core a clone
starts is an input of the model (log entry 50). -/
def Obligations.ring_steps : Prop :=
  ∀ (s s1 : State) (m id : Nat) (msg : Msg) (r : Ring), s.ring id = some r →
    (s.msg m = some msg → s.flows msg → s.toStopped msg = false →
      let written := fun (u : State) => ((u.drop m).updRing id fun q => { q with count := q.count + 1 }).settleHead id
      (∀ seq kind skip boom payload c base, msg.body = .cell id seq kind skip boom payload → r.land = some (c, base) →
        seq < r.head + r.slots →
        let cell := leBytes 8 (cellHeader true skip kind seq) ++ payload
        (boom = false → exec (.ringCellWrite m) s =
          .next (written (s.updCore c fun x => x.writeSpad (base + 128 * (seq % r.landCells)) cell))) ∧
        (∀ pa s2, boom = true → s.boomAt r msg.core seq true = some (pa, s2) →
          s2.writeHeld r.ctx (dieOf msg.core) pa 128 .noal = false →
          exec (.ringCellWrite m) s =
            .next (written (s2.homeWrite .engine r.ctx (dieOf msg.core) pa cell .noal true)))) ∧
      (∀ c h, msg.body = .head id c h → exec (.headMessage m) s =
        .next ((s.drop m).updRing id fun r => { r with heads := assocSet r.heads c (max h (r.headAt c)) })) ∧
      (∀ q cell, msg.body = .claim id → msg.orphan = false → (s.core msg.core).halting = false →
        (s.thread msg.core msg.slot).status = .parked .ringClaim → s.claimTurn msg = true →
        s1 = (s.settleClaim id msg.core msg.slot).settleHead id → s1.ring id = some q →
        let h := max q.claimHead q.head
        (∀ n, q.owed (msg.core, msg.slot) = some n → q.withdraw = none →
          exec (.ringClaim m) s = .next ((s1.drop m).giveToken id n msg.core msg.slot ((s1.ringCell q n).getD []))) ∧
        (q.owed (msg.core, msg.slot) = none → s1.ringCell q h = some cell → cellKind cell = .data → exec (.ringClaim m) s = .next ((((s1.drop m).updRing id fun q =>
            { q with claimHead := h + 1, claimed := (h, msg.core, msg.slot) :: q.claimed }).updThread msg.core msg.slot fun t =>
          { t.addClaim (s1.outRings msg.core msg.slot) { ring := id, seq := h, kind := .data, cell := cell } with
            prog := { t.prog with data := some (leBytes 8 (h % 2 ^ 40)) } }).settleHead id)) ∧
        (q.owed (msg.core, msg.slot) = none → s1.ringCell q h = some cell → cellKind cell ≠ .data →
          exec (.ringClaim m) s =
            .next (((s1.drop m).updRing id fun q => q.reach h).giveToken id h msg.core msg.slot cell)) ∧
        (q.owed (msg.core, msg.slot) = none → s1.ringCell q h = none → exec (.ringClaim m) s = .next s1))) ∧
    (∀ c base pa s2 b, r.land = some (c, base) → r.freed.contains r.head = false → s.landCell r r.head = none →
      assoc r.ahead r.head = none → s.boomAt r c r.head false = some (pa, s2) →
      s2.stalledHome c r.ctx (pa / 128) = false → s2.homeRead .engine r.ctx (dieOf c) pa 128 .noal true = .ok b s1 →
      cellFull b r.head = true →
      exec (.boomReadAhead id) s =
        .next ((s1.updRing id fun q => { q with ahead := assocSet q.ahead r.head b }).settleHead id)) ∧
    (∀ i p c k core since index, (s.installs.find? fun i => i.id == r.inst) = some i → i.stages[r.consStage]? = some p →
      (r.replicas.find? fun x => x.2.2 == 0) = some (c, k, 0) → r.highSince = some since →
      (∀ x ∈ r.replicas, x.2.2 ≠ index) → index < 8 → (∀ n < index, ∃ x ∈ r.replicas, x.2.2 = n) →
      since + 4096 ≤ s.cycleOf c + 1 → r.replicas.length < p.repl → s.inputTokens r = false →
      s.startPacket core { p with replica := (index, r.replicas.length + 1) } = some s1 →
      exec (.lbClone id core) s =
        .next ((s1.countLaunch p.launch true).updRing id fun q => { q with highSince := none })) ∧
    (∀ c k since top, (r.replicas.find? fun x => x.2.2 == 0) = some (c, k, 0) → r.lowSince = some since →
      (∃ x ∈ r.replicas, x.2.2 = top) → (∀ x ∈ r.replicas, x.2.2 ≤ top) → 0 < top → since + 65536 ≤ s.cycleOf c + 1 →
      s.inputTokens r = false → r.withdraw = none →
      exec (.lbWithdraw id) s = .next (s.updInputs r fun q => { q with withdraw := some top }))

/-- R226 to R231: a member's packet reaches its router, which takes it unless it is older than the episode last forwarded; a
router whose episode is complete, or whose limit has passed, forwards its fold to its parent; the root writes the record and
the sum into member 0's scratchpad and counts 48 + F bytes. R218, R220 to R224, R378: a packet that waits too long at a
router's input becomes suspect; the token of its domain, at its station, moves a suspect packet there into the ejection slot
of its destination or a skid slot, counting the capture, and rides with it; one that became suspect before it, or that came
before it in a tie, has left its input by its ordinary route and is suspect no longer; the next token hands it on; a retired
slice's stub forwards a request. When a packet has waited too long is an input of the model (log entry 38), and which router
holds it comes with the step (log entry 72). -/
def Obligations.reduction_and_recovery_steps : Prop :=
  (∀ (s : State) (m : Nat) (msg : Msg) (die : DieId) (tree : Fin 16) (t : TreeRec), (s.dies.get die).trees.get tree = some t →
     (∀ e i off size data core, s.msg m = some msg → msg.body = .reduce tree e i off size data →
       dieOf (s.identity msg.core msg.ctx) = die → t.members[i]? = some core → (s.dies.get die).inReset = false →
       (∀ n ∈ s.net, n.core = msg.core → n.id < m → ∀ e i off size data, n.body ≠ .reduce tree e i off size data) →
       (s.dies.get die).current tree (routerOf core) = none →
       exec (.reduceInput m) s =
         .next ((s.drop m).routerInput die tree (routerOf core) e (core.val % 4, [], false, size, data))) ∧
     (∀ (router : Fin 80) en up p, t.entry router.val = some en → parentRouter en = some up →
       (s.dies.get die).current tree router.val = some p → t.ready router.val p = true →
       let f := t.result router.val p
       exec (.routerForward die tree router) s = .next ((s.routerInput die tree up p.episode
         (childPlace en, f.2.2.2, f.2.2.1, f.2.1, f.1)).episodeDone die tree router.val p.episode)) ∧
     (∀ (router : Fin 80) en p, t.entry router.val = some en → (s.dies.get die).current tree router.val = some p →
       p.limit = false → p.first + (en.2.2.2 + 1) * p.tred ≤ (s.dies.get die).cycle.toNat →
       ((parentRouter en).isSome = true ∨ ((s.dies.get die).delivery tree p.episode).isSome = true →
         exec (.redLimit die tree router) s = .next (s.updDie die fun x => { x with
           episodes := mapIf (fun q => q.tree == tree && q.router == router.val && q.episode == p.episode)
             (fun q => { q with limit := true }) x.episodes })) ∧
       (parentRouter en = none → (s.dies.get die).delivery tree p.episode = none →
         exec (.redLimit die tree router) s = .next (s.rootDone die tree router.val p.episode))) ∧
     (∀ en p home rest a, t.routers = en :: rest → t.members.head? = some home →
       (s.dies.get die).current tree (entryRouter en) = some p → t.ready (entryRouter en) p = true →
       (s.dies.get die).delivery tree p.episode = some a →
       let f := t.result (entryRouter en) p
       let s1 := s.rootDone die tree (entryRouter en) p.episode
       let record := leBytes 4 ((if f.2.2.2 = [] then 0 else 1) + if f.2.2.1 then 2 else 0)
         ++ leBytes 4 (t.members.length - f.2.2.2.length) ++ memberMask f.2.2.2
       exec (.rootDelivery die tree) s = .next (s1.updCore (s1.placed t.ctx home) fun z =>
         ((z.writeSpad (a + 16) record).writeSpad (a + 64) (f.1.flatMap fun w => leBytes 4 w.toNat)).countBytes a (48 + f.2.1)))) ∧
  (∀ (s : State) (m : Nat) (msg : Msg), s.msg m = some msg →
     (∀ die router port, let p : Suspect := { die := die, router := router, port := port, since := s.time }
       msg.inMesh = true → msg.suspect = none → msg.rescue = .no → (s.dies.get die).stallEnd = none →
       s.mayWait msg p = true →
       exec (.packetSuspect m die ⟨router, port⟩) s = .next (s.updMsg m fun x => { x with suspect := some p })) ∧
     (∀ p slot station ride, msg.suspect = some p → msg.inMesh = true → s.captureRide msg p = some (slot, station, ride) →
       let place := s.suspectAt msg p
       s.tokenAt place.1 place.2 = true → s.skidWaits place = false →
       exec (.tokenCapture m place.1) s = .next (State.rideTo (((s.passedBy msg p).countCapture msg p).updMsg m fun x =>
         { x with suspect := none, rescue := slot }) place.1 station ride)) ∧
     (∀ d r, ((s.destOf msg).die = some d → ((∃ q, s.rescueTo msg d r = some (.ejected, q)) ↔ s.ejectFree (s.destOf msg) = true)) ∧
       ((s.destOf msg).die ≠ some d → s.rescueTo msg d r = none ∨ ∃ q, s.rescueTo msg d r =
         some (.skid (nextLink d (s.destOf msg)).1 (nextLink d (s.destOf msg)).2 false
           (laneOf (nextLink d (s.destOf msg)).1 r), q))) ∧
     (∀ domain station slot leave ride, s.skidAt msg = some (domain, station) → s.skidRide msg = some (slot, leave, ride) →
       s.tokenAt domain station = true →
       exec (.skidHandover m domain) s = .next ((s.updMsg m fun x => { x with rescue := slot }).rideTo domain leave ride)) ∧
     (∀ t, msg.target = some (.tile t) → msg.stage = .sent → msg.moving = true → msg.forwarded = false →
       (s.tiles.get t).stub.isSome = true → (∀ n, msg.body ≠ .probe n) →
       exec (.stubForward m) s = .next (s.updMsg m fun x => { x with forwarded := true, suspect := none, rescue := .no })))

/-- R126, R286, R290 to R292, R297, R300, R301, R407: the steps of engine commands. A packet is read, written at its
destination and counted, in order past no fault; a notify word is written after the payload; an element of a gather is read at
its home and the elements read land; a channel streams its next line and a scan ends when all are done; a prefetched or
maintained line is handled; a fault that stops a command posts the engine's record. The model's choices here are that a line of
far memory is scanned by a unit of its own, taken as the one behind the 384 channels (log entry 14), that TAIL counts the pairs
which the command has written (log entry 27), and how the position of a scan's record packs channel and line (log entry 25). -/
def Obligations.engine_command_steps : Prop :=
  ∀ (s s1 : State) (core : CoreId) (cmd : Nat) (m : Cmd) (b : List Byte), (s.core core).cmd cmd = some m →
    (∀ pkt, m.kind.isCopy = true → s.running core m = true → pkt < m.kind.pieces → m.done.contains pkt = false →
      (∀ j < pkt, m.done.contains j = true ∨ ∀ t, s.doPacket core m j ≠ .bad t) → s.doPacket core m pkt = .ok b s1 →
      exec (.copyPacketLand core cmd pkt) s = .next (s1.landed core m pkt)) ∧
    (∀ dst src len hint follow va, m.kind = .copy dst src len hint follow → m.comp = .notify va → s.running core m = true →
      m.kind.pieces ≤ m.done.length → s.writeNotify core m va len = .ok b s1 →
      exec (.notifyWordWrite core cmd) s = .next (s1.updCore core fun x => x.dropCmd cmd)) ∧
    (∀ dst base lsize count list elem, m.kind = .gather dst base lsize count list → s.running core m = true →
      elem < count → m.hasElem elem = false →
      (∀ p < elem, m.hasElem p = true ∨ ∀ t, s.gatherElem core m p ≠ .bad t) → s.gatherElem core m elem = .ok b s1 →
      exec (.gatherRequest core cmd elem) s = .next (s1.updCore core fun x => x.updCmd cmd fun q =>
        { q with chans := (elem, ofLe b) :: q.chans })) ∧
    (∀ dst base lsize count list, m.kind = .gather dst base lsize count list →
      let landed := m.chans.foldl (fun s p => s.updCore core fun x =>
        x.writeSpad (dst + p.1 * 2 ^ lsize) (leBytes (2 ^ lsize) p.2)) s
      let s2 := landed.updCore core fun x => x.updCmd cmd fun q =>
        { q with done := q.done ++ m.chans.map Prod.fst, chans := [] }
      (m.done.length + m.chans.length < count → exec (.gatherLand core cmd) s = .next s2) ∧
      (∀ a, count ≤ m.done.length + m.chans.length → m.comp = .object a → exec (.gatherLand core cmd) s =
        .next ((s2.updCore core fun x => x.countBytes a (2 ^ lsize * count)).updCore core fun x => x.dropCmd cmd)) ∧
      (count ≤ m.done.length + m.chans.length → m.comp = .none →
        exec (.gatherLand core cmd) s = .next (s2.updCore core fun x => x.dropCmd cmd))) ∧
    (∀ channel i, s.nextScan m channel = some i → m.fault = none →
      ((s.core core).halting = false ∨ (assoc m.chans channel).isSome = true) →
      (if channel < 384 then s.stalledWay core (finOf 4 (channel / 96)) else s.stalled core) = false →
      s.scanBefore m channel = false →
      let o := (assoc m.chans channel).getD (m.scanSpan i).1
      let line := m.lineOf channel
      (line.length < 128 → s.scanSector core m i (line.length / 32) = .ok b s1 → exec (.scanLine core cmd channel) s =
        .next (s1.updCore core fun x => x.updCmd cmd fun q =>
          { q with chans := assocSet q.chans channel o, lineBuf := assocSet q.lineBuf channel (line ++ b) })) ∧
      (128 ≤ line.length →
        let r := s.scanElems core m i line 129 m.pairs o
        exec (.scanLine core cmd channel) s = .next (r.1.updCore core fun x => x.updCmd cmd fun q =>
          if (m.scanSpan i).2 ≤ r.2.2 then
            { q with pairs := r.2.1, done := i :: q.done, chans := assocDel q.chans channel
                     lineBuf := assocDel q.lineBuf channel }
          else { q with pairs := r.2.1, chans := assocSet q.chans channel r.2.2 }))) ∧
    (∀ ring base n th fmt abs rsize headp desc, m.kind = .scan ring base n th fmt abs rsize headp desc →
      m.scanLines ≤ m.done.length →
      (∀ a, m.comp = .object a → exec (.scanComplete core cmd) s = .next ((s.updCore core fun x =>
        x.countBytes a (n * scanWidth fmt)).updCore core fun x => x.dropCmd cmd)) ∧
      (m.comp = .none → exec (.scanComplete core cmd) s = .next (s.updCore core fun x => x.dropCmd cmd))) ∧
    (∀ base stride rows lines hint line, m.kind = .prefetch base stride rows lines hint → line < rows * lines →
      m.done.contains line = false →
      s.prefetch core m.ctx ((base + line / lines * stride + 128 * (line % lines)) % 2 ^ 64) hint = some s1 →
      exec (.prefetchLine core cmd line) s = .next (s1.updCore core fun x => x.handled m line)) ∧
    (∀ base len inval line, m.kind = .clean base len inval → line < m.kind.pieces → m.done.contains line = false →
      s.stalled core = false → exec (.maintenanceLine core cmd line) s =
        .next ((s.maintain m.ctx ((base / 128 * 128 + 128 * line) % 2 ^ 64) inval).updCore core fun x => x.handled m line)) ∧
    (∀ t pos, s.cmdFault core m = some (t, pos) → s.mayFault core m = true → m.gone = false →
      s.postEngine core m.slot m.kind.engine t pos false = some s1 →
      exec (.engineFault core cmd) s = .next (s1.updCore core fun x => x.updCmd cmd fun q =>
        { q with fault := some (s.record core m.slot t), posted := true }))

/-- R59, R268, R278, R294, R299, R300, R304, R310, R311, R419: the steps of a cluster's units. The operation at the head of a
sub-array's queue takes its next step, or posts its fault; the accelerator looks ahead, confirms and delivers in order; the
cruiser emits its next record or token while its queue has room. An engine's record stops the thread. R273, R276: the
sequencer may hold operand bytes ahead of their step, which then reads them. Which operand bytes may be held ahead of a step
is read by inference (log entry 62). -/
def Obligations.cluster_unit_steps : Prop :=
  ∀ (s s1 : State) (cl : TileId) (sub : Fin 4),
    (∀ op c k place st a n rest, let u := (s.clusters.get cl).tile.get sub
      u.queue[place]? = some op → u.claim = some (c, k) → op.after = none → op.ahead = [] → (s.core c).halting = false →
      op.step ≤ st → st < op.steps → s.stalled c = false →
      (a + n ≤ 0x80000 → s.agenda = .tileAhead cl sub place st a n false :: rest →
        step s = .next (State.updCluster { s with agenda := rest } cl fun x => x.updOp op.id fun o =>
          { o with ahead := o.ahead ++ [{ step := st, addr := a, bytes := some ((s.core c).spad.read a n) }] })) ∧
      (0x40000000 ≤ a → a + n ≤ 0x90000000 → s.agenda = .tileAhead cl sub place st a n false :: rest →
        step s = .next (State.updCluster { s with agenda := rest } cl fun x => x.updOp op.id fun o =>
          { o with ahead := o.ahead ++ [{ step := st, addr := a, bytes := some (s.vault.read (a - 0x40000000) n) }] })) ∧
      (∀ b, place = 0 → st ≤ op.step + 4 → (a, n) ∈ op.globalRuns st → a < 2 ^ 64 →
        s.agenda = .tileAhead cl sub place st a n true :: rest →
        State.speculate { s with agenda := rest } c (s.thread c k).hctx a n = (some b, s1) →
        step s = .next (s1.updCluster cl fun x => x.updOp op.id fun o =>
          { o with ahead := o.ahead ++ [{ step := st, glob := true, addr := a, bytes := b }] }))) ∧
    (∀ (c : CoreId) (op : TileOp) (h : TileHeld) b, op.ahead = [h] → h.step = op.step → h.bytes = some b →
      (h.glob = true → op.held h.addr b.length = some b ∧ s.tileMem c op = (s.core c).spad) ∧
      (h.glob = false → s.tileMem c op = (s.core c).spad.write h.addr b)) ∧
    (∀ op c k, s.tileHead cl sub = some (op, c, k) → s.tileDue cl op c = true →
      (s.tileDo cl c (s.thread c k).hctx op = .done s1 →
        exec (.tileStep cl sub) s = .next (s1.updCluster cl fun x => x.stepped op)) ∧
      (∀ t, s.tileDo cl c (s.thread c k).hctx op = .bad t →
        s.postEngine c k .tile (tileInfo t sub op.acc) (BitVec.ofNat 64 op.step)
          (op.ahead.any fun h => h.step == op.step && h.bytes.isNone && h.addr == t.addr.toNat) = some s1 →
        exec (.tileStepFault cl sub) s = .next (s1.updCluster cl fun x => x.updOp op.id fun o =>
          { o with fault := some (s.record c k (tileInfo t sub op.acc)), posted := true })) ∧
      (∀ ty a stride low, op.kind = .load ty a stride →
        (s.moveRefused (s.thread c k).hctx op.mode ty a stride false).min? = some low →
        s.postEngine c k .tile (tileInfo { cause := .accessFault, addr := BitVec.ofNat 64 low } sub op.acc) 0 false = some s1 →
        exec (.vaultRefusal cl sub) s = .next (s1.updCluster cl fun x => x.updOp op.id fun o =>
          { o with
            fault := some (s.record c k (tileInfo { cause := .accessFault, addr := BitVec.ofNat 64 low } sub op.acc))
            posted := true }))) ∧
    (∀ c k e i pos held, k ≠ 15 → s.postEngine c k e i pos held = some s1 →
      (s1.thread c k).status = .trapped ∧ (s1.thread c k).x = (s.thread c k).x ∧ (s1.thread c k).pc = (s.thread c k).pc ∧
      ∃ r, (s1.core c).trapq = s.trapqWith c r ∧ r.engine = e ∧ r.pos = pos ∧ r.held = held ∧ r.cause = i.cause ∧
        r.addr = i.addr) ∧
    (∀ a e, (s.clusters.get cl).accel = some a → ((s.core a.core).entries a.qi)[a.rob.length]? = some e → a.rob.length < 64 →
      (s.core a.core).halting = false →
      (e.kind ≠ .data → exec (.accelLookahead cl) s =
        .next (s.updStream cl fun a => { a with rob := a.rob ++ [none] })) ∧
      (e.kind = .data → s.confirmedAt a a.rob.length = false →
        exec (.accelLookahead cl) s = .next ((s.lookAhead a e.val).2.updStream cl fun u =>
          { u with rob := u.rob ++ [some (s.lookAhead a e.val).1] })) ∧
      (e.kind = .data → s.confirmedAt a a.rob.length = true →
        exec (.accelLookahead cl) s = .next ((s.confirmRead a { idx := e.val }).2.updStream cl fun u =>
          { u with rob := u.rob ++ [some (s.confirmRead a { idx := e.val }).1] }))) ∧
    (∀ a h n, (s.clusters.get cl).accel = some a → (s.core a.core).halting = false → a.rob[n]? = some (some h) →
      h.confirmed = false → s.confirmedAt a n = true →
      (∀ i < n, ∀ g, a.rob[i]? = some (some g) → g.confirmed = false → s.confirmedAt a i = false) →
      (∀ v, h.val = some v → exec (.speculativeConfirm cl) s =
        .next (s.updStream cl fun u => { u with rob := u.rob.set n (some { h with confirmed := true }) })) ∧
      (h.val = none → exec (.speculativeConfirm cl) s = .next ((s.confirmRead a h).2.updStream cl fun u =>
        { u with rob := u.rob.set n (some (s.confirmRead a h).1) }))) ∧
    (∀ a q e rest, (s.clusters.get cl).accel = some a → (s.core a.core).queue a.qv = some q →
      ((s.core a.core).entries a.qi).head? = some e → q.entries.length < q.depth → a.fault = none →
      (s.core a.core).halting = false →
      (a.rob = none :: rest → exec (.accelDeliver cl) s = .next (s.deliverEntry cl a e)) ∧
      (∀ h v, a.rob = some h :: rest → h.confirmed = true → h.val = some v →
        exec (.accelDeliver cl) s = .next (s.deliverEntry cl a { val := v }))) ∧
    (∀ r q, (s.clusters.get cl).cruiser = some r → (s.core r.core).queue r.q = some q → q.entries.length < q.depth →
      (s.core r.core).halting = false → r.cycle ≠ some (s.cycleOf r.core) →
      let e := r.emit
      let fed := s.updCore r.core fun x => x.updQueue r.q fun q => { q with entries := q.entries ++ [e.1] }
      let counted := if e.1.kind = .data then fed.updThread r.core r.slot fun t => { t with emitted := t.emitted + 1 } else fed
      ((e.2.last = true ∧ e.2.ends = []) → exec (.cruiserEmit cl) s = .next ((counted.updCluster cl fun x =>
        { x with cruiser := none }).updCore r.core fun x => x.releaseEnds (.inr .own))) ∧
      (¬ (e.2.last = true ∧ e.2.ends = []) → exec (.cruiserEmit cl) s = .next (counted.updCluster cl fun x =>
        { x with cruiser := some { e.2 with cycle := some (s.cycleOf r.core) } })))

/-- R331 to R345: launching work. Kamgor's writes of LQTAIL and LQCFG are taken (R333). The control die takes the entry at
HEAD, starts nothing for a refused one, and moves on; the context served next gives its packet to a die; a graph whose records
pass starts; a ready node starts; a launch node completes when its launch is over; a loop makes another pass while its
predicate and its limit allow; a completion object is written and waiters are woken. That a node which one conditional has
chosen already is not started a second time is read by inference (log entry 91). -/
def Obligations.launch_steps : Prop :=
  ∀ (s s1 s2 : State) (ctx : Ctx) (gid node : Nat) (g : Graph),
    let x := s.ctxs.get ctx
    (∀ v : Word, let t : BitVec 32 := v.setWidth 32
      ((t - x.lqhead).toNat ≤ x.ringSize →
        exec (.lqtailWrite ctx ⟨v, false⟩) s = .next (s.updCtx ctx fun x => { x with lqtail := t })) ∧
      ∃ u, exec (.lqcfgWrite ctx ⟨v, false⟩) s = .next u ∧ (u.ctxs.get ctx).lqen = v.getLsbD 8) ∧
    (x.live = true → x.ending = false → x.lqen = true → x.lqhead ≠ x.lqtail →
      let va := (x.lqbase.toNat + 128 * (x.lqhead.toNat % x.ringSize)) % 2 ^ 64
      (∀ b, s.ctlRead ctx va 128 = .ok b s1 → s1.takeBytes ctx b = some s2 →
        exec (.takeEntry ctx) s = .next (s2.passEntry ctx)) ∧
      (∀ u, s.ctlRead ctx va 128 = .fault u → exec (.takeEntry ctx) s = .next ((u.refuseEntry ctx).passEntry ctx))) ∧
    (((s.refuseEntry ctx).ctxs.get ctx).refd = true ∧ ((s.passEntry ctx).ctxs.get ctx).lqhead = x.lqhead + 1 ∧
      ((s.refuseEntry ctx).ctxs.get ctx).list = x.list) ∧
    (∀ p d, s.nextPacket ctx = some p → s.dieFor p = some d → s.served = some ctx →
      (s.dies.get d).stallEnd = none → ∃ t, exec (.packetToDie ctx) s = .next t ∧ t.lastCtx = ctx ∧ (t.dies.get d).ready = addReady (s.dies.get d).ready p ∧
        ∀ q, Listed.packet q ∈ (t.ctxs.get ctx).list → q.id ≠ p.id) ∧
    (∀ base n prio seq rest l bad, x.list = .graph base n prio seq :: rest → x.graphs.length < 4 →
      s.readNodes ctx base n = .ok (l, bad) s1 →
      let s3 := s1.updCtx ctx fun x => { x with list := rest }
      (bad = none → (∀ i < n, s3.nodeOk ctx l i (l.getD i {}) = true) →
        exec (.graphStart ctx) s = .next ((State.updCtx { s3 with nextId := s3.nextId + 1 } ctx fun x =>
          { x with graphs := x.graphs ++ [{ id := s3.nextId, prio := prio, nodes := l }] }).endGraphs ctx)) ∧
      (∀ i, bad = some i → exec (.graphStart ctx) s = .next ((s3.updCtx ctx fun x =>
        { x with gfault := true, faultNode := BitVec.ofNat 16 i }).raise ctx 1))) ∧
    (x.graph gid = some g → s.graphsRun ctx = true → g.ready node = true →
      (∀ t, (g.node node).kind = .launch t → s.startLaunch ctx gid node t = some s1 →
        exec (.nodeStart ctx gid node) s = .next s1) ∧
      (∀ p th el v, (g.node node).kind = .cond p th el → s.predicate ctx p = .ok v s1 →
        exec (.nodeStart ctx gid node) s =
          .next ((s1.updGraph ctx gid fun g => g.choose node (if v ≠ 0 then th else el)).endGraphs ctx)) ∧
      (∀ p f l limit, (g.node node).kind = .loop p f l limit →
        exec (.nodeStart ctx gid node) s = .next (s.updGraph ctx gid fun g =>
          let g := (g.setState node .started).resetRange (f, l)
          { g with nodes := g.nodes.set node { g.node node with pass := 1 } })) ∧
      (∀ o irq, (g.node node).kind = .completion o irq →
        exec (.nodeStart ctx gid node) s = .next (s.updGraph ctx gid fun g => g.setState node .started))) ∧
    (∀ l, (s.launches.find? fun l => l.ctx == ctx && l.node == some (gid, node)) = some l → s.launchOver l.id = true →
      let ended := fun (s : State) =>
        (State.updGraph { s with launches := s.launches.filter fun x => x.id != l.id } ctx gid fun g =>
          g.completeNode node).endGraphs ctx
      (l.done = 0 → exec (.launchNodeComplete ctx gid node) s = .next (ended s)) ∧
      (l.done ≠ 0 → s.signalObject ctx l.done.toNat = .ok () s1 →
        exec (.launchNodeComplete ctx gid node) s = .next (ended s1))) ∧
    (∀ p f l limit v, x.graph gid = some g → (g.node node).kind = .loop p f l limit → s.graphsRun ctx = true →
      g.faulted = false → (g.node node).state = .started →
      (∀ i < g.nodes.length, inRange (f, l) i = true →
        g.ready i = false ∧ (g.node i).state ≠ .started ∧ (g.node i).state ≠ .chosen) →
      s.predicate ctx p = .ok v s1 →
      (v ≠ 0 → (g.node node).pass < limit → exec (.loopPassEnd ctx gid node) s =
        .next (s1.updGraph ctx gid fun h =>
          let h := h.resetRange (f, l)
          { h with nodes := h.nodes.set node { h.node node with pass := (g.node node).pass + 1 } })) ∧
      (v = 0 ∨ limit ≤ (g.node node).pass → exec (.loopPassEnd ctx gid node) s =
        .next ((s1.updGraph ctx gid fun g => g.completeNode node).endGraphs ctx))) ∧
    (∀ o irq, x.graph gid = some g → g.object node = some (o, irq) → s.signalObject ctx o.toNat = .ok () s1 →
      let t := (s1.updGraph ctx gid fun g => g.completeNode node).endGraphs ctx
      exec (.completionObjectWrite ctx gid node) s = .next (if irq then t.raise ctx 0 else t)) ∧
    (∀ l, x.graph gid = none → (s.launches.find? fun l => l.id == gid) = some l → l.ctx = ctx → l.done ≠ 0 →
      l.node = none → s.launchOver gid = true → s.signalObject ctx l.done.toNat = .ok () s1 →
      exec (.completionObjectWrite ctx gid node) s =
        .next { s1 with launches := s1.launches.filter fun x => x.id != gid })

/-- R8, R23, R25, R343 to R350: a core's dispatcher starts the newest task of its deque that fits, and only then a packet; an
idle die takes the oldest packet of a neighbour that it can start; a core with nothing to run takes the oldest entry that it
may of a neighbour's deque; an entry that has waited long joins its die's ready queue. A context that is pre-empted and
settled is saved, and resumes on free cores (R352, R353, R357, R358). When a core or a die asks, and where the asking starts
again after a task, are the model's choices (log entry 50); from where a resume takes what a save record leaves open is too
(log entry 45). -/
def Obligations.dispatch_and_stealing : Prop :=
  ∀ (s s1 : State) (core thief victim : CoreId),
    (s.boot = .up →
      (∀ e q, s.nextTask core = some (e, q) → exec (.dispatch core) s = .next { State.startTask
        (s.updCore core fun x => { x with deque := x.deque.filter fun f => f.id != e.id }) core e q true with majFixed := true }) ∧
      (∀ p h n, s.nextTask core = none → s.nextReady core = some (p, h, n, s1) → exec (.dispatch core) s =
        .next { (s1.unready (dieOf core) p.id).updCore core fun x =>
          { x with skips := if p.id = h.id then (0, none) else (n, some h.id) } with majFixed := true })) ∧
    (∀ (d : DieId) (east : Bool), s.boot = .up → (s.dies.get d).stealEast = east → s.dieIdle d = true →
      let victim : DieId := if east then d + 1 else d + 3
      (s.dies.get d).stallEnd = none → (s.dies.get victim).stallEnd = none →
      let s2 := s.updDie d fun x => { x with stealEast := !east }
      let may := fun (p : Packet) => p.affk == 0 && (coresOf d).any fun c => (s2.startPacket c p).isSome
      (∀ p, oldestPacket ((s2.dies.get victim).ready.filter may) = some p →
        exec (.dieSteal d east) s = .next ((s2.unready victim p.id).toDie d p)) ∧
      (oldestPacket ((s2.dies.get victim).ready.filter may) = none → exec (.dieSteal d east) s = .next s2)) ∧
    (s.asksNext thief = some victim → (∀ t, (s.core thief).stealAt.2 = some t → t + 256 ≤ s.cycleOf thief) →
      (s.core thief).freeSlot.isSome = true → (s.core thief).ctx.isSome = true → s.nextTask thief = none →
      s.readyFits thief = false →
      (∀ e q, s.stealable thief victim = some (e, q) → exec (.taskSteal thief victim) s =
        .next ((State.startTask (s.updCore victim fun x =>
          Core.leaveStage { x with deque := x.deque.filter fun f => f.id != e.id } e.stage) thief e q false).updCore thief
            fun x => { x with stealAt := (0, some (s.cycleOf thief)) })) ∧
      (s.stealable thief victim = none → exec (.taskSteal thief victim) s =
        .next (s.updCore thief fun x => { x with stealAt := (x.stealAt.1 + 1, some (s.cycleOf thief)) }))) ∧
    (∀ e q, s.stealable thief victim = some (e, q) →
      e ∈ (s.core victim).deque ∧ e.aff ≠ .core ∧ (s.core thief).ctx = some e.ctx) ∧
    (∀ e, (s.core core).deque.find? (fun f => f.id == e.id) = some e → (e.aff = .die ∨ e.aff = .pkg) → e.reserved = none →
      (s.dies.get (dieOf core)).migr.toNat * 256 ≤ e.waited (s.cycleOf core) →
      ∃ t p, exec (.taskMigrate core e.id) s = .next t ∧ (t.dies.get (dieOf core)).ready = addReady (s.dies.get (dieOf core)).ready p ∧
        p.task = some e ∧ p.id = e.id ∧ p.ctx = e.ctx ∧ p.prio = e.record.prio ∧
        (∀ f ∈ (t.core core).deque, f.id ≠ e.id)) ∧
    (∀ ctx q entry arg replica prio vregs spad stage fmts launch,
      let t := s.newThread core ctx q entry arg replica prio vregs spad stage fmts launch
      t.status = .ready ∧ t.pc = entry ∧ t.getX 10 = arg ∧ t.hctx = ctx ∧ t.prio = prio ∧ t.rows = 1 ∧ t.rbytes = 512 ∧
        t.getX 0 = 0 ∧ (∀ r : Reg, r ≠ 10 → r ≠ 11 → r ≠ 12 → t.getX r = 0) ∧ t.instret = 0) ∧
    (∀ ctx, (∃ t, exec (.preemptRequest ctx) s = .next t ∧ (t.ctxs.get ctx).run = false) ∧
      ((s.ctxs.get ctx).runState = .halting →
        (let s' := (s.holders ctx).foldl State.endKills s
         (∀ c ∈ s.holders ctx, s'.settled c = true ∧ s'.l1Clean c = true) →
          ∃ t, exec (.contextSave ctx) s = .next t ∧ (t.ctxs.get ctx).saved = true) ∧
        ((s.core core).ctx = some ctx → (s.core core).l1d = [] →
          ∃ t, exec (.opaqueSave core) s = .next t ∧ (t.core core).ctx = none)) ∧
      ∀ place, (s.ctxs.get ctx).live = true → (s.ctxs.get ctx).ending = false → (s.ctxs.get ctx).runState = .saved →
        place.length = (s.ctxs.get ctx).savedCores.length → s.placeOk (s.moves ctx place) = true →
        ∃ t, exec (.resumeRequest ctx place) s = .next t ∧ (t.ctxs.get ctx).runState = .running)

/-- R318, R319, R352 to R358: pre-emption. A request halts every core of a running context; a settled context is saved core by
core and frees them, and a thread that `tkill` has stopped ends first when nothing keeps it (R316); a resume restores the
saved cores onto free ones, or changes nothing but RUN; Kamgor answers a forwarded record, and restarts or ends after a
supervisor's trap. From where a resume takes the saved state, and which cores it may use, are the model's choices (log entries
45 and 47). -/
def Obligations.preemption_steps : Prop :=
  ∀ (s : State) (ctx : Ctx) (core : CoreId),
    (∃ t, exec (.preemptRequest ctx) s = .next t ∧ (t.ctxs.get ctx).run = false ∧
      ((s.ctxs.get ctx).live = true → (s.ctxs.get ctx).runState = .running →
        (t.ctxs.get ctx).runState = .halting ∧ ∀ c, (s.core c).ctx = some ctx → (t.core c).halting = true) ∧
      ((s.ctxs.get ctx).live = false ∨ (s.ctxs.get ctx).runState ≠ .running → t.cores = s.cores)) ∧
    (let s' := (s.holders ctx).foldl State.endKills s
     (s'.ctxs.get ctx).runState = .halting →
      ((∀ c ∈ s.holders ctx, s'.settled c = true) →
        ((∃ c ∈ s.holders ctx, (s'.core c).l1d ≠ []) →
          exec (.contextSave ctx) s = .next ((s.holders ctx).foldl State.flushL1 s')) ∧
        ((∀ c ∈ s.holders ctx, s'.l1Clean c = true) → ∃ t, exec (.contextSave ctx) s = .next t ∧
          (t.ctxs.get ctx).runState = .saved ∧ (t.ctxs.get ctx).saved = true)) ∧
      ((∃ c ∈ s.holders ctx, s'.settled c = false) → exec (.contextSave ctx) s = .next s)) ∧
    ((s.core core).ctx = some ctx → (s.ctxs.get ctx).runState = .halting → (s.core core).l1d ≠ [] →
      exec (.opaqueSave core) s = .next (s.flushL1 core)) ∧
    ((s.core core).ctx = some ctx → (s.ctxs.get ctx).runState = .halting → (s.core core).l1d = [] →
      ∃ t, exec (.opaqueSave core) s = .next t ∧ (t.core core).ctx = none ∧ ∀ k, (t.core core).thread k = {}) ∧
    (∀ place, let s1 := s.updCtx ctx fun x => { x with run := true }
      ((s.ctxs.get ctx).live = true → (s.ctxs.get ctx).ending = false → (s.ctxs.get ctx).runState = .saved →
        place.length = (s.ctxs.get ctx).savedCores.length → s1.placeOk (s1.moves ctx place) = true →
        exec (.resumeRequest ctx place) s = .next (s1.resume ctx (s1.moves ctx place))) ∧
      ((s.ctxs.get ctx).runState ≠ .saved → exec (.resumeRequest ctx place) s = .next s1)) ∧
    (∀ r repaired, (s.core core).kamgor = some (.forwarded r) → (s.core core).ctx = some ctx →
      exec (.kamgorAnswer core repaired) s =
        .next ((s.serve ctx r repaired).2.answerSupervisor core (s.serve ctx r repaired).1)) ∧
    (∀ r, (s.core core).kamgor = some (.stopped r) → (s.core core).ctx = some ctx →
      ((s.ctxs.get ctx).svRestart = true → exec (.supervisorTrap core) s = .next (s.restartSupervisor core)) ∧
      ((s.ctxs.get ctx).svRestart = false → exec (.supervisorTrap core) s =
        .next ((s.updCore core fun x => { x with kamgor := none }).endAndTell ctx)))

/-- R226, R227, R330, R374, R384 to R388, R410: a mailbox command that Kamgor runs on the block that it read when the command
started ends with its RESULT, 0 when its change is made and 1 when it is refused; BUSY clears and vector 64 is raised. END, which
has no block, first ends the context and destroys it once it is saved and quiet. The model's choices here are that a block
which is not aligned to 256 and a context that is not live are refused with RESULT 1 (log entry 22), that a WINDOWS count of 0
removes the windows (log entry 21), which corners of MAP and UNMAP are refused (log entry 23), and that TREE into a slot which the
same context holds replaces the record, with its members' episodes at 0 (log entry 55). -/
def Obligations.mailbox_commands : Prop :=
  ∀ (s : State) (ctx : Ctx), s.mbbusy = true → s.boot = .up →
    (wbits s.mbcmd 7 0 = 2 ∨ s.mbblk.1 % 256 = 0) → s.mbCtx = some ctx →
    let op := wbits s.mbcmd 7 0
    let b := fun n => s.mbblk.2.take n
    (∀ r, (s.mbDone r).mbresult = r ∧ (s.mbDone r).mbbusy = false ∧ (s.mbDone r).msix = s.msix ++ [64] ∧
      { s.mbDone r with mbresult := s.mbresult, mbbusy := true, msix := s.msix } = s) ∧
    (op = 1 → (s.ctxs.get ctx).live = false → createOk ctx (b 256) = true → ∃ t : State, exec .create s = .next (t.mbDone 0) ∧
      (t.ctxs.get ctx) = (s.ctxs.get ctx).created (b 256) ∧ ∀ tile, (t.tiles.get tile).selectors.get ctx = 512) ∧
    (op = 1 → (s.ctxs.get ctx).live = true ∨ createOk ctx (b 256) = false → exec .create s = .next (s.mbDone 1)) ∧
    ((s.ctxs.get ctx).live = true →
      (op = 2 → (s.ctxs.get ctx).ending = false → exec .endCtx s = .next (s.endContext ctx)) ∧
      (op = 2 → (s.ctxs.get ctx).ending = true → (s.ctxs.get ctx).runState = .saved → s.quietCtx ctx = true →
        exec .endCtx s = .next (((s.destroy ctx).raise ctx 3).mbDone 0)) ∧
      (op = 3 →
        (∀ r t, mapRecOf (b 32) = some r → s.mapRange ctx r = some t → exec .map s = .next (t.mbDone 0)) ∧
        (mapRecOf (b 32) = none → exec .map s = .next (s.mbDone 1)) ∧
        (∀ r, mapRecOf (b 32) = some r → s.mapRange ctx r = none → exec .map s = .next (s.mbDone 1))) ∧
      (op = 4 →
        (∀ va len level t, rangeOf (b 32) = some (va, len, level) → s.unmapRange ctx va len = some t →
          exec .unmap s = .next (t.mbDone 0)) ∧
        (rangeOf (b 32) = none → exec .unmap s = .next (s.mbDone 1))) ∧
      (op = 5 → s.idleCtx ctx = true →
        (fieldOf (b 400) 0 4 = 0 → exec .windows s = .next ((s.dropWindows ctx).mbDone 0)) ∧
        (8 < fieldOf (b 400) 0 4 → exec .windows s = .next (s.mbDone 1)) ∧
        (∀ r t, fieldOf (b 400) 0 4 = 1 → winReqOf (((b 400).drop 16).take 48) = some r → s.addWindow ctx r = some t →
          exec .windows s = .next (t.mbDone 0))) ∧
      (op = 5 → s.idleCtx ctx = false → exec .windows s = .next s) ∧
      (op = 6 → ∀ d tree, treeOf ctx ((b 1024).drop 16) = some (d, tree) → fieldOf (b 1024) 0 1 < 16 →
        (∀ u, (s.dies.get d).trees.get (finOf 16 (fieldOf (b 1024) 0 1)) = some u → u.ctx = ctx) →
        ∃ t : State, exec .tree s = .next (t.mbDone 0) ∧ (t.dies.get d).trees.get (finOf 16 (fieldOf (b 1024) 0 1)) = some tree ∧
          (∀ c ∈ tree.members, (s.core (s.placed ctx c)).ctx = some ctx ∨ (s.core (s.placed ctx c)).ctx = none →
            (t.core (s.placed ctx c)).episodes.get (finOf 16 (fieldOf (b 1024) 0 1)) = 0) ∧
          ∀ e ∈ (t.ctxs.get ctx).savedCores, e.home ∈ tree.members →
            e.core.episodes.get (finOf 16 (fieldOf (b 1024) 0 1)) = 0) ∧
      (op = 6 → treeOf ctx ((b 1024).drop 16) = none → exec .tree s = .next (s.mbDone 1))) ∧
    (op = 7 → exec .attest s = .next (State.mbDone
      { s with hostMem := s.hostMem.write (s.mbblk.1 + 64) (s.report (b 64)) } 0))

/-- R3, R333, R370, R371, R397, R409 to R416: the device's registers and what lies beyond its interfaces. A tail that would
leave more entries than the ring has is ignored, and so is LOG2N while the queue is enabled; an access table's entry is
written whole; a thread's access of a context page is checked, then made; an aperture reads, writes and performs AtomicOps in
its context; the host and the far device perform requests; a far device's reads and writes in a context are checked and
performed, or refused; a failed port fails what is outstanding on it: its loads and atomics, while a store counts as done.
That a release of an extent leaves no line of it in an L1D either is the model's choice (log entry 24), as are how this
package performs a far device's accesses (log entry 49) and that a refused write is discarded (log entry 5); what a far device
answers is free (log entry 26). That the AtomicOps are those of PCIe, of 4 and 8 bytes, is taken from outside the spec (log
entry 92). -/
def Obligations.registers_and_interfaces : Prop :=
  ∀ (s s1 : State) (m : Nat) (msg : Msg) (ctx : Ctx) (v : Word),
    (let x := s.ctxs.get ctx
     let t : BitVec 32 := v.setWidth 32
     let base := 0x1000 * ctx.val
     (∀ host, (host = true → aclAllows s.ctlAcl.toList .host 0 (base + 0x10) false true = true) →
       (2 ^ x.lqlog.toNat < (t - x.lqhead).toNat → exec (.lqtailWrite ctx ⟨v, host⟩) s = .next s) ∧
       ((t - x.lqhead).toNat ≤ 2 ^ x.lqlog.toNat →
         exec (.lqtailWrite ctx ⟨v, host⟩) s = .next (s.updCtx ctx fun x => { x with lqtail := t }))) ∧
     (aclAllows s.ctlAcl.toList .host 0 (base + 0x10) false true = false →
       exec (.lqtailWrite ctx ⟨v, true⟩) s = .next { s with log := s.log ++ [(3, base + 0x10)] }) ∧
     (∀ host, (host = true → aclAllows s.ctlAcl.toList .host 0 (base + 0x08) false true = true) →
       ∃ u, exec (.lqcfgWrite ctx ⟨v, host⟩) s = .next u ∧ (u.ctxs.get ctx).lqen = v.getLsbD 8 ∧
         (u.ctxs.get ctx).lqlog = if x.lqen = true ∨ v.toNat % 16 < 4 then x.lqlog else v.setWidth 4) ∧
     (aclAllows s.ctlAcl.toList .host 0 (base + 0x08) false true = false →
       exec (.lqcfgWrite ctx ⟨v, true⟩) s = .next { s with log := s.log ++ [(3, base + 0x08)] })) ∧
    (∀ r, (DevReg.hostOffset r = none → exec (.registerWrite r ⟨v, true⟩) s = .next s) ∧
      (∀ off, DevReg.hostOffset r = some off → aclAllows s.ctlAcl.toList .host 0 off false true = false →
        exec (.registerWrite r ⟨v, true⟩) s = .next { s with log := s.log ++ [(3, off)] }) ∧
      ∀ host, (host = true → ∃ off, DevReg.hostOffset r = some off ∧ aclAllows s.ctlAcl.toList .host 0 off false true = true) →
      ∃ u, exec (.registerWrite r ⟨v, host⟩) s = .next u ∧ (r = .mbarg → u = { s with mbarg := v }) ∧
      (r = .mbstat → u = s) ∧ ((∃ c, r = .lqhead c) → u = s) ∧
      (r = .mbcmd → s.mbbusy = true → u = s) ∧ (r = .mbcmd → s.mbbusy = false → u.mbcmd = v &&& 0xFFFF ∧
        (1 ≤ wbits v 7 0 → wbits v 7 0 ≤ 7 → u.mbbusy = true ∧ u.mbblk = (s.mbarg.toNat, s.hostMem.read s.mbarg.toNat 1024))) ∧
      (r = .lqbase ctx → (s.ctxs.get ctx).lqen = true → u = s) ∧
      (∀ d i, r = .eventCount d i → v = 0 → (u.dies.get d).events.get i = 0) ∧ (r = .majcfg → s.majFixed = true → u = s)) ∧
    (∀ (entry : Fin 64) (w0 w1 : Word), wbits w1 11 9 ≤ 4 →
      let e : AclEntry := { w0 := w0 &&& 0xFFFFFFFFFFFFF031, w1 := w1 &&& 0xFFFFFFFFFFFFFF3F }
      exec (.accessTableWrite .control entry w0 w1) s = .next { s with ctlAcl := s.ctlAcl.set entry e } ∧
      (∀ k, exec (.accessTableWrite (.stack k) entry w0 w1) s =
        .next (s.updStack k fun x => { x with acl := x.acl.set entry e })) ∧
      (∀ t, ∀ h : entry.val < 16, exec (.accessTableWrite (.vault t) entry w0 w1) s =
        .next (s.updTile t fun x => { x with acl := x.acl.set entry.val e h }))) ∧
    (s.msg m = some msg → msg.stage = .sent → s.flows msg → ∀ off w, msg.body = .device off w →
      (aclAllows s.ctlAcl.toList .core msg.ctx off w.isNone w.isSome = false →
        exec (.deviceAccess m) s = .next (s.answer m [] 0 (.access 0))) ∧
      (aclAllows s.ctlAcl.toList .core msg.ctx off w.isNone w.isSome = true →
        (w = none → exec (.deviceAccess m) s =
          .next (s.answer m (leBytes 8 (s.readPage (finOf 64 (off / 4096)) (off % 4096)).toNat))) ∧
        (∀ u, w = some u → exec (.deviceAccess m) s =
          .next ((s.writePage (finOf 64 (off / 4096)) (off % 4096) u).answer m [])))) ∧
    (∀ (a : Fin 16) off size, 0 < size → off + size ≤ 2 ^ 32 →
      let va := ((s.apertures.get a).2.toNat + off) % 2 ^ 64
      (∀ b, s.hostRead .host (s.apertures.get a).1 va size = .ok b s1 →
        exec (.hostApertureAccess a off size none) s = .next { s1 with hostReply := some b }) ∧
      (s.hostRead .host (s.apertures.get a).1 va size = .fault s1 →
        exec (.hostApertureAccess a off size none) s = .next { s1 with hostReply := none }) ∧
      (∀ q op u w, HostOp.atomic q = some (op, u, w) →
        (size = 4 ∨ size = 8 →
          (∀ b, s.hostAtomic .host (s.apertures.get a).1 va size op u.toNat w.toNat = .ok b s1 →
            exec (.hostApertureAccess a off size (some q)) s = .next { s1 with hostReply := some b }) ∧
          (s.hostAtomic .host (s.apertures.get a).1 va size op u.toNat w.toNat = .fault s1 →
            exec (.hostApertureAccess a off size (some q)) s = .next { s1 with hostReply := none })) ∧
        (size ≠ 4 → size ≠ 8 → exec (.hostApertureAccess a off size (some q)) s = .next { s with hostReply := none })) ∧
      (size ≤ 8 → va % 128 + size ≤ 128 → s.hostHeld (s.apertures.get a).1 va size = false →
        (s.hostWriteLine .host (s.apertures.get a).1 va (leBytes size v.toNat) = some s1 →
          exec (.hostApertureAccess a off size (some (.write v))) s = .next s1) ∧
        (s.hostWriteLine .host (s.apertures.get a).1 va (leBytes size v.toNat) = none →
          exec (.hostApertureAccess a off size (some (.write v))) s = .next { s with log := s.log ++ [(3, va)] }))) ∧
    (∀ (p : Fin 16) (ctx : Ctx) (va : Word) (rest : List Action), (s.peers.get p).up = true →
      let u : State := { s with agenda := rest }
      (∀ n, s.agenda = .farAccess p ctx va (.read n) :: rest →
        (∀ b, u.hostRead .peer ctx va.toNat n = .ok b s1 →
          step s = .next (s1.updPeer p fun x => { x with reply := some b })) ∧
        (u.hostRead .peer ctx va.toNat n = .fault s1 → step s = .next (s1.updPeer p fun x => { x with reply := none }))) ∧
      (∀ b, s.agenda = .farAccess p ctx va (.write b) :: rest → va.toNat % 128 + b.length ≤ 128 → b ≠ [] →
        u.hostHeld ctx va.toNat b.length = false →
        (u.hostWriteLine .peer ctx va.toNat b = some s1 → step s = .next s1) ∧
        (u.hostWriteLine .peer ctx va.toNat b = none → step s = .next { u with log := u.log ++ [(1, va.toNat)] }))) ∧
    (s.msg m = some msg → s.atHome msg = true →
      (∀ w off n rd, msg.body = .host w off (.read n) rd → exec (.hostRequest m) s =
        .next (s.perform msg (s.hostMem.read (s.hostBus msg.ctx w off) n))) ∧
      (∀ w off b rd, msg.body = .host w off (.write b) rd → exec (.hostRequest m) s = .next
        (State.perform { s with hostMem := s.hostMem.write (s.hostBus msg.ctx w off) b } msg [])) ∧
      (∀ p off n rd, msg.body = .peer p off (.read n) rd → (s.peers.get p).up = true →
        let f := s.farPlace p off
        (Config.farAccess f.1 f.2 n false = true → exec (.peerRequest m) s = .next ((s.updPeer p fun x => { x with
          mem := (s.peers.get p).mem }).perform msg ((s.peers.get p).mem.read (farKey f) n))) ∧
        (Config.farAccess f.1 f.2 n false = false → exec (.peerRequest m) s = .next (s.perform msg [] 0 (.access 0)))) ∧
      (∀ p off b rd, msg.body = .peer p off (.write b) rd → (s.peers.get p).up = true →
        let f := s.farPlace p off
        Config.farAccess f.1 f.2 b.length true = false → exec (.peerRequest m) s =
          .next (State.perform { s with log := s.log ++ [(1, farKey f)] } msg []))) ∧
    (∀ p, ∃ t u, exec (.peerLinkFail p) s = .next t ∧ (t.peers.get p).up = false ∧ t.net.length = s.net.length ∧
      (∀ n ∈ s.net, ∀ off req rd, n.body = .peer p off req rd → ∃ n' ∈ t.net, n'.id = n.id ∧
        n'.stage = .reply [] 0 (match req with | .write _ => .none | _ => .access 0)) ∧
      exec (.peerLinkUp p) s = .next u ∧ u = s.updPeer p fun x => { x with up := true }) ∧
    (∀ (e : Fin 1024) size forced, s.cxl = true → 0 < size → size ≤ 2 ^ 40 →
      (assoc s.extents e.val = none ∨ s.revoked.contains e.val = true →
        exec (.extentGrant e size) s = .next { s with
          extents := assocSet s.extents e.val size, revoked := s.revoked.filter fun n => n != e.val }) ∧
      ((assoc s.extents e.val).isSome = true → s.revoked.contains e.val = false →
        ∃ t, exec (.extentRelease e forced) s = .next t ∧ t.revoked.contains e.val = true ∧
          ∀ c, ∀ l ∈ (t.core c).l1d, s.inExtent e.val l.line = false))

/-- R389, R391, R395, R398, R399, R401 to R406, R378: the steps of the stacks. A copy is judged by its tag and answered; a
read returns the newest of two replies; a second reply completes a store; a stack goes out of service only while its triple's
others are in; a copy on its way to it then is answered ABSENT; catch-up and scrubbing bring a granule up to date, and that
the accesses which an OFFLINE stack held are performed when its catch-up begins is the model's reading (log entry 28); how a
copy with an uncorrectable stored sector is judged, and what catch-up does with a granule that does not resolve, are its too
(log entries 16 and 17), as is how old a store's stamp must be when its copy is judged (log entry 78); a slice retires; a
row's lines are captured for a window; an extent of far memory is granted and released (R393, R414). -/
def Obligations.stack_steps : Prop :=
  ∀ (s : State) (m : Nat) (msg : Msg) (k : StackId),
    (s.msg m = some msg → s.flows msg →
      (∀ op g tag data repair, msg.body = .majCopy op k g tag data repair → msg.stage = .sent →
        (repair = true ∨ s.travelled tag = true) →
        ((s.hbm.get k).judge g tag data (some (s.keyNow msg.ctx)) = none → exec (.majCopyAtStack m) s = .next (s.answer m [] 0 .absent)) ∧
        (msg.absent = true → exec (.majCopyAtStack m) s = .next (s.answer m [] 0 .absent)) ∧
        (∀ x ok, msg.absent = false → (s.hbm.get k).judge g tag data (some (s.keyNow msg.ctx)) = some (x, ok) →
          (s.copyRefused msg k g repair = true → exec (.majCopyAtStack m) s = .next (s.answer m [] 0 (.access 0))) ∧
          (s.copyRefused msg k g repair = false →
            exec (.majCopyAtStack m) s = .next ((s.updStack k fun _ => x).answer m [if ok then 1 else 0])))) ∧
      (∀ id g data sig o, msg.body = .majRead id k g → msg.stage = .reply data sig .none →
        (s.majOps.find? fun o => o.id == id) = some o → o.winner = none → o.done = false →
        ∀ u, ((s.drop m).updOp id fun q => { q with
          good := q.good ++ [(k, ofBytes 64 (data.take 8), ofBytes 512 (data.drop 8))] }).majResolve id = some u →
        exec (.majReadReply m) s = .next (u.sweepOp id)) ∧
      (∀ id g tag data d sig o, msg.body = .majCopy id k g tag data false → msg.stage = .reply d sig .none →
        (s.majOps.find? fun o => o.id == id) = some o →
        exec (.majReply m) s = .next ((((s.drop m).updOp id fun q => { q with
          acks := q.acks ++ [(k, d.head? == some 1)] }).settleStores).sweepOp id))) ∧
    (∀ o ∈ s.settleStores.majOps, o.stamped.isSome = true → ∀ a b, a ∈ o.acks → b ∈ o.acks → a ≠ b →
      (o.asked.contains a.1 = true ∨ (s.hbm.get a.1).state = .in_) →
      (o.asked.contains b.1 = true ∨ (s.hbm.get b.1).state = .in_) → o.done = true) ∧
    (∀ (x : Stack) g tag data key, (x.state = .offline ∨ x.state = .failed → x.judge g tag data key = none) ∧
      (x.state = .in_ → (x.copy g).err ≠ some false →
        (tagNewer tag (x.copy g).tag = true → ∃ y, x.judge g tag data key = some (y, true) ∧ (y.copy g).data = data ∧
          (y.copy g).tag = tag ∧ (y.copy g).key = key ∧ ∀ h, h ≠ g → y.copy h = x.copy h) ∧
        (tagNewer tag (x.copy g).tag = false → x.judge g tag data key = some (x, false)))) ∧
    (∀ a b t u (d e : BitVec 512) l more, (t = u → d = e → voteOf ((a, t, d) :: (b, u, e) :: l) more = .winner t d none false) ∧
      (t ≠ u → tagNewer t u = true → voteOf ((a, t, d) :: (b, u, e) :: l) more = .winner t d (some b) true)) ∧
    ((s.hbm.get k).state = .in_ → s.matesIn k = true →
      exec (.stackOffline k) s = .next ((s.updStack k fun x => { x with state := .offline }).absentCopies k)) ∧
    (s.matesIn k = false → exec (.stackOffline k) s = .next s ∧ exec (.stackFailed k) s = .next s) ∧
    ((s.hbm.get k).state = .offline → exec (.stackCatchup k) s = .next ((s.updStack k fun x =>
      { x with state := .catchup, catchAll := true, catchOff := [], swept := 0 }).serveHeld k)) ∧
    ((s.hbm.get k).state = .in_ ∨ (s.hbm.get k).state = .offline → s.matesIn k = true →
      let lost : MscLine → Bool := fun l => s.onStack k l && l.dirty != 0
      let counted := (s.hbm.get k).held.foldl (fun s h => s.countError h.1 false) s
      exec (.stackFailed k) s = .next (((counted.updStack k fun x => { x with state := .failed, held := [] }).logLosses
        (4096 * k.val) lost).flushLine lost false false)) ∧
    ((s.hbm.get k).state = .catchup →
      (s.granules ≤ (s.hbm.get k).swept → ∃ t, exec (.catchupGranule k) s = .next t ∧ (t.hbm.get k).state = .in_) ∧
      ((s.hbm.get k).swept + 1 < s.granules → ∃ t, exec (.catchupGranule k) s = .next t ∧
        (t.hbm.get k).state = .catchup ∧ (t.hbm.get k).swept = (s.hbm.get k).swept + 1 ∧
        (t.hbm.get k).scrub = ((s.hbm.get k).scrub % s.granules + 1) % s.granules)) ∧
    (∀ (triple : Fin 4) g, g < s.granules → 2 ≤ (s.inStacks triple).length →
      ∃ t, exec (.scrubVisit triple g) s = .next t ∧ t.mem = s.mem ∧ t.cores = s.cores) ∧
    (∀ pa correctable st off, s.region pa = .hbm st off → assoc s.errors (pa / 32) ≠ some false →
      exec (.memoryError pa correctable none) s = .next { s with errors := assocSet s.errors (pa / 32) correctable }) ∧
    (∀ tile dest : TileId, tile ≠ dest → dieOfTile tile = dieOfTile dest → (s.tiles.get tile).stub = none →
      (s.tiles.get dest).stub = none → ∃ t, exec (.sliceRetire tile dest) s = .next t ∧
        (t.tiles.get tile).stub = some dest ∧ (t.tiles.get tile).msc = [] ∧ (t.tiles.get tile).monitors = [] ∧
        ∀ i, (t.dies.get (dieOfTile tile)).mscmap.get i =
          if (s.dies.get (dieOfTile tile)).mscmap.get i = tile then dest else (s.dies.get (dieOfTile tile)).mscmap.get i) ∧
    (∀ row, s.captureWin = s.ticks / 32000000 → (s.hbm.get k).state = .in_ → (s.hbm.get k).captured.contains row = false →
      (∀ line ∈ row, ∃ off, s.region (128 * line) = .hbm k off) →
      exec (.hotRowCapture k row) s =
        .next (row.foldl State.captureLine (s.updStack k fun x => { x with captured := row :: x.captured }))) ∧
    (s.captureWin < s.ticks / 32000000 → ∃ t, exec .captureWindowEnd s = .next t ∧ t.captureWin = s.ticks / 32000000 ∧ ∀ tile, ∀ l ∈ (t.tiles.get tile).msc, l.captured = false) ∧
    (∀ e : Fin 1024, s.cxl = true →
      (∀ size, 0 < size → size ≤ 2 ^ 40 → assoc s.extents e.val = none →
        ∃ t, exec (.extentGrant e size) s = .next t ∧ assoc t.extents e.val = some size) ∧
      ((assoc s.extents e.val).isSome = true → s.revoked.contains e.val = false →
        ∀ forced, ∃ t, exec (.extentRelease e forced) s = .next t ∧ t.revoked.contains e.val = true))

/-- R225, R362, R364 to R369, R372, R373: clocks, resets and the boot. TGT is taken within its range while no switch is
scheduled; a switch needs a lock and 1,000 ticks of notice; at its tick the clock passes over, INC follows with the die cycle
that begins there (R360), and the crossings stall for 64 ticks; a die's reset loses its compute layer; the boot runs the four
images in turn; a link runs on its working modules, and one that has none left is a fatal package error. A port's link fails
and comes up again (R416); Kamgor's write of a register, a write of an access table and the host's read through an aperture
complete (R3, R370, R411). The model's choices here are that a package reset leaves the host's memory and the inputs still to
take (log entry 57) and that a die's copy of the timer lags by 0 when its reset ends (log entry 37). -/
def Obligations.clocks_resets_and_boot : Prop :=
  ∀ (s : State) (die : DieId) (v : Word),
    (let d := s.dies.get die
     let t := v.toNat / 256 % 16
     (t ≤ 6 → d.at_ = 0 → ∃ u, exec (.dfreqTgtWrite die v) s = .next u ∧ (u.dies.get die).tgt.toNat = t ∧
       (u.dies.get die).lock = false) ∧
     (6 < t ∨ d.at_ ≠ 0 → exec (.dfreqTgtWrite die v) s = .next s) ∧
     exec (.pllLock die) s = .next (s.updDie die fun d => { d with lock := true }) ∧
     (d.lock = true → s.ticks + 1000 ≤ v.toNat →
       exec (.dfswWrite die v) s = .next (s.updDie die fun d => { d with at_ := v })) ∧
     (d.lock = false ∨ v.toNat < s.ticks + 1000 → exec (.dfswWrite die v) s = .next s) ∧
     (d.at_ ≠ 0 → d.at_.toNat ≤ s.ticks → exec (.freqSwitch die) s = .next (s.updDie die fun d => { d with
       cur := d.tgt, inc := if d.inReset then incOf d.tgt.toNat else d.inc, lock := false, at_ := 0
       stallEnd := some (d.at_ + 64), edge := d.at_.toNat * tickUnits })) ∧
     ((s.tick die).dies.get die).inc = incOf d.cur.toNat ∧
     (∀ e, d.stallEnd = some e →
       (e.toNat ≤ s.ticks → exec (.crossingStallEnd die) s = .next (s.updDie die fun d => { d with stallEnd := none })) ∧
       (s.ticks < e.toNat → exec (.crossingStallEnd die) s = .next s)) ∧
     (∀ cur tgt, d.inReset = false → ∃ u, exec (.computeDieReset ⟨die, cur, tgt⟩) s = .next u ∧
       (u.dies.get die).inReset = true ∧ (u.dies.get die).cur = BitVec.ofNat 4 cur.val ∧
       (u.dies.get die).tgt = BitVec.ofNat 4 tgt.val ∧ (u.dies.get die).inc = incOf cur.val ∧
       (∀ c, dieOf c = die → u.core c = {}) ∧ (∀ t, dieOfTile t = die → u.clusters.get t = {})) ∧
     (d.inReset = true → (∀ m ∈ s.net, dieOf m.core ≠ die) →
       ∃ u, exec (.dieResetRelease die) s = .next u ∧ u.cores = s.cores ∧ (u.dies.get die).inReset = false ∧
         (u.dies.get die).skew = 0 ∧ (u.dies.get die).cycle = 0 ∧ (u.dies.get die).ncycle = 0 ∧
         (u.dies.get die).frac = 0)) ∧
    (∃ u, exec .packageReset s = .next u ∧ u.cores = State.reset.cores ∧ u.mem = State.reset.mem ∧
      u.boot = State.reset.boot ∧ u.hostMem = s.hostMem ∧ u.agenda = s.agenda) ∧
    (∀ k image, s.boot = .checking k ∨ s.boot = .start ∧ k = 0 →
      (imageCode (k.val + 1) image = 0 → ∃ u, exec (.bootImageCheck image) s = .next u ∧
        u.boot = (if k = 3 then .up else .checking (k + 1)) ∧ u.images.length = s.images.length + 1) ∧
      (imageCode (k.val + 1) image ≠ 0 → exec (.bootImageCheck image) s =
        .next { s with boot := .recovery k (BitVec.ofNat 8 (imageCode (k.val + 1) image)) })) ∧
    (∀ k code image, s.boot = .recovery k code → imageCode (k.val + 1) image = 0 →
      ∃ u, exec (.recoveryImage image) s = .next u ∧ u.boot = (if k = 3 then .up else .checking (k + 1))) ∧
    (∀ (link : Fin 8) (module : Fin 12), let left := s.links.get link &&& ~~~(1#12 <<< module.val)
      (left ≠ 0 → exec (.linkModuleFail link module) s = .next { s with links := s.links.set link left }) ∧
      (left = 0 → exec (.linkModuleFail link module) s = .fault (.fatalPackageError link.val))) ∧
    (∀ port : Fin 16, (∃ t, exec (.peerLinkFail port) s = .next t ∧ (t.peers.get port).up = false) ∧
      ∃ t, exec (.peerLinkUp port) s = .next t ∧ (t.peers.get port).up = true) ∧
    exec (.registerWrite .mbarg ⟨v, false⟩) s = .next { s with mbarg := v } ∧
    (∀ (entry : Fin 64) (w1 : Word), wbits w1 11 9 ≤ 4 → ∃ t, exec (.accessTableWrite .control entry v w1) s = .next t ∧
      t.ctlAcl = s.ctlAcl.set entry { w0 := v &&& 0xFFFFFFFFFFFFF031, w1 := w1 &&& 0xFFFFFFFFFFFFFF3F }) ∧
    (∀ (a : Fin 16) off size b (u : State), 0 < size → off + size ≤ 2 ^ 32 →
      s.hostRead .host (s.apertures.get a).1 (((s.apertures.get a).2.toNat + off) % 2 ^ 64) size = .ok b u →
      exec (.hostApertureAccess a off size none) s = .next { u with hostReply := some b })

/-- R366: at the start of a die cycle CYCLE rises by 1, and NCYCLE by the whole part of F + INC, whose fraction stays in F.
INC is 1.8 / f in 16.16 fixed point, rounded to the nearest integer, by the seven steps. A switch does not change F, and a
compute die's reset leaves it 0. -/
def Obligations.die_cycles : Prop :=
  ∀ (s : State) (die : DieId),
    (let d := s.dies.get die
     let e := (s.tick die).dies.get die
     e.cycle = d.cycle + 1 ∧ e.ncycle = d.ncycle + BitVec.ofNat 64 ((d.frac.toNat + d.inc.toNat) / 2 ^ 16) ∧
       e.frac.toNat = (d.frac.toNat + d.inc.toNat) % 2 ^ 16 ∧
       (∀ rest, s.agenda = .cycle die :: rest →
         (∀ t, d.nextClock = some (t, .cycle) → t ≤ s.time →
           step s = .next (State.tick { s with agenda := rest } die)) ∧
         (d.inReset = true → step s = .next { s with agenda := rest }))) ∧
    (∀ step ≤ 6, let f := 12 + step
      2 * (incOf step).toNat * f ≤ 2 * 18 * 2 ^ 16 + f ∧ 2 * 18 * 2 ^ 16 < 2 * (incOf step).toNat * f + f) ∧
    (List.range 7).map incOf = [0x18000, 0x16276, 0x14925, 0x13333, 0x12000, 0x10F0F, 0x10000] ∧
    (∃ t, exec (.freqSwitch die) s = .next t ∧ (t.dies.get die).frac = (s.dies.get die).frac) ∧
    (∀ cur tgt, (s.dies.get die).inReset = false →
      ∃ t, exec (.computeDieReset ⟨die, cur, tgt⟩) s = .next t ∧ (t.dies.get die).frac = 0)

/-- R28, R74: a core issues the word at the program counter of the slot its rotation chooses, with that thread ready and the
slot remembered; a step then runs the instruction that the word decodes to, and a word that decodes to nothing is an illegal
instruction. Without an input, the focus core's next die cycle begins first. A device step that the agenda names is run. What
a step does without an input, and that steps come as the agenda gives them, are the model's choices (log entries 38 and 70).
-/
def Obligations.a_step_runs_the_decoded_instruction : Prop :=
  ∀ (s u t : State) (c : CoreId) (w : BitVec 32),
    (u.chosen c = some (w, t) → ∃ k, u.canIssue c k = true ∧
      (u.thread c k).wordAt (u.thread c k).pc.toNat = some w ∧ t = u.issuing c k) ∧
    ((∃ rest, s.agenda = .issue c :: rest ∧ u = { s with agenda := rest }) ∨
      (s.agenda = [] ∧ c = s.focus ∧ u = s.cycleStart) →
      (u.chosen c = some (w, t) →
        let r := match decode w with
          | .ok i => t.concluded (registerOnly i) (exec i t)
          | .error _ => t.concluded false (exec (.illegalInstruction w) t)
        (∀ v, r = .next v → v.notReady c t.issuer.2 = false → step s = .next v) ∧
        (∀ v, r = .next v → v.notReady c t.issuer.2 = true → step s = tryIssue c 15 (u.passedOver v c)) ∧
        ((∀ v, r ≠ .next v) → step s = r)) ∧
      (u.chosen c = none → step s = .next u)) ∧
    ((t.thread t.issuer.1 t.issuer.2).loads = [] → ∀ pure r, t.concluded pure r = r) ∧
    (∀ e rest, s.agenda = .event e :: rest → isEvent e = true → step s = exec e { s with agenda := rest })

/-- R62, R65 to R71: words that the spec prints decode to the instructions that it prints beside them. -/
def Obligations.printed_words_decode : Prop :=
  decode 0x0C800493#32 = .ok (.addi 9#5 0#5 200#12) ∧
  decode 0xFA0414E3#32 = .ok (.bne 8#5 0#5 (4052#12)) ∧
  decode 0x0ABA487B#32 = .ok (.amoadd 0#4 7#4 4#4 true .relWk1 .die) ∧
  decode 0x007312FB#32 = .ok (.bfx 5#5 6#5 7#5) ∧
  decode 0x7462B07B#32 = .ok (.stl 5#5 6#5 .d .csel) ∧
  decode 0x002C1E0B#32 = .ok (.qbtok 24#5 .end2 14#12) ∧
  decode 0x042081AB#32 = .ok (.vadd .f32 3#5 1#5 2#5 2#3) ∧
  decode 0x795A105B#32 = .ok (.tmma .bf16 true false 0#5 20#5 21#5)

/-- R347, R364, R368, R373, R377: package reset leaves every die at step 6 with an increment of 1.0 and no switch scheduled,
the dispatcher's limits at 16 and 8, every slice map entry at its own tile, no context, no thread, no packet, and the boot ROM
before the first image. That no context is live and no thread is present is the model's reading of package reset (log entry
1). -/
def Obligations.package_reset_values : Prop :=
  (∀ d : DieId, let x := State.reset.dies.get d
    x.cur = 6 ∧ x.tgt = 6 ∧ x.inc = 0x10000 ∧ x.lock = false ∧ x.at_ = 0 ∧ x.migr = 16 ∧ x.age = 8 ∧
    x.cycle = 0 ∧ x.ncycle = 0 ∧ x.frac = 0 ∧ x.ready = [] ∧ ∀ i : Fin 80, (x.mscmap.get i).val = d.val * 80 + i.val) ∧
  (∀ ctx, (State.reset.ctxs.get ctx).live = false) ∧
  (∀ c k, (State.reset.thread c k).status = .absent) ∧
  State.reset.net = [] ∧ State.reset.boot = .start

/-- R60, R62, R65 to R71: decoding the word of a well-formed instruction gives it back, every operand at every value that
the encoding admits. -/
def Obligations.decoding_inverts_encoding : Prop :=
  ∀ (i : Instr) (w : BitVec 32), i.wf = true → encode i = some w → decode w = .ok i

/-- R60, R74: a word that decodes is the word of the instruction that it decodes to, which is well-formed: no two words
have one meaning, and no field that must be zero is ignored. -/
def Obligations.encoding_inverts_decoding : Prop :=
  ∀ (w : BitVec 32) (i : Instr), decode w = .ok i → i.wf = true ∧ encode i = some w

/-- The memories of the stacks, the vaults and the host keep their canonical form over every step, so that equal memories stay
equal data. The canonical form is the model's own, and what an unlisted byte reads as is its choice (log entry 2). -/
def Obligations.memory_form_is_kept : Prop :=
  ∀ s t : State, s.memoryForm → step s = .next t → t.memoryForm

/-- The memories of the machine after reset are in canonical form. The canonical form is the model's own (log entry 2). -/
def Obligations.memory_form_at_reset : Prop := State.reset.memoryForm

end
end

