-- ==== Sys2Proof/Laws/Memory.lean ====
section
/-! SUPPORT. Laws of memories: the canonical form is kept by every operation, a read after a write of the same byte gives
what was written, and other bytes stay. -/

-- One declaration at a time, so that the package as one text stays within the memory of a check.
set_option Elab.async false

namespace Sys2Proof.Machine

/-! ## The canonical form -/

/-- The canonical form of a memory with a first entry. -/
theorem Memory.wf_cons (a : Nat) (v : Byte) (m : Memory) :
    Memory.wf ((a, v) :: m) = true ↔ v ≠ Memory.unlisted ∧ (∀ p ∈ m, a < p.1) ∧ Memory.wf m = true := by
  simp only [Memory.wf, List.pairwise_cons, List.all_cons, Bool.and_eq_true, decide_eq_true_eq, bne_iff_ne, ne_eq]
  tauto

/-- The empty memory is canonical. -/
@[simp] theorem Memory.wf_nil : Memory.wf [] = true := by decide

/-- A write adds no address but its own. -/
theorem Memory.write1_addr (m : Memory) (a : Nat) (v : Byte) :
    ∀ p ∈ Memory.write1 m a v, p.1 = a ∨ p ∈ m := by
  induction m with
  | nil =>
    intro p hp
    simp only [Memory.write1] at hp
    split at hp
    · simp at hp
    · simp only [List.mem_singleton] at hp; exact .inl (by rw [hp])
  | cons q t ih =>
    obtain ⟨b, w⟩ := q
    intro p hp
    simp only [Memory.write1] at hp
    split at hp
    · split at hp
      · exact .inr hp
      · rcases List.mem_cons.1 hp with h | h
        · exact .inl (by rw [h])
        · exact .inr h
    · split at hp
      · split at hp
        · exact .inr (List.mem_cons_of_mem _ hp)
        · rcases List.mem_cons.1 hp with h | h
          · exact .inl (by rw [h])
          · exact .inr (List.mem_cons_of_mem _ h)
      · rcases List.mem_cons.1 hp with h | h
        · exact .inr (by rw [h]; exact List.mem_cons_self)
        · rcases ih p h with h | h
          · exact .inl h
          · exact .inr (List.mem_cons_of_mem _ h)

/-- A write of one byte keeps the canonical form. -/
theorem Memory.write1_wf (m : Memory) (a : Nat) (v : Byte) (h : Memory.wf m = true) :
    Memory.wf (Memory.write1 m a v) = true := by
  induction m with
  | nil =>
    simp only [Memory.write1]
    split
    · rfl
    · rename_i hv
      exact (Memory.wf_cons a v []).2 ⟨hv, by simp, rfl⟩
  | cons q t ih =>
    obtain ⟨b, w⟩ := q
    obtain ⟨hw, hlt, ht⟩ := (Memory.wf_cons b w t).1 h
    simp only [Memory.write1]
    split
    · rename_i hab
      split
      · exact h
      · rename_i hv
        refine (Memory.wf_cons a v _).2 ⟨hv, ?_, h⟩
        intro p hp
        rcases List.mem_cons.1 hp with rfl | hp
        · exact hab
        · exact Nat.lt_trans hab (hlt p hp)
    · rename_i hab
      split
      · rename_i he
        split
        · exact ht
        · rename_i hv
          exact (Memory.wf_cons a v t).2 ⟨hv, by rw [he]; exact hlt, ht⟩
      · rename_i he
        refine (Memory.wf_cons b w _).2 ⟨hw, ?_, ih ht⟩
        intro p hp
        rcases Memory.write1_addr t a v p hp with h | h
        · rw [h]; omega
        · exact hlt p h

/-- A write of bytes keeps the canonical form. -/
theorem Memory.write_wf (m : Memory) (a : Nat) (b : List Byte) (h : Memory.wf m = true) :
    Memory.wf (Memory.write m a b) = true := by
  induction b generalizing m a with
  | nil => exact h
  | cons v t ih => exact ih _ _ (Memory.write1_wf m a v h)

/-- Leaving out entries keeps the canonical form. -/
theorem Memory.filter_wf (m : Memory) (p : Nat × Byte → Bool) (h : Memory.wf m = true) :
    Memory.wf (m.filter p) = true := by
  simp only [Memory.wf, Bool.and_eq_true, decide_eq_true_eq, List.all_eq_true] at h ⊢
  exact ⟨h.1.filter p, fun q hq => h.2 q (List.mem_filter.1 hq).1⟩

/-- Clearing the bytes a test selects keeps the canonical form. -/
theorem Memory.clear_wf (m : Memory) (p : Nat → Bool) (h : Memory.wf m = true) : Memory.wf (Memory.clear m p) = true :=
  Memory.filter_wf m _ h

/-! ## Reads after writes -/

/-- A byte below every listed address reads as an unlisted one. -/
theorem Memory.read1_below (m : Memory) (a : Nat) (h : ∀ p ∈ m, a < p.1) : Memory.read1 m a = Memory.unlisted := by
  cases m with
  | nil => rfl
  | cons q t =>
    obtain ⟨b, w⟩ := q
    have hb : a < b := h (b, w) List.mem_cons_self
    simp only [Memory.read1]
    rw [if_neg (Nat.ne_of_lt hb), if_pos hb]

/-- A byte written reads as written. -/
theorem Memory.read1_write1_same (m : Memory) (a : Nat) (v : Byte) (h : Memory.wf m = true) :
    Memory.read1 (Memory.write1 m a v) a = v := by
  induction m with
  | nil =>
    simp only [Memory.write1]
    split <;> simp_all [Memory.read1]
  | cons q t ih =>
    obtain ⟨b, w⟩ := q
    obtain ⟨_, hlt, ht⟩ := (Memory.wf_cons b w t).1 h
    simp only [Memory.write1]
    split
    · rename_i hab
      split
      · rename_i hv
        simp only [Memory.read1]
        rw [if_neg (Nat.ne_of_lt hab), if_pos hab, hv]
      · simp [Memory.read1]
    · split
      · rename_i he
        split
        · rename_i hv
          rw [Memory.read1_below t a (by rw [he]; exact hlt), hv]
        · simp [Memory.read1]
      · rename_i hab he
        simp only [Memory.read1]
        rw [if_neg he, if_neg hab]
        exact ih ht

/-- A write leaves every other byte as it was. -/
theorem Memory.read1_write1_other (m : Memory) (a c : Nat) (v : Byte) (hc : c ≠ a) (h : Memory.wf m = true) :
    Memory.read1 (Memory.write1 m a v) c = Memory.read1 m c := by
  induction m with
  | nil =>
    simp only [Memory.write1]
    split
    · rfl
    · simp [Memory.read1, hc]
  | cons q t ih =>
    obtain ⟨b, w⟩ := q
    obtain ⟨_, hlt, ht⟩ := (Memory.wf_cons b w t).1 h
    simp only [Memory.write1]
    split
    · rename_i hab
      split
      · rfl
      · show (if c = a then v else if c < a then _ else Memory.read1 ((b, w) :: t) c) = _
        rw [if_neg hc]
        split
        · rename_i hca
          simp only [Memory.read1]
          rw [if_neg (by omega), if_pos (by omega)]
        · rfl
    · split
      · rename_i he
        split
        · simp only [Memory.read1]
          rw [if_neg (by omega)]
          split
          · rename_i hcb
            exact Memory.read1_below t c fun p hp => Nat.lt_trans hcb (hlt p hp)
          · rfl
        · simp only [Memory.read1]
          rw [if_neg hc, if_neg (by omega : ¬ c = b), he]
      · simp only [Memory.read1]
        split
        · rfl
        · split
          · rfl
          · exact ih ht

/-- A write of bytes leaves every byte outside its range as it was. -/
theorem Memory.read1_write_other (m : Memory) (a c : Nat) (b : List Byte) (hc : c < a ∨ a + b.length ≤ c)
    (h : Memory.wf m = true) : Memory.read1 (Memory.write m a b) c = Memory.read1 m c := by
  induction b generalizing m a with
  | nil => rfl
  | cons v t ih =>
    simp only [List.length_cons] at hc
    have hw := Memory.write1_wf m a v h
    show Memory.read1 (Memory.write (Memory.write1 m a v) (a + 1) t) c = _
    rw [ih (Memory.write1 m a v) (a + 1) (by omega) hw, Memory.read1_write1_other m a c v (by omega) h]

/-- A read of a range that a write does not touch. -/
theorem Memory.read_write_other (m : Memory) (a c n : Nat) (b : List Byte) (hc : c + n ≤ a ∨ a + b.length ≤ c)
    (h : Memory.wf m = true) : Memory.read (Memory.write m a b) c n = Memory.read m c n := by
  induction n generalizing c with
  | zero => rfl
  | succ n ih =>
    simp only [Memory.read]
    rw [Memory.read1_write_other m a c b (by omega) h, ih (c + 1) (by omega)]

/-- Bytes written read as written. -/
theorem Memory.read_write_same (m : Memory) (a : Nat) (b : List Byte) (h : Memory.wf m = true) :
    Memory.read (Memory.write m a b) a b.length = b := by
  induction b generalizing m a with
  | nil => rfl
  | cons v t ih =>
    have hw := Memory.write1_wf m a v h
    show Memory.read1 (Memory.write (Memory.write1 m a v) (a + 1) t) a ::
      Memory.read (Memory.write (Memory.write1 m a v) (a + 1) t) (a + 1) t.length = _
    rw [Memory.read1_write_other _ (a + 1) a t (by omega) hw, Memory.read1_write1_same m a v h, ih _ _ hw]

/-- The number of bytes that a read gives. -/
@[simp] theorem Memory.read_length (m : Memory) (a n : Nat) : (Memory.read m a n).length = n := by
  induction n generalizing a with
  | zero => rfl
  | succ n ih => simp [Memory.read, ih]

/-! ## Byte order -/

/-- The number of bytes of a value. -/
@[simp] theorem leBytes_length (n v : Nat) : (leBytes n v).length = n := by
  induction n generalizing v with
  | zero => rfl
  | succ n ih => simp [leBytes, ih]

/-- The bytes of a value spell it. -/
theorem ofLe_leBytes (n v : Nat) : ofLe (leBytes n v) = v % 256 ^ n := by
  induction n generalizing v with
  | zero => simp [leBytes, ofLe, Nat.mod_one]
  | succ n ih =>
    show (BitVec.ofNat 8 v).toNat + 256 * ofLe (leBytes n (v / 256)) = _
    rw [ih, BitVec.toNat_ofNat, show (256 : Nat) ^ (n + 1) = 256 * 256 ^ n from Nat.pow_succ', Nat.mod_mul]

end Sys2Proof.Machine
end

