-- ==== Sys2Proof/Laws/State.lean ====
section
/-! SUPPORT. Laws of the state's updates: for each update and each field, what the field is afterwards. -/

namespace Sys2Proof.Machine

/-! ## One spelling of each update -/

@[simp] theorem State.updCore_eq (s : State) (c : CoreId) (f : Core → Core) : s.updCore c f = s.setCore c (f (s.core c)) := rfl
@[simp] theorem State.updThread_eq (s : State) (c : CoreId) (k : Slot) (f : Thread → Thread) :
    s.updThread c k f = s.setThread c k (f (s.thread c k)) := rfl
@[simp] theorem State.updMe_eq (s : State) (f : Thread → Thread) :
    s.updMe f = s.setThread s.issuer.1 s.issuer.2 (f s.me) := rfl
@[simp] theorem State.updHere_eq (s : State) (f : Core → Core) : s.updHere f = s.setCore s.issuer.1 (f s.here) := rfl

/-! ## What an update reads back as -/

@[simp] theorem get_set_same {α : Type} {n : Nat} (v : Vector α n) (i : Fin n) (x : α) : (v.set i.val x i.isLt).get i = x := by
  rw [Vector.get_eq_getElem, Vector.getElem_set_self]

theorem get_set_other {α : Type} {n : Nat} (v : Vector α n) (i j : Fin n) (x : α) (h : j ≠ i) :
    (v.set i.val x i.isLt).get j = v.get j := by
  have h' : i.val ≠ j.val := fun e => h (Fin.ext e.symm)
  rw [Vector.get_eq_getElem, Vector.get_eq_getElem, Vector.getElem_set_ne _ _ h']

theorem set_set_same {α : Type} {n : Nat} (v : Vector α n) (i : Fin n) (x y : α) :
    (v.set i.val x i.isLt).set i.val y i.isLt = v.set i.val y i.isLt := by
  apply Vector.ext
  intro j hj
  by_cases h : i.val = j
  · subst h; simp only [Vector.getElem_set_self]
  · rw [Vector.getElem_set_ne _ _ h, Vector.getElem_set_ne _ _ h, Vector.getElem_set_ne _ _ h]

@[simp] theorem State.core_setCore_same (s : State) (c : CoreId) (x : Core) : (s.setCore c x).core c = x := by
  simp only [State.core, State.setCore, get_set_same]

theorem State.core_setCore_other (s : State) (c d : CoreId) (x : Core) (h : d ≠ c) :
    (s.setCore c x).core d = s.core d := by
  exact get_set_other _ _ _ _ h

@[simp] theorem Core.thread_setThread_same (x : Core) (k : Slot) (t : Thread) : (x.setThread k t).thread k = t := by
  simp only [Core.thread, Core.setThread, get_set_same]

theorem Core.thread_setThread_other (x : Core) (k j : Slot) (t : Thread) (h : j ≠ k) :
    (x.setThread k t).thread j = x.thread j := by
  exact get_set_other _ _ _ _ h

@[simp] theorem State.core_setThread_same (s : State) (c : CoreId) (k : Slot) (t : Thread) :
    (s.setThread c k t).core c = (s.core c).setThread k t := State.core_setCore_same _ _ _

theorem State.core_setThread_other (s : State) (c d : CoreId) (k : Slot) (t : Thread) (h : d ≠ c) :
    (s.setThread c k t).core d = s.core d := State.core_setCore_other _ _ _ _ h

@[simp] theorem State.thread_setThread_same (s : State) (c : CoreId) (k : Slot) (t : Thread) :
    (s.setThread c k t).thread c k = t := by simp [State.thread]

theorem State.thread_setThread_other (s : State) (c d : CoreId) (k j : Slot) (t : Thread) (h : (d, j) ≠ (c, k)) :
    (s.setThread c k t).thread d j = s.thread d j := by
  by_cases hd : d = c
  · subst hd
    have hj : j ≠ k := fun e => h (by rw [e])
    simp only [State.thread, State.core_setThread_same, Core.thread_setThread_other _ _ _ _ hj]
  · simp only [State.thread, State.core_setThread_other _ _ _ _ _ hd]

@[simp] theorem State.me_setThread (s : State) (t : Thread) : (s.setThread s.issuer.1 s.issuer.2 t).me = t :=
  State.thread_setThread_same _ _ _ _

@[simp] theorem State.setThread_setThread (s : State) (c : CoreId) (k : Slot) (t u : Thread) :
    (s.setThread c k t).setThread c k u = s.setThread c k u := by
  have h : ((s.setThread c k t).core c).setThread k u = (s.core c).setThread k u := by
    rw [State.core_setThread_same]
    simp only [Core.setThread, set_set_same]
  show (s.setThread c k t).setCore c (((s.setThread c k t).core c).setThread k u) = s.setCore c ((s.core c).setThread k u)
  rw [h]
  simp only [State.setThread, State.setCore, set_set_same]

/-! ## Fields that a core's replacement leaves -/

@[simp] theorem Core.setThread_ctx (x : Core) (k : Slot) (t : Thread) : (x.setThread k t).ctx = x.ctx := rfl
@[simp] theorem Core.setThread_last (x : Core) (k : Slot) (t : Thread) : (x.setThread k t).last = x.last := rfl
@[simp] theorem Core.setThread_spad (x : Core) (k : Slot) (t : Thread) : (x.setThread k t).spad = x.spad := rfl
@[simp] theorem Core.setThread_dirtyGran (x : Core) (k : Slot) (t : Thread) : (x.setThread k t).dirtyGran = x.dirtyGran := rfl
@[simp] theorem Core.setThread_l1d (x : Core) (k : Slot) (t : Thread) : (x.setThread k t).l1d = x.l1d := rfl
@[simp] theorem Core.setThread_tlb (x : Core) (k : Slot) (t : Thread) : (x.setThread k t).tlb = x.tlb := rfl
@[simp] theorem Core.setThread_queues (x : Core) (k : Slot) (t : Thread) : (x.setThread k t).queues = x.queues := rfl
@[simp] theorem Core.setThread_stages (x : Core) (k : Slot) (t : Thread) : (x.setThread k t).stages = x.stages := rfl
@[simp] theorem Core.setThread_deque (x : Core) (k : Slot) (t : Thread) : (x.setThread k t).deque = x.deque := rfl
@[simp] theorem Core.setThread_trapq (x : Core) (k : Slot) (t : Thread) : (x.setThread k t).trapq = x.trapq := rfl
@[simp] theorem Core.setThread_taken (x : Core) (k : Slot) (t : Thread) : (x.setThread k t).taken = x.taken := rfl
@[simp] theorem Core.setThread_trapHigh (x : Core) (k : Slot) (t : Thread) : (x.setThread k t).trapHigh = x.trapHigh := rfl
@[simp] theorem Core.setThread_hold (x : Core) (k : Slot) (t : Thread) : (x.setThread k t).hold = x.hold := rfl
@[simp] theorem Core.setThread_rescue (x : Core) (k : Slot) (t : Thread) : (x.setThread k t).rescue = x.rescue := rfl
@[simp] theorem Core.setThread_sent (x : Core) (k : Slot) (t : Thread) : (x.setThread k t).sent = x.sent := rfl
@[simp] theorem Core.setThread_cmds (x : Core) (k : Slot) (t : Thread) : (x.setThread k t).cmds = x.cmds := rfl
@[simp] theorem Core.setThread_episodes (x : Core) (k : Slot) (t : Thread) : (x.setThread k t).episodes = x.episodes := rfl
@[simp] theorem Core.setThread_skips (x : Core) (k : Slot) (t : Thread) : (x.setThread k t).skips = x.skips := rfl
@[simp] theorem Core.setThread_kamgor (x : Core) (k : Slot) (t : Thread) : (x.setThread k t).kamgor = x.kamgor := rfl
@[simp] theorem Core.setThread_landings (x : Core) (k : Slot) (t : Thread) : (x.setThread k t).landings = x.landings := rfl
@[simp] theorem Core.setThread_halting (x : Core) (k : Slot) (t : Thread) : (x.setThread k t).halting = x.halting := rfl
@[simp] theorem Core.setThread_ticket (x : Core) (k : Slot) (t : Thread) : (x.setThread k t).ticket = x.ticket := rfl

/-! ## Fields that a change of a core leaves -/

@[simp] theorem State.setCore_clusters (s : State) (c : CoreId) (x : Core) : (s.setCore c x).clusters = s.clusters := rfl
@[simp] theorem State.setCore_tiles (s : State) (c : CoreId) (x : Core) : (s.setCore c x).tiles = s.tiles := rfl
@[simp] theorem State.setCore_dies (s : State) (c : CoreId) (x : Core) : (s.setCore c x).dies = s.dies := rfl
@[simp] theorem State.setCore_hbm (s : State) (c : CoreId) (x : Core) : (s.setCore c x).hbm = s.hbm := rfl
@[simp] theorem State.setCore_ctxs (s : State) (c : CoreId) (x : Core) : (s.setCore c x).ctxs = s.ctxs := rfl
@[simp] theorem State.setCore_mem (s : State) (c : CoreId) (x : Core) : (s.setCore c x).mem = s.mem := rfl
@[simp] theorem State.setCore_keyed (s : State) (c : CoreId) (x : Core) : (s.setCore c x).keyed = s.keyed := rfl
@[simp] theorem State.setCore_errors (s : State) (c : CoreId) (x : Core) : (s.setCore c x).errors = s.errors := rfl
@[simp] theorem State.setCore_vault (s : State) (c : CoreId) (x : Core) : (s.setCore c x).vault = s.vault := rfl
@[simp] theorem State.setCore_hostMem (s : State) (c : CoreId) (x : Core) : (s.setCore c x).hostMem = s.hostMem := rfl
@[simp] theorem State.setCore_peers (s : State) (c : CoreId) (x : Core) : (s.setCore c x).peers = s.peers := rfl
@[simp] theorem State.setCore_net (s : State) (c : CoreId) (x : Core) : (s.setCore c x).net = s.net := rfl
@[simp] theorem State.setCore_nextMsg (s : State) (c : CoreId) (x : Core) : (s.setCore c x).nextMsg = s.nextMsg := rfl
@[simp] theorem State.setCore_majOps (s : State) (c : CoreId) (x : Core) : (s.setCore c x).majOps = s.majOps := rfl
@[simp] theorem State.setCore_rings (s : State) (c : CoreId) (x : Core) : (s.setCore c x).rings = s.rings := rfl
@[simp] theorem State.setCore_installs (s : State) (c : CoreId) (x : Core) : (s.setCore c x).installs = s.installs := rfl
@[simp] theorem State.setCore_launches (s : State) (c : CoreId) (x : Core) : (s.setCore c x).launches = s.launches := rfl
@[simp] theorem State.setCore_nextId (s : State) (c : CoreId) (x : Core) : (s.setCore c x).nextId = s.nextId := rfl
@[simp] theorem State.setCore_takeSeq (s : State) (c : CoreId) (x : Core) : (s.setCore c x).takeSeq = s.takeSeq := rfl
@[simp] theorem State.setCore_lastCtx (s : State) (c : CoreId) (x : Core) : (s.setCore c x).lastCtx = s.lastCtx := rfl
@[simp] theorem State.setCore_time (s : State) (c : CoreId) (x : Core) : (s.setCore c x).time = s.time := rfl
@[simp] theorem State.setCore_rsize (s : State) (c : CoreId) (x : Core) : (s.setCore c x).rsize = s.rsize := rfl
@[simp] theorem State.setCore_majFixed (s : State) (c : CoreId) (x : Core) : (s.setCore c x).majFixed = s.majFixed := rfl
@[simp] theorem State.setCore_dcfg (s : State) (c : CoreId) (x : Core) : (s.setCore c x).dcfg = s.dcfg := rfl
@[simp] theorem State.setCore_mbcmd (s : State) (c : CoreId) (x : Core) : (s.setCore c x).mbcmd = s.mbcmd := rfl
@[simp] theorem State.setCore_mbarg (s : State) (c : CoreId) (x : Core) : (s.setCore c x).mbarg = s.mbarg := rfl
@[simp] theorem State.setCore_mbblk (s : State) (c : CoreId) (x : Core) : (s.setCore c x).mbblk = s.mbblk := rfl
@[simp] theorem State.setCore_mbresult (s : State) (c : CoreId) (x : Core) : (s.setCore c x).mbresult = s.mbresult := rfl
@[simp] theorem State.setCore_mbbusy (s : State) (c : CoreId) (x : Core) : (s.setCore c x).mbbusy = s.mbbusy := rfl
@[simp] theorem State.setCore_msix (s : State) (c : CoreId) (x : Core) : (s.setCore c x).msix = s.msix := rfl
@[simp] theorem State.setCore_ctlAcl (s : State) (c : CoreId) (x : Core) : (s.setCore c x).ctlAcl = s.ctlAcl := rfl
@[simp] theorem State.setCore_apertures (s : State) (c : CoreId) (x : Core) : (s.setCore c x).apertures = s.apertures := rfl
@[simp] theorem State.setCore_hostReply (s : State) (c : CoreId) (x : Core) : (s.setCore c x).hostReply = s.hostReply := rfl
@[simp] theorem State.setCore_log (s : State) (c : CoreId) (x : Core) : (s.setCore c x).log = s.log := rfl
@[simp] theorem State.setCore_extents (s : State) (c : CoreId) (x : Core) : (s.setCore c x).extents = s.extents := rfl
@[simp] theorem State.setCore_revoked (s : State) (c : CoreId) (x : Core) : (s.setCore c x).revoked = s.revoked := rfl
@[simp] theorem State.setCore_atomicOps (s : State) (c : CoreId) (x : Core) : (s.setCore c x).atomicOps = s.atomicOps := rfl
@[simp] theorem State.setCore_cxl (s : State) (c : CoreId) (x : Core) : (s.setCore c x).cxl = s.cxl := rfl
@[simp] theorem State.setCore_tokens (s : State) (c : CoreId) (x : Core) : (s.setCore c x).tokens = s.tokens := rfl
@[simp] theorem State.setCore_reclaims (s : State) (c : CoreId) (x : Core) : (s.setCore c x).reclaims = s.reclaims := rfl
@[simp] theorem State.setCore_captureWin (s : State) (c : CoreId) (x : Core) : (s.setCore c x).captureWin = s.captureWin := rfl
@[simp] theorem State.setCore_links (s : State) (c : CoreId) (x : Core) : (s.setCore c x).links = s.links := rfl
@[simp] theorem State.setCore_boot (s : State) (c : CoreId) (x : Core) : (s.setCore c x).boot = s.boot := rfl
@[simp] theorem State.setCore_images (s : State) (c : CoreId) (x : Core) : (s.setCore c x).images = s.images := rfl
@[simp] theorem State.setCore_focus (s : State) (c : CoreId) (x : Core) : (s.setCore c x).focus = s.focus := rfl
@[simp] theorem State.setCore_issuer (s : State) (c : CoreId) (x : Core) : (s.setCore c x).issuer = s.issuer := rfl
@[simp] theorem State.setCore_agenda (s : State) (c : CoreId) (x : Core) : (s.setCore c x).agenda = s.agenda := rfl
@[simp] theorem State.setCore_free (s : State) (c : CoreId) (x : Core) : (s.setCore c x).free = s.free := rfl

/-! ## Fields that a change of a thread leaves -/

@[simp] theorem State.setThread_clusters (s : State) (c : CoreId) (k : Slot) (t : Thread) : (s.setThread c k t).clusters = s.clusters := rfl
@[simp] theorem State.setThread_tiles (s : State) (c : CoreId) (k : Slot) (t : Thread) : (s.setThread c k t).tiles = s.tiles := rfl
@[simp] theorem State.setThread_dies (s : State) (c : CoreId) (k : Slot) (t : Thread) : (s.setThread c k t).dies = s.dies := rfl
@[simp] theorem State.setThread_hbm (s : State) (c : CoreId) (k : Slot) (t : Thread) : (s.setThread c k t).hbm = s.hbm := rfl
@[simp] theorem State.setThread_ctxs (s : State) (c : CoreId) (k : Slot) (t : Thread) : (s.setThread c k t).ctxs = s.ctxs := rfl
@[simp] theorem State.setThread_mem (s : State) (c : CoreId) (k : Slot) (t : Thread) : (s.setThread c k t).mem = s.mem := rfl
@[simp] theorem State.setThread_keyed (s : State) (c : CoreId) (k : Slot) (t : Thread) : (s.setThread c k t).keyed = s.keyed := rfl
@[simp] theorem State.setThread_errors (s : State) (c : CoreId) (k : Slot) (t : Thread) : (s.setThread c k t).errors = s.errors := rfl
@[simp] theorem State.setThread_vault (s : State) (c : CoreId) (k : Slot) (t : Thread) : (s.setThread c k t).vault = s.vault := rfl
@[simp] theorem State.setThread_hostMem (s : State) (c : CoreId) (k : Slot) (t : Thread) : (s.setThread c k t).hostMem = s.hostMem := rfl
@[simp] theorem State.setThread_peers (s : State) (c : CoreId) (k : Slot) (t : Thread) : (s.setThread c k t).peers = s.peers := rfl
@[simp] theorem State.setThread_net (s : State) (c : CoreId) (k : Slot) (t : Thread) : (s.setThread c k t).net = s.net := rfl
@[simp] theorem State.setThread_nextMsg (s : State) (c : CoreId) (k : Slot) (t : Thread) : (s.setThread c k t).nextMsg = s.nextMsg := rfl
@[simp] theorem State.setThread_majOps (s : State) (c : CoreId) (k : Slot) (t : Thread) : (s.setThread c k t).majOps = s.majOps := rfl
@[simp] theorem State.setThread_rings (s : State) (c : CoreId) (k : Slot) (t : Thread) : (s.setThread c k t).rings = s.rings := rfl
@[simp] theorem State.setThread_installs (s : State) (c : CoreId) (k : Slot) (t : Thread) : (s.setThread c k t).installs = s.installs := rfl
@[simp] theorem State.setThread_launches (s : State) (c : CoreId) (k : Slot) (t : Thread) : (s.setThread c k t).launches = s.launches := rfl
@[simp] theorem State.setThread_nextId (s : State) (c : CoreId) (k : Slot) (t : Thread) : (s.setThread c k t).nextId = s.nextId := rfl
@[simp] theorem State.setThread_takeSeq (s : State) (c : CoreId) (k : Slot) (t : Thread) : (s.setThread c k t).takeSeq = s.takeSeq := rfl
@[simp] theorem State.setThread_lastCtx (s : State) (c : CoreId) (k : Slot) (t : Thread) : (s.setThread c k t).lastCtx = s.lastCtx := rfl
@[simp] theorem State.setThread_time (s : State) (c : CoreId) (k : Slot) (t : Thread) : (s.setThread c k t).time = s.time := rfl
@[simp] theorem State.setThread_rsize (s : State) (c : CoreId) (k : Slot) (t : Thread) : (s.setThread c k t).rsize = s.rsize := rfl
@[simp] theorem State.setThread_majFixed (s : State) (c : CoreId) (k : Slot) (t : Thread) : (s.setThread c k t).majFixed = s.majFixed := rfl
@[simp] theorem State.setThread_dcfg (s : State) (c : CoreId) (k : Slot) (t : Thread) : (s.setThread c k t).dcfg = s.dcfg := rfl
@[simp] theorem State.setThread_mbcmd (s : State) (c : CoreId) (k : Slot) (t : Thread) : (s.setThread c k t).mbcmd = s.mbcmd := rfl
@[simp] theorem State.setThread_mbarg (s : State) (c : CoreId) (k : Slot) (t : Thread) : (s.setThread c k t).mbarg = s.mbarg := rfl
@[simp] theorem State.setThread_mbblk (s : State) (c : CoreId) (k : Slot) (t : Thread) : (s.setThread c k t).mbblk = s.mbblk := rfl
@[simp] theorem State.setThread_mbresult (s : State) (c : CoreId) (k : Slot) (t : Thread) : (s.setThread c k t).mbresult = s.mbresult := rfl
@[simp] theorem State.setThread_mbbusy (s : State) (c : CoreId) (k : Slot) (t : Thread) : (s.setThread c k t).mbbusy = s.mbbusy := rfl
@[simp] theorem State.setThread_msix (s : State) (c : CoreId) (k : Slot) (t : Thread) : (s.setThread c k t).msix = s.msix := rfl
@[simp] theorem State.setThread_ctlAcl (s : State) (c : CoreId) (k : Slot) (t : Thread) : (s.setThread c k t).ctlAcl = s.ctlAcl := rfl
@[simp] theorem State.setThread_apertures (s : State) (c : CoreId) (k : Slot) (t : Thread) : (s.setThread c k t).apertures = s.apertures := rfl
@[simp] theorem State.setThread_hostReply (s : State) (c : CoreId) (k : Slot) (t : Thread) : (s.setThread c k t).hostReply = s.hostReply := rfl
@[simp] theorem State.setThread_log (s : State) (c : CoreId) (k : Slot) (t : Thread) : (s.setThread c k t).log = s.log := rfl
@[simp] theorem State.setThread_extents (s : State) (c : CoreId) (k : Slot) (t : Thread) : (s.setThread c k t).extents = s.extents := rfl
@[simp] theorem State.setThread_revoked (s : State) (c : CoreId) (k : Slot) (t : Thread) : (s.setThread c k t).revoked = s.revoked := rfl
@[simp] theorem State.setThread_atomicOps (s : State) (c : CoreId) (k : Slot) (t : Thread) : (s.setThread c k t).atomicOps = s.atomicOps := rfl
@[simp] theorem State.setThread_cxl (s : State) (c : CoreId) (k : Slot) (t : Thread) : (s.setThread c k t).cxl = s.cxl := rfl
@[simp] theorem State.setThread_tokens (s : State) (c : CoreId) (k : Slot) (t : Thread) : (s.setThread c k t).tokens = s.tokens := rfl
@[simp] theorem State.setThread_reclaims (s : State) (c : CoreId) (k : Slot) (t : Thread) : (s.setThread c k t).reclaims = s.reclaims := rfl
@[simp] theorem State.setThread_captureWin (s : State) (c : CoreId) (k : Slot) (t : Thread) : (s.setThread c k t).captureWin = s.captureWin := rfl
@[simp] theorem State.setThread_links (s : State) (c : CoreId) (k : Slot) (t : Thread) : (s.setThread c k t).links = s.links := rfl
@[simp] theorem State.setThread_boot (s : State) (c : CoreId) (k : Slot) (t : Thread) : (s.setThread c k t).boot = s.boot := rfl
@[simp] theorem State.setThread_images (s : State) (c : CoreId) (k : Slot) (t : Thread) : (s.setThread c k t).images = s.images := rfl
@[simp] theorem State.setThread_focus (s : State) (c : CoreId) (k : Slot) (t : Thread) : (s.setThread c k t).focus = s.focus := rfl
@[simp] theorem State.setThread_issuer (s : State) (c : CoreId) (k : Slot) (t : Thread) : (s.setThread c k t).issuer = s.issuer := rfl
@[simp] theorem State.setThread_agenda (s : State) (c : CoreId) (k : Slot) (t : Thread) : (s.setThread c k t).agenda = s.agenda := rfl
@[simp] theorem State.setThread_free (s : State) (c : CoreId) (k : Slot) (t : Thread) : (s.setThread c k t).free = s.free := rfl

/-! ## Fields that a change of a cluster leaves -/

@[simp] theorem State.updCluster_cores (s : State) (t : TileId) (f : Cluster → Cluster) : (s.updCluster t f).cores = s.cores := rfl
@[simp] theorem State.updCluster_tiles (s : State) (t : TileId) (f : Cluster → Cluster) : (s.updCluster t f).tiles = s.tiles := rfl
@[simp] theorem State.updCluster_dies (s : State) (t : TileId) (f : Cluster → Cluster) : (s.updCluster t f).dies = s.dies := rfl
@[simp] theorem State.updCluster_hbm (s : State) (t : TileId) (f : Cluster → Cluster) : (s.updCluster t f).hbm = s.hbm := rfl
@[simp] theorem State.updCluster_ctxs (s : State) (t : TileId) (f : Cluster → Cluster) : (s.updCluster t f).ctxs = s.ctxs := rfl
@[simp] theorem State.updCluster_mem (s : State) (t : TileId) (f : Cluster → Cluster) : (s.updCluster t f).mem = s.mem := rfl
@[simp] theorem State.updCluster_keyed (s : State) (t : TileId) (f : Cluster → Cluster) : (s.updCluster t f).keyed = s.keyed := rfl
@[simp] theorem State.updCluster_errors (s : State) (t : TileId) (f : Cluster → Cluster) : (s.updCluster t f).errors = s.errors := rfl
@[simp] theorem State.updCluster_vault (s : State) (t : TileId) (f : Cluster → Cluster) : (s.updCluster t f).vault = s.vault := rfl
@[simp] theorem State.updCluster_hostMem (s : State) (t : TileId) (f : Cluster → Cluster) : (s.updCluster t f).hostMem = s.hostMem := rfl
@[simp] theorem State.updCluster_peers (s : State) (t : TileId) (f : Cluster → Cluster) : (s.updCluster t f).peers = s.peers := rfl
@[simp] theorem State.updCluster_net (s : State) (t : TileId) (f : Cluster → Cluster) : (s.updCluster t f).net = s.net := rfl
@[simp] theorem State.updCluster_nextMsg (s : State) (t : TileId) (f : Cluster → Cluster) : (s.updCluster t f).nextMsg = s.nextMsg := rfl
@[simp] theorem State.updCluster_majOps (s : State) (t : TileId) (f : Cluster → Cluster) : (s.updCluster t f).majOps = s.majOps := rfl
@[simp] theorem State.updCluster_rings (s : State) (t : TileId) (f : Cluster → Cluster) : (s.updCluster t f).rings = s.rings := rfl
@[simp] theorem State.updCluster_installs (s : State) (t : TileId) (f : Cluster → Cluster) : (s.updCluster t f).installs = s.installs := rfl
@[simp] theorem State.updCluster_launches (s : State) (t : TileId) (f : Cluster → Cluster) : (s.updCluster t f).launches = s.launches := rfl
@[simp] theorem State.updCluster_nextId (s : State) (t : TileId) (f : Cluster → Cluster) : (s.updCluster t f).nextId = s.nextId := rfl
@[simp] theorem State.updCluster_takeSeq (s : State) (t : TileId) (f : Cluster → Cluster) : (s.updCluster t f).takeSeq = s.takeSeq := rfl
@[simp] theorem State.updCluster_lastCtx (s : State) (t : TileId) (f : Cluster → Cluster) : (s.updCluster t f).lastCtx = s.lastCtx := rfl
@[simp] theorem State.updCluster_time (s : State) (t : TileId) (f : Cluster → Cluster) : (s.updCluster t f).time = s.time := rfl
@[simp] theorem State.updCluster_rsize (s : State) (t : TileId) (f : Cluster → Cluster) : (s.updCluster t f).rsize = s.rsize := rfl
@[simp] theorem State.updCluster_majFixed (s : State) (t : TileId) (f : Cluster → Cluster) : (s.updCluster t f).majFixed = s.majFixed := rfl
@[simp] theorem State.updCluster_dcfg (s : State) (t : TileId) (f : Cluster → Cluster) : (s.updCluster t f).dcfg = s.dcfg := rfl
@[simp] theorem State.updCluster_mbcmd (s : State) (t : TileId) (f : Cluster → Cluster) : (s.updCluster t f).mbcmd = s.mbcmd := rfl
@[simp] theorem State.updCluster_mbarg (s : State) (t : TileId) (f : Cluster → Cluster) : (s.updCluster t f).mbarg = s.mbarg := rfl
@[simp] theorem State.updCluster_mbblk (s : State) (t : TileId) (f : Cluster → Cluster) : (s.updCluster t f).mbblk = s.mbblk := rfl
@[simp] theorem State.updCluster_mbresult (s : State) (t : TileId) (f : Cluster → Cluster) : (s.updCluster t f).mbresult = s.mbresult := rfl
@[simp] theorem State.updCluster_mbbusy (s : State) (t : TileId) (f : Cluster → Cluster) : (s.updCluster t f).mbbusy = s.mbbusy := rfl
@[simp] theorem State.updCluster_msix (s : State) (t : TileId) (f : Cluster → Cluster) : (s.updCluster t f).msix = s.msix := rfl
@[simp] theorem State.updCluster_ctlAcl (s : State) (t : TileId) (f : Cluster → Cluster) : (s.updCluster t f).ctlAcl = s.ctlAcl := rfl
@[simp] theorem State.updCluster_apertures (s : State) (t : TileId) (f : Cluster → Cluster) : (s.updCluster t f).apertures = s.apertures := rfl
@[simp] theorem State.updCluster_hostReply (s : State) (t : TileId) (f : Cluster → Cluster) : (s.updCluster t f).hostReply = s.hostReply := rfl
@[simp] theorem State.updCluster_log (s : State) (t : TileId) (f : Cluster → Cluster) : (s.updCluster t f).log = s.log := rfl
@[simp] theorem State.updCluster_extents (s : State) (t : TileId) (f : Cluster → Cluster) : (s.updCluster t f).extents = s.extents := rfl
@[simp] theorem State.updCluster_revoked (s : State) (t : TileId) (f : Cluster → Cluster) : (s.updCluster t f).revoked = s.revoked := rfl
@[simp] theorem State.updCluster_atomicOps (s : State) (t : TileId) (f : Cluster → Cluster) : (s.updCluster t f).atomicOps = s.atomicOps := rfl
@[simp] theorem State.updCluster_cxl (s : State) (t : TileId) (f : Cluster → Cluster) : (s.updCluster t f).cxl = s.cxl := rfl
@[simp] theorem State.updCluster_tokens (s : State) (t : TileId) (f : Cluster → Cluster) : (s.updCluster t f).tokens = s.tokens := rfl
@[simp] theorem State.updCluster_reclaims (s : State) (t : TileId) (f : Cluster → Cluster) : (s.updCluster t f).reclaims = s.reclaims := rfl
@[simp] theorem State.updCluster_captureWin (s : State) (t : TileId) (f : Cluster → Cluster) : (s.updCluster t f).captureWin = s.captureWin := rfl
@[simp] theorem State.updCluster_links (s : State) (t : TileId) (f : Cluster → Cluster) : (s.updCluster t f).links = s.links := rfl
@[simp] theorem State.updCluster_boot (s : State) (t : TileId) (f : Cluster → Cluster) : (s.updCluster t f).boot = s.boot := rfl
@[simp] theorem State.updCluster_images (s : State) (t : TileId) (f : Cluster → Cluster) : (s.updCluster t f).images = s.images := rfl
@[simp] theorem State.updCluster_focus (s : State) (t : TileId) (f : Cluster → Cluster) : (s.updCluster t f).focus = s.focus := rfl
@[simp] theorem State.updCluster_issuer (s : State) (t : TileId) (f : Cluster → Cluster) : (s.updCluster t f).issuer = s.issuer := rfl
@[simp] theorem State.updCluster_agenda (s : State) (t : TileId) (f : Cluster → Cluster) : (s.updCluster t f).agenda = s.agenda := rfl
@[simp] theorem State.updCluster_free (s : State) (t : TileId) (f : Cluster → Cluster) : (s.updCluster t f).free = s.free := rfl

/-! ## Fields that a change of a tile leaves -/

@[simp] theorem State.updTile_cores (s : State) (t : TileId) (f : Tile → Tile) : (s.updTile t f).cores = s.cores := rfl
@[simp] theorem State.updTile_clusters (s : State) (t : TileId) (f : Tile → Tile) : (s.updTile t f).clusters = s.clusters := rfl
@[simp] theorem State.updTile_dies (s : State) (t : TileId) (f : Tile → Tile) : (s.updTile t f).dies = s.dies := rfl
@[simp] theorem State.updTile_hbm (s : State) (t : TileId) (f : Tile → Tile) : (s.updTile t f).hbm = s.hbm := rfl
@[simp] theorem State.updTile_ctxs (s : State) (t : TileId) (f : Tile → Tile) : (s.updTile t f).ctxs = s.ctxs := rfl
@[simp] theorem State.updTile_mem (s : State) (t : TileId) (f : Tile → Tile) : (s.updTile t f).mem = s.mem := rfl
@[simp] theorem State.updTile_keyed (s : State) (t : TileId) (f : Tile → Tile) : (s.updTile t f).keyed = s.keyed := rfl
@[simp] theorem State.updTile_errors (s : State) (t : TileId) (f : Tile → Tile) : (s.updTile t f).errors = s.errors := rfl
@[simp] theorem State.updTile_vault (s : State) (t : TileId) (f : Tile → Tile) : (s.updTile t f).vault = s.vault := rfl
@[simp] theorem State.updTile_hostMem (s : State) (t : TileId) (f : Tile → Tile) : (s.updTile t f).hostMem = s.hostMem := rfl
@[simp] theorem State.updTile_peers (s : State) (t : TileId) (f : Tile → Tile) : (s.updTile t f).peers = s.peers := rfl
@[simp] theorem State.updTile_net (s : State) (t : TileId) (f : Tile → Tile) : (s.updTile t f).net = s.net := rfl
@[simp] theorem State.updTile_nextMsg (s : State) (t : TileId) (f : Tile → Tile) : (s.updTile t f).nextMsg = s.nextMsg := rfl
@[simp] theorem State.updTile_majOps (s : State) (t : TileId) (f : Tile → Tile) : (s.updTile t f).majOps = s.majOps := rfl
@[simp] theorem State.updTile_rings (s : State) (t : TileId) (f : Tile → Tile) : (s.updTile t f).rings = s.rings := rfl
@[simp] theorem State.updTile_installs (s : State) (t : TileId) (f : Tile → Tile) : (s.updTile t f).installs = s.installs := rfl
@[simp] theorem State.updTile_launches (s : State) (t : TileId) (f : Tile → Tile) : (s.updTile t f).launches = s.launches := rfl
@[simp] theorem State.updTile_nextId (s : State) (t : TileId) (f : Tile → Tile) : (s.updTile t f).nextId = s.nextId := rfl
@[simp] theorem State.updTile_takeSeq (s : State) (t : TileId) (f : Tile → Tile) : (s.updTile t f).takeSeq = s.takeSeq := rfl
@[simp] theorem State.updTile_lastCtx (s : State) (t : TileId) (f : Tile → Tile) : (s.updTile t f).lastCtx = s.lastCtx := rfl
@[simp] theorem State.updTile_time (s : State) (t : TileId) (f : Tile → Tile) : (s.updTile t f).time = s.time := rfl
@[simp] theorem State.updTile_rsize (s : State) (t : TileId) (f : Tile → Tile) : (s.updTile t f).rsize = s.rsize := rfl
@[simp] theorem State.updTile_majFixed (s : State) (t : TileId) (f : Tile → Tile) : (s.updTile t f).majFixed = s.majFixed := rfl
@[simp] theorem State.updTile_dcfg (s : State) (t : TileId) (f : Tile → Tile) : (s.updTile t f).dcfg = s.dcfg := rfl
@[simp] theorem State.updTile_mbcmd (s : State) (t : TileId) (f : Tile → Tile) : (s.updTile t f).mbcmd = s.mbcmd := rfl
@[simp] theorem State.updTile_mbarg (s : State) (t : TileId) (f : Tile → Tile) : (s.updTile t f).mbarg = s.mbarg := rfl
@[simp] theorem State.updTile_mbblk (s : State) (t : TileId) (f : Tile → Tile) : (s.updTile t f).mbblk = s.mbblk := rfl
@[simp] theorem State.updTile_mbresult (s : State) (t : TileId) (f : Tile → Tile) : (s.updTile t f).mbresult = s.mbresult := rfl
@[simp] theorem State.updTile_mbbusy (s : State) (t : TileId) (f : Tile → Tile) : (s.updTile t f).mbbusy = s.mbbusy := rfl
@[simp] theorem State.updTile_msix (s : State) (t : TileId) (f : Tile → Tile) : (s.updTile t f).msix = s.msix := rfl
@[simp] theorem State.updTile_ctlAcl (s : State) (t : TileId) (f : Tile → Tile) : (s.updTile t f).ctlAcl = s.ctlAcl := rfl
@[simp] theorem State.updTile_apertures (s : State) (t : TileId) (f : Tile → Tile) : (s.updTile t f).apertures = s.apertures := rfl
@[simp] theorem State.updTile_hostReply (s : State) (t : TileId) (f : Tile → Tile) : (s.updTile t f).hostReply = s.hostReply := rfl
@[simp] theorem State.updTile_log (s : State) (t : TileId) (f : Tile → Tile) : (s.updTile t f).log = s.log := rfl
@[simp] theorem State.updTile_extents (s : State) (t : TileId) (f : Tile → Tile) : (s.updTile t f).extents = s.extents := rfl
@[simp] theorem State.updTile_revoked (s : State) (t : TileId) (f : Tile → Tile) : (s.updTile t f).revoked = s.revoked := rfl
@[simp] theorem State.updTile_atomicOps (s : State) (t : TileId) (f : Tile → Tile) : (s.updTile t f).atomicOps = s.atomicOps := rfl
@[simp] theorem State.updTile_cxl (s : State) (t : TileId) (f : Tile → Tile) : (s.updTile t f).cxl = s.cxl := rfl
@[simp] theorem State.updTile_tokens (s : State) (t : TileId) (f : Tile → Tile) : (s.updTile t f).tokens = s.tokens := rfl
@[simp] theorem State.updTile_reclaims (s : State) (t : TileId) (f : Tile → Tile) : (s.updTile t f).reclaims = s.reclaims := rfl
@[simp] theorem State.updTile_captureWin (s : State) (t : TileId) (f : Tile → Tile) : (s.updTile t f).captureWin = s.captureWin := rfl
@[simp] theorem State.updTile_links (s : State) (t : TileId) (f : Tile → Tile) : (s.updTile t f).links = s.links := rfl
@[simp] theorem State.updTile_boot (s : State) (t : TileId) (f : Tile → Tile) : (s.updTile t f).boot = s.boot := rfl
@[simp] theorem State.updTile_images (s : State) (t : TileId) (f : Tile → Tile) : (s.updTile t f).images = s.images := rfl
@[simp] theorem State.updTile_focus (s : State) (t : TileId) (f : Tile → Tile) : (s.updTile t f).focus = s.focus := rfl
@[simp] theorem State.updTile_issuer (s : State) (t : TileId) (f : Tile → Tile) : (s.updTile t f).issuer = s.issuer := rfl
@[simp] theorem State.updTile_agenda (s : State) (t : TileId) (f : Tile → Tile) : (s.updTile t f).agenda = s.agenda := rfl
@[simp] theorem State.updTile_free (s : State) (t : TileId) (f : Tile → Tile) : (s.updTile t f).free = s.free := rfl

/-! ## Fields that a change of a die leaves -/

@[simp] theorem State.updDie_cores (s : State) (d : DieId) (f : Die → Die) : (s.updDie d f).cores = s.cores := rfl
@[simp] theorem State.updDie_clusters (s : State) (d : DieId) (f : Die → Die) : (s.updDie d f).clusters = s.clusters := rfl
@[simp] theorem State.updDie_tiles (s : State) (d : DieId) (f : Die → Die) : (s.updDie d f).tiles = s.tiles := rfl
@[simp] theorem State.updDie_hbm (s : State) (d : DieId) (f : Die → Die) : (s.updDie d f).hbm = s.hbm := rfl
@[simp] theorem State.updDie_ctxs (s : State) (d : DieId) (f : Die → Die) : (s.updDie d f).ctxs = s.ctxs := rfl
@[simp] theorem State.updDie_mem (s : State) (d : DieId) (f : Die → Die) : (s.updDie d f).mem = s.mem := rfl
@[simp] theorem State.updDie_keyed (s : State) (d : DieId) (f : Die → Die) : (s.updDie d f).keyed = s.keyed := rfl
@[simp] theorem State.updDie_errors (s : State) (d : DieId) (f : Die → Die) : (s.updDie d f).errors = s.errors := rfl
@[simp] theorem State.updDie_vault (s : State) (d : DieId) (f : Die → Die) : (s.updDie d f).vault = s.vault := rfl
@[simp] theorem State.updDie_hostMem (s : State) (d : DieId) (f : Die → Die) : (s.updDie d f).hostMem = s.hostMem := rfl
@[simp] theorem State.updDie_peers (s : State) (d : DieId) (f : Die → Die) : (s.updDie d f).peers = s.peers := rfl
@[simp] theorem State.updDie_net (s : State) (d : DieId) (f : Die → Die) : (s.updDie d f).net = s.net := rfl
@[simp] theorem State.updDie_nextMsg (s : State) (d : DieId) (f : Die → Die) : (s.updDie d f).nextMsg = s.nextMsg := rfl
@[simp] theorem State.updDie_majOps (s : State) (d : DieId) (f : Die → Die) : (s.updDie d f).majOps = s.majOps := rfl
@[simp] theorem State.updDie_rings (s : State) (d : DieId) (f : Die → Die) : (s.updDie d f).rings = s.rings := rfl
@[simp] theorem State.updDie_installs (s : State) (d : DieId) (f : Die → Die) : (s.updDie d f).installs = s.installs := rfl
@[simp] theorem State.updDie_launches (s : State) (d : DieId) (f : Die → Die) : (s.updDie d f).launches = s.launches := rfl
@[simp] theorem State.updDie_nextId (s : State) (d : DieId) (f : Die → Die) : (s.updDie d f).nextId = s.nextId := rfl
@[simp] theorem State.updDie_takeSeq (s : State) (d : DieId) (f : Die → Die) : (s.updDie d f).takeSeq = s.takeSeq := rfl
@[simp] theorem State.updDie_lastCtx (s : State) (d : DieId) (f : Die → Die) : (s.updDie d f).lastCtx = s.lastCtx := rfl
@[simp] theorem State.updDie_time (s : State) (d : DieId) (f : Die → Die) : (s.updDie d f).time = s.time := rfl
@[simp] theorem State.updDie_rsize (s : State) (d : DieId) (f : Die → Die) : (s.updDie d f).rsize = s.rsize := rfl
@[simp] theorem State.updDie_majFixed (s : State) (d : DieId) (f : Die → Die) : (s.updDie d f).majFixed = s.majFixed := rfl
@[simp] theorem State.updDie_dcfg (s : State) (d : DieId) (f : Die → Die) : (s.updDie d f).dcfg = s.dcfg := rfl
@[simp] theorem State.updDie_mbcmd (s : State) (d : DieId) (f : Die → Die) : (s.updDie d f).mbcmd = s.mbcmd := rfl
@[simp] theorem State.updDie_mbarg (s : State) (d : DieId) (f : Die → Die) : (s.updDie d f).mbarg = s.mbarg := rfl
@[simp] theorem State.updDie_mbblk (s : State) (d : DieId) (f : Die → Die) : (s.updDie d f).mbblk = s.mbblk := rfl
@[simp] theorem State.updDie_mbresult (s : State) (d : DieId) (f : Die → Die) : (s.updDie d f).mbresult = s.mbresult := rfl
@[simp] theorem State.updDie_mbbusy (s : State) (d : DieId) (f : Die → Die) : (s.updDie d f).mbbusy = s.mbbusy := rfl
@[simp] theorem State.updDie_msix (s : State) (d : DieId) (f : Die → Die) : (s.updDie d f).msix = s.msix := rfl
@[simp] theorem State.updDie_ctlAcl (s : State) (d : DieId) (f : Die → Die) : (s.updDie d f).ctlAcl = s.ctlAcl := rfl
@[simp] theorem State.updDie_apertures (s : State) (d : DieId) (f : Die → Die) : (s.updDie d f).apertures = s.apertures := rfl
@[simp] theorem State.updDie_hostReply (s : State) (d : DieId) (f : Die → Die) : (s.updDie d f).hostReply = s.hostReply := rfl
@[simp] theorem State.updDie_log (s : State) (d : DieId) (f : Die → Die) : (s.updDie d f).log = s.log := rfl
@[simp] theorem State.updDie_extents (s : State) (d : DieId) (f : Die → Die) : (s.updDie d f).extents = s.extents := rfl
@[simp] theorem State.updDie_revoked (s : State) (d : DieId) (f : Die → Die) : (s.updDie d f).revoked = s.revoked := rfl
@[simp] theorem State.updDie_atomicOps (s : State) (d : DieId) (f : Die → Die) : (s.updDie d f).atomicOps = s.atomicOps := rfl
@[simp] theorem State.updDie_cxl (s : State) (d : DieId) (f : Die → Die) : (s.updDie d f).cxl = s.cxl := rfl
@[simp] theorem State.updDie_tokens (s : State) (d : DieId) (f : Die → Die) : (s.updDie d f).tokens = s.tokens := rfl
@[simp] theorem State.updDie_reclaims (s : State) (d : DieId) (f : Die → Die) : (s.updDie d f).reclaims = s.reclaims := rfl
@[simp] theorem State.updDie_captureWin (s : State) (d : DieId) (f : Die → Die) : (s.updDie d f).captureWin = s.captureWin := rfl
@[simp] theorem State.updDie_links (s : State) (d : DieId) (f : Die → Die) : (s.updDie d f).links = s.links := rfl
@[simp] theorem State.updDie_boot (s : State) (d : DieId) (f : Die → Die) : (s.updDie d f).boot = s.boot := rfl
@[simp] theorem State.updDie_images (s : State) (d : DieId) (f : Die → Die) : (s.updDie d f).images = s.images := rfl
@[simp] theorem State.updDie_focus (s : State) (d : DieId) (f : Die → Die) : (s.updDie d f).focus = s.focus := rfl
@[simp] theorem State.updDie_issuer (s : State) (d : DieId) (f : Die → Die) : (s.updDie d f).issuer = s.issuer := rfl
@[simp] theorem State.updDie_agenda (s : State) (d : DieId) (f : Die → Die) : (s.updDie d f).agenda = s.agenda := rfl
@[simp] theorem State.updDie_free (s : State) (d : DieId) (f : Die → Die) : (s.updDie d f).free = s.free := rfl

/-! ## Fields that a change of a stack leaves -/

@[simp] theorem State.updStack_cores (s : State) (k : StackId) (f : Stack → Stack) : (s.updStack k f).cores = s.cores := rfl
@[simp] theorem State.updStack_clusters (s : State) (k : StackId) (f : Stack → Stack) : (s.updStack k f).clusters = s.clusters := rfl
@[simp] theorem State.updStack_tiles (s : State) (k : StackId) (f : Stack → Stack) : (s.updStack k f).tiles = s.tiles := rfl
@[simp] theorem State.updStack_dies (s : State) (k : StackId) (f : Stack → Stack) : (s.updStack k f).dies = s.dies := rfl
@[simp] theorem State.updStack_ctxs (s : State) (k : StackId) (f : Stack → Stack) : (s.updStack k f).ctxs = s.ctxs := rfl
@[simp] theorem State.updStack_mem (s : State) (k : StackId) (f : Stack → Stack) : (s.updStack k f).mem = s.mem := rfl
@[simp] theorem State.updStack_keyed (s : State) (k : StackId) (f : Stack → Stack) : (s.updStack k f).keyed = s.keyed := rfl
@[simp] theorem State.updStack_errors (s : State) (k : StackId) (f : Stack → Stack) : (s.updStack k f).errors = s.errors := rfl
@[simp] theorem State.updStack_vault (s : State) (k : StackId) (f : Stack → Stack) : (s.updStack k f).vault = s.vault := rfl
@[simp] theorem State.updStack_hostMem (s : State) (k : StackId) (f : Stack → Stack) : (s.updStack k f).hostMem = s.hostMem := rfl
@[simp] theorem State.updStack_peers (s : State) (k : StackId) (f : Stack → Stack) : (s.updStack k f).peers = s.peers := rfl
@[simp] theorem State.updStack_net (s : State) (k : StackId) (f : Stack → Stack) : (s.updStack k f).net = s.net := rfl
@[simp] theorem State.updStack_nextMsg (s : State) (k : StackId) (f : Stack → Stack) : (s.updStack k f).nextMsg = s.nextMsg := rfl
@[simp] theorem State.updStack_majOps (s : State) (k : StackId) (f : Stack → Stack) : (s.updStack k f).majOps = s.majOps := rfl
@[simp] theorem State.updStack_rings (s : State) (k : StackId) (f : Stack → Stack) : (s.updStack k f).rings = s.rings := rfl
@[simp] theorem State.updStack_installs (s : State) (k : StackId) (f : Stack → Stack) : (s.updStack k f).installs = s.installs := rfl
@[simp] theorem State.updStack_launches (s : State) (k : StackId) (f : Stack → Stack) : (s.updStack k f).launches = s.launches := rfl
@[simp] theorem State.updStack_nextId (s : State) (k : StackId) (f : Stack → Stack) : (s.updStack k f).nextId = s.nextId := rfl
@[simp] theorem State.updStack_takeSeq (s : State) (k : StackId) (f : Stack → Stack) : (s.updStack k f).takeSeq = s.takeSeq := rfl
@[simp] theorem State.updStack_lastCtx (s : State) (k : StackId) (f : Stack → Stack) : (s.updStack k f).lastCtx = s.lastCtx := rfl
@[simp] theorem State.updStack_time (s : State) (k : StackId) (f : Stack → Stack) : (s.updStack k f).time = s.time := rfl
@[simp] theorem State.updStack_rsize (s : State) (k : StackId) (f : Stack → Stack) : (s.updStack k f).rsize = s.rsize := rfl
@[simp] theorem State.updStack_majFixed (s : State) (k : StackId) (f : Stack → Stack) : (s.updStack k f).majFixed = s.majFixed := rfl
@[simp] theorem State.updStack_dcfg (s : State) (k : StackId) (f : Stack → Stack) : (s.updStack k f).dcfg = s.dcfg := rfl
@[simp] theorem State.updStack_mbcmd (s : State) (k : StackId) (f : Stack → Stack) : (s.updStack k f).mbcmd = s.mbcmd := rfl
@[simp] theorem State.updStack_mbarg (s : State) (k : StackId) (f : Stack → Stack) : (s.updStack k f).mbarg = s.mbarg := rfl
@[simp] theorem State.updStack_mbblk (s : State) (k : StackId) (f : Stack → Stack) : (s.updStack k f).mbblk = s.mbblk := rfl
@[simp] theorem State.updStack_mbresult (s : State) (k : StackId) (f : Stack → Stack) : (s.updStack k f).mbresult = s.mbresult := rfl
@[simp] theorem State.updStack_mbbusy (s : State) (k : StackId) (f : Stack → Stack) : (s.updStack k f).mbbusy = s.mbbusy := rfl
@[simp] theorem State.updStack_msix (s : State) (k : StackId) (f : Stack → Stack) : (s.updStack k f).msix = s.msix := rfl
@[simp] theorem State.updStack_ctlAcl (s : State) (k : StackId) (f : Stack → Stack) : (s.updStack k f).ctlAcl = s.ctlAcl := rfl
@[simp] theorem State.updStack_apertures (s : State) (k : StackId) (f : Stack → Stack) : (s.updStack k f).apertures = s.apertures := rfl
@[simp] theorem State.updStack_hostReply (s : State) (k : StackId) (f : Stack → Stack) : (s.updStack k f).hostReply = s.hostReply := rfl
@[simp] theorem State.updStack_log (s : State) (k : StackId) (f : Stack → Stack) : (s.updStack k f).log = s.log := rfl
@[simp] theorem State.updStack_extents (s : State) (k : StackId) (f : Stack → Stack) : (s.updStack k f).extents = s.extents := rfl
@[simp] theorem State.updStack_revoked (s : State) (k : StackId) (f : Stack → Stack) : (s.updStack k f).revoked = s.revoked := rfl
@[simp] theorem State.updStack_atomicOps (s : State) (k : StackId) (f : Stack → Stack) : (s.updStack k f).atomicOps = s.atomicOps := rfl
@[simp] theorem State.updStack_cxl (s : State) (k : StackId) (f : Stack → Stack) : (s.updStack k f).cxl = s.cxl := rfl
@[simp] theorem State.updStack_tokens (s : State) (k : StackId) (f : Stack → Stack) : (s.updStack k f).tokens = s.tokens := rfl
@[simp] theorem State.updStack_reclaims (s : State) (k : StackId) (f : Stack → Stack) : (s.updStack k f).reclaims = s.reclaims := rfl
@[simp] theorem State.updStack_captureWin (s : State) (k : StackId) (f : Stack → Stack) : (s.updStack k f).captureWin = s.captureWin := rfl
@[simp] theorem State.updStack_links (s : State) (k : StackId) (f : Stack → Stack) : (s.updStack k f).links = s.links := rfl
@[simp] theorem State.updStack_boot (s : State) (k : StackId) (f : Stack → Stack) : (s.updStack k f).boot = s.boot := rfl
@[simp] theorem State.updStack_images (s : State) (k : StackId) (f : Stack → Stack) : (s.updStack k f).images = s.images := rfl
@[simp] theorem State.updStack_focus (s : State) (k : StackId) (f : Stack → Stack) : (s.updStack k f).focus = s.focus := rfl
@[simp] theorem State.updStack_issuer (s : State) (k : StackId) (f : Stack → Stack) : (s.updStack k f).issuer = s.issuer := rfl
@[simp] theorem State.updStack_agenda (s : State) (k : StackId) (f : Stack → Stack) : (s.updStack k f).agenda = s.agenda := rfl
@[simp] theorem State.updStack_free (s : State) (k : StackId) (f : Stack → Stack) : (s.updStack k f).free = s.free := rfl

/-! ## Fields that a change of a context leaves -/

@[simp] theorem State.updCtx_cores (s : State) (c : Ctx) (f : Context → Context) : (s.updCtx c f).cores = s.cores := rfl
@[simp] theorem State.updCtx_clusters (s : State) (c : Ctx) (f : Context → Context) : (s.updCtx c f).clusters = s.clusters := rfl
@[simp] theorem State.updCtx_tiles (s : State) (c : Ctx) (f : Context → Context) : (s.updCtx c f).tiles = s.tiles := rfl
@[simp] theorem State.updCtx_dies (s : State) (c : Ctx) (f : Context → Context) : (s.updCtx c f).dies = s.dies := rfl
@[simp] theorem State.updCtx_hbm (s : State) (c : Ctx) (f : Context → Context) : (s.updCtx c f).hbm = s.hbm := rfl
@[simp] theorem State.updCtx_mem (s : State) (c : Ctx) (f : Context → Context) : (s.updCtx c f).mem = s.mem := rfl
@[simp] theorem State.updCtx_keyed (s : State) (c : Ctx) (f : Context → Context) : (s.updCtx c f).keyed = s.keyed := rfl
@[simp] theorem State.updCtx_errors (s : State) (c : Ctx) (f : Context → Context) : (s.updCtx c f).errors = s.errors := rfl
@[simp] theorem State.updCtx_vault (s : State) (c : Ctx) (f : Context → Context) : (s.updCtx c f).vault = s.vault := rfl
@[simp] theorem State.updCtx_hostMem (s : State) (c : Ctx) (f : Context → Context) : (s.updCtx c f).hostMem = s.hostMem := rfl
@[simp] theorem State.updCtx_peers (s : State) (c : Ctx) (f : Context → Context) : (s.updCtx c f).peers = s.peers := rfl
@[simp] theorem State.updCtx_net (s : State) (c : Ctx) (f : Context → Context) : (s.updCtx c f).net = s.net := rfl
@[simp] theorem State.updCtx_nextMsg (s : State) (c : Ctx) (f : Context → Context) : (s.updCtx c f).nextMsg = s.nextMsg := rfl
@[simp] theorem State.updCtx_majOps (s : State) (c : Ctx) (f : Context → Context) : (s.updCtx c f).majOps = s.majOps := rfl
@[simp] theorem State.updCtx_rings (s : State) (c : Ctx) (f : Context → Context) : (s.updCtx c f).rings = s.rings := rfl
@[simp] theorem State.updCtx_installs (s : State) (c : Ctx) (f : Context → Context) : (s.updCtx c f).installs = s.installs := rfl
@[simp] theorem State.updCtx_launches (s : State) (c : Ctx) (f : Context → Context) : (s.updCtx c f).launches = s.launches := rfl
@[simp] theorem State.updCtx_nextId (s : State) (c : Ctx) (f : Context → Context) : (s.updCtx c f).nextId = s.nextId := rfl
@[simp] theorem State.updCtx_takeSeq (s : State) (c : Ctx) (f : Context → Context) : (s.updCtx c f).takeSeq = s.takeSeq := rfl
@[simp] theorem State.updCtx_lastCtx (s : State) (c : Ctx) (f : Context → Context) : (s.updCtx c f).lastCtx = s.lastCtx := rfl
@[simp] theorem State.updCtx_time (s : State) (c : Ctx) (f : Context → Context) : (s.updCtx c f).time = s.time := rfl
@[simp] theorem State.updCtx_rsize (s : State) (c : Ctx) (f : Context → Context) : (s.updCtx c f).rsize = s.rsize := rfl
@[simp] theorem State.updCtx_majFixed (s : State) (c : Ctx) (f : Context → Context) : (s.updCtx c f).majFixed = s.majFixed := rfl
@[simp] theorem State.updCtx_dcfg (s : State) (c : Ctx) (f : Context → Context) : (s.updCtx c f).dcfg = s.dcfg := rfl
@[simp] theorem State.updCtx_mbcmd (s : State) (c : Ctx) (f : Context → Context) : (s.updCtx c f).mbcmd = s.mbcmd := rfl
@[simp] theorem State.updCtx_mbarg (s : State) (c : Ctx) (f : Context → Context) : (s.updCtx c f).mbarg = s.mbarg := rfl
@[simp] theorem State.updCtx_mbblk (s : State) (c : Ctx) (f : Context → Context) : (s.updCtx c f).mbblk = s.mbblk := rfl
@[simp] theorem State.updCtx_mbresult (s : State) (c : Ctx) (f : Context → Context) : (s.updCtx c f).mbresult = s.mbresult := rfl
@[simp] theorem State.updCtx_mbbusy (s : State) (c : Ctx) (f : Context → Context) : (s.updCtx c f).mbbusy = s.mbbusy := rfl
@[simp] theorem State.updCtx_msix (s : State) (c : Ctx) (f : Context → Context) : (s.updCtx c f).msix = s.msix := rfl
@[simp] theorem State.updCtx_ctlAcl (s : State) (c : Ctx) (f : Context → Context) : (s.updCtx c f).ctlAcl = s.ctlAcl := rfl
@[simp] theorem State.updCtx_apertures (s : State) (c : Ctx) (f : Context → Context) : (s.updCtx c f).apertures = s.apertures := rfl
@[simp] theorem State.updCtx_hostReply (s : State) (c : Ctx) (f : Context → Context) : (s.updCtx c f).hostReply = s.hostReply := rfl
@[simp] theorem State.updCtx_log (s : State) (c : Ctx) (f : Context → Context) : (s.updCtx c f).log = s.log := rfl
@[simp] theorem State.updCtx_extents (s : State) (c : Ctx) (f : Context → Context) : (s.updCtx c f).extents = s.extents := rfl
@[simp] theorem State.updCtx_revoked (s : State) (c : Ctx) (f : Context → Context) : (s.updCtx c f).revoked = s.revoked := rfl
@[simp] theorem State.updCtx_atomicOps (s : State) (c : Ctx) (f : Context → Context) : (s.updCtx c f).atomicOps = s.atomicOps := rfl
@[simp] theorem State.updCtx_cxl (s : State) (c : Ctx) (f : Context → Context) : (s.updCtx c f).cxl = s.cxl := rfl
@[simp] theorem State.updCtx_tokens (s : State) (c : Ctx) (f : Context → Context) : (s.updCtx c f).tokens = s.tokens := rfl
@[simp] theorem State.updCtx_reclaims (s : State) (c : Ctx) (f : Context → Context) : (s.updCtx c f).reclaims = s.reclaims := rfl
@[simp] theorem State.updCtx_captureWin (s : State) (c : Ctx) (f : Context → Context) : (s.updCtx c f).captureWin = s.captureWin := rfl
@[simp] theorem State.updCtx_links (s : State) (c : Ctx) (f : Context → Context) : (s.updCtx c f).links = s.links := rfl
@[simp] theorem State.updCtx_boot (s : State) (c : Ctx) (f : Context → Context) : (s.updCtx c f).boot = s.boot := rfl
@[simp] theorem State.updCtx_images (s : State) (c : Ctx) (f : Context → Context) : (s.updCtx c f).images = s.images := rfl
@[simp] theorem State.updCtx_focus (s : State) (c : Ctx) (f : Context → Context) : (s.updCtx c f).focus = s.focus := rfl
@[simp] theorem State.updCtx_issuer (s : State) (c : Ctx) (f : Context → Context) : (s.updCtx c f).issuer = s.issuer := rfl
@[simp] theorem State.updCtx_agenda (s : State) (c : Ctx) (f : Context → Context) : (s.updCtx c f).agenda = s.agenda := rfl
@[simp] theorem State.updCtx_free (s : State) (c : Ctx) (f : Context → Context) : (s.updCtx c f).free = s.free := rfl

/-! ## Registers -/

/-- x0 reads 0 (R5). -/
@[simp] theorem Thread.getX_zero (t : Thread) : t.getX 0 = 0 := rfl

/-- A write of x0 is discarded (R5). -/
@[simp] theorem Thread.setX_zero (t : Thread) (v : Word) : t.setX 0 v = t := rfl

theorem Thread.getX_setX_same (t : Thread) (r : Reg) (v : Word) (h : r ≠ 0) : (t.setX r v).getX r = v := by
  simp only [Thread.getX, Thread.setX, if_neg h]
  exact get_set_same _ r.toFin _

theorem Thread.getX_setX_other (t : Thread) (r q : Reg) (v : Word) (h : q ≠ r) : (t.setX r v).getX q = t.getX q := by
  unfold Thread.setX
  split
  · rfl
  · have h' : q.toFin ≠ r.toFin := fun e => h (BitVec.eq_of_toNat_eq (congrArg Fin.val e))
    simp only [Thread.getX]
    split
    · rfl
    · exact get_set_other _ _ _ _ h'

/-- k0 reads as all ones (R184). -/
@[simp] theorem Thread.getK_zero (t : Thread) : t.getK 0 = BitVec.allOnes 512 := rfl

/-- A write of k0 is discarded (R184). -/
@[simp] theorem Thread.setK_zero (t : Thread) (v : KReg) : t.setK 0 v = t := rfl

@[simp] theorem Thread.setX_status (t : Thread) (r : Reg) (v : Word) : (t.setX r v).status = t.status := by unfold Thread.setX; split <;> rfl
@[simp] theorem Thread.setX_pc (t : Thread) (r : Reg) (v : Word) : (t.setX r v).pc = t.pc := by unfold Thread.setX; split <;> rfl
@[simp] theorem Thread.setX_v (t : Thread) (r : Reg) (v : Word) : (t.setX r v).v = t.v := by unfold Thread.setX; split <;> rfl
@[simp] theorem Thread.setX_k (t : Thread) (r : Reg) (v : Word) : (t.setX r v).k = t.k := by unfold Thread.setX; split <;> rfl
@[simp] theorem Thread.setX_m (t : Thread) (r : Reg) (v : Word) : (t.setX r v).m = t.m := by unfold Thread.setX; split <;> rfl
@[simp] theorem Thread.setX_mfull (t : Thread) (r : Reg) (v : Word) : (t.setX r v).mfull = t.mfull := by unfold Thread.setX; split <;> rfl
@[simp] theorem Thread.setX_rows (t : Thread) (r : Reg) (v : Word) : (t.setX r v).rows = t.rows := by unfold Thread.setX; split <;> rfl
@[simp] theorem Thread.setX_rbytes (t : Thread) (r : Reg) (v : Word) : (t.setX r v).rbytes = t.rbytes := by unfold Thread.setX; split <;> rfl
@[simp] theorem Thread.setX_repcnt (t : Thread) (r : Reg) (v : Word) : (t.setX r v).repcnt = t.repcnt := by unfold Thread.setX; split <;> rfl
@[simp] theorem Thread.setX_hint (t : Thread) (r : Reg) (v : Word) : (t.setX r v).hint = t.hint := by unfold Thread.setX; split <;> rfl
@[simp] theorem Thread.setX_srseed (t : Thread) (r : Reg) (v : Word) : (t.setX r v).srseed = t.srseed := by unfold Thread.setX; split <;> rfl
@[simp] theorem Thread.setX_gens (t : Thread) (r : Reg) (v : Word) : (t.setX r v).gens = t.gens := by unfold Thread.setX; split <;> rfl
@[simp] theorem Thread.setX_instret (t : Thread) (r : Reg) (v : Word) : (t.setX r v).instret = t.instret := by unfold Thread.setX; split <;> rfl
@[simp] theorem Thread.setX_slip (t : Thread) (r : Reg) (v : Word) : (t.setX r v).slip = t.slip := by unfold Thread.setX; split <;> rfl
@[simp] theorem Thread.setX_fmta (t : Thread) (r : Reg) (v : Word) : (t.setX r v).fmta = t.fmta := by unfold Thread.setX; split <;> rfl
@[simp] theorem Thread.setX_fmtb (t : Thread) (r : Reg) (v : Word) : (t.setX r v).fmtb = t.fmtb := by unfold Thread.setX; split <;> rfl
@[simp] theorem Thread.setX_fmtc (t : Thread) (r : Reg) (v : Word) : (t.setX r v).fmtc = t.fmtc := by unfold Thread.setX; split <;> rfl
@[simp] theorem Thread.setX_scla (t : Thread) (r : Reg) (v : Word) : (t.setX r v).scla = t.scla := by unfold Thread.setX; split <;> rfl
@[simp] theorem Thread.setX_sclb (t : Thread) (r : Reg) (v : Word) : (t.setX r v).sclb = t.sclb := by unfold Thread.setX; split <;> rfl
@[simp] theorem Thread.setX_grpsz (t : Thread) (r : Reg) (v : Word) : (t.setX r v).grpsz = t.grpsz := by unfold Thread.setX; split <;> rfl
@[simp] theorem Thread.setX_ports (t : Thread) (r : Reg) (v : Word) : (t.setX r v).ports = t.ports := by unfold Thread.setX; split <;> rfl
@[simp] theorem Thread.setX_tbm (t : Thread) (r : Reg) (v : Word) : (t.setX r v).tbm = t.tbm := by unfold Thread.setX; split <;> rfl
@[simp] theorem Thread.setX_sigacq (t : Thread) (r : Reg) (v : Word) : (t.setX r v).sigacq = t.sigacq := by unfold Thread.setX; split <;> rfl
@[simp] theorem Thread.setX_wsig (t : Thread) (r : Reg) (v : Word) : (t.setX r v).wsig = t.wsig := by unfold Thread.setX; split <;> rfl
@[simp] theorem Thread.setX_tid (t : Thread) (r : Reg) (v : Word) : (t.setX r v).tid = t.tid := by unfold Thread.setX; split <;> rfl
@[simp] theorem Thread.setX_coreNo (t : Thread) (r : Reg) (v : Word) : (t.setX r v).coreNo = t.coreNo := by unfold Thread.setX; split <;> rfl
@[simp] theorem Thread.setX_clust (t : Thread) (r : Reg) (v : Word) : (t.setX r v).clust = t.clust := by unfold Thread.setX; split <;> rfl
@[simp] theorem Thread.setX_dieNo (t : Thread) (r : Reg) (v : Word) : (t.setX r v).dieNo = t.dieNo := by unfold Thread.setX; split <;> rfl
@[simp] theorem Thread.setX_hctx (t : Thread) (r : Reg) (v : Word) : (t.setX r v).hctx = t.hctx := by unfold Thread.setX; split <;> rfl
@[simp] theorem Thread.setX_prio (t : Thread) (r : Reg) (v : Word) : (t.setX r v).prio = t.prio := by unfold Thread.setX; split <;> rfl
@[simp] theorem Thread.setX_vcount (t : Thread) (r : Reg) (v : Word) : (t.setX r v).vcount = t.vcount := by unfold Thread.setX; split <;> rfl
@[simp] theorem Thread.setX_spbase (t : Thread) (r : Reg) (v : Word) : (t.setX r v).spbase = t.spbase := by unfold Thread.setX; split <;> rfl
@[simp] theorem Thread.setX_spsize (t : Thread) (r : Reg) (v : Word) : (t.setX r v).spsize = t.spsize := by unfold Thread.setX; split <;> rfl
@[simp] theorem Thread.setX_vbase (t : Thread) (r : Reg) (v : Word) : (t.setX r v).vbase = t.vbase := by unfold Thread.setX; split <;> rfl
@[simp] theorem Thread.setX_depth (t : Thread) (r : Reg) (v : Word) : (t.setX r v).depth = t.depth := by unfold Thread.setX; split <;> rfl
@[simp] theorem Thread.setX_replica (t : Thread) (r : Reg) (v : Word) : (t.setX r v).replica = t.replica := by unfold Thread.setX; split <;> rfl
@[simp] theorem Thread.setX_stage (t : Thread) (r : Reg) (v : Word) : (t.setX r v).stage = t.stage := by unfold Thread.setX; split <;> rfl
@[simp] theorem Thread.setX_launch (t : Thread) (r : Reg) (v : Word) : (t.setX r v).launch = t.launch := by unfold Thread.setX; split <;> rfl
@[simp] theorem Thread.setX_task (t : Thread) (r : Reg) (v : Word) : (t.setX r v).task = t.task := by unfold Thread.setX; split <;> rfl
@[simp] theorem Thread.setX_vsel (t : Thread) (r : Reg) (v : Word) : (t.setX r v).vsel = t.vsel := by unfold Thread.setX; split <;> rfl
@[simp] theorem Thread.setX_alignSet (t : Thread) (r : Reg) (v : Word) : (t.setX r v).alignSet = t.alignSet := by unfold Thread.setX; split <;> rfl
@[simp] theorem Thread.setX_racfg (t : Thread) (r : Reg) (v : Word) : (t.setX r v).racfg = t.racfg := by unfold Thread.setX; split <;> rfl
@[simp] theorem Thread.setX_crcfg (t : Thread) (r : Reg) (v : Word) : (t.setX r v).crcfg = t.crcfg := by unfold Thread.setX; split <;> rfl
@[simp] theorem Thread.setX_emitted (t : Thread) (r : Reg) (v : Word) : (t.setX r v).emitted = t.emitted := by unfold Thread.setX; split <;> rfl
@[simp] theorem Thread.setX_claims (t : Thread) (r : Reg) (v : Word) : (t.setX r v).claims = t.claims := by unfold Thread.setX; split <;> rfl
@[simp] theorem Thread.setX_xpend (t : Thread) (r : Reg) (v : Word) : (t.setX r v).xpend = t.xpend := by unfold Thread.setX; split <;> rfl
@[simp] theorem Thread.setX_vpend (t : Thread) (r : Reg) (v : Word) : (t.setX r v).vpend = t.vpend := by unfold Thread.setX; split <;> rfl
@[simp] theorem Thread.setX_loads (t : Thread) (r : Reg) (v : Word) : (t.setX r v).loads = t.loads := by unfold Thread.setX; split <;> rfl
@[simp] theorem Thread.setX_redo (t : Thread) (r : Reg) (v : Word) : (t.setX r v).redo = t.redo := by unfold Thread.setX; split <;> rfl
@[simp] theorem Thread.setX_after (t : Thread) (r : Reg) (v : Word) : (t.setX r v).after = t.after := by unfold Thread.setX; split <;> rfl
@[simp] theorem Thread.setX_kept (t : Thread) (r : Reg) (v : Word) : (t.setX r v).kept = t.kept := by unfold Thread.setX; split <;> rfl
@[simp] theorem Thread.setX_prog (t : Thread) (r : Reg) (v : Word) : (t.setX r v).prog = t.prog := by unfold Thread.setX; split <;> rfl
@[simp] theorem Thread.setX_inRep (t : Thread) (r : Reg) (v : Word) : (t.setX r v).inRep = t.inRep := by unfold Thread.setX; split <;> rfl
@[simp] theorem Thread.setX_stepping (t : Thread) (r : Reg) (v : Word) : (t.setX r v).stepping = t.stepping := by unfold Thread.setX; split <;> rfl
@[simp] theorem Thread.setX_ibuf (t : Thread) (r : Reg) (v : Word) : (t.setX r v).ibuf = t.ibuf := by unfold Thread.setX; split <;> rfl
@[simp] theorem Thread.setV_status (t : Thread) (r : Reg) (v : VReg) : (t.setV r v).status = t.status := rfl
@[simp] theorem Thread.setV_pc (t : Thread) (r : Reg) (v : VReg) : (t.setV r v).pc = t.pc := rfl
@[simp] theorem Thread.setV_x (t : Thread) (r : Reg) (v : VReg) : (t.setV r v).x = t.x := rfl
@[simp] theorem Thread.setV_k (t : Thread) (r : Reg) (v : VReg) : (t.setV r v).k = t.k := rfl
@[simp] theorem Thread.setV_m (t : Thread) (r : Reg) (v : VReg) : (t.setV r v).m = t.m := rfl
@[simp] theorem Thread.setV_mfull (t : Thread) (r : Reg) (v : VReg) : (t.setV r v).mfull = t.mfull := rfl
@[simp] theorem Thread.setV_rows (t : Thread) (r : Reg) (v : VReg) : (t.setV r v).rows = t.rows := rfl
@[simp] theorem Thread.setV_rbytes (t : Thread) (r : Reg) (v : VReg) : (t.setV r v).rbytes = t.rbytes := rfl
@[simp] theorem Thread.setV_repcnt (t : Thread) (r : Reg) (v : VReg) : (t.setV r v).repcnt = t.repcnt := rfl
@[simp] theorem Thread.setV_hint (t : Thread) (r : Reg) (v : VReg) : (t.setV r v).hint = t.hint := rfl
@[simp] theorem Thread.setV_srseed (t : Thread) (r : Reg) (v : VReg) : (t.setV r v).srseed = t.srseed := rfl
@[simp] theorem Thread.setV_gens (t : Thread) (r : Reg) (v : VReg) : (t.setV r v).gens = t.gens := rfl
@[simp] theorem Thread.setV_instret (t : Thread) (r : Reg) (v : VReg) : (t.setV r v).instret = t.instret := rfl
@[simp] theorem Thread.setV_slip (t : Thread) (r : Reg) (v : VReg) : (t.setV r v).slip = t.slip := rfl
@[simp] theorem Thread.setV_fmta (t : Thread) (r : Reg) (v : VReg) : (t.setV r v).fmta = t.fmta := rfl
@[simp] theorem Thread.setV_fmtb (t : Thread) (r : Reg) (v : VReg) : (t.setV r v).fmtb = t.fmtb := rfl
@[simp] theorem Thread.setV_fmtc (t : Thread) (r : Reg) (v : VReg) : (t.setV r v).fmtc = t.fmtc := rfl
@[simp] theorem Thread.setV_scla (t : Thread) (r : Reg) (v : VReg) : (t.setV r v).scla = t.scla := rfl
@[simp] theorem Thread.setV_sclb (t : Thread) (r : Reg) (v : VReg) : (t.setV r v).sclb = t.sclb := rfl
@[simp] theorem Thread.setV_grpsz (t : Thread) (r : Reg) (v : VReg) : (t.setV r v).grpsz = t.grpsz := rfl
@[simp] theorem Thread.setV_ports (t : Thread) (r : Reg) (v : VReg) : (t.setV r v).ports = t.ports := rfl
@[simp] theorem Thread.setV_tbm (t : Thread) (r : Reg) (v : VReg) : (t.setV r v).tbm = t.tbm := rfl
@[simp] theorem Thread.setV_sigacq (t : Thread) (r : Reg) (v : VReg) : (t.setV r v).sigacq = t.sigacq := rfl
@[simp] theorem Thread.setV_wsig (t : Thread) (r : Reg) (v : VReg) : (t.setV r v).wsig = t.wsig := rfl
@[simp] theorem Thread.setV_tid (t : Thread) (r : Reg) (v : VReg) : (t.setV r v).tid = t.tid := rfl
@[simp] theorem Thread.setV_coreNo (t : Thread) (r : Reg) (v : VReg) : (t.setV r v).coreNo = t.coreNo := rfl
@[simp] theorem Thread.setV_clust (t : Thread) (r : Reg) (v : VReg) : (t.setV r v).clust = t.clust := rfl
@[simp] theorem Thread.setV_dieNo (t : Thread) (r : Reg) (v : VReg) : (t.setV r v).dieNo = t.dieNo := rfl
@[simp] theorem Thread.setV_hctx (t : Thread) (r : Reg) (v : VReg) : (t.setV r v).hctx = t.hctx := rfl
@[simp] theorem Thread.setV_prio (t : Thread) (r : Reg) (v : VReg) : (t.setV r v).prio = t.prio := rfl
@[simp] theorem Thread.setV_vcount (t : Thread) (r : Reg) (v : VReg) : (t.setV r v).vcount = t.vcount := rfl
@[simp] theorem Thread.setV_spbase (t : Thread) (r : Reg) (v : VReg) : (t.setV r v).spbase = t.spbase := rfl
@[simp] theorem Thread.setV_spsize (t : Thread) (r : Reg) (v : VReg) : (t.setV r v).spsize = t.spsize := rfl
@[simp] theorem Thread.setV_vbase (t : Thread) (r : Reg) (v : VReg) : (t.setV r v).vbase = t.vbase := rfl
@[simp] theorem Thread.setV_depth (t : Thread) (r : Reg) (v : VReg) : (t.setV r v).depth = t.depth := rfl
@[simp] theorem Thread.setV_replica (t : Thread) (r : Reg) (v : VReg) : (t.setV r v).replica = t.replica := rfl
@[simp] theorem Thread.setV_stage (t : Thread) (r : Reg) (v : VReg) : (t.setV r v).stage = t.stage := rfl
@[simp] theorem Thread.setV_launch (t : Thread) (r : Reg) (v : VReg) : (t.setV r v).launch = t.launch := rfl
@[simp] theorem Thread.setV_task (t : Thread) (r : Reg) (v : VReg) : (t.setV r v).task = t.task := rfl
@[simp] theorem Thread.setV_vsel (t : Thread) (r : Reg) (v : VReg) : (t.setV r v).vsel = t.vsel := rfl
@[simp] theorem Thread.setV_alignSet (t : Thread) (r : Reg) (v : VReg) : (t.setV r v).alignSet = t.alignSet := rfl
@[simp] theorem Thread.setV_racfg (t : Thread) (r : Reg) (v : VReg) : (t.setV r v).racfg = t.racfg := rfl
@[simp] theorem Thread.setV_crcfg (t : Thread) (r : Reg) (v : VReg) : (t.setV r v).crcfg = t.crcfg := rfl
@[simp] theorem Thread.setV_emitted (t : Thread) (r : Reg) (v : VReg) : (t.setV r v).emitted = t.emitted := rfl
@[simp] theorem Thread.setV_claims (t : Thread) (r : Reg) (v : VReg) : (t.setV r v).claims = t.claims := rfl
@[simp] theorem Thread.setV_xpend (t : Thread) (r : Reg) (v : VReg) : (t.setV r v).xpend = t.xpend := rfl
@[simp] theorem Thread.setV_vpend (t : Thread) (r : Reg) (v : VReg) : (t.setV r v).vpend = t.vpend := rfl
@[simp] theorem Thread.setV_loads (t : Thread) (r : Reg) (v : VReg) : (t.setV r v).loads = t.loads := rfl
@[simp] theorem Thread.setV_redo (t : Thread) (r : Reg) (v : VReg) : (t.setV r v).redo = t.redo := rfl
@[simp] theorem Thread.setV_after (t : Thread) (r : Reg) (v : VReg) : (t.setV r v).after = t.after := rfl
@[simp] theorem Thread.setV_kept (t : Thread) (r : Reg) (v : VReg) : (t.setV r v).kept = t.kept := rfl
@[simp] theorem Thread.setV_prog (t : Thread) (r : Reg) (v : VReg) : (t.setV r v).prog = t.prog := rfl
@[simp] theorem Thread.setV_inRep (t : Thread) (r : Reg) (v : VReg) : (t.setV r v).inRep = t.inRep := rfl
@[simp] theorem Thread.setV_stepping (t : Thread) (r : Reg) (v : VReg) : (t.setV r v).stepping = t.stepping := rfl
@[simp] theorem Thread.setV_ibuf (t : Thread) (r : Reg) (v : VReg) : (t.setV r v).ibuf = t.ibuf := rfl

end Sys2Proof.Machine
end

