-- ==== Sys2Proof/Laws/Ops.lean ====
section
/-! SUPPORT. Laws of the shared operations: what each answers when its operands are plain, and that a meaning
always answers a next state. -/

-- One declaration at a time, so that the package as one text stays within the memory of a check.
set_option Elab.async false

namespace Sys2Proof.Machine

/-! ## Every meaning answers a next state -/

/-- A meaning of a word answers a next state (R304: a trap is one). -/
theorem runM_next (m : M Unit) (s : State) : ∃ t, runM m s = .next t := by
  unfold runM
  split <;> exact ⟨_, rfl⟩

/-- What a meaning that completes answers. -/
theorem runM_ok {m : M Unit} {s t : State} (h : m s = .ok ((), t)) : runM m s = .next t := by
  simp only [runM, h]

/-- What a meaning that traps answers: the trap is taken in the state before the issue (R74). -/
theorem runM_trap {m : M Unit} {s : State} {i : TrapInfo} (h : m s = .error (.trap i)) :
    runM m s = .next (s.takeTrap s.issuer.1 s.issuer.2 i) := by
  simp only [runM, h]

/-- What a meaning that has to wait answers: nothing but the thread's status changes, and a producer parked on
a ring asks for the head (R29, R31, R241). -/
theorem runM_block {m : M Unit} {s : State} {b : Blocker} {p : Bool} (h : m s = .error (.block b p)) :
    runM m s = .next ((s.blockMe b p).parkNotice b) := by
  simp only [runM, h]

/-- What a meaning that keeps its requests answers. -/
theorem runM_keep {m : M Unit} {s t : State} (h : m s = .error (.keep t)) : runM m s = .next t := by
  simp only [runM, h]

/-- A device step answers a next state. -/
theorem event_next (p : State → Option State) (s : State) : ∃ t, event p s = .next t := ⟨_, rfl⟩

/-- A device step that is due. -/
theorem event_due {p : State → Option State} {s t : State} (h : p s = some t) : event p s = .next t := by
  simp only [event, h, Option.getD_some]

/-! ## How a meaning runs -/

theorem M.bind_ok {α β : Type} {m : M α} {f : α → M β} {s t : State} {a : α} (h : m s = .ok (a, t)) :
    (m >>= f) s = f a t := by
  show (StateT.bind m f) s = _
  simp only [StateT.bind, h]
  rfl

theorem M.bind_error {α β : Type} {m : M α} {f : α → M β} {s : State} {e : Stop} (h : m s = .error e) :
    (m >>= f) s = .error e := by
  show (StateT.bind m f) s = _
  simp only [StateT.bind, h]
  rfl

@[simp] theorem M.pure_run {α : Type} (a : α) (s : State) : (pure a : M α) s = .ok (a, s) := rfl
@[simp] theorem M.get_run (s : State) : (get : M State) s = .ok (s, s) := rfl
@[simp] theorem M.set_run (t s : State) : (set t : M PUnit) s = .ok (⟨⟩, t) := rfl
@[simp] theorem M.modify_run (f : State → State) (s : State) : (modify f : M PUnit) s = .ok (⟨⟩, f s) := rfl
@[simp] theorem M.throw_run {α : Type} (e : Stop) (s : State) : (throw e : M α) s = .error e := rfl
@[simp] theorem trapWith_run {α : Type} (c : Cause) (a d : Word) (w : Bool) (s : State) :
    (trapWith c a d w : M α) s = .error (.trap { cause := c, addr := a, detail := d, write := w }) := rfl
@[simp] theorem trapInfo_run {α : Type} (i : TrapInfo) (s : State) : (trapInfo i : M α) s = .error (.trap i) := rfl
@[simp] theorem illegalOperand_run {α : Type} (s : State) :
    (illegalOperand : M α) s = .error (.trap { cause := .illegalOperand }) := rfl
@[simp] theorem parkOn_run {α : Type} (b : Blocker) (s : State) : (parkOn b : M α) s = .error (.block b true) := rfl
@[simp] theorem waitOn_run {α : Type} (b : Blocker) (s : State) : (waitOn b : M α) s = .error (.block b false) := rfl
@[simp] theorem keepOn_run {α : Type} (b : Blocker) (p : Bool) (s : State) :
    (keepOn b p : M α) s = .error (.keep (s.blockMe b p)) := rfl
@[simp] theorem retire_run (s : State) : retire s = .ok ((), s.retire) := rfl
@[simp] theorem jumpTo_run (pc : Word) (s : State) : jumpTo pc s = .ok ((), s.jumpTo pc) := rfl
theorem require_true {p : Bool} (h : p = true) (s : State) : require p s = .ok ((), s) := by simp only [require, h]; rfl
theorem require_false {p : Bool} (h : p = false) (s : State) :
    require p s = .error (.trap { cause := .illegalOperand }) := by simp only [require, h]; rfl

@[simp] theorem M.bind_pure {α β : Type} (a : α) (f : α → M β) (s : State) : ((pure a : M α) >>= f) s = f a s := rfl
@[simp] theorem M.bind_get {β : Type} (f : State → M β) (s : State) : ((get : M State) >>= f) s = f s s := rfl
@[simp] theorem M.bind_set {β : Type} (t : State) (f : PUnit → M β) (s : State) : ((set t : M PUnit) >>= f) s = f ⟨⟩ t := rfl
@[simp] theorem M.bind_modify {β : Type} (g : State → State) (f : PUnit → M β) (s : State) :
    ((modify g : M PUnit) >>= f) s = f ⟨⟩ (g s) := rfl
@[simp] theorem M.bind_throw {α β : Type} (e : Stop) (f : α → M β) (s : State) : ((throw e : M α) >>= f) s = .error e := rfl
@[simp] theorem M.bind_trapWith {α β : Type} (c : Cause) (a d : Word) (w : Bool) (f : α → M β) (s : State) :
    ((trapWith c a d w : M α) >>= f) s = .error (.trap { cause := c, addr := a, detail := d, write := w }) := rfl
@[simp] theorem M.bind_illegal {α β : Type} (f : α → M β) (s : State) :
    ((illegalOperand : M α) >>= f) s = .error (.trap { cause := .illegalOperand }) := rfl
@[simp] theorem M.bind_bind {α β γ : Type} (m : M α) (f : α → M β) (g : β → M γ) (s : State) :
    ((m >>= f) >>= g) s = (m >>= fun a => f a >>= g) s := by
  simp only [bind_assoc]

/-! ## Sources and destinations, ports among them -/

/-- A register that gives a value is no out-bound port, and its value has arrived. -/
theorem State.given_some {s : State} {r : Reg} {k : Nat} {v : Word} (h : s.given r k = some v) :
    s.me.boundAs r true = false ∧ (s.me.xpend.getLsbD r.toNat && (s.me.binding r).isNone && r != 0) = false := by
  unfold State.given at h
  unfold Thread.boundAs
  cases hb : s.me.binding r with
  | none =>
    simp only [hb, Option.ite_none_right_eq_some] at h
    rcases h.1 with h | h <;> simp [h]
  | some b =>
    rw [hb] at h
    cases ho : b.out with
    | true => simp [ho] at h
    | false => simp [ho]

theorem State.writable_facts {s : State} {d : Reg} (h : s.writable d) :
    s.me.boundAs d false = false ∧ (s.me.xpend.getLsbD d.toNat && (s.me.binding d).isNone && d != 0) = false := by
  unfold State.writable at h
  unfold Thread.boundAs
  cases hb : s.me.binding d with
  | none =>
    rw [hb] at h
    rcases h with h | h <;> simp [h]
  | some b =>
    rw [hb] at h
    simp at h
    simp [h]

/-- Nothing is outstanding among registers that have arrived. -/
theorem Thread.pendingOf_zero {t : Thread} {rs : List Reg}
    (h : ∀ r ∈ rs, (t.xpend.getLsbD r.toNat && (t.binding r).isNone && r != 0) = false) : t.pendingOf rs = 0 := by
  have go : ∀ (l : List Reg) (m : BitVec 32),
      (∀ r ∈ l, (t.xpend.getLsbD r.toNat && (t.binding r).isNone && r != 0) = false) →
      l.foldl (fun (m : BitVec 32) r =>
        if t.xpend.getLsbD r.toNat && (t.binding r).isNone && r != 0 then m ||| (1 <<< r.toNat) else m) m = m := by
    intro l
    induction l with
    | nil => intros; rfl
    | cons r l ih =>
      intro m hl
      rw [List.foldl_cons, hl r List.mem_cons_self]
      exact ih m fun q hq => hl q (List.mem_cons_of_mem _ hq)
  exact go rs 0 h

/-- The checks of registers pass: no port is misused and nothing is outstanding. -/
theorem checkRegs_pass {s : State} {srcs : List Reg} {d : Option Reg} {rmw : Bool}
    (hs : ∀ r ∈ srcs, s.me.boundAs r true = false ∧ (s.me.xpend.getLsbD r.toNat && (s.me.binding r).isNone && r != 0) = false)
    (hd : ∀ r ∈ d, s.writable r) (hr : rmw = true → ∀ r ∈ d, s.me.binding r = none) :
    checkRegs srcs d rmw s = .ok ((), s) := by
  have h1 : srcs.any (fun r => s.me.boundAs r true) = false := by
    rw [List.any_eq_false]
    intro r hr
    simp [(hs r hr).1]
  have h2 : s.me.portMisuse srcs d rmw = false := by
    unfold Thread.portMisuse
    rw [h1]
    cases d with
    | none => rfl
    | some d =>
      have h3 := (State.writable_facts (hd d rfl)).1
      cases rmw with
      | false => simp [h3]
      | true => simp [h3, hr rfl d rfl]
  have h4 : s.me.pendingOf (srcs ++ d.toList) = 0 := by
    apply Thread.pendingOf_zero
    intro r hr
    rcases List.mem_append.mp hr with hr | hr
    · exact (hs r hr).2
    · exact (State.writable_facts (hd r (by simpa using hr))).2
  simp only [checkRegs, M.bind_get, h2, h4]
  rfl

/-- A source that gives a value. -/
theorem source_given {s : State} {r : Reg} {k : Nat} {v : Word} (h : s.given r k = some v) :
    source r k s = .ok (v, s) := by
  unfold State.given at h
  simp only [source, M.bind_get]
  cases hb : s.me.binding r with
  | none =>
    simp only [hb, Option.ite_none_right_eq_some, Option.some.injEq] at h
    simp only [← h.2]
    rfl
  | some b =>
    rw [hb] at h
    simp only at h
    dsimp only
    cases ho : b.out with
    | true => simp [ho] at h
    | false =>
      rw [ho] at h
      cases hg : b.ring with
      | false =>
        simp only [hg, Bool.false_eq_true, if_false, Option.bind_eq_some_iff] at h
        obtain ⟨q, hq, e, he, h⟩ := h
        simp only [Option.ite_none_right_eq_some, Option.some.injEq] at h
        have hp : peekPort b k s = .ok (e, s) := by
          simp [peekPort, hg, hq, he]
        rw [M.bind_ok hp]
        simp [h.1, h.2]
      | true =>
        simp only [hg, Bool.false_eq_true, if_false, if_true] at h
        cases hr : s.ring b.obj with
        | none => simp [hr] at h
        | some g =>
          cases hc : s.me.claim b.obj with
          | some c =>
            simp only [hr, hc] at h
            have hp : peekPort b k s = .ok ({ val := cellVal c.cell, kind := c.kind }, s) := by
              simp only [Option.ite_none_right_eq_some, Bool.and_eq_true, Bool.not_eq_true', beq_iff_eq] at h
              simp [peekPort, hg, hr, hc, h.1.1.1, h.1.1.2]
            rw [M.bind_ok hp]
            simp only [Option.ite_none_right_eq_some, Bool.and_eq_true, Bool.not_eq_true', beq_iff_eq,
              Option.some.injEq] at h
            simp [h.1.2, h.2]
          | none =>
            simp only [hr, hc] at h
            split at h
            · simp at h
            · rename_i hrep
              simp only [Option.bind_eq_some_iff, Option.ite_none_right_eq_some, Option.some.injEq] at h
              obtain ⟨l, hl, hk, h⟩ := h
              simp only [Bool.or_eq_true, decide_eq_true_eq, not_or, Bool.not_eq_true] at hrep
              have hp : peekPort b k s = .ok ({ val := cellVal (l.getD k (0, [])).2, kind := cellKind (l.getD k (0, [])).2 }, s) := by
                simp [peekPort, hg, hr, hc, hrep.1, hrep.2, hl]
              rw [M.bind_ok hp]
              dsimp only
              rw [if_pos hk, h]
              rfl

/-- Reading one source. -/
theorem read1_given {s : State} {a : Reg} {d : Option Reg} {x : Word} (h : s.reads1 a x) (hd : ∀ r ∈ d, s.writable r) :
    read1 a d s = .ok (x, s) := by
  unfold read1
  rw [M.bind_ok (checkRegs_pass (srcs := [a])
    (fun r hr => List.mem_singleton.mp hr ▸ State.given_some h) hd (by simp))]
  exact source_given h

/-- Reading two sources. -/
theorem read2_given {s : State} {a b : Reg} {d : Option Reg} {rmw : Bool} {x y : Word} (h : s.reads2 a b x y)
    (hd : ∀ r ∈ d, s.writable r) (hr : rmw = true → ∀ r ∈ d, s.me.binding r = none) :
    read2 a b d rmw s = .ok ((x, y), s) := by
  unfold read2
  have ha := State.given_some h.1
  have hb := State.given_some h.2
  rw [M.bind_ok (checkRegs_pass (srcs := [a, b]) (fun r hr => by
    rcases List.mem_cons.mp hr with rfl | hr
    · exact ha
    · exact List.mem_singleton.mp hr ▸ hb) hd hr), M.bind_ok (source_given h.1),
    M.bind_ok (source_given h.2)]
  rfl

/-- The entries that sources gave are taken. -/
theorem commitReads_took (s : State) (rs : List Reg) : commitReads rs s = .ok ((), s.took rs) := rfl

/-- Writing rd. -/
theorem writeX_put {s t : State} {d : Reg} {v : Word} (h : s.put d v = some t) : writeX d v s = .ok ((), t) := by
  unfold State.put at h
  simp only [writeX, M.bind_get]
  cases hb : s.me.binding d with
  | none =>
    simp only [hb, Option.some.injEq] at h
    subst h
    rfl
  | some b =>
    rw [hb] at h
    simp only [Option.ite_none_left_eq_some, Bool.or_eq_true, not_or, Bool.not_eq_true, Option.bind_eq_some_iff,
      Option.ite_none_right_eq_some, Option.some.injEq] at h
    obtain ⟨⟨hr, hl⟩, q, hq, hn, h⟩ := h
    have hw : awaitLocalStores s = .ok ((), s) := by simp [awaitLocalStores, hl]
    simp only [putPort]
    rw [M.bind_ok hw]
    simp [hr, hq, hn, ← h]

/-- Completing with a result. -/
theorem finishX_put {s t : State} {rs : List Reg} {d : Reg} {v : Word} (h : (s.took rs).put d v = some t) :
    finishX rs d v s = .ok ((), t.retire) := by
  unfold finishX
  rw [M.bind_ok (commitReads_took s rs), M.bind_ok (writeX_put h)]
  rfl

/-- Completing without a result. -/
theorem finish_took (s : State) (rs : List Reg) : finish rs s = .ok ((), (s.took rs).retire) := rfl

/-! ## Plain registers -/


theorem State.plain_cons {s : State} {r : Reg} {rs : List Reg} : s.plain (r :: rs) ↔ s.me.plain r ∧ s.plain rs := by
  simp only [State.plain, List.mem_cons, forall_eq_or_imp]

theorem State.plain_nil (s : State) : s.plain [] := fun _ h => absurd h List.not_mem_nil

theorem State.plain_mono {s : State} {l m : List Reg} (h : s.plain m) (hs : ∀ r ∈ l, r ∈ m) : s.plain l :=
  fun r hr => h r (hs r hr)

/-- No register of a list of plain ones is outstanding. -/
theorem Thread.pendingOf_plain {t : Thread} {rs : List Reg} (h : ∀ r ∈ rs, t.plain r) : t.pendingOf rs = 0 := by
  have go : ∀ (l : List Reg) (m : BitVec 32), (∀ r ∈ l, t.plain r) →
      l.foldl (fun (m : BitVec 32) r => if t.xpend.getLsbD r.toNat && (t.binding r).isNone && r != 0 then m ||| (1 <<< r.toNat) else m) m = m := by
    intro l
    induction l with
    | nil => intros; rfl
    | cons r l ih =>
      intro m hl
      have hr := (hl r List.mem_cons_self).2
      rw [List.foldl_cons, if_neg, ih m fun q hq => hl q (List.mem_cons_of_mem _ hq)]
      rcases hr with hr | hr <;> simp [hr]
  exact go rs 0 h

/-- Plain registers are no misused ports. -/
theorem Thread.portMisuse_plain {t : Thread} {srcs : List Reg} {d : Option Reg} {rmw : Bool}
    (hs : ∀ r ∈ srcs, t.plain r) (hd : ∀ r ∈ d, t.plain r) : t.portMisuse srcs d rmw = false := by
  have h1 : srcs.any (fun r => t.boundAs r true) = false := by
    rw [List.any_eq_false]
    intro r hr
    simp [Thread.boundAs, (hs r hr).1]
  cases d with
  | none => simp [Thread.portMisuse, h1]
  | some d =>
    have h2 : t.boundAs d false = false := by simp [Thread.boundAs, (hd d rfl).1]
    simp [Thread.portMisuse, h1, h2, (hd d rfl).1]

/-- The checks of registers pass when they are plain. -/
theorem checkRegs_plain {s : State} {srcs : List Reg} {d : Option Reg} {rmw : Bool} (h : s.plain (srcs ++ d.toList)) :
    checkRegs srcs d rmw s = .ok ((), s) := by
  have hs : ∀ r ∈ srcs, s.me.plain r := fun r hr => h r (List.mem_append_left _ hr)
  have hd : ∀ r ∈ d, s.me.plain r := fun r hr => h r (List.mem_append_right _ (by simpa using hr))
  simp only [checkRegs, M.bind_get, Thread.portMisuse_plain hs hd, Thread.pendingOf_plain h]
  rfl

/-- A plain source gives its register. -/
theorem source_plain {s : State} {r : Reg} (h : s.me.plain r) (k : Nat) : source r k s = .ok (s.x r, s) := by
  simp only [source, M.bind_get, h.1]
  rfl

theorem read1_plain {s : State} {a : Reg} {d : Option Reg} (h : s.plain (a :: d.toList)) :
    read1 a d s = .ok (s.x a, s) := by
  unfold read1
  rw [M.bind_ok (checkRegs_plain (srcs := [a]) h)]
  exact source_plain (h a List.mem_cons_self) 0

theorem read2_plain {s : State} {a b : Reg} {d : Option Reg} {rmw : Bool} (h : s.plain (a :: b :: d.toList)) :
    read2 a b d rmw s = .ok ((s.x a, s.x b), s) := by
  unfold read2
  rw [M.bind_ok (checkRegs_plain (srcs := [a, b]) h),
    M.bind_ok (source_plain (h a List.mem_cons_self) 0),
    M.bind_ok (source_plain (h b (List.mem_cons_of_mem _ List.mem_cons_self)) _)]
  rfl

theorem State.dequeue_plain {s : State} {r : Reg} (h : s.me.plain r) : s.dequeue r = s := by
  simp only [State.dequeue, h.1]

theorem commitReads_plain {s : State} {rs : List Reg} (h : s.plain rs) : commitReads rs s = .ok ((), s) := by
  have go : rs.foldl State.dequeue s = s := by
    induction rs with
    | nil => rfl
    | cons r rs ih =>
      rw [List.foldl_cons, State.dequeue_plain (h r List.mem_cons_self)]
      exact ih fun q hq => h q (List.mem_cons_of_mem _ hq)
  simp only [commitReads, M.modify_run, go]

theorem writeX_plain {s : State} {d : Reg} (v : Word) (h : s.me.plain d) :
    writeX d v s = .ok ((), s.updMe fun t => t.setX d v) := by
  simp only [writeX, M.bind_get, h.1]
  rfl

/-- Completing with a result in a plain register. -/
theorem finishX_plain {s : State} {rs : List Reg} {d : Reg} (v : Word) (h : s.plain (d :: rs)) :
    finishX rs d v s = .ok ((), s.wrote d v) := by
  obtain ⟨hd, hr⟩ := State.plain_cons.mp h
  unfold finishX
  rw [M.bind_ok (commitReads_plain hr), M.bind_ok (writeX_plain v hd)]
  rfl

theorem finish_plain {s : State} {rs : List Reg} (h : s.plain rs) : finish rs s = .ok ((), s.retire) := by
  unfold finish
  rw [M.bind_ok (commitReads_plain h)]
  rfl

/-! ## The shapes of scalar forms -/

/-- A form with one source, its registers plain. -/
theorem unary_plain {s : State} (f : Word → Word) {d a : Reg} (h : s.plain [a, d]) :
    runM (unary f d a) s = .next (s.wrote d (f (s.x a))) := by
  apply runM_ok
  unfold unary
  rw [M.bind_ok (read1_plain (d := some d) h)]
  exact finishX_plain _ (State.plain_mono h (by simp))

/-- A form with two sources, its registers plain. -/
theorem binary_plain {s : State} (f : Word → Word → Word) {d a b : Reg} (h : s.plain [a, b, d]) :
    runM (binary f d a b) s = .next (s.wrote d (f (s.x a) (s.x b))) := by
  apply runM_ok
  unfold binary
  rw [M.bind_ok (read2_plain (d := some d) h)]
  exact finishX_plain _ (State.plain_mono h (by simp))

/-- A form without a source, its destination plain. -/
theorem nullary_plain {s : State} (v : Word) {d : Reg} (h : s.plain [d]) :
    runM (nullary v d) s = .next (s.wrote d v) := by
  apply runM_ok
  unfold nullary
  rw [M.bind_ok (checkRegs_plain (srcs := []) (d := some d) h)]
  exact finishX_plain _ h

/-! ## Vector operands -/

theorem Thread.vpendingOf_plain {t : Thread} {rs : List Reg} (h : ∀ r ∈ rs, t.vpend.getLsbD r.toNat = false) :
    t.vpendingOf rs = 0 := by
  have go : ∀ (l : List Reg) (m : BitVec 32), (∀ r ∈ l, t.vpend.getLsbD r.toNat = false) →
      l.foldl (fun (m : BitVec 32) r => if t.vpend.getLsbD r.toNat then m ||| (1 <<< r.toNat) else m) m = m := by
    intro l
    induction l with
    | nil => intros; rfl
    | cons r l ih =>
      intro m hl
      rw [List.foldl_cons, hl r List.mem_cons_self]
      exact ih m fun q hq => hl q (List.mem_cons_of_mem _ hq)
  exact go rs 0 h

theorem awaitV_plain {s : State} {rs : List Reg} (h : s.vplain rs) : awaitV rs s = .ok ((), s) := by
  simp only [awaitV, M.bind_get, Thread.vpendingOf_plain h]
  rfl

end Sys2Proof.Machine
end

