-- ==== Sys2Proof/Laws/Access.lean ====
section
/-! SUPPORT. Laws of scalar accesses and jumps: what a load finds in the L1D or asks for, what a store writes, and
where a branch goes. -/

-- One declaration at a time, so that the package as one text stays within the memory of a check.
set_option Elab.async false

namespace Sys2Proof.Machine

/-! ## Branches (R81) -/

theorem checkTarget_even {t : Word} (h : t.getLsbD 1 = false) (s : State) : checkTarget t s = .ok ((), s) := by
  simp only [checkTarget, h]
  rfl

theorem checkTarget_odd {t : Word} (h : t.getLsbD 1 = true) (s : State) :
    checkTarget t s = .error (.trap { cause := .misalignedFetch, addr := t, detail := t }) := by
  simp only [checkTarget, h]
  rfl

/-- A branch that is not taken completes. -/
theorem branch_falls {p : Word → Word → Bool} {a b : Reg} {off : BitVec 12} {s : State} {x y : Word}
    (h : s.reads2 a b x y) (hp : p x y = false) : runM (branch p a b off) s = .next (s.took [a, b]).retire := by
  apply runM_ok
  unfold branch
  rw [M.bind_ok (read2_given (d := none) (rmw := false) h (by simp) (by simp))]
  simp only [hp]
  exact finish_took _ _

/-- A branch that is taken jumps. -/
theorem branch_jumps {p : Word → Word → Bool} {a b : Reg} {off : BitVec 12} {s : State} {x y : Word}
    (h : s.reads2 a b x y) (hp : p x y = true) (ht : (s.me.pc + branchOff off).getLsbD 1 = false) :
    runM (branch p a b off) s = .next ((s.took [a, b]).jumpTo (s.me.pc + branchOff off)) := by
  apply runM_ok
  unfold branch
  rw [M.bind_ok (read2_given (d := none) (rmw := false) h (by simp) (by simp))]
  simp only [hp, if_true, M.bind_get]
  rw [M.bind_ok (checkTarget_even ht s), M.bind_ok (commitReads_took s _)]
  rfl

/-- A taken branch to a misaligned target traps. -/
theorem branch_traps {p : Word → Word → Bool} {a b : Reg} {off : BitVec 12} {s : State} {x y : Word}
    (h : s.reads2 a b x y) (hp : p x y = true) (ht : (s.me.pc + branchOff off).getLsbD 1 = true) :
    runM (branch p a b off) s = .next (s.takeTrap s.issuer.1 s.issuer.2
      { cause := .misalignedFetch, addr := s.me.pc + branchOff off, detail := s.me.pc + branchOff off }) := by
  apply runM_trap
  unfold branch
  rw [M.bind_ok (read2_given (d := none) (rmw := false) h (by simp) (by simp))]
  simp only [hp, if_true, M.bind_get]
  exact M.bind_error (checkTarget_odd ht s)

/-! ## Loads (R82 to R84) -/

theorem awaitLine_free {s : State} {line : Nat} (h : s.lineBusy s.issuer.1 line = false) :
    awaitLine line s = .ok ((), s) := by
  simp [awaitLine, h]

/-- A part of a load whose sector is valid comes from the L1D. -/
theorem loadPart_hit {s : State} {hint : Hint} {n va pa pos len : Nat} {l : L1Line}
    (hb : s.lineBusy s.issuer.1 (pa / 128) = false) (hl : s.here.l1 (pa / 128) = some l)
    (hv : l.valid.getLsbD (pa % 128 / 32) = true) :
    loadPart hint n va pa pos len s =
      .ok ({ pos := pos, len := len, data := bytesOf l.data (pa % 128) len, va := va },
        s.updHere fun c => c.l1Touch (pa / 128)) := by
  unfold loadPart
  rw [M.bind_ok (awaitLine_free hb)]
  simp only [M.bind_get]
  rw [if_pos (by simp [Core.l1Valid, hl, hv]), hl]
  rfl

/-- The request for a sector that a load misses. -/
def State.askSector (s : State) (hint : Hint) (va pa : Nat) : Nat × State :=
  s.post1 s.issuer.1 s.issuer.2 (some (.tile (s.homeTile s.me.hctx s.issuer.1 pa)))
    (.fill (pa / 128) (1 <<< (pa % 128 / 32)) hint (hint != .noal) false) va

/-- A part of a load whose sector is not valid, and of which no fetch is under way, is asked for. -/
theorem loadPart_miss {s : State} {hint : Hint} {n va pa pos len : Nat}
    (hb : s.lineBusy s.issuer.1 (pa / 128) = false) (hv : s.here.l1Valid (pa / 128) (pa % 128 / 32) = false)
    (hf : s.sharedFill s.issuer.1 s.issuer.2 (pa / 128) (pa % 128 / 32) n = none)
    (hs : s.sectorBusy s.issuer.1 (pa / 128) (pa % 128 / 32) = false) :
    loadPart hint n va pa pos len s =
      .ok ({ msg := some (s.askSector hint va pa).1, pos := pos, len := len, off := pa % 32, va := va },
        (s.askSector hint va pa).2) := by
  unfold loadPart
  rw [M.bind_ok (awaitLine_free hb)]
  simp only [M.bind_get, hv, hf, hs]
  rfl

/-- A load whose sector is valid completes with its bytes. -/
theorem loadGlobal_hit {s s1 t : State} {va size : Nat} {signed : Bool} {hint : Hint} {a d : Reg} {m : Mapped} {l : L1Line}
    (hd : s.me.prog.data = none) (ha : va % size = 0) (hm : s.maps va true false m s1)
    (ht : m.ty = .normal ∨ m.ty = .replica) (hb : s1.lineBusy s1.issuer.1 (m.pa / 128) = false)
    (hl : s1.here.l1 (m.pa / 128) = some l) (hv : l.valid.getLsbD (m.pa % 128 / 32) = true)
    (hp : ((s1.updHere fun c => c.l1Touch (m.pa / 128)).took [a]).put d
      (widen signed size (ofLe (bytesOf l.data (m.pa % 128) size))) = some t) :
    loadGlobal va size signed hint [a] d s = .ok ((), t.retire) := by
  unfold loadGlobal
  simp only [M.bind_get]
  rw [if_neg (by omega), hd]
  simp only
  rw [M.bind_ok hm]
  have key : (do
      let p ← loadPart hint s.nextMsg va m.pa 0 size
      if p.msg.isNone then finishX [a] d (widen signed size (ofLe p.data))
      else completeLoad [p] (s.me.loadDst d size signed) va [a] : M Unit) s1 = .ok ((), t.retire) := by
    rw [M.bind_ok (loadPart_hit hb hl hv)]
    exact finishX_put hp
  rcases ht with h | h <;> rw [h] <;> exact key

/-- The thread with a load outstanding on an integer register. -/
def Thread.pend (t : Thread) (l : PendLoad) (d : Reg) : Thread :=
  { t with loads := t.loads ++ [l], xpend := if d = 0 then t.xpend else t.xpend ||| (1 <<< d.toNat) }

/-- A load with its one piece outstanding completes with rd outstanding. -/
theorem completeLoad_pending {s : State} {p : Piece} {d : Reg} {size va : Nat} {signed : Bool} {rs : List Reg}
    (hp : p.msg.isNone = false) (hh : s.me.holdsAt rs = false) :
    completeLoad [p] (.x d size signed) va rs s = .ok ((), (State.took (s.updMe fun t => t.pend
      { dst := .x d size signed, pieces := [p], pc := s.me.pc, va := BitVec.ofNat 64 va, undo := s.me.undo } d) rs).retire) := by
  simp [completeLoad, hp, hh, finish_took, Thread.pend]

/-- A load whose sector is not valid asks for it and completes with rd outstanding. -/
theorem loadGlobal_miss {s s1 : State} {va size : Nat} {signed : Bool} {hint : Hint} {a d : Reg} {m : Mapped}
    (hbd : s.me.binding d = none) (hd : s.me.prog.data = none) (ha : va % size = 0) (hm : s.maps va true false m s1)
    (ht : m.ty = .normal ∨ m.ty = .replica) (hb : s1.lineBusy s1.issuer.1 (m.pa / 128) = false)
    (hv : s1.here.l1Valid (m.pa / 128) (m.pa % 128 / 32) = false)
    (hf : s1.sharedFill s1.issuer.1 s1.issuer.2 (m.pa / 128) (m.pa % 128 / 32) s.nextMsg = none)
    (hs : s1.sectorBusy s1.issuer.1 (m.pa / 128) (m.pa % 128 / 32) = false)
    (hh : (s1.askSector hint va m.pa).2.me.holdsAt [a] = false) :
    ∃ l : PendLoad, l.dst = .x d size signed ∧ l.pieces.map Piece.msg = [some (s1.askSector hint va m.pa).1] ∧
      loadGlobal va size signed hint [a] d s =
        .ok ((), (State.took ((s1.askSector hint va m.pa).2.updMe fun t => t.pend l d) [a]).retire) := by
  refine ⟨{ dst := .x d size signed
            pieces := [{ msg := some (s1.askSector hint va m.pa).1, pos := 0, len := size, off := m.pa % 32, va := va }]
            pc := (s1.askSector hint va m.pa).2.me.pc, va := BitVec.ofNat 64 va, undo := (s1.askSector hint va m.pa).2.me.undo }, rfl, rfl, ?_⟩
  unfold loadGlobal
  simp only [M.bind_get]
  rw [if_neg (by omega), hd]
  simp only
  rw [M.bind_ok hm]
  have hdst : s.me.loadDst d size signed = .x d size signed := by simp [Thread.loadDst, hbd]
  have key : (do
      let p ← loadPart hint s.nextMsg va m.pa 0 size
      if p.msg.isNone then finishX [a] d (widen signed size (ofLe p.data))
      else completeLoad [p] (s.me.loadDst d size signed) va [a] : M Unit) s1 =
        .ok ((), (State.took ((s1.askSector hint va m.pa).2.updMe fun t => t.pend
          { dst := .x d size signed
            pieces := [{ msg := some (s1.askSector hint va m.pa).1, pos := 0, len := size, off := m.pa % 32, va := va }]
            pc := (s1.askSector hint va m.pa).2.me.pc, va := BitVec.ofNat 64 va, undo := (s1.askSector hint va m.pa).2.me.undo } d) [a]).retire) := by
    rw [M.bind_ok (loadPart_miss hb hv hf hs), hdst]
    exact completeLoad_pending rfl hh
  rcases ht with h | h <;> rw [h] <;> exact key

/-! ## Stores (R82, R84) -/

/-- Bytes that lie in one sector are one run. -/
theorem sectorRuns_one {pa : Nat} {b : List Byte} (h0 : b ≠ []) (h : pa % 32 + b.length ≤ 32) :
    sectorRuns pa b (b.length + 1) = [(pa, b)] := by
  have ht : b.take (32 - pa % 32) = b := List.take_of_length_le (by omega)
  have hd : b.drop (32 - pa % 32) = [] := List.drop_of_length_le (by omega)
  have hl : 0 < b.length := List.length_pos_of_ne_nil h0
  unfold sectorRuns
  rw [if_neg (by simpa using h0)]
  simp only [ht, hd]
  obtain ⟨n, hn⟩ : ∃ n, b.length = n + 1 := ⟨b.length - 1, by omega⟩
  rw [hn]
  unfold sectorRuns
  rfl

/-- One part of a store on a normal page, in one sector. -/
theorem mapStores_one {s s1 : State} {ext maj : Bool} {va : Nat} {b : List Byte} {m : Mapped}
    (hm : s.maps va false true m s1) (hn : m.ty = .normal) (h0 : b ≠ []) (h : m.pa % 32 + b.length ≤ 32) :
    mapStores ext maj [(va, b)] s = .ok ([{ va := va, m := m, bytes := b }], s1) := by
  have hc : cutPart va m b = [{ va := va, m := m, bytes := b }] := by
    obtain ⟨pa, leaf, ty⟩ := m
    simp only at hn h
    subst hn
    simp only [cutPart, reduceCtorEq, if_false, sectorRuns_one h0 h, List.map_cons, List.map_nil, Nat.sub_self, Nat.add_zero]
  simp only [mapStores, List.mapM_cons, List.mapM_nil, M.bind_bind]
  rw [M.bind_ok hm]
  simp only [hn, hc, if_true, M.bind_pure]
  rfl

/-- The state after a store's bytes have entered a valid sector of the L1D. -/
def State.stored (s : State) (pa : Nat) (b : List Byte) : State :=
  (s.updHere fun c => c.l1Write pa b).updMe fun t => { t with wsig := t.wsig ||| lineSig (pa / 128) }

/-- A part on a normal page leaves no majority piece. -/
theorem majPieces_normal {p : StorePart} (h : p.m.ty = .normal) : majPieces [p] = [] := by simp [majPieces, h]

/-- A store into a valid sector. -/
theorem storeGlobal_hit {s s1 : State} {ext maj w : Bool} {hint : Hint} {va : Nat} {b : List Byte} {srcs : List Reg} {m : Mapped}
    (hm : s.maps va false true m s1) (hn : m.ty = .normal) (h0 : b ≠ []) (h : m.pa % 32 + b.length ≤ 32)
    (hv : s1.here.l1Valid (m.pa / 128) (m.pa % 128 / 32) = true) :
    storeGlobal ext maj hint [(va, b)] srcs w s = .ok ((), (State.took (s1.stored m.pa b) srcs).retire) := by
  unfold storeGlobal
  rw [M.bind_ok (mapStores_one hm hn h0 h)]
  have hf : fetchForStore hint [{ va := va, m := m, bytes := b }] s1 = .ok ((), s1) := by
    simp [fetchForStore, State.missing, hn, hv]
  have hs : storeNormal hint [{ va := va, m := m, bytes := b }] s1 = .ok ((), s1.stored m.pa b) := by
    simp [storeNormal, hv, State.storePart, State.stored]
  simp only [hn, List.filter_cons, decide_true, if_true, List.filter_nil, M.bind_get]
  split
  · rw [M.bind_ok hf]
    simp only [majPieces_normal (p := ⟨va, m, b⟩) hn, List.isEmpty_nil, if_true]
    rw [M.bind_ok hs]
    rfl
  · simp only [majPieces_normal (p := ⟨va, m, b⟩) hn, List.isEmpty_nil, if_true]
    rw [M.bind_ok hs]
    rfl

/-- The state after a store's bytes have been sent to the home of their line. -/
def State.updated (s : State) (pa : Nat) (b : List Byte) (va : Nat) : State :=
  (State.killFills (s.post1 s.issuer.1 s.issuer.2 (some (.tile (s.homeTile s.me.hctx s.issuer.1 (128 * (pa / 128)))))
    (.update (pa / 128) [(pa, b)]) va).2 s.issuer.1 (pa / 128)).updMe fun t => { t with wsig := t.wsig ||| lineSig (pa / 128) }

/-- A store with hint `noal` to a sector that is not valid. -/
theorem storeGlobal_noal {s s1 : State} {ext maj w : Bool} {va : Nat} {b : List Byte} {srcs : List Reg} {m : Mapped}
    (hm : s.maps va false true m s1) (hn : m.ty = .normal) (h0 : b ≠ []) (h : m.pa % 32 + b.length ≤ 32)
    (hv : s1.here.l1Valid (m.pa / 128) (m.pa % 128 / 32) = false)
    (hb : s1.lineBusy s1.issuer.1 (m.pa / 128) = false) :
    storeGlobal ext maj .noal [(va, b)] srcs w s = .ok ((), (State.took (s1.updated m.pa b va) srcs).retire) := by
  unfold storeGlobal
  rw [M.bind_ok (mapStores_one hm hn h0 h)]
  have hf : fetchForStore .noal [{ va := va, m := m, bytes := b }] s1 = .ok ((), s1) := by
    simp [fetchForStore, State.missing, hn]
  have hs : storeNormal .noal [{ va := va, m := m, bytes := b }] s1 = .ok ((), s1.updated m.pa b va) := by
    simp [storeNormal, hv, hb, List.eraseDups, List.eraseDupsBy, List.eraseDupsBy.loop]
    rfl
  simp only [hn, List.filter_cons, decide_true, if_true, List.filter_nil, M.bind_get]
  split
  · rw [M.bind_ok hf]
    simp only [majPieces_normal (p := ⟨va, m, b⟩) hn, List.isEmpty_nil, if_true]
    rw [M.bind_ok hs]
    rfl
  · simp only [majPieces_normal (p := ⟨va, m, b⟩) hn, List.isEmpty_nil, if_true]
    rw [M.bind_ok hs]
    rfl

end Sys2Proof.Machine
end

