-- ==== Sys2Proof/Laws/PerInstr.lean ====
section
/-! SUPPORT. The family `Encoding`: the decoder reads the word of a well-formed instruction back, every operand kept
(R60 to R74), one lemma for each constructor. -/

namespace Sys2Proof.Laws

@[simp] theorem fld_low {v w : Nat} (x : BitVec v) (y : BitVec w) (lo n : Nat) (h : lo + n ≤ w) :
    fld (x ++ y) lo n = fld y lo n := by
  apply BitVec.eq_of_getLsbD_eq
  intro i hi
  simp only [fld, BitVec.getLsbD_extractLsb', BitVec.getLsbD_append]
  have : lo + i < w := by omega
  simp [this]

@[simp] theorem fld_high {v w : Nat} (x : BitVec v) (y : BitVec w) (lo n : Nat) (h : w ≤ lo) :
    fld (x ++ y) lo n = fld x (lo - w) n := by
  apply BitVec.eq_of_getLsbD_eq
  intro i hi
  simp only [fld, BitVec.getLsbD_extractLsb', BitVec.getLsbD_append]
  have : ¬ lo + i < w := by omega
  simp only [this, if_false, hi, decide_true, Bool.true_and]
  congr 1; omega

@[simp] theorem fld_all {w : Nat} (x : BitVec w) : fld x 0 w = x := by
  apply BitVec.eq_of_getLsbD_eq
  intro i hi
  simp [fld, hi]

theorem fld_glue {w : Nat} (x : BitVec w) (lo n m : Nat) : fld x (lo + n) m ++ fld x lo n = (fld x lo (m + n) : BitVec (m + n)) := by
  apply BitVec.eq_of_getLsbD_eq
  intro i hi
  simp only [fld, BitVec.getLsbD_extractLsb', BitVec.getLsbD_append, hi]
  by_cases h : i < n
  · simp [h]
  · have : i - n < m := by omega
    simp [h, this]; congr 1; omega

theorem decode_mk (f7 : BitVec 7) (b a : Reg) (f3 : BitVec 3) (d : Reg) (op : BitVec 7) :
    decode (mk f7 b a f3 d op) = decodeFields f7 b a f3 d op := by
  have h1 : fld (mk f7 b a f3 d op) 25 7 = f7 := by
    simp only [mk]; rw [fld_high, fld_high, fld_high, fld_high, fld_high] <;> simp
  have h2 : fld (mk f7 b a f3 d op) 20 5 = b := by
    simp only [mk]; rw [fld_high, fld_high, fld_high, fld_high, fld_low] <;> simp
  have h3 : fld (mk f7 b a f3 d op) 15 5 = a := by
    simp only [mk]; rw [fld_high, fld_high, fld_high, fld_low] <;> simp
  have h4 : fld (mk f7 b a f3 d op) 12 3 = f3 := by
    simp only [mk]; rw [fld_high, fld_high, fld_low] <;> simp
  have h5 : fld (mk f7 b a f3 d op) 7 5 = d := by
    simp only [mk]; rw [fld_high, fld_low] <;> simp
  have h6 : fld (mk f7 b a f3 d op) 0 7 = op := by
    simp only [mk]; rw [fld_low] <;> simp
  simp only [decode, h1, h2, h3, h4, h5, h6]

theorem imm12 (i : BitVec 12) : (fld i 5 7 ++ fld i 0 5 : BitVec 12) = i := by
  rw [fld_glue i 0 5 7]; exact fld_all i

theorem immU (i : BitVec 20) : imm20 (fld i 13 7) (fld i 8 5) (fld i 3 5) (fld i 0 3) = i := by
  revert i; intro i
  apply BitVec.eq_of_getLsbD_eq
  intro j hj
  simp only [imm20, fld, BitVec.getLsbD_extractLsb', BitVec.getLsbD_append]
  interval_cases j <;> simp

theorem immJ (i : BitVec 20) : jOff (imm20 (fld i 19 1 ++ fld i 4 6) (fld i 0 4 ++ fld i 10 1) (fld i 14 5) (fld i 11 3)) = i := by
  apply BitVec.eq_of_getLsbD_eq
  intro j hj
  simp only [jOff, imm20, fld, BitVec.getLsbD_extractLsb', BitVec.getLsbD_append]
  interval_cases j <;> simp

theorem immB (i : BitVec 12) : bOff (fld i 11 1 ++ fld i 4 6) (fld i 0 4 ++ fld i 10 1) = i := by
  apply BitVec.eq_of_getLsbD_eq
  intro j hj
  simp only [bOff, fld, BitVec.getLsbD_extractLsb', BitVec.getLsbD_append]
  interval_cases j <;> simp

@[simp] theorem piece61_1 (x : BitVec 6) (y : BitVec 1) : @fld 7 (x ++ y) 1 6 = x := by
  apply BitVec.eq_of_getLsbD_eq; intro i hi
  simp only [fld, BitVec.getLsbD_extractLsb', BitVec.getLsbD_append]
  interval_cases i <;> simp
@[simp] theorem piece61_0 (x : BitVec 6) (y : BitVec 1) : @fld 7 (x ++ y) 0 1 = y := by
  apply BitVec.eq_of_getLsbD_eq; intro i hi
  simp only [fld, BitVec.getLsbD_extractLsb', BitVec.getLsbD_append]
  interval_cases i <;> simp
@[simp] theorem piece52_2 (x : BitVec 5) (y : BitVec 2) : @fld 7 (x ++ y) 2 5 = x := by
  apply BitVec.eq_of_getLsbD_eq; intro i hi
  simp only [fld, BitVec.getLsbD_extractLsb', BitVec.getLsbD_append]
  interval_cases i <;> simp
@[simp] theorem piece52_0 (x : BitVec 5) (y : BitVec 2) : @fld 7 (x ++ y) 0 2 = y := by
  apply BitVec.eq_of_getLsbD_eq; intro i hi
  simp only [fld, BitVec.getLsbD_extractLsb', BitVec.getLsbD_append]
  interval_cases i <;> simp
@[simp] theorem piece43_3 (x : BitVec 4) (y : BitVec 3) : @fld 7 (x ++ y) 3 4 = x := by
  apply BitVec.eq_of_getLsbD_eq; intro i hi
  simp only [fld, BitVec.getLsbD_extractLsb', BitVec.getLsbD_append]
  interval_cases i <;> simp
@[simp] theorem piece43_0 (x : BitVec 4) (y : BitVec 3) : @fld 7 (x ++ y) 0 3 = y := by
  apply BitVec.eq_of_getLsbD_eq; intro i hi
  simp only [fld, BitVec.getLsbD_extractLsb', BitVec.getLsbD_append]
  interval_cases i <;> simp
@[simp] theorem piece43_4_3 (x : BitVec 4) (y : BitVec 3) : @fld 7 (x ++ y) 4 3 = fld x 1 3 := by
  apply BitVec.eq_of_getLsbD_eq; intro i hi
  simp only [fld, BitVec.getLsbD_extractLsb', BitVec.getLsbD_append]
  interval_cases i <;> simp
@[simp] theorem piece43_3_1 (x : BitVec 4) (y : BitVec 3) : @fld 7 (x ++ y) 3 1 = fld x 0 1 := by
  apply BitVec.eq_of_getLsbD_eq; intro i hi
  simp only [fld, BitVec.getLsbD_extractLsb', BitVec.getLsbD_append]
  interval_cases i <;> simp
@[simp] theorem piece43_0_1 (x : BitVec 4) (y : BitVec 3) : @fld 7 (x ++ y) 0 1 = fld y 0 1 := by
  apply BitVec.eq_of_getLsbD_eq; intro i hi
  simp only [fld, BitVec.getLsbD_extractLsb', BitVec.getLsbD_append]
  interval_cases i <;> simp
@[simp] theorem piece43_0_2 (x : BitVec 4) (y : BitVec 3) : @fld 7 (x ++ y) 0 2 = fld y 0 2 := by
  apply BitVec.eq_of_getLsbD_eq; intro i hi
  simp only [fld, BitVec.getLsbD_extractLsb', BitVec.getLsbD_append]
  interval_cases i <;> simp
@[simp] theorem piece43_2_1 (x : BitVec 4) (y : BitVec 3) : @fld 7 (x ++ y) 2 1 = fld y 2 1 := by
  apply BitVec.eq_of_getLsbD_eq; intro i hi
  simp only [fld, BitVec.getLsbD_extractLsb', BitVec.getLsbD_append]
  interval_cases i <;> simp
@[simp] theorem piece43_1_1 (x : BitVec 4) (y : BitVec 3) : @fld 7 (x ++ y) 1 1 = fld y 1 1 := by
  apply BitVec.eq_of_getLsbD_eq; intro i hi
  simp only [fld, BitVec.getLsbD_extractLsb', BitVec.getLsbD_append]
  interval_cases i <;> simp
@[simp] theorem piece43_1_2 (x : BitVec 4) (y : BitVec 3) : @fld 7 (x ++ y) 1 2 = fld y 1 2 := by
  apply BitVec.eq_of_getLsbD_eq; intro i hi
  simp only [fld, BitVec.getLsbD_extractLsb', BitVec.getLsbD_append]
  interval_cases i <;> simp
@[simp] theorem piece412_3 (x : BitVec 4) (y : BitVec 1) (z : BitVec 2) : @fld 7 (x ++ y ++ z) 3 4 = x := by
  apply BitVec.eq_of_getLsbD_eq; intro i hi
  simp only [fld, BitVec.getLsbD_extractLsb', BitVec.getLsbD_append]
  interval_cases i <;> simp
@[simp] theorem piece412_2 (x : BitVec 4) (y : BitVec 1) (z : BitVec 2) : @fld 7 (x ++ y ++ z) 2 1 = y := by
  apply BitVec.eq_of_getLsbD_eq; intro i hi
  simp only [fld, BitVec.getLsbD_extractLsb', BitVec.getLsbD_append]
  interval_cases i <;> simp
@[simp] theorem piece412_0 (x : BitVec 4) (y : BitVec 1) (z : BitVec 2) : @fld 7 (x ++ y ++ z) 0 2 = z := by
  apply BitVec.eq_of_getLsbD_eq; intro i hi
  simp only [fld, BitVec.getLsbD_extractLsb', BitVec.getLsbD_append]
  interval_cases i <;> simp
@[simp] theorem piece4111_3 (x : BitVec 4) (y : BitVec 1) (z : BitVec 1) (u : BitVec 1) : @fld 7 (x ++ y ++ z ++ u) 3 4 = x := by
  apply BitVec.eq_of_getLsbD_eq; intro i hi
  simp only [fld, BitVec.getLsbD_extractLsb', BitVec.getLsbD_append]
  interval_cases i <;> simp
@[simp] theorem piece4111_2 (x : BitVec 4) (y : BitVec 1) (z : BitVec 1) (u : BitVec 1) : @fld 7 (x ++ y ++ z ++ u) 2 1 = y := by
  apply BitVec.eq_of_getLsbD_eq; intro i hi
  simp only [fld, BitVec.getLsbD_extractLsb', BitVec.getLsbD_append]
  interval_cases i <;> simp
@[simp] theorem piece4111_1 (x : BitVec 4) (y : BitVec 1) (z : BitVec 1) (u : BitVec 1) : @fld 7 (x ++ y ++ z ++ u) 1 1 = z := by
  apply BitVec.eq_of_getLsbD_eq; intro i hi
  simp only [fld, BitVec.getLsbD_extractLsb', BitVec.getLsbD_append]
  interval_cases i <;> simp
@[simp] theorem piece4111_0 (x : BitVec 4) (y : BitVec 1) (z : BitVec 1) (u : BitVec 1) : @fld 7 (x ++ y ++ z ++ u) 0 1 = u := by
  apply BitVec.eq_of_getLsbD_eq; intro i hi
  simp only [fld, BitVec.getLsbD_extractLsb', BitVec.getLsbD_append]
  interval_cases i <;> simp
@[simp] theorem piece421_3 (x : BitVec 4) (y : BitVec 2) (z : BitVec 1) : @fld 7 (x ++ y ++ z) 3 4 = x := by
  apply BitVec.eq_of_getLsbD_eq; intro i hi
  simp only [fld, BitVec.getLsbD_extractLsb', BitVec.getLsbD_append]
  interval_cases i <;> simp
@[simp] theorem piece421_1 (x : BitVec 4) (y : BitVec 2) (z : BitVec 1) : @fld 7 (x ++ y ++ z) 1 2 = y := by
  apply BitVec.eq_of_getLsbD_eq; intro i hi
  simp only [fld, BitVec.getLsbD_extractLsb', BitVec.getLsbD_append]
  interval_cases i <;> simp
@[simp] theorem piece421_0 (x : BitVec 4) (y : BitVec 2) (z : BitVec 1) : @fld 7 (x ++ y ++ z) 0 1 = z := by
  apply BitVec.eq_of_getLsbD_eq; intro i hi
  simp only [fld, BitVec.getLsbD_extractLsb', BitVec.getLsbD_append]
  interval_cases i <;> simp
@[simp] theorem piece2221_5 (x : BitVec 2) (y : BitVec 2) (z : BitVec 2) (u : BitVec 1) : @fld 7 (x ++ y ++ z ++ u) 5 2 = x := by
  apply BitVec.eq_of_getLsbD_eq; intro i hi
  simp only [fld, BitVec.getLsbD_extractLsb', BitVec.getLsbD_append]
  interval_cases i <;> simp
@[simp] theorem piece2221_3 (x : BitVec 2) (y : BitVec 2) (z : BitVec 2) (u : BitVec 1) : @fld 7 (x ++ y ++ z ++ u) 3 2 = y := by
  apply BitVec.eq_of_getLsbD_eq; intro i hi
  simp only [fld, BitVec.getLsbD_extractLsb', BitVec.getLsbD_append]
  interval_cases i <;> simp
@[simp] theorem piece2221_1 (x : BitVec 2) (y : BitVec 2) (z : BitVec 2) (u : BitVec 1) : @fld 7 (x ++ y ++ z ++ u) 1 2 = z := by
  apply BitVec.eq_of_getLsbD_eq; intro i hi
  simp only [fld, BitVec.getLsbD_extractLsb', BitVec.getLsbD_append]
  interval_cases i <;> simp
@[simp] theorem piece2221_0 (x : BitVec 2) (y : BitVec 2) (z : BitVec 2) (u : BitVec 1) : @fld 7 (x ++ y ++ z ++ u) 0 1 = u := by
  apply BitVec.eq_of_getLsbD_eq; intro i hi
  simp only [fld, BitVec.getLsbD_extractLsb', BitVec.getLsbD_append]
  interval_cases i <;> simp
@[simp] theorem piece313_4 (x : BitVec 3) (y : BitVec 1) (z : BitVec 3) : @fld 7 (x ++ y ++ z) 4 3 = x := by
  apply BitVec.eq_of_getLsbD_eq; intro i hi
  simp only [fld, BitVec.getLsbD_extractLsb', BitVec.getLsbD_append]
  interval_cases i <;> simp
@[simp] theorem piece313_3 (x : BitVec 3) (y : BitVec 1) (z : BitVec 3) : @fld 7 (x ++ y ++ z) 3 1 = y := by
  apply BitVec.eq_of_getLsbD_eq; intro i hi
  simp only [fld, BitVec.getLsbD_extractLsb', BitVec.getLsbD_append]
  interval_cases i <;> simp
@[simp] theorem piece313_0 (x : BitVec 3) (y : BitVec 1) (z : BitVec 3) : @fld 7 (x ++ y ++ z) 0 3 = z := by
  apply BitVec.eq_of_getLsbD_eq; intro i hi
  simp only [fld, BitVec.getLsbD_extractLsb', BitVec.getLsbD_append]
  interval_cases i <;> simp
@[simp] theorem piece511_2 (x : BitVec 5) (y : BitVec 1) (z : BitVec 1) : @fld 7 (x ++ y ++ z) 2 5 = x := by
  apply BitVec.eq_of_getLsbD_eq; intro i hi
  simp only [fld, BitVec.getLsbD_extractLsb', BitVec.getLsbD_append]
  interval_cases i <;> simp
@[simp] theorem piece511_1 (x : BitVec 5) (y : BitVec 1) (z : BitVec 1) : @fld 7 (x ++ y ++ z) 1 1 = y := by
  apply BitVec.eq_of_getLsbD_eq; intro i hi
  simp only [fld, BitVec.getLsbD_extractLsb', BitVec.getLsbD_append]
  interval_cases i <;> simp
@[simp] theorem piece511_0 (x : BitVec 5) (y : BitVec 1) (z : BitVec 1) : @fld 7 (x ++ y ++ z) 0 1 = z := by
  apply BitVec.eq_of_getLsbD_eq; intro i hi
  simp only [fld, BitVec.getLsbD_extractLsb', BitVec.getLsbD_append]
  interval_cases i <;> simp
@[simp] theorem piece23_3 (x : BitVec 2) (y : BitVec 3) : @fld 5 (x ++ y) 3 2 = x := by
  apply BitVec.eq_of_getLsbD_eq; intro i hi
  simp only [fld, BitVec.getLsbD_extractLsb', BitVec.getLsbD_append]
  interval_cases i <;> simp
@[simp] theorem piece23_0 (x : BitVec 2) (y : BitVec 3) : @fld 5 (x ++ y) 0 3 = y := by
  apply BitVec.eq_of_getLsbD_eq; intro i hi
  simp only [fld, BitVec.getLsbD_extractLsb', BitVec.getLsbD_append]
  interval_cases i <;> simp
@[simp] theorem piece32_2 (x : BitVec 3) (y : BitVec 2) : @fld 5 (x ++ y) 2 3 = x := by
  apply BitVec.eq_of_getLsbD_eq; intro i hi
  simp only [fld, BitVec.getLsbD_extractLsb', BitVec.getLsbD_append]
  interval_cases i <;> simp
@[simp] theorem piece32_0 (x : BitVec 3) (y : BitVec 2) : @fld 5 (x ++ y) 0 2 = y := by
  apply BitVec.eq_of_getLsbD_eq; intro i hi
  simp only [fld, BitVec.getLsbD_extractLsb', BitVec.getLsbD_append]
  interval_cases i <;> simp
@[simp] theorem piece32_2_1 (x : BitVec 3) (y : BitVec 2) : @fld 5 (x ++ y) 2 1 = fld x 0 1 := by
  apply BitVec.eq_of_getLsbD_eq; intro i hi
  simp only [fld, BitVec.getLsbD_extractLsb', BitVec.getLsbD_append]
  interval_cases i <;> simp
@[simp] theorem piece14_4 (x : BitVec 1) (y : BitVec 4) : @fld 5 (x ++ y) 4 1 = x := by
  apply BitVec.eq_of_getLsbD_eq; intro i hi
  simp only [fld, BitVec.getLsbD_extractLsb', BitVec.getLsbD_append]
  interval_cases i <;> simp
@[simp] theorem piece14_0 (x : BitVec 1) (y : BitVec 4) : @fld 5 (x ++ y) 0 4 = y := by
  apply BitVec.eq_of_getLsbD_eq; intro i hi
  simp only [fld, BitVec.getLsbD_extractLsb', BitVec.getLsbD_append]
  interval_cases i <;> simp
@[simp] theorem piece221_3 (x : BitVec 2) (y : BitVec 2) (z : BitVec 1) : @fld 5 (x ++ y ++ z) 3 2 = x := by
  apply BitVec.eq_of_getLsbD_eq; intro i hi
  simp only [fld, BitVec.getLsbD_extractLsb', BitVec.getLsbD_append]
  interval_cases i <;> simp
@[simp] theorem piece221_1 (x : BitVec 2) (y : BitVec 2) (z : BitVec 1) : @fld 5 (x ++ y ++ z) 1 2 = y := by
  apply BitVec.eq_of_getLsbD_eq; intro i hi
  simp only [fld, BitVec.getLsbD_extractLsb', BitVec.getLsbD_append]
  interval_cases i <;> simp
@[simp] theorem piece221_0 (x : BitVec 2) (y : BitVec 2) (z : BitVec 1) : @fld 5 (x ++ y ++ z) 0 1 = z := by
  apply BitVec.eq_of_getLsbD_eq; intro i hi
  simp only [fld, BitVec.getLsbD_extractLsb', BitVec.getLsbD_append]
  interval_cases i <;> simp

@[simp] theorem immSh (x : BitVec 6) : (fld x 5 1 ++ fld x 0 5 : BitVec 6) = x := by rw [fld_glue x 0 5 1]; exact fld_all x
@[simp] theorem maskPieces (x : BitVec 3) : (fld x 2 1 ++ fld x 0 2 : BitVec 3) = x := by rw [fld_glue x 0 2 1]; exact fld_all x
@[simp] theorem regPieces (x : BitVec 4) : (fld x 1 3 ++ fld x 0 1 : BitVec 4) = x := by rw [fld_glue x 0 1 3]; exact fld_all x

/-- Decoding the word of a well-formed instruction gives the instruction back. -/
def Encoding.Statement (i : Instr) : Prop := i.wf = true → ∀ w, encode i = some w → decode w = .ok i
open Encoding

theorem none_ok {i : Instr} (h : encode i = none) : Statement i := by
  intro _ w e; rw [h] at e; cases e

theorem word_ok {i : Instr} {f7 : BitVec 7} {b a : Reg} {f3 : BitVec 3} {d : Reg} {op : BitVec 7}
    (h : encode i = some (mk f7 b a f3 d op)) (k : i.wf = true → decodeFields f7 b a f3 d op = .ok i) : Statement i := by
  intro hw w e
  rw [h] at e; cases e
  rw [decode_mk]; exact k hw

@[simp] theorem checked_ok {i : Instr} (h : i.wf = true) : checked i = .ok i := by simp [checked, h]
@[simp] theorem zero_true (k : Decoded) : zero true k = k := rfl
@[simp] theorem sub_some {α : Type} (a : α) (k : α → Decoded) : sub (some a) k = k a := rfl
@[simp] theorem low3_ok (r : BitVec 3) (k : BitVec 3 → Decoded) : low3 (0#2 ++ r) k = k r := by
  simp [low3]
@[simp] theorem bit_eq (b : Bool) : (bit b == 1#1) = b := by cases b <;> rfl
@[simp] theorem scope_code (x : Scope) : Scope.ofCode x.code = some x := by cases x <;> rfl
@[simp] theorem amoScope_code (x : AmoScope) : AmoScope.ofCode x.code = x := by cases x <;> rfl
@[simp] theorem hint_code (x : Hint) : Hint.ofCode x.code = x := by cases x <;> rfl
@[simp] theorem elemFmt_code (x : ElemFmt) : ElemFmt.ofCode x.code = some x := by cases x <;> rfl
@[simp] theorem narrowFmt_code (x : NarrowFmt) : NarrowFmt.ofCode x.code = some x := by cases x <;> rfl
@[simp] theorem wideType_code (x : WideType) : WideType.ofCode x.code = some x := by cases x <;> rfl
@[simp] theorem conv_code (x : Conv) : Conv.ofCode x.code = some x := by cases x <;> rfl
@[simp] theorem tileType_code (x : TileType) : TileType.ofCode x.code = some x := by cases x <;> rfl
@[simp] theorem elemSize_code (x : ElemSize) : ElemSize.ofCode x.code = x := by cases x <;> rfl
@[simp] theorem vType_code (x : VType) : VType.ofCode x.code = some x := by cases x <;> rfl
@[simp] theorem locMode_code (x : LocMode) : LocMode.ofCode x.code = some x := by cases x <;> rfl
@[simp] theorem memSize_code (x : MemSize) : MemSize.ofCode x.code = x := by cases x <;> rfl
@[simp] theorem amoOrd_code (x : AmoOrd) : AmoOrd.ofCode x.code = some x := by cases x <;> rfl
@[simp] theorem fenceClass_code (x : FenceClass) : FenceClass.ofCode x.code = some x := by cases x <;> rfl
@[simp] theorem tokLevel_code (x : TokLevel) : TokLevel.ofCode x.code = some x := by cases x <;> rfl
@[simp] theorem cond_code (x : Cond) : Cond.ofCode x.code = x := by cases x <;> rfl
@[simp] theorem redOp_code (x : RedOp) : RedOp.ofCode x.code = some x := by cases x <;> rfl
@[simp] theorem affinity_code (x : Affinity) : Affinity.ofCode x.code = some x := by cases x <;> rfl
theorem decodeV_typed (ty : VType) (f7 : BitVec 7) (b a d : Reg) : decodeV f7 b a ty.code d = decodeVTyped ty f7 b a d := by
  cases ty <;> rfl
theorem decodeV_f32 (f7 : BitVec 7) (b a d : Reg) : decodeV f7 b a 0#3 d = decodeVTyped .f32 f7 b a d := rfl
theorem cat31 : (0#3 ++ 0#1 : BitVec 4) = 0#4 := rfl

theorem Encoding.lui (d : Reg) (imm : BitVec 20) : Statement (Instr.lui d imm) := by
  refine word_ok rfl fun hw => ?_
  simp [-BitVec.reduceAppend, decodeFields, immU]
theorem Encoding.auipc (d : Reg) (imm : BitVec 20) : Statement (Instr.auipc d imm) := by
  refine word_ok rfl fun hw => ?_
  simp [-BitVec.reduceAppend, decodeFields, immU]
theorem Encoding.jal (d : Reg) (off : BitVec 20) : Statement (Instr.jal d off) := by
  refine word_ok rfl fun hw => ?_
  simp [-BitVec.reduceAppend, decodeFields, immJ]
theorem Encoding.jalr (d a : Reg) (imm : BitVec 12) : Statement (Instr.jalr d a imm) := by
  refine word_ok rfl fun hw => ?_
  simp [-BitVec.reduceAppend, decodeFields, imm12]
theorem Encoding.beq (a b : Reg) (off : BitVec 12) : Statement (Instr.beq a b off) := by
  refine word_ok rfl fun hw => ?_
  simp [-BitVec.reduceAppend, decodeFields, immB]
theorem Encoding.bne (a b : Reg) (off : BitVec 12) : Statement (Instr.bne a b off) := by
  refine word_ok rfl fun hw => ?_
  simp [-BitVec.reduceAppend, decodeFields, immB]
theorem Encoding.blt (a b : Reg) (off : BitVec 12) : Statement (Instr.blt a b off) := by
  refine word_ok rfl fun hw => ?_
  simp [-BitVec.reduceAppend, decodeFields, immB]
theorem Encoding.bge (a b : Reg) (off : BitVec 12) : Statement (Instr.bge a b off) := by
  refine word_ok rfl fun hw => ?_
  simp [-BitVec.reduceAppend, decodeFields, immB]
theorem Encoding.bltu (a b : Reg) (off : BitVec 12) : Statement (Instr.bltu a b off) := by
  refine word_ok rfl fun hw => ?_
  simp [-BitVec.reduceAppend, decodeFields, immB]
theorem Encoding.bgeu (a b : Reg) (off : BitVec 12) : Statement (Instr.bgeu a b off) := by
  refine word_ok rfl fun hw => ?_
  simp [-BitVec.reduceAppend, decodeFields, immB]
theorem Encoding.lb (d a : Reg) (imm : BitVec 12) : Statement (Instr.lb d a imm) := by
  refine word_ok rfl fun hw => ?_
  simp [-BitVec.reduceAppend, decodeFields, imm12]
theorem Encoding.lh (d a : Reg) (imm : BitVec 12) : Statement (Instr.lh d a imm) := by
  refine word_ok rfl fun hw => ?_
  simp [-BitVec.reduceAppend, decodeFields, imm12]
theorem Encoding.lw (d a : Reg) (imm : BitVec 12) : Statement (Instr.lw d a imm) := by
  refine word_ok rfl fun hw => ?_
  simp [-BitVec.reduceAppend, decodeFields, imm12]
theorem Encoding.ld (d a : Reg) (imm : BitVec 12) : Statement (Instr.ld d a imm) := by
  refine word_ok rfl fun hw => ?_
  simp [-BitVec.reduceAppend, decodeFields, imm12]
theorem Encoding.lbu (d a : Reg) (imm : BitVec 12) : Statement (Instr.lbu d a imm) := by
  refine word_ok rfl fun hw => ?_
  simp [-BitVec.reduceAppend, decodeFields, imm12]
theorem Encoding.lhu (d a : Reg) (imm : BitVec 12) : Statement (Instr.lhu d a imm) := by
  refine word_ok rfl fun hw => ?_
  simp [-BitVec.reduceAppend, decodeFields, imm12]
theorem Encoding.lwu (d a : Reg) (imm : BitVec 12) : Statement (Instr.lwu d a imm) := by
  refine word_ok rfl fun hw => ?_
  simp [-BitVec.reduceAppend, decodeFields, imm12]
theorem Encoding.sb (a b : Reg) (imm : BitVec 12) : Statement (Instr.sb a b imm) := by
  refine word_ok rfl fun hw => ?_
  simp [-BitVec.reduceAppend, decodeFields, imm12]
theorem Encoding.sh (a b : Reg) (imm : BitVec 12) : Statement (Instr.sh a b imm) := by
  refine word_ok rfl fun hw => ?_
  simp [-BitVec.reduceAppend, decodeFields, imm12]
theorem Encoding.sw (a b : Reg) (imm : BitVec 12) : Statement (Instr.sw a b imm) := by
  refine word_ok rfl fun hw => ?_
  simp [-BitVec.reduceAppend, decodeFields, imm12]
theorem Encoding.sd (a b : Reg) (imm : BitVec 12) : Statement (Instr.sd a b imm) := by
  refine word_ok rfl fun hw => ?_
  simp [-BitVec.reduceAppend, decodeFields, imm12]
theorem Encoding.addi (d a : Reg) (imm : BitVec 12) : Statement (Instr.addi d a imm) := by
  refine word_ok rfl fun hw => ?_
  simp [-BitVec.reduceAppend, decodeFields, decodeOpImm, imm12]
theorem Encoding.slti (d a : Reg) (imm : BitVec 12) : Statement (Instr.slti d a imm) := by
  refine word_ok rfl fun hw => ?_
  simp [-BitVec.reduceAppend, decodeFields, decodeOpImm, imm12]
theorem Encoding.sltiu (d a : Reg) (imm : BitVec 12) : Statement (Instr.sltiu d a imm) := by
  refine word_ok rfl fun hw => ?_
  simp [-BitVec.reduceAppend, decodeFields, decodeOpImm, imm12]
theorem Encoding.xori (d a : Reg) (imm : BitVec 12) : Statement (Instr.xori d a imm) := by
  refine word_ok rfl fun hw => ?_
  simp [-BitVec.reduceAppend, decodeFields, decodeOpImm, imm12]
theorem Encoding.ori (d a : Reg) (imm : BitVec 12) : Statement (Instr.ori d a imm) := by
  refine word_ok rfl fun hw => ?_
  simp [-BitVec.reduceAppend, decodeFields, decodeOpImm, imm12]
theorem Encoding.andi (d a : Reg) (imm : BitVec 12) : Statement (Instr.andi d a imm) := by
  refine word_ok rfl fun hw => ?_
  simp [-BitVec.reduceAppend, decodeFields, decodeOpImm, imm12]
theorem Encoding.slli (d a : Reg) (sh : BitVec 6) : Statement (Instr.slli d a sh) := by
  refine word_ok rfl fun hw => ?_
  simp [-BitVec.reduceAppend, decodeFields, decodeOpImm]
theorem Encoding.srli (d a : Reg) (sh : BitVec 6) : Statement (Instr.srli d a sh) := by
  refine word_ok rfl fun hw => ?_
  simp [-BitVec.reduceAppend, decodeFields, decodeOpImm]
theorem Encoding.srai (d a : Reg) (sh : BitVec 6) : Statement (Instr.srai d a sh) := by
  refine word_ok rfl fun hw => ?_
  simp [-BitVec.reduceAppend, decodeFields, decodeOpImm]
theorem Encoding.add (d a b : Reg) : Statement (Instr.add d a b) := by
  refine word_ok rfl fun hw => ?_
  simp [-BitVec.reduceAppend, decodeFields, decodeOp]
theorem Encoding.sll (d a b : Reg) : Statement (Instr.sll d a b) := by
  refine word_ok rfl fun hw => ?_
  simp [-BitVec.reduceAppend, decodeFields, decodeOp]
theorem Encoding.slt (d a b : Reg) : Statement (Instr.slt d a b) := by
  refine word_ok rfl fun hw => ?_
  simp [-BitVec.reduceAppend, decodeFields, decodeOp]
theorem Encoding.sltu (d a b : Reg) : Statement (Instr.sltu d a b) := by
  refine word_ok rfl fun hw => ?_
  simp [-BitVec.reduceAppend, decodeFields, decodeOp]
theorem Encoding.xor (d a b : Reg) : Statement (Instr.xor d a b) := by
  refine word_ok rfl fun hw => ?_
  simp [-BitVec.reduceAppend, decodeFields, decodeOp]
theorem Encoding.srl (d a b : Reg) : Statement (Instr.srl d a b) := by
  refine word_ok rfl fun hw => ?_
  simp [-BitVec.reduceAppend, decodeFields, decodeOp]
theorem Encoding.or (d a b : Reg) : Statement (Instr.or d a b) := by
  refine word_ok rfl fun hw => ?_
  simp [-BitVec.reduceAppend, decodeFields, decodeOp]
theorem Encoding.and (d a b : Reg) : Statement (Instr.and d a b) := by
  refine word_ok rfl fun hw => ?_
  simp [-BitVec.reduceAppend, decodeFields, decodeOp]
theorem Encoding.sub (d a b : Reg) : Statement (Instr.sub d a b) := by
  refine word_ok rfl fun hw => ?_
  simp [-BitVec.reduceAppend, decodeFields, decodeOp]
theorem Encoding.sra (d a b : Reg) : Statement (Instr.sra d a b) := by
  refine word_ok rfl fun hw => ?_
  simp [-BitVec.reduceAppend, decodeFields, decodeOp]
theorem Encoding.mul (d a b : Reg) : Statement (Instr.mul d a b) := by
  refine word_ok rfl fun hw => ?_
  simp [-BitVec.reduceAppend, decodeFields, decodeOp]
theorem Encoding.mulh (d a b : Reg) : Statement (Instr.mulh d a b) := by
  refine word_ok rfl fun hw => ?_
  simp [-BitVec.reduceAppend, decodeFields, decodeOp]
theorem Encoding.mulhsu (d a b : Reg) : Statement (Instr.mulhsu d a b) := by
  refine word_ok rfl fun hw => ?_
  simp [-BitVec.reduceAppend, decodeFields, decodeOp]
theorem Encoding.mulhu (d a b : Reg) : Statement (Instr.mulhu d a b) := by
  refine word_ok rfl fun hw => ?_
  simp [-BitVec.reduceAppend, decodeFields, decodeOp]
theorem Encoding.div (d a b : Reg) : Statement (Instr.div d a b) := by
  refine word_ok rfl fun hw => ?_
  simp [-BitVec.reduceAppend, decodeFields, decodeOp]
theorem Encoding.divu (d a b : Reg) : Statement (Instr.divu d a b) := by
  refine word_ok rfl fun hw => ?_
  simp [-BitVec.reduceAppend, decodeFields, decodeOp]
theorem Encoding.rem (d a b : Reg) : Statement (Instr.rem d a b) := by
  refine word_ok rfl fun hw => ?_
  simp [-BitVec.reduceAppend, decodeFields, decodeOp]
theorem Encoding.remu (d a b : Reg) : Statement (Instr.remu d a b) := by
  refine word_ok rfl fun hw => ?_
  simp [-BitVec.reduceAppend, decodeFields, decodeOp]
theorem Encoding.addiw (d a : Reg) (imm : BitVec 12) : Statement (Instr.addiw d a imm) := by
  refine word_ok rfl fun hw => ?_
  simp [-BitVec.reduceAppend, decodeFields, decodeOpImm32, imm12]
theorem Encoding.slliw (d a : Reg) (sh : BitVec 5) : Statement (Instr.slliw d a sh) := by
  refine word_ok rfl fun hw => ?_
  simp [-BitVec.reduceAppend, decodeFields, decodeOpImm32]
theorem Encoding.srliw (d a : Reg) (sh : BitVec 5) : Statement (Instr.srliw d a sh) := by
  refine word_ok rfl fun hw => ?_
  simp [-BitVec.reduceAppend, decodeFields, decodeOpImm32]
theorem Encoding.sraiw (d a : Reg) (sh : BitVec 5) : Statement (Instr.sraiw d a sh) := by
  refine word_ok rfl fun hw => ?_
  simp [-BitVec.reduceAppend, decodeFields, decodeOpImm32]
theorem Encoding.addw (d a b : Reg) : Statement (Instr.addw d a b) := by
  refine word_ok rfl fun hw => ?_
  simp [-BitVec.reduceAppend, decodeFields, decodeOp32]
theorem Encoding.sllw (d a b : Reg) : Statement (Instr.sllw d a b) := by
  refine word_ok rfl fun hw => ?_
  simp [-BitVec.reduceAppend, decodeFields, decodeOp32]
theorem Encoding.srlw (d a b : Reg) : Statement (Instr.srlw d a b) := by
  refine word_ok rfl fun hw => ?_
  simp [-BitVec.reduceAppend, decodeFields, decodeOp32]
theorem Encoding.subw (d a b : Reg) : Statement (Instr.subw d a b) := by
  refine word_ok rfl fun hw => ?_
  simp [-BitVec.reduceAppend, decodeFields, decodeOp32]
theorem Encoding.sraw (d a b : Reg) : Statement (Instr.sraw d a b) := by
  refine word_ok rfl fun hw => ?_
  simp [-BitVec.reduceAppend, decodeFields, decodeOp32]
theorem Encoding.mulw (d a b : Reg) : Statement (Instr.mulw d a b) := by
  refine word_ok rfl fun hw => ?_
  simp [-BitVec.reduceAppend, decodeFields, decodeOp32]
theorem Encoding.divw (d a b : Reg) : Statement (Instr.divw d a b) := by
  refine word_ok rfl fun hw => ?_
  simp [-BitVec.reduceAppend, decodeFields, decodeOp32]
theorem Encoding.divuw (d a b : Reg) : Statement (Instr.divuw d a b) := by
  refine word_ok rfl fun hw => ?_
  simp [-BitVec.reduceAppend, decodeFields, decodeOp32]
theorem Encoding.remw (d a b : Reg) : Statement (Instr.remw d a b) := by
  refine word_ok rfl fun hw => ?_
  simp [-BitVec.reduceAppend, decodeFields, decodeOp32]
theorem Encoding.remuw (d a b : Reg) : Statement (Instr.remuw d a b) := by
  refine word_ok rfl fun hw => ?_
  simp [-BitVec.reduceAppend, decodeFields, decodeOp32]
theorem Encoding.fence (imm : BitVec 12) (a d : Reg) : Statement (Instr.fence imm a d) := by
  refine word_ok rfl fun hw => ?_
  simp [-BitVec.reduceAppend, decodeFields, imm12]
theorem Encoding.fenceI (imm : BitVec 12) (a d : Reg) : Statement (Instr.fenceI imm a d) := by
  refine word_ok rfl fun hw => ?_
  simp [-BitVec.reduceAppend, decodeFields, imm12]
theorem Encoding.ecall : Statement (Instr.ecall) := by
  refine word_ok rfl fun hw => ?_
  simp [-BitVec.reduceAppend, decodeFields, decodeSystem]
theorem Encoding.ebreak : Statement (Instr.ebreak) := by
  refine word_ok rfl fun hw => ?_
  simp [-BitVec.reduceAppend, decodeFields, decodeSystem]
theorem Encoding.csrrw (d a : Reg) (csr : BitVec 12) : Statement (Instr.csrrw d a csr) := by
  refine word_ok rfl fun hw => ?_
  simp [-BitVec.reduceAppend, decodeFields, decodeSystem, imm12]
theorem Encoding.csrrs (d a : Reg) (csr : BitVec 12) : Statement (Instr.csrrs d a csr) := by
  refine word_ok rfl fun hw => ?_
  simp [-BitVec.reduceAppend, decodeFields, decodeSystem, imm12]
theorem Encoding.csrrc (d a : Reg) (csr : BitVec 12) : Statement (Instr.csrrc d a csr) := by
  refine word_ok rfl fun hw => ?_
  simp [-BitVec.reduceAppend, decodeFields, decodeSystem, imm12]
theorem Encoding.csrrwi (d u : Reg) (csr : BitVec 12) : Statement (Instr.csrrwi d u csr) := by
  refine word_ok rfl fun hw => ?_
  simp [-BitVec.reduceAppend, decodeFields, decodeSystem, imm12]
theorem Encoding.csrrsi (d u : Reg) (csr : BitVec 12) : Statement (Instr.csrrsi d u csr) := by
  refine word_ok rfl fun hw => ?_
  simp [-BitVec.reduceAppend, decodeFields, decodeSystem, imm12]
theorem Encoding.csrrci (d u : Reg) (csr : BitVec 12) : Statement (Instr.csrrci d u csr) := by
  refine word_ok rfl fun hw => ?_
  simp [-BitVec.reduceAppend, decodeFields, decodeSystem, imm12]
theorem Encoding.rep (count : BitVec 6) (mask : BitVec 3) (step : BitVec 2) : Statement (Instr.rep count mask step) := by
  refine word_ok rfl fun hw => ?_
  simp [-BitVec.reduceAppend, decodeFields, decodeS, hw]
theorem Encoding.bfx (d a b : Reg) : Statement (Instr.bfx d a b) := by
  refine word_ok rfl fun hw => ?_
  simp [-BitVec.reduceAppend, decodeFields, decodeS]
theorem Encoding.bfxu (d a b : Reg) : Statement (Instr.bfxu d a b) := by
  refine word_ok rfl fun hw => ?_
  simp [-BitVec.reduceAppend, decodeFields, decodeS]
theorem Encoding.bfi (d a b : Reg) : Statement (Instr.bfi d a b) := by
  refine word_ok rfl fun hw => ?_
  simp [-BitVec.reduceAppend, decodeFields, decodeS]
theorem Encoding.clz (d a : Reg) : Statement (Instr.clz d a) := by
  refine word_ok rfl fun hw => ?_
  simp [-BitVec.reduceAppend, decodeFields, decodeS]
theorem Encoding.ctz (d a : Reg) : Statement (Instr.ctz d a) := by
  refine word_ok rfl fun hw => ?_
  simp [-BitVec.reduceAppend, decodeFields, decodeS]
theorem Encoding.cpop (d a : Reg) : Statement (Instr.cpop d a) := by
  refine word_ok rfl fun hw => ?_
  simp [-BitVec.reduceAppend, decodeFields, decodeS]
theorem Encoding.rev8 (d a : Reg) : Statement (Instr.rev8 d a) := by
  refine word_ok rfl fun hw => ?_
  simp [-BitVec.reduceAppend, decodeFields, decodeS]
theorem Encoding.ldl (d a : Reg) (size : MemSize) (mode : LocMode) (u : Bool) : Statement (Instr.ldl d a size mode u) := by
  refine word_ok rfl fun hw => ?_
  simp [-BitVec.reduceAppend, decodeFields, decodeS, hw]
theorem Encoding.stl (a b : Reg) (size : MemSize) (mode : LocMode) : Statement (Instr.stl a b size mode) := by
  refine word_ok rfl fun hw => ?_
  simp [-BitVec.reduceAppend, decodeFields, decodeS, hw]
theorem Encoding.ldh (d a : Reg) (size : MemSize) (hint : Hint) (u : Bool) : Statement (Instr.ldh d a size hint u) := by
  refine word_ok rfl fun hw => ?_
  simp [-BitVec.reduceAppend, decodeFields, decodeS, hw]
theorem Encoding.sth (a b : Reg) (size : MemSize) (hint : Hint) : Statement (Instr.sth a b size hint) := by
  refine word_ok rfl fun hw => ?_
  simp [-BitVec.reduceAppend, decodeFields, decodeS, hw]
theorem Encoding.amoadd (d : BitVec 4) (b : BitVec 4) (a : BitVec 4) (dbl : Bool) (ord : AmoOrd) (scope : AmoScope) : Statement (Instr.amoadd d b a dbl ord scope) := by
  refine word_ok rfl fun hw => ?_
  simp [-BitVec.reduceAppend, decodeFields, decodeS, decodeAmo]
theorem Encoding.amoand (d : BitVec 4) (b : BitVec 4) (a : BitVec 4) (dbl : Bool) (ord : AmoOrd) (scope : AmoScope) : Statement (Instr.amoand d b a dbl ord scope) := by
  refine word_ok rfl fun hw => ?_
  simp [-BitVec.reduceAppend, decodeFields, decodeS, decodeAmo]
theorem Encoding.amoor (d : BitVec 4) (b : BitVec 4) (a : BitVec 4) (dbl : Bool) (ord : AmoOrd) (scope : AmoScope) : Statement (Instr.amoor d b a dbl ord scope) := by
  refine word_ok rfl fun hw => ?_
  simp [-BitVec.reduceAppend, decodeFields, decodeS, decodeAmo]
theorem Encoding.amoxor (d : BitVec 4) (b : BitVec 4) (a : BitVec 4) (dbl : Bool) (ord : AmoOrd) (scope : AmoScope) : Statement (Instr.amoxor d b a dbl ord scope) := by
  refine word_ok rfl fun hw => ?_
  simp [-BitVec.reduceAppend, decodeFields, decodeS, decodeAmo]
theorem Encoding.amomin (d : BitVec 4) (b : BitVec 4) (a : BitVec 4) (dbl : Bool) (ord : AmoOrd) (scope : AmoScope) : Statement (Instr.amomin d b a dbl ord scope) := by
  refine word_ok rfl fun hw => ?_
  simp [-BitVec.reduceAppend, decodeFields, decodeS, decodeAmo]
theorem Encoding.amomax (d : BitVec 4) (b : BitVec 4) (a : BitVec 4) (dbl : Bool) (ord : AmoOrd) (scope : AmoScope) : Statement (Instr.amomax d b a dbl ord scope) := by
  refine word_ok rfl fun hw => ?_
  simp [-BitVec.reduceAppend, decodeFields, decodeS, decodeAmo]
theorem Encoding.amominu (d : BitVec 4) (b : BitVec 4) (a : BitVec 4) (dbl : Bool) (ord : AmoOrd) (scope : AmoScope) : Statement (Instr.amominu d b a dbl ord scope) := by
  refine word_ok rfl fun hw => ?_
  simp [-BitVec.reduceAppend, decodeFields, decodeS, decodeAmo]
theorem Encoding.amomaxu (d : BitVec 4) (b : BitVec 4) (a : BitVec 4) (dbl : Bool) (ord : AmoOrd) (scope : AmoScope) : Statement (Instr.amomaxu d b a dbl ord scope) := by
  refine word_ok rfl fun hw => ?_
  simp [-BitVec.reduceAppend, decodeFields, decodeS, decodeAmo]
theorem Encoding.amoswap (d : BitVec 4) (b : BitVec 4) (a : BitVec 4) (dbl : Bool) (ord : AmoOrd) (scope : AmoScope) : Statement (Instr.amoswap d b a dbl ord scope) := by
  refine word_ok rfl fun hw => ?_
  simp [-BitVec.reduceAppend, decodeFields, decodeS, decodeAmo]
theorem Encoding.amocas (d : BitVec 4) (b : BitVec 4) (a : BitVec 4) (dbl : Bool) (ord : AmoOrd) (scope : AmoScope) : Statement (Instr.amocas d b a dbl ord scope) := by
  refine word_ok rfl fun hw => ?_
  simp [-BitVec.reduceAppend, decodeFields, decodeS, decodeAmo]
theorem Encoding.amodecp (d : BitVec 4) (a : BitVec 4) (dbl : Bool) (ord : AmoOrd) (scope : AmoScope) : Statement (Instr.amodecp d a dbl ord scope) := by
  refine word_ok rfl fun hw => ?_
  simp [-BitVec.reduceAppend, decodeFields, decodeS, decodeAmo, cat31]
theorem Encoding.amofadd (d : BitVec 4) (b : BitVec 4) (a : BitVec 4) (dbl : Bool) (ord : AmoOrd) (scope : AmoScope) : Statement (Instr.amofadd d b a dbl ord scope) := by
  refine word_ok rfl fun hw => ?_
  simp [-BitVec.reduceAppend, decodeFields, decodeS, decodeAmo]
theorem Encoding.fnc (scope : Scope) (cls : FenceClass) : Statement (Instr.fnc scope cls) := by
  refine word_ok rfl fun hw => ?_
  simp [-BitVec.reduceAppend, decodeFields, decodeS, hw]
theorem Encoding.ldaq (d a : Reg) (dbl : Bool) (scope : Scope) : Statement (Instr.ldaq d a dbl scope) := by
  refine word_ok rfl fun hw => ?_
  simp [-BitVec.reduceAppend, decodeFields, decodeS, hw]
theorem Encoding.strl (a b : Reg) (dbl : Bool) (scope : Scope) : Statement (Instr.strl a b dbl scope) := by
  refine word_ok rfl fun hw => ?_
  simp [-BitVec.reduceAppend, decodeFields, decodeS, hw]
theorem Encoding.l1wb (a b : Reg) (scope : Scope) : Statement (Instr.l1wb a b scope) := by
  refine word_ok rfl fun hw => ?_
  simp [-BitVec.reduceAppend, decodeFields, decodeS, hw]
theorem Encoding.l1inv (a b : Reg) (scope : Scope) : Statement (Instr.l1inv a b scope) := by
  refine word_ok rfl fun hw => ?_
  simp [-BitVec.reduceAppend, decodeFields, decodeS, hw]
theorem Encoding.boinit (a b : Reg) : Statement (Instr.boinit a b) := by
  refine word_ok rfl fun hw => ?_
  simp [-BitVec.reduceAppend, decodeFields, decodeS]
theorem Encoding.boexp (a b : Reg) : Statement (Instr.boexp a b) := by
  refine word_ok rfl fun hw => ?_
  simp [-BitVec.reduceAppend, decodeFields, decodeS]
theorem Encoding.boarr (a b : Reg) : Statement (Instr.boarr a b) := by
  refine word_ok rfl fun hw => ?_
  simp [-BitVec.reduceAppend, decodeFields, decodeS]
theorem Encoding.trecv (d a : Reg) : Statement (Instr.trecv d a) := by
  refine word_ok rfl fun hw => ?_
  simp [-BitVec.reduceAppend, decodeFields, decodeS]
theorem Encoding.tresume (a : Reg) : Statement (Instr.tresume a) := by
  refine word_ok rfl fun hw => ?_
  simp [-BitVec.reduceAppend, decodeFields, decodeS]
theorem Encoding.tkill (a : Reg) : Statement (Instr.tkill a) := by
  refine word_ok rfl fun hw => ?_
  simp [-BitVec.reduceAppend, decodeFields, decodeS]
theorem Encoding.tstep (a : Reg) : Statement (Instr.tstep a) := by
  refine word_ok rfl fun hw => ?_
  simp [-BitVec.reduceAppend, decodeFields, decodeS]
theorem Encoding.qmap (p : Reg) (ring : Bool) (out : Bool) (num : Reg) : Statement (Instr.qmap p ring out num) := by
  refine word_ok rfl fun hw => ?_
  simp [-BitVec.reduceAppend, decodeFields, decodeQ, hw]
theorem Encoding.qunmap (p : Reg) : Statement (Instr.qunmap p) := by
  refine word_ok rfl fun hw => ?_
  simp [-BitVec.reduceAppend, decodeFields, decodeQ]
theorem Encoding.qtok (p : Reg) (level : TokLevel) : Statement (Instr.qtok p level) := by
  refine word_ok rfl fun hw => ?_
  simp [-BitVec.reduceAppend, decodeFields, decodeQ]
theorem Encoding.qpeek (d p : Reg) : Statement (Instr.qpeek d p) := by
  refine word_ok rfl fun hw => ?_
  simp [-BitVec.reduceAppend, decodeFields, decodeQ]
theorem Encoding.qstat (d p : Reg) : Statement (Instr.qstat d p) := by
  refine word_ok rfl fun hw => ?_
  simp [-BitVec.reduceAppend, decodeFields, decodeQ]
theorem Encoding.qbtok (p : Reg) (level : TokLevel) (off : BitVec 12) : Statement (Instr.qbtok p level off) := by
  refine word_ok rfl fun hw => ?_
  simp [-BitVec.reduceAppend, decodeFields, decodeQ, immB]
theorem Encoding.rwaitf (h : BitVec 3) (c : Reg) : Statement (Instr.rwaitf h c) := by
  refine word_ok rfl fun hw => ?_
  simp [-BitVec.reduceAppend, decodeFields, decodeQ]
theorem Encoding.rwaite (h : BitVec 3) (c : Reg) : Statement (Instr.rwaite h c) := by
  refine word_ok rfl fun hw => ?_
  simp [-BitVec.reduceAppend, decodeFields, decodeQ]
theorem Encoding.radvc (h : BitVec 3) (c : Reg) : Statement (Instr.radvc h c) := by
  refine word_ok rfl fun hw => ?_
  simp [-BitVec.reduceAppend, decodeFields, decodeQ]
theorem Encoding.radvp (h : BitVec 3) (c : Reg) : Statement (Instr.radvp h c) := by
  refine word_ok rfl fun hw => ?_
  simp [-BitVec.reduceAppend, decodeFields, decodeQ]
theorem Encoding.rslot (d : Reg) (h : BitVec 3) (c : Reg) : Statement (Instr.rslot d h c) := by
  refine word_ok rfl fun hw => ?_
  simp [-BitVec.reduceAppend, decodeFields, decodeQ]
theorem Encoding.rseq (d : Reg) (h : BitVec 3) : Statement (Instr.rseq d h) := by
  refine word_ok rfl fun hw => ?_
  simp [-BitVec.reduceAppend, decodeFields, decodeQ]
theorem Encoding.send (m : BitVec 3) (a b : Reg) : Statement (Instr.send m a b) := by
  refine word_ok rfl fun hw => ?_
  simp [-BitVec.reduceAppend, decodeFields, decodeQ]
theorem Encoding.mrecv (d : Reg) (m : BitVec 3) : Statement (Instr.mrecv d m) := by
  refine word_ok rfl fun hw => ?_
  simp [-BitVec.reduceAppend, decodeFields, decodeQ]
theorem Encoding.mtest (d : Reg) (m : BitVec 3) : Statement (Instr.mtest d m) := by
  refine word_ok rfl fun hw => ?_
  simp [-BitVec.reduceAppend, decodeFields, decodeQ]
theorem Encoding.spawn (d a : Reg) (aff : Affinity) : Statement (Instr.spawn d a aff) := by
  refine word_ok rfl fun hw => ?_
  simp [-BitVec.reduceAppend, decodeFields, decodeQ]
theorem Encoding.tret : Statement (Instr.tret) := by
  refine word_ok rfl fun hw => ?_
  simp [-BitVec.reduceAppend, decodeFields, decodeQ]
theorem Encoding.yield : Statement (Instr.yield) := by
  refine word_ok rfl fun hw => ?_
  simp [-BitVec.reduceAppend, decodeFields, decodeQ]
theorem Encoding.waita (d a b : Reg) (dbl : Bool) : Statement (Instr.waita d a b dbl) := by
  refine word_ok rfl fun hw => ?_
  simp [-BitVec.reduceAppend, decodeFields, decodeQ]
theorem Encoding.notify (d a : Reg) (all : Bool) : Statement (Instr.notify d a all) := by
  refine word_ok rfl fun hw => ?_
  simp [-BitVec.reduceAppend, decodeFields, decodeQ]
theorem Encoding.bowait (a b : Reg) : Statement (Instr.bowait a b) := by
  refine word_ok rfl fun hw => ?_
  simp [-BitVec.reduceAppend, decodeFields, decodeQ]
theorem Encoding.reduce (v : Reg) (tree : BitVec 4) (a : Reg) : Statement (Instr.reduce v tree a) := by
  refine word_ok rfl fun hw => ?_
  simp [-BitVec.reduceAppend, decodeFields, decodeQ]
theorem Encoding.align (id : BitVec 4) : Statement (Instr.align id) := by
  refine word_ok rfl fun hw => ?_
  simp [-BitVec.reduceAppend, decodeFields, decodeQ]
theorem Encoding.ipf (a : Reg) (count : BitVec 4) : Statement (Instr.ipf a count) := by
  refine word_ok rfl fun hw => ?_
  simp [-BitVec.reduceAppend, decodeFields, decodeQ]
theorem Encoding.vadd (ty : VType) (d a b : Reg) (k : BitVec 3) : Statement (Instr.vadd ty d a b k) := by
  refine word_ok rfl fun hw => ?_
  simp [-BitVec.reduceAppend, decodeFields, decodeV_typed, decodeVTyped]
theorem Encoding.vsub (ty : VType) (d a b : Reg) (k : BitVec 3) : Statement (Instr.vsub ty d a b k) := by
  refine word_ok rfl fun hw => ?_
  simp [-BitVec.reduceAppend, decodeFields, decodeV_typed, decodeVTyped]
theorem Encoding.vmul (ty : VType) (d a b : Reg) (k : BitVec 3) : Statement (Instr.vmul ty d a b k) := by
  refine word_ok rfl fun hw => ?_
  simp [-BitVec.reduceAppend, decodeFields, decodeV_typed, decodeVTyped]
theorem Encoding.vma (ty : VType) (d a b : Reg) (k : BitVec 3) : Statement (Instr.vma ty d a b k) := by
  refine word_ok rfl fun hw => ?_
  simp [-BitVec.reduceAppend, decodeFields, decodeV_typed, decodeVTyped]
theorem Encoding.vmin (ty : VType) (d a b : Reg) (k : BitVec 3) : Statement (Instr.vmin ty d a b k) := by
  refine word_ok rfl fun hw => ?_
  simp [-BitVec.reduceAppend, decodeFields, decodeV_typed, decodeVTyped]
theorem Encoding.vmax (ty : VType) (d a b : Reg) (k : BitVec 3) : Statement (Instr.vmax ty d a b k) := by
  refine word_ok rfl fun hw => ?_
  simp [-BitVec.reduceAppend, decodeFields, decodeV_typed, decodeVTyped]
theorem Encoding.vdiv (d a b : Reg) (k : BitVec 3) : Statement (Instr.vdiv d a b k) := by
  refine word_ok rfl fun hw => ?_
  simp [-BitVec.reduceAppend, decodeFields, decodeV_f32, decodeVTyped]
theorem Encoding.vsll (ty : VType) (d a b : Reg) (k : BitVec 3) : Statement (Instr.vsll ty d a b k) := by
  refine word_ok rfl fun hw => ?_
  simp [-BitVec.reduceAppend, decodeFields, decodeV_typed, decodeVTyped, hw]
theorem Encoding.vsrl (ty : VType) (d a b : Reg) (k : BitVec 3) : Statement (Instr.vsrl ty d a b k) := by
  refine word_ok rfl fun hw => ?_
  simp [-BitVec.reduceAppend, decodeFields, decodeV_typed, decodeVTyped, hw]
theorem Encoding.vsra (ty : VType) (d a b : Reg) (k : BitVec 3) : Statement (Instr.vsra ty d a b k) := by
  refine word_ok rfl fun hw => ?_
  simp [-BitVec.reduceAppend, decodeFields, decodeV_typed, decodeVTyped, hw]
theorem Encoding.vcmp (ty : VType) (cond : Cond) (kd : BitVec 3) (a b : Reg) (k : BitVec 3) : Statement (Instr.vcmp ty cond kd a b k) := by
  refine word_ok rfl fun hw => ?_
  simp [-BitVec.reduceAppend, decodeFields, decodeV_typed, decodeVTyped, hw]
theorem Encoding.vsel (ty : VType) (d a b : Reg) (ks : BitVec 3) : Statement (Instr.vsel ty d a b ks) := by
  refine word_ok rfl fun hw => ?_
  simp [-BitVec.reduceAppend, decodeFields, decodeV_typed, decodeVTyped]
theorem Encoding.vred (ty : VType) (op : RedOp) (d a : Reg) (k : BitVec 3) : Statement (Instr.vred ty op d a k) := by
  refine word_ok rfl fun hw => ?_
  simp [-BitVec.reduceAppend, decodeFields, decodeV_typed, decodeVTyped]
theorem Encoding.vscan (ty : VType) (op : RedOp) (d a : Reg) (k : BitVec 3) : Statement (Instr.vscan ty op d a k) := by
  refine word_ok rfl fun hw => ?_
  simp [-BitVec.reduceAppend, decodeFields, decodeV_typed, decodeVTyped]
theorem Encoding.vcvt (ty : VType) (conv : Conv) (src : ElemFmt) (d a : Reg) : Statement (Instr.vcvt ty conv src d a) := by
  refine word_ok rfl fun hw => ?_
  simp [-BitVec.reduceAppend, decodeFields, decodeV_typed, decodeVTyped, hw]
theorem Encoding.vabs (ty : VType) (d a : Reg) (k : BitVec 3) : Statement (Instr.vabs ty d a k) := by
  refine word_ok rfl fun hw => ?_
  simp [-BitVec.reduceAppend, decodeFields, decodeV_typed, decodeVTyped]
theorem Encoding.vneg (ty : VType) (d a : Reg) (k : BitVec 3) : Statement (Instr.vneg ty d a k) := by
  refine word_ok rfl fun hw => ?_
  simp [-BitVec.reduceAppend, decodeFields, decodeV_typed, decodeVTyped]
theorem Encoding.vsqrt (d a : Reg) (k : BitVec 3) : Statement (Instr.vsqrt d a k) := by
  refine word_ok rfl fun hw => ?_
  simp [-BitVec.reduceAppend, decodeFields, decodeV_f32, decodeVTyped]
theorem Encoding.vrcp (d a : Reg) (k : BitVec 3) : Statement (Instr.vrcp d a k) := by
  refine word_ok rfl fun hw => ?_
  simp [-BitVec.reduceAppend, decodeFields, decodeV_f32, decodeVTyped]
theorem Encoding.vrsqrt (d a : Reg) (k : BitVec 3) : Statement (Instr.vrsqrt d a k) := by
  refine word_ok rfl fun hw => ?_
  simp [-BitVec.reduceAppend, decodeFields, decodeV_f32, decodeVTyped]
theorem Encoding.vexp2 (d a : Reg) (k : BitVec 3) : Statement (Instr.vexp2 d a k) := by
  refine word_ok rfl fun hw => ?_
  simp [-BitVec.reduceAppend, decodeFields, decodeV_f32, decodeVTyped]
theorem Encoding.vlog2 (d a : Reg) (k : BitVec 3) : Statement (Instr.vlog2 d a k) := by
  refine word_ok rfl fun hw => ?_
  simp [-BitVec.reduceAppend, decodeFields, decodeV_f32, decodeVTyped]
theorem Encoding.vsort (ty : VType) (d a : Reg) (k : BitVec 3) : Statement (Instr.vsort ty d a k) := by
  refine word_ok rfl fun hw => ?_
  simp [-BitVec.reduceAppend, decodeFields, decodeV_typed, decodeVTyped]
theorem Encoding.vtrn (ty : VType) (d a : Reg) (k : BitVec 3) : Statement (Instr.vtrn ty d a k) := by
  refine word_ok rfl fun hw => ?_
  simp [-BitVec.reduceAppend, decodeFields, decodeV_typed, decodeVTyped]
theorem Encoding.vcomp (ty : VType) (d a : Reg) (k : BitVec 3) : Statement (Instr.vcomp ty d a k) := by
  refine word_ok rfl fun hw => ?_
  simp [-BitVec.reduceAppend, decodeFields, decodeV_typed, decodeVTyped]
theorem Encoding.vexpd (ty : VType) (d a : Reg) (k : BitVec 3) : Statement (Instr.vexpd ty d a k) := by
  refine word_ok rfl fun hw => ?_
  simp [-BitVec.reduceAppend, decodeFields, decodeV_typed, decodeVTyped]
theorem Encoding.vcvtNarrow (nfmt : NarrowFmt) (conv : Conv) (wide : WideType) (d a : Reg) : Statement (Instr.vcvtNarrow nfmt conv wide d a) := by
  refine word_ok rfl fun hw => ?_
  simp [-BitVec.reduceAppend, decodeFields, decodeV, hw]
theorem Encoding.vqnt (nfmt : NarrowFmt) (conv : Conv) (wide : WideType) (d a : Reg) : Statement (Instr.vqnt nfmt conv wide d a) := by
  refine word_ok rfl fun hw => ?_
  simp [-BitVec.reduceAppend, decodeFields, decodeV, hw]
theorem Encoding.vdq (nfmt : NarrowFmt) (conv : Conv) (wide : WideType) (d a : Reg) : Statement (Instr.vdq nfmt conv wide d a) := by
  refine word_ok rfl fun hw => ?_
  simp [-BitVec.reduceAppend, decodeFields, decodeV, hw]
theorem Encoding.vshape (a b : Reg) : Statement (Instr.vshape a b) := by
  refine word_ok rfl fun hw => ?_
  simp [-BitVec.reduceAppend, decodeFields, decodeV, decodeVUntyped]
theorem Encoding.vld (v a b : Reg) (hint : Hint) (loc : Bool) : Statement (Instr.vld v a b hint loc) := by
  refine word_ok rfl fun hw => ?_
  simp [-BitVec.reduceAppend, decodeFields, decodeV, decodeVUntyped, hw]
theorem Encoding.vst (v a b : Reg) (hint : Hint) (loc : Bool) : Statement (Instr.vst v a b hint loc) := by
  refine word_ok rfl fun hw => ?_
  simp [-BitVec.reduceAppend, decodeFields, decodeV, decodeVUntyped, hw]
theorem Encoding.vldx (v a b : Reg) (hint : Hint) (loc : Bool) : Statement (Instr.vldx v a b hint loc) := by
  refine word_ok rfl fun hw => ?_
  simp [-BitVec.reduceAppend, decodeFields, decodeV, decodeVUntyped, hw]
theorem Encoding.vstx (v a b : Reg) (hint : Hint) (loc : Bool) : Statement (Instr.vstx v a b hint loc) := by
  refine word_ok rfl fun hw => ?_
  simp [-BitVec.reduceAppend, decodeFields, decodeV, decodeVUntyped, hw]
theorem Encoding.vbc (size : ElemSize) (d a : Reg) : Statement (Instr.vbc size d a) := by
  refine word_ok rfl fun hw => ?_
  simp [-BitVec.reduceAppend, decodeFields, decodeV, decodeVUntyped]
theorem Encoding.vins (size : ElemSize) (d a b : Reg) : Statement (Instr.vins size d a b) := by
  refine word_ok rfl fun hw => ?_
  simp [-BitVec.reduceAppend, decodeFields, decodeV, decodeVUntyped]
theorem Encoding.vext (size : ElemSize) (u : Bool) (d a b : Reg) : Statement (Instr.vext size u d a b) := by
  refine word_ok rfl fun hw => ?_
  simp [-BitVec.reduceAppend, decodeFields, decodeV, decodeVUntyped, hw]
theorem Encoding.vmv (d a : Reg) (k : BitVec 3) : Statement (Instr.vmv d a k) := by
  refine word_ok rfl fun hw => ?_
  simp [-BitVec.reduceAppend, decodeFields, decodeV, decodeVUntyped]
theorem Encoding.vand (d a b : Reg) (k : BitVec 3) : Statement (Instr.vand d a b k) := by
  refine word_ok rfl fun hw => ?_
  simp [-BitVec.reduceAppend, decodeFields, decodeV, decodeVUntyped]
theorem Encoding.vor (d a b : Reg) (k : BitVec 3) : Statement (Instr.vor d a b k) := by
  refine word_ok rfl fun hw => ?_
  simp [-BitVec.reduceAppend, decodeFields, decodeV, decodeVUntyped]
theorem Encoding.vxor (d a b : Reg) (k : BitVec 3) : Statement (Instr.vxor d a b k) := by
  refine word_ok rfl fun hw => ?_
  simp [-BitVec.reduceAppend, decodeFields, decodeV, decodeVUntyped]
theorem Encoding.vrot (size : ElemSize) (d a b : Reg) : Statement (Instr.vrot size d a b) := by
  refine word_ok rfl fun hw => ?_
  simp [-BitVec.reduceAppend, decodeFields, decodeV, decodeVUntyped]
theorem Encoding.vmatch (size : ElemSize) (d a b : Reg) : Statement (Instr.vmatch size d a b) := by
  refine word_ok rfl fun hw => ?_
  simp [-BitVec.reduceAppend, decodeFields, decodeV, decodeVUntyped]
theorem Encoding.kand (kd ka kb : BitVec 3) : Statement (Instr.kand kd ka kb) := by
  refine word_ok rfl fun hw => ?_
  simp [-BitVec.reduceAppend, decodeFields, decodeV, decodeVUntyped, decodeMask, hw]
theorem Encoding.kor (kd ka kb : BitVec 3) : Statement (Instr.kor kd ka kb) := by
  refine word_ok rfl fun hw => ?_
  simp [-BitVec.reduceAppend, decodeFields, decodeV, decodeVUntyped, decodeMask, hw]
theorem Encoding.kxor (kd ka kb : BitVec 3) : Statement (Instr.kxor kd ka kb) := by
  refine word_ok rfl fun hw => ?_
  simp [-BitVec.reduceAppend, decodeFields, decodeV, decodeVUntyped, decodeMask, hw]
theorem Encoding.knot (kd ka : BitVec 3) : Statement (Instr.knot kd ka) := by
  refine word_ok rfl fun hw => ?_
  simp [-BitVec.reduceAppend, decodeFields, decodeV, decodeVUntyped, decodeMask, hw]
theorem Encoding.kpop (d : Reg) (ka : BitVec 3) : Statement (Instr.kpop d ka) := by
  refine word_ok rfl fun hw => ?_
  simp [-BitVec.reduceAppend, decodeFields, decodeV, decodeVUntyped, decodeMask]
theorem Encoding.kfirst (d : Reg) (ka : BitVec 3) : Statement (Instr.kfirst d ka) := by
  refine word_ok rfl fun hw => ?_
  simp [-BitVec.reduceAppend, decodeFields, decodeV, decodeVUntyped, decodeMask]
theorem Encoding.kmv (kd ka : BitVec 3) : Statement (Instr.kmv kd ka) := by
  refine word_ok rfl fun hw => ?_
  simp [-BitVec.reduceAppend, decodeFields, decodeV, decodeVUntyped, decodeMask, hw]
theorem Encoding.klen (kd : BitVec 3) (a : Reg) : Statement (Instr.klen kd a) := by
  refine word_ok rfl fun hw => ?_
  simp [-BitVec.reduceAppend, decodeFields, decodeV, decodeVUntyped, decodeMask, hw]
theorem Encoding.tcfg (a : Reg) : Statement (Instr.tcfg a) := by
  refine word_ok rfl fun hw => ?_
  simp [-BitVec.reduceAppend, decodeFields, decodeT]
theorem Encoding.tzero (acc : Reg) : Statement (Instr.tzero acc) := by
  refine word_ok rfl fun hw => ?_
  simp [-BitVec.reduceAppend, decodeFields, decodeT]
theorem Encoding.twait (acc : Reg) : Statement (Instr.twait acc) := by
  refine word_ok rfl fun hw => ?_
  simp [-BitVec.reduceAppend, decodeFields, decodeT]
theorem Encoding.tmma (ty : TileType) (ga gb : Bool) (acc a b : Reg) : Statement (Instr.tmma ty ga gb acc a b) := by
  refine word_ok rfl fun hw => ?_
  simp [-BitVec.reduceAppend, decodeFields, decodeT]
theorem Encoding.tmmac (ty : TileType) (gb : Bool) (acc src b : Reg) : Statement (Instr.tmmac ty gb acc src b) := by
  refine word_ok rfl fun hw => ?_
  simp [-BitVec.reduceAppend, decodeFields, decodeT]
theorem Encoding.tlda (ty : TileType) (acc a b : Reg) : Statement (Instr.tlda ty acc a b) := by
  refine word_ok rfl fun hw => ?_
  simp [-BitVec.reduceAppend, decodeFields, decodeT, hw]
theorem Encoding.tsta (ty : TileType) (acc a b : Reg) : Statement (Instr.tsta ty acc a b) := by
  refine word_ok rfl fun hw => ?_
  simp [-BitVec.reduceAppend, decodeFields, decodeT, hw]
theorem Encoding.tmov (acc src : Reg) : Statement (Instr.tmov acc src) := by
  refine word_ok rfl fun hw => ?_
  simp [-BitVec.reduceAppend, decodeFields, decodeT]
theorem Encoding.put (d a b rc : Reg) (ntf : Bool) : Statement (Instr.put d a b rc ntf) := by
  refine word_ok rfl fun hw => ?_
  simp [-BitVec.reduceAppend, decodeFields, decodeT]
theorem Encoding.get (d a b rc : Reg) (ntf : Bool) : Statement (Instr.get d a b rc ntf) := by
  refine word_ok rfl fun hw => ?_
  simp [-BitVec.reduceAppend, decodeFields, decodeT]
theorem Encoding.putm (d a b rc : Reg) : Statement (Instr.putm d a b rc) := by
  refine word_ok rfl fun hw => ?_
  simp [-BitVec.reduceAppend, decodeFields, decodeT]
theorem Encoding.getf (d a b rc : Reg) (ntf : Bool) : Statement (Instr.getf d a b rc ntf) := by
  refine word_ok rfl fun hw => ?_
  simp [-BitVec.reduceAppend, decodeFields, decodeT]
theorem Encoding.gath (d a b rc : Reg) : Statement (Instr.gath d a b rc) := by
  refine word_ok rfl fun hw => ?_
  simp [-BitVec.reduceAppend, decodeFields, decodeT]
theorem Encoding.kscan (d a b rc : Reg) : Statement (Instr.kscan d a b rc) := by
  refine word_ok rfl fun hw => ?_
  simp [-BitVec.reduceAppend, decodeFields, decodeT]
theorem Encoding.racfg (a b : Reg) : Statement (Instr.racfg a b) := by
  refine word_ok rfl fun hw => ?_
  simp [-BitVec.reduceAppend, decodeFields, decodeT]
theorem Encoding.rastart (qi qv : Reg) : Statement (Instr.rastart qi qv) := by
  refine word_ok rfl fun hw => ?_
  simp [-BitVec.reduceAppend, decodeFields, decodeT]
theorem Encoding.rastat (d : Reg) : Statement (Instr.rastat d) := by
  refine word_ok rfl fun hw => ?_
  simp [-BitVec.reduceAppend, decodeFields, decodeT]
theorem Encoding.crcfg (a : Reg) : Statement (Instr.crcfg a) := by
  refine word_ok rfl fun hw => ?_
  simp [-BitVec.reduceAppend, decodeFields, decodeT]
theorem Encoding.crgo (q : Reg) : Statement (Instr.crgo q) := by
  refine word_ok rfl fun hw => ?_
  simp [-BitVec.reduceAppend, decodeFields, decodeT]
theorem Encoding.crstat (d : Reg) : Statement (Instr.crstat d) := by
  refine word_ok rfl fun hw => ?_
  simp [-BitVec.reduceAppend, decodeFields, decodeT]
theorem Encoding.pft (hint : Hint) (a b : Reg) : Statement (Instr.pft hint a b) := by
  refine word_ok rfl fun hw => ?_
  simp [-BitVec.reduceAppend, decodeFields, decodeT, hw]
theorem Encoding.cwb (a b : Reg) : Statement (Instr.cwb a b) := by
  refine word_ok rfl fun hw => ?_
  simp [-BitVec.reduceAppend, decodeFields, decodeT]
theorem Encoding.cinv (a b : Reg) : Statement (Instr.cinv a b) := by
  refine word_ok rfl fun hw => ?_
  simp [-BitVec.reduceAppend, decodeFields, decodeT]
theorem Encoding.l1dFill (m : Nat) : Statement (Instr.l1dFill m) := none_ok rfl
theorem Encoding.mscRequest (m : Nat) : Statement (Instr.mscRequest m) := none_ok rfl
theorem Encoding.stackReply (m : Nat) : Statement (Instr.stackReply m) := none_ok rfl
theorem Encoding.writebackAtHome (m : Nat) : Statement (Instr.writebackAtHome m) := none_ok rfl
theorem Encoding.writebackAck (m : Nat) : Statement (Instr.writebackAck m) := none_ok rfl
theorem Encoding.atomicAtHome (m : Nat) : Statement (Instr.atomicAtHome m) := none_ok rfl
theorem Encoding.syncAccessAtHome (m : Nat) : Statement (Instr.syncAccessAtHome m) := none_ok rfl
theorem Encoding.waitaAtHome (m : Nat) : Statement (Instr.waitaAtHome m) := none_ok rfl
theorem Encoding.notifyAtHome (m : Nat) : Statement (Instr.notifyAtHome m) := none_ok rfl
theorem Encoding.fenceProbe (m : Nat) : Statement (Instr.fenceProbe m) := none_ok rfl
theorem Encoding.echoArrival (m : Nat) : Statement (Instr.echoArrival m) := none_ok rfl
theorem Encoding.vaultAccess (m : Nat) : Statement (Instr.vaultAccess m) := none_ok rfl
theorem Encoding.remoteScratchpadAccess (m : Nat) : Statement (Instr.remoteScratchpadAccess m) := none_ok rfl
theorem Encoding.deviceAccess (m : Nat) : Statement (Instr.deviceAccess m) := none_ok rfl
theorem Encoding.sendDelivery (m : Nat) : Statement (Instr.sendDelivery m) := none_ok rfl
theorem Encoding.sendRetry (core : Fin 1280) (slot : Fin 16) : Statement (Instr.sendRetry core slot) := none_ok rfl
theorem Encoding.alignTimeout (core : Fin 1280) (slot : Fin 16) : Statement (Instr.alignTimeout core slot) := none_ok rfl
theorem Encoding.yieldExpiry (core : Fin 1280) (slot : Fin 16) : Statement (Instr.yieldExpiry core slot) := none_ok rfl
theorem Encoding.ringCellWrite (m : Nat) : Statement (Instr.ringCellWrite m) := none_ok rfl
theorem Encoding.headMessage (m : Nat) : Statement (Instr.headMessage m) := none_ok rfl
theorem Encoding.ringClaim (m : Nat) : Statement (Instr.ringClaim m) := none_ok rfl
theorem Encoding.boomReadAhead (ring : Nat) : Statement (Instr.boomReadAhead ring) := none_ok rfl
theorem Encoding.lbClone (ring : Nat) (core : Fin 1280) : Statement (Instr.lbClone ring core) := none_ok rfl
theorem Encoding.lbWithdraw (ring : Nat) : Statement (Instr.lbWithdraw ring) := none_ok rfl
theorem Encoding.cruiserEmit (cluster : Fin 320) : Statement (Instr.cruiserEmit cluster) := none_ok rfl
theorem Encoding.accelLookahead (cluster : Fin 320) : Statement (Instr.accelLookahead cluster) := none_ok rfl
theorem Encoding.accelDeliver (cluster : Fin 320) : Statement (Instr.accelDeliver cluster) := none_ok rfl
theorem Encoding.gatherRequest (core : Fin 1280) (cmd : Nat) (elem : Nat) : Statement (Instr.gatherRequest core cmd elem) := none_ok rfl
theorem Encoding.gatherLand (core : Fin 1280) (cmd : Nat) : Statement (Instr.gatherLand core cmd) := none_ok rfl
theorem Encoding.copyPacketLand (core : Fin 1280) (cmd : Nat) (pkt : Nat) : Statement (Instr.copyPacketLand core cmd pkt) := none_ok rfl
theorem Encoding.notifyWordWrite (core : Fin 1280) (cmd : Nat) : Statement (Instr.notifyWordWrite core cmd) := none_ok rfl
theorem Encoding.scanLine (core : Fin 1280) (cmd : Nat) (channel : Nat) : Statement (Instr.scanLine core cmd channel) := none_ok rfl
theorem Encoding.scanComplete (core : Fin 1280) (cmd : Nat) : Statement (Instr.scanComplete core cmd) := none_ok rfl
theorem Encoding.prefetchLine (core : Fin 1280) (cmd : Nat) (line : Nat) : Statement (Instr.prefetchLine core cmd line) := none_ok rfl
theorem Encoding.maintenanceLine (core : Fin 1280) (cmd : Nat) (line : Nat) : Statement (Instr.maintenanceLine core cmd line) := none_ok rfl
theorem Encoding.tileStep (cluster : Fin 320) (sub : Fin 4) : Statement (Instr.tileStep cluster sub) := none_ok rfl
theorem Encoding.tileStepFault (cluster : Fin 320) (sub : Fin 4) : Statement (Instr.tileStepFault cluster sub) := none_ok rfl
theorem Encoding.vaultRefusal (cluster : Fin 320) (sub : Fin 4) : Statement (Instr.vaultRefusal cluster sub) := none_ok rfl
theorem Encoding.engineFault (core : Fin 1280) (cmd : Nat) : Statement (Instr.engineFault core cmd) := none_ok rfl
theorem Encoding.tableWalk (core : Fin 1280) (va : Nat) (write : Bool) : Statement (Instr.tableWalk core va write) := none_ok rfl
theorem Encoding.speculativeConfirm (cluster : Fin 320) : Statement (Instr.speculativeConfirm cluster) := none_ok rfl
theorem Encoding.instructionFetchMiss (m : Nat) : Statement (Instr.instructionFetchMiss m) := none_ok rfl
theorem Encoding.fetchBlock (cluster : Fin 320) (block : Nat) : Statement (Instr.fetchBlock cluster block) := none_ok rfl
theorem Encoding.packetSuspect (m : Nat) (die : Fin 4) (router : RouterInput) : Statement (Instr.packetSuspect m die router) := none_ok rfl
theorem Encoding.tokenCapture (m : Nat) (domain : Fin 5) : Statement (Instr.tokenCapture m domain) := none_ok rfl
theorem Encoding.skidHandover (m : Nat) (domain : Fin 5) : Statement (Instr.skidHandover m domain) := none_ok rfl
theorem Encoding.reduceInput (m : Nat) : Statement (Instr.reduceInput m) := none_ok rfl
theorem Encoding.routerForward (die : Fin 4) (tree : Fin 16) (router : Fin 80) : Statement (Instr.routerForward die tree router) := none_ok rfl
theorem Encoding.redLimit (die : Fin 4) (tree : Fin 16) (router : Fin 80) : Statement (Instr.redLimit die tree router) := none_ok rfl
theorem Encoding.rootDelivery (die : Fin 4) (tree : Fin 16) : Statement (Instr.rootDelivery die tree) := none_ok rfl
theorem Encoding.takeEntry (ctx : Fin 64) : Statement (Instr.takeEntry ctx) := none_ok rfl
theorem Encoding.packetToDie (ctx : Fin 64) : Statement (Instr.packetToDie ctx) := none_ok rfl
theorem Encoding.dieSteal (thief : Fin 4) (east : Bool) : Statement (Instr.dieSteal thief east) := none_ok rfl
theorem Encoding.dispatch (core : Fin 1280) : Statement (Instr.dispatch core) := none_ok rfl
theorem Encoding.taskSteal (thief victim : Fin 1280) : Statement (Instr.taskSteal thief victim) := none_ok rfl
theorem Encoding.taskMigrate (core : Fin 1280) (entry : Nat) : Statement (Instr.taskMigrate core entry) := none_ok rfl
theorem Encoding.graphStart (ctx : Fin 64) : Statement (Instr.graphStart ctx) := none_ok rfl
theorem Encoding.nodeStart (ctx : Fin 64) (graph : Nat) (node : Nat) : Statement (Instr.nodeStart ctx graph node) := none_ok rfl
theorem Encoding.launchNodeComplete (ctx : Fin 64) (graph : Nat) (node : Nat) : Statement (Instr.launchNodeComplete ctx graph node) := none_ok rfl
theorem Encoding.loopPassEnd (ctx : Fin 64) (graph : Nat) (node : Nat) : Statement (Instr.loopPassEnd ctx graph node) := none_ok rfl
theorem Encoding.completionObjectWrite (ctx : Fin 64) (graph : Nat) (node : Nat) : Statement (Instr.completionObjectWrite ctx graph node) := none_ok rfl
theorem Encoding.preemptRequest (ctx : Fin 64) : Statement (Instr.preemptRequest ctx) := none_ok rfl
theorem Encoding.contextSave (ctx : Fin 64) : Statement (Instr.contextSave ctx) := none_ok rfl
theorem Encoding.resumeRequest (ctx : Fin 64) (place : List (Fin 1280)) : Statement (Instr.resumeRequest ctx place) := none_ok rfl
theorem Encoding.opaqueSave (core : Fin 1280) : Statement (Instr.opaqueSave core) := none_ok rfl
theorem Encoding.kamgorAnswer (core : Fin 1280) (repaired : Bool) : Statement (Instr.kamgorAnswer core repaired) := none_ok rfl
theorem Encoding.supervisorTrap (core : Fin 1280) : Statement (Instr.supervisorTrap core) := none_ok rfl
theorem Encoding.lqtailWrite (ctx : Fin 64) (v : RegWord) : Statement (Instr.lqtailWrite ctx v) := none_ok rfl
theorem Encoding.lqcfgWrite (ctx : Fin 64) (v : RegWord) : Statement (Instr.lqcfgWrite ctx v) := none_ok rfl
theorem Encoding.registerWrite (r : DevReg) (v : RegWord) : Statement (Instr.registerWrite r v) := none_ok rfl
theorem Encoding.create : Statement (Instr.create) := none_ok rfl
theorem Encoding.endCtx : Statement (Instr.endCtx) := none_ok rfl
theorem Encoding.map : Statement (Instr.map) := none_ok rfl
theorem Encoding.unmap : Statement (Instr.unmap) := none_ok rfl
theorem Encoding.windows : Statement (Instr.windows) := none_ok rfl
theorem Encoding.tree : Statement (Instr.tree) := none_ok rfl
theorem Encoding.attest : Statement (Instr.attest) := none_ok rfl
theorem Encoding.hostApertureAccess (aperture : Fin 16) (off : Nat) (size : Nat) (write : Option HostOp) : Statement (Instr.hostApertureAccess aperture off size write) := none_ok rfl
theorem Encoding.hostRequest (m : Nat) : Statement (Instr.hostRequest m) := none_ok rfl
theorem Encoding.peerRequest (m : Nat) : Statement (Instr.peerRequest m) := none_ok rfl
theorem Encoding.peerLinkFail (port : Fin 16) : Statement (Instr.peerLinkFail port) := none_ok rfl
theorem Encoding.extentRelease (extent : Fin 1024) (forced : Bool) : Statement (Instr.extentRelease extent forced) := none_ok rfl
theorem Encoding.accessTableWrite (target : AclTarget) (entry : Fin 64) (w0 w1 : Word) : Statement (Instr.accessTableWrite target entry w0 w1) := none_ok rfl
theorem Encoding.sliceRetire (tile dest : Fin 320) : Statement (Instr.sliceRetire tile dest) := none_ok rfl
theorem Encoding.stubForward (m : Nat) : Statement (Instr.stubForward m) := none_ok rfl
theorem Encoding.hotRowCapture (stack : Fin 12) (row : List Nat) : Statement (Instr.hotRowCapture stack row) := none_ok rfl
theorem Encoding.captureWindowEnd : Statement (Instr.captureWindowEnd) := none_ok rfl
theorem Encoding.majCopyAtStack (m : Nat) : Statement (Instr.majCopyAtStack m) := none_ok rfl
theorem Encoding.majReply (m : Nat) : Statement (Instr.majReply m) := none_ok rfl
theorem Encoding.majReadReply (m : Nat) : Statement (Instr.majReadReply m) := none_ok rfl
theorem Encoding.stackOffline (stack : Fin 12) : Statement (Instr.stackOffline stack) := none_ok rfl
theorem Encoding.stackCatchup (stack : Fin 12) : Statement (Instr.stackCatchup stack) := none_ok rfl
theorem Encoding.stackFailed (stack : Fin 12) : Statement (Instr.stackFailed stack) := none_ok rfl
theorem Encoding.catchupGranule (stack : Fin 12) : Statement (Instr.catchupGranule stack) := none_ok rfl
theorem Encoding.scrubVisit (triple : Fin 4) (granule : Nat) : Statement (Instr.scrubVisit triple granule) := none_ok rfl
theorem Encoding.dfreqTgtWrite (die : Fin 4) (v : Word) : Statement (Instr.dfreqTgtWrite die v) := none_ok rfl
theorem Encoding.pllLock (die : Fin 4) : Statement (Instr.pllLock die) := none_ok rfl
theorem Encoding.dfswWrite (die : Fin 4) (v : Word) : Statement (Instr.dfswWrite die v) := none_ok rfl
theorem Encoding.freqSwitch (die : Fin 4) : Statement (Instr.freqSwitch die) := none_ok rfl
theorem Encoding.crossingStallEnd (die : Fin 4) : Statement (Instr.crossingStallEnd die) := none_ok rfl
theorem Encoding.computeDieReset (die : DieReset) : Statement (Instr.computeDieReset die) := none_ok rfl
theorem Encoding.dieResetRelease (die : Fin 4) : Statement (Instr.dieResetRelease die) := none_ok rfl
theorem Encoding.packageReset : Statement (Instr.packageReset) := none_ok rfl
theorem Encoding.bootImageCheck (image : List Byte) : Statement (Instr.bootImageCheck image) := none_ok rfl
theorem Encoding.recoveryImage (image : List Byte) : Statement (Instr.recoveryImage image) := none_ok rfl
theorem Encoding.linkModuleFail (link : Fin 8) (module : Fin 12) : Statement (Instr.linkModuleFail link module) := none_ok rfl
theorem Encoding.illegalInstruction (word : BitVec 32) : Statement (Instr.illegalInstruction word) := none_ok rfl
theorem Encoding.replyToCore (m : Nat) : Statement (Instr.replyToCore m) := none_ok rfl
theorem Encoding.memoryError (pa : Nat) (correctable : Bool) (copy : Option (Fin 12)) : Statement (Instr.memoryError pa correctable copy) := none_ok rfl
theorem Encoding.peerLinkUp (port : Fin 16) : Statement (Instr.peerLinkUp port) := none_ok rfl
theorem Encoding.extentGrant (extent : Fin 1024) (size : Nat) : Statement (Instr.extentGrant extent size) := none_ok rfl

end Sys2Proof.Laws
end

