-- ==== Sys2Proof/Tests/Slice0.lean ====
section
/-! SUPPORT. Tests: well-formedness, decoding, and single steps on small states. -/

-- One declaration at a time, so that the package as one text stays within the memory of a check.
set_option Elab.async false

namespace Sys2Proof.Tests

open Sys2Proof Sys2Proof.Machine

/-! ## Well-formedness -/

/-- One ill-formed term for each check of `Instr.wf`. -/
def illFormed : List Instr := [
  .rep 4#6 1#3 3#2, .ldl 5#5 6#5 .d .own true, .ldh 5#5 6#5 .d .norm true, .fnc .thr .all, .ldaq 5#5 6#5 true .thr,
  .strl 5#5 6#5 true .thr, .l1wb 5#5 6#5 .thr, .l1inv 5#5 6#5 .thr, .qmap 24#5 true false 8#5, .vsll .f32 1#5 2#5 3#5 0#3,
  .vsrl .bf16 1#5 2#5 3#5 0#3, .vsra .f16 1#5 2#5 3#5 0#3, .vcmp .f32 .eq 0#3 1#5 2#5 0#3, .vcvt .f32 .rne .f32 1#5 2#5]

/-- See `illFormed`. -/
def illFormedToo : List Instr := [
  .vcvt .i32 .rnen .f32 1#5 2#5, .vcvtNarrow .e2m1 .rnen .f32 1#5 2#5, .vqnt .e3m2 .rsn .f32 1#5 2#5,
  .vld 1#5 5#5 6#5 .keep true, .vst 1#5 5#5 6#5 .strm true, .vldx 1#5 5#5 6#5 .noal true, .vstx 1#5 5#5 6#5 .keep true,
  .vext .b64 true 5#5 1#5 6#5, .kand 0#3 1#3 2#3, .kor 0#3 1#3 2#3, .kxor 0#3 1#3 2#3, .knot 0#3 1#3, .kmv 0#3 1#3,
  .klen 0#3 5#5, .tlda .q4g 0#5 5#5 6#5, .tsta .q8g 0#5 5#5 6#5, .pft .noal 5#5 6#5]

theorem test_ill_formed_refused : (illFormed ++ illFormedToo).all (fun i => !i.wf) = true := by decide +kernel

/-- The decoder refuses the word that an ill-formed term would have. -/
theorem test_ill_formed_not_decoded :
    (illFormed ++ illFormedToo).all (fun i => match encode i with
      | some w => match decode w with
        | .error _ => true
        | .ok _ => false
      | none => true) = true := by decide +kernel

/-! ## Decoding -/

/-- Every word of a list decodes to its instruction. -/
def decodesTo (l : List (Nat × Instr)) : Bool := l.all fun p => decodeTableWord 32 p.1 == some p.2

/-- Words of the scalar rows, each assembled from the match value and the fields that spec/opcode_table.json gives its row
(R60 to R71). -/
theorem test_decode_scalar : decodesTo [
    (0xA95314B7, .lui 9#5 0xa9531#20),
    (0xA9531497, .auipc 9#5 0xa9531#20),
    (0xB87344EF, .jal 9#5 0x9a5c3#20),
    (0xA95A04E7, .jalr 9#5 0x14#5 0xa95#12),
    (0xD2EA0563, .beq 0x14#5 0xe#5 0xa95#12),
    (0xD2EA1563, .bne 0x14#5 0xe#5 0xa95#12),
    (0xD2EA4563, .blt 0x14#5 0xe#5 0xa95#12),
    (0xD2EA5563, .bge 0x14#5 0xe#5 0xa95#12),
    (0xD2EA6563, .bltu 0x14#5 0xe#5 0xa95#12),
    (0xD2EA7563, .bgeu 0x14#5 0xe#5 0xa95#12),
    (0xA95A0483, .lb 9#5 0x14#5 0xa95#12),
    (0xA95A1483, .lh 9#5 0x14#5 0xa95#12),
    (0xA95A2483, .lw 9#5 0x14#5 0xa95#12),
    (0xA95A3483, .ld 9#5 0x14#5 0xa95#12),
    (0xA95A4483, .lbu 9#5 0x14#5 0xa95#12),
    (0xA95A5483, .lhu 9#5 0x14#5 0xa95#12),
    (0xA95A6483, .lwu 9#5 0x14#5 0xa95#12),
    (0xA8EA0AA3, .sb 0x14#5 0xe#5 0xa95#12),
    (0xA8EA1AA3, .sh 0x14#5 0xe#5 0xa95#12),
    (0xA8EA2AA3, .sw 0x14#5 0xe#5 0xa95#12),
    (0xA8EA3AA3, .sd 0x14#5 0xe#5 0xa95#12),
    (0xA95A0493, .addi 9#5 0x14#5 0xa95#12),
    (0xA95A2493, .slti 9#5 0x14#5 0xa95#12),
    (0xA95A3493, .sltiu 9#5 0x14#5 0xa95#12),
    (0xA95A4493, .xori 9#5 0x14#5 0xa95#12),
    (0xA95A6493, .ori 9#5 0x14#5 0xa95#12),
    (0xA95A7493, .andi 9#5 0x14#5 0xa95#12),
    (0x02BA1493, .slli 9#5 0x14#5 0x2b#6),
    (0x02BA5493, .srli 9#5 0x14#5 0x2b#6),
    (0x42BA5493, .srai 9#5 0x14#5 0x2b#6)] = true := by decide +kernel

/-- Words of the register rows, each assembled from the match value and the fields that spec/opcode_table.json gives its row
(R60 to R71). -/
theorem test_decode_register : decodesTo [
    (0x00EA04B3, .add 9#5 0x14#5 0xe#5),
    (0x00EA14B3, .sll 9#5 0x14#5 0xe#5),
    (0x00EA24B3, .slt 9#5 0x14#5 0xe#5),
    (0x00EA34B3, .sltu 9#5 0x14#5 0xe#5),
    (0x00EA44B3, .xor 9#5 0x14#5 0xe#5),
    (0x00EA54B3, .srl 9#5 0x14#5 0xe#5),
    (0x00EA64B3, .or 9#5 0x14#5 0xe#5),
    (0x00EA74B3, .and 9#5 0x14#5 0xe#5),
    (0x40EA04B3, .sub 9#5 0x14#5 0xe#5),
    (0x40EA54B3, .sra 9#5 0x14#5 0xe#5),
    (0x02EA04B3, .mul 9#5 0x14#5 0xe#5),
    (0x02EA14B3, .mulh 9#5 0x14#5 0xe#5),
    (0x02EA24B3, .mulhsu 9#5 0x14#5 0xe#5),
    (0x02EA34B3, .mulhu 9#5 0x14#5 0xe#5),
    (0x02EA44B3, .div 9#5 0x14#5 0xe#5),
    (0x02EA54B3, .divu 9#5 0x14#5 0xe#5),
    (0x02EA64B3, .rem 9#5 0x14#5 0xe#5),
    (0x02EA74B3, .remu 9#5 0x14#5 0xe#5),
    (0xA95A049B, .addiw 9#5 0x14#5 0xa95#12),
    (0x00BA149B, .slliw 9#5 0x14#5 0xb#5),
    (0x00BA549B, .srliw 9#5 0x14#5 0xb#5),
    (0x40BA549B, .sraiw 9#5 0x14#5 0xb#5),
    (0x00EA04BB, .addw 9#5 0x14#5 0xe#5),
    (0x00EA14BB, .sllw 9#5 0x14#5 0xe#5),
    (0x00EA54BB, .srlw 9#5 0x14#5 0xe#5),
    (0x40EA04BB, .subw 9#5 0x14#5 0xe#5),
    (0x40EA54BB, .sraw 9#5 0x14#5 0xe#5),
    (0x02EA04BB, .mulw 9#5 0x14#5 0xe#5),
    (0x02EA44BB, .divw 9#5 0x14#5 0xe#5),
    (0x02EA54BB, .divuw 9#5 0x14#5 0xe#5),
    (0x02EA64BB, .remw 9#5 0x14#5 0xe#5),
    (0x02EA74BB, .remuw 9#5 0x14#5 0xe#5)] = true := by decide +kernel

/-- Words of the system rows, each assembled from the match value and the fields that spec/opcode_table.json gives its row
(R60 to R71). -/
theorem test_decode_system : decodesTo [
    (0xA95A048F, .fence 0xa95#12 0x14#5 9#5),
    (0xA95A148F, .fenceI 0xa95#12 0x14#5 9#5),
    (0x00000073, .ecall),
    (0x00100073, .ebreak),
    (0xCDBA14F3, .csrrw 9#5 0x14#5 0xcdb#12),
    (0xCDBA24F3, .csrrs 9#5 0x14#5 0xcdb#12),
    (0xCDBA34F3, .csrrc 9#5 0x14#5 0xcdb#12),
    (0xCDB8D4F3, .csrrwi 9#5 0x11#5 0xcdb#12),
    (0xCDB8E4F3, .csrrsi 9#5 0x11#5 0xcdb#12),
    (0xCDB8F4F3, .csrrci 9#5 0x11#5 0xcdb#12),
    (0xAAC0007B, .rep 0x2a#6 5#3 2#2),
    (0x00EA14FB, .bfx 9#5 0x14#5 0xe#5),
    (0x02EA14FB, .bfxu 9#5 0x14#5 0xe#5),
    (0x04EA14FB, .bfi 9#5 0x14#5 0xe#5),
    (0x000A24FB, .clz 9#5 0x14#5),
    (0x020A24FB, .ctz 9#5 0x14#5),
    (0x040A24FB, .cpop 9#5 0x14#5),
    (0x060A24FB, .rev8 9#5 0x14#5)] = true := by decide +kernel

/-- Words of the access rows, each assembled from the match value and the fields that spec/opcode_table.json gives its row
(R60 to R71). -/
theorem test_decode_access : decodesTo [
    (0x260A34FB, .ldl 9#5 0x14#5 .w .csel true),
    (0x64EA307B, .stl 0x14#5 0xe#5 .w .csel),
    (0xA60A34FB, .ldh 9#5 0x14#5 .w .keep true),
    (0xE4EA307B, .sth 0x14#5 0xe#5 .w .keep),
    (0x0AF34CFB, .amoadd 9#4 0xe#4 6#4 true .relWk1 .die),
    (0x1AF34CFB, .amoand 9#4 0xe#4 6#4 true .relWk1 .die),
    (0x2AF34CFB, .amoor 9#4 0xe#4 6#4 true .relWk1 .die),
    (0x3AF34CFB, .amoxor 9#4 0xe#4 6#4 true .relWk1 .die),
    (0x4AF34CFB, .amomin 9#4 0xe#4 6#4 true .relWk1 .die),
    (0x5AF34CFB, .amomax 9#4 0xe#4 6#4 true .relWk1 .die),
    (0x6AF34CFB, .amominu 9#4 0xe#4 6#4 true .relWk1 .die),
    (0x7AF34CFB, .amomaxu 9#4 0xe#4 6#4 true .relWk1 .die),
    (0x8AF34CFB, .amoswap 9#4 0xe#4 6#4 true .relWk1 .die),
    (0x9AF34CFB, .amocas 9#4 0xe#4 6#4 true .relWk1 .die),
    (0xAA834CFB, .amodecp 9#4 6#4 true .relWk1 .die),
    (0xBAF34CFB, .amofadd 9#4 0xe#4 6#4 true .relWk1 .die),
    (0x0830507B, .fnc .pkg .mem),
    (0x380A54FB, .ldaq 9#5 0x14#5 true .pkg)] = true := by decide +kernel

/-- Words of the order rows, each assembled from the match value and the fields that spec/opcode_table.json gives its row
(R60 to R71). -/
theorem test_decode_order : decodesTo [
    (0x58EA507B, .strl 0x14#5 0xe#5 true .pkg),
    (0x68EA507B, .l1wb 0x14#5 0xe#5 .pkg),
    (0x88EA507B, .l1inv 0x14#5 0xe#5 .pkg),
    (0x00EA607B, .boinit 0x14#5 0xe#5),
    (0x02EA607B, .boexp 0x14#5 0xe#5),
    (0x04EA607B, .boarr 0x14#5 0xe#5),
    (0x000A74FB, .trecv 9#5 0x14#5),
    (0x020A707B, .tresume 0x14#5),
    (0x040A707B, .tkill 0x14#5),
    (0x060A707B, .tstep 0x14#5),
    (0x0C010C0B, .qmap 0x18#5 true true 2#5),
    (0x10000C0B, .qunmap 0x18#5),
    (0x20200C0B, .qtok 0x18#5 .end2),
    (0x300C048B, .qpeek 9#5 0x18#5)] = true := by decide +kernel

/-- Words of the queue rows, each assembled from the match value and the fields that spec/opcode_table.json gives its row
(R60 to R71). -/
theorem test_decode_queue : decodesTo [
    (0x400C048B, .qstat 9#5 0x18#5),
    (0xD22C150B, .qbtok 0x18#5 .end2 0xa95#12),
    (0x0073200B, .rwaitf 6#3 7#5),
    (0x1073200B, .rwaite 6#3 7#5),
    (0x2073200B, .radvc 6#3 7#5),
    (0x3073200B, .radvp 6#3 7#5),
    (0x4073248B, .rslot 9#5 6#3 7#5),
    (0x5003248B, .rseq 9#5 6#3),
    (0x00EA318B, .send 3#3 0x14#5 0xe#5),
    (0x0201B48B, .mrecv 9#5 3#3),
    (0x0401B48B, .mtest 9#5 3#3),
    (0x060A448B, .spawn 9#5 0x14#5 .die),
    (0x1000400B, .tret),
    (0x2000400B, .yield),
    (0x08EA548B, .waita 9#5 0x14#5 0xe#5 true),
    (0x140A548B, .notify 9#5 0x14#5 true),
    (0x20EA500B, .bowait 0x14#5 0xe#5),
    (0x009A658B, .reduce 0xb#5 9#4 0x14#5),
    (0x00B0700B, .align 0xb#4),
    (0x10AA700B, .ipf 0x14#5 0xa#4),
    (0x0AEA54AB, .vadd .i16 9#5 0x14#5 0xe#5 5#3),
    (0x1AEA54AB, .vsub .i16 9#5 0x14#5 0xe#5 5#3),
    (0x2AEA54AB, .vmul .i16 9#5 0x14#5 0xe#5 5#3),
    (0x3AEA54AB, .vma .i16 9#5 0x14#5 0xe#5 5#3)] = true := by decide +kernel

/-- Words of the vector rows, each assembled from the match value and the fields that spec/opcode_table.json gives its row
(R60 to R71). -/
theorem test_decode_vector : decodesTo [
    (0x4AEA54AB, .vmin .i16 9#5 0x14#5 0xe#5 5#3),
    (0x5AEA54AB, .vmax .i16 9#5 0x14#5 0xe#5 5#3),
    (0x6AEA04AB, .vdiv 9#5 0x14#5 0xe#5 5#3),
    (0x7AEA54AB, .vsll .i16 9#5 0x14#5 0xe#5 5#3),
    (0x8AEA54AB, .vsrl .i16 9#5 0x14#5 0xe#5 5#3),
    (0x9AEA54AB, .vsra .i16 9#5 0x14#5 0xe#5 5#3),
    (0xAAEA59AB, .vcmp .i16 .lt 3#3 0x14#5 0xe#5 5#3),
    (0xBAEA54AB, .vsel .i16 9#5 0x14#5 0xe#5 5#3),
    (0xCA2A54AB, .vred .i16 .max 9#5 0x14#5 5#3),
    (0xDA2A54AB, .vscan .i16 .max 9#5 0x14#5 5#3),
    (0xE20A54AB, .vcvt .i16 .rtz .f32 9#5 0x14#5),
    (0xFA0A54AB, .vabs .i16 9#5 0x14#5 5#3),
    (0xFA1A54AB, .vneg .i16 9#5 0x14#5 5#3),
    (0xFA2A04AB, .vsqrt 9#5 0x14#5 5#3),
    (0xFA3A04AB, .vrcp 9#5 0x14#5 5#3),
    (0xFA4A04AB, .vrsqrt 9#5 0x14#5 5#3),
    (0xFA5A04AB, .vexp2 9#5 0x14#5 5#3),
    (0xFA6A04AB, .vlog2 9#5 0x14#5 5#3),
    (0xFA7A54AB, .vsort .i16 9#5 0x14#5 5#3),
    (0xFA8A54AB, .vtrn .i16 9#5 0x14#5 5#3),
    (0xFA9A54AB, .vcomp .i16 9#5 0x14#5 5#3),
    (0xFAAA54AB, .vexpd .i16 9#5 0x14#5 5#3),
    (0x02EA34AB, .vcvtNarrow .e2m3 .rtz .f16 9#5 0x14#5),
    (0x12EA34AB, .vqnt .e2m3 .rtz .f16 9#5 0x14#5)] = true := by decide +kernel

/-- Words of the narrow rows, each assembled from the match value and the fields that spec/opcode_table.json gives its row
(R60 to R71). -/
theorem test_decode_narrow : decodesTo [
    (0x22EA34AB, .vdq .e2m3 .rtz .f16 9#5 0x14#5),
    (0x00EA702B, .vshape 0x14#5 0xe#5),
    (0x14EA75AB, .vld 0xb#5 0x14#5 0xe#5 .keep false),
    (0x24EA75AB, .vst 0xb#5 0x14#5 0xe#5 .keep false),
    (0x34EA75AB, .vldx 0xb#5 0x14#5 0xe#5 .keep false),
    (0x44EA75AB, .vstx 0xb#5 0x14#5 0xe#5 .keep false),
    (0x580A74AB, .vbc .b32 9#5 0x14#5),
    (0x68EA74AB, .vins .b32 9#5 0x14#5 0xe#5),
    (0x7AEA74AB, .vext .b32 true 9#5 0x14#5 0xe#5),
    (0x8A0A74AB, .vmv 9#5 0x14#5 5#3),
    (0x9AEA74AB, .vand 9#5 0x14#5 0xe#5 5#3),
    (0xAAEA74AB, .vor 9#5 0x14#5 0xe#5 5#3),
    (0xBAEA74AB, .vxor 9#5 0x14#5 0xe#5 5#3),
    (0xC8EA74AB, .vrot .b32 9#5 0x14#5 0xe#5),
    (0xD8EA74AB, .vmatch .b32 9#5 0x14#5 0xe#5),
    (0xE02371AB, .kand 3#3 6#3 2#3),
    (0xE22371AB, .kor 3#3 6#3 2#3),
    (0xE42371AB, .kxor 3#3 6#3 2#3),
    (0xE60371AB, .knot 3#3 6#3),
    (0xE80374AB, .kpop 9#5 6#3),
    (0xEA0374AB, .kfirst 9#5 6#3),
    (0xEC0371AB, .kmv 3#3 6#3),
    (0xEE0A71AB, .klen 3#3 0x14#5),
    (0x000A005B, .tcfg 0x14#5)] = true := by decide +kernel

/-- Words of the tile rows, each assembled from the match value and the fields that spec/opcode_table.json gives its row
(R60 to R71). -/
theorem test_decode_tile : decodesTo [
    (0x0200035B, .tzero 6#5),
    (0x0400035B, .twait 6#5),
    (0x7CEA135B, .tmma .bf16 true true 6#5 0x14#5 0xe#5),
    (0x74E6A35B, .tmmac .bf16 true 6#5 0xd#5 0xe#5),
    (0x70EA335B, .tlda .bf16 6#5 0x14#5 0xe#5),
    (0x72EA335B, .tsta .bf16 6#5 0x14#5 0xe#5),
    (0x0406B35B, .tmov 6#5 0xd#5),
    (0xAAEA44DB, .put 9#5 0x14#5 0xe#5 0x15#5 true),
    (0xAEEA44DB, .get 9#5 0x14#5 0xe#5 0x15#5 true),
    (0xA8EA54DB, .putm 9#5 0x14#5 0xe#5 0x15#5)] = true := by decide +kernel

/-- Words of the engine rows, each assembled from the match value and the fields that spec/opcode_table.json gives its row
(R60 to R71). -/
theorem test_decode_engine : decodesTo [
    (0xAEEA54DB, .getf 9#5 0x14#5 0xe#5 0x15#5 true),
    (0xA8EA64DB, .gath 9#5 0x14#5 0xe#5 0x15#5),
    (0xAAEA64DB, .kscan 9#5 0x14#5 0xe#5 0x15#5),
    (0x04EA605B, .racfg 0x14#5 0xe#5),
    (0x0C62E05B, .rastart 5#5 6#5),
    (0x140064DB, .rastat 9#5),
    (0x000A705B, .crcfg 0x14#5),
    (0x1002705B, .crgo 4#5),
    (0x200074DB, .crstat 9#5),
    (0x34EA705B, .pft .keep 0x14#5 0xe#5),
    (0x40EA705B, .cwb 0x14#5 0xe#5),
    (0x50EA705B, .cinv 0x14#5 0xe#5)] = true := by decide +kernel

/-- Words that the spec prints with their assembly. -/
theorem test_decode_printed_first : decodesTo [
    (0x0C800493, .addi 9#5 0#5 200#12),
    (0xFA0414E3, .bne 8#5 0#5 (4052#12)),
    (0x0ABA487B, .amoadd 0#4 7#4 4#4 true .relWk1 .die),
    (0x872A4B7B, .amoswap 6#4 5#4 4#4 true .acq .pkg),
    (0xA6824B7B, .amodecp 6#4 4#4 true .acq .die),
    (0x0980007B, .rep 2#6 3#3 0#2),
    (0x002081AB, .vadd .f32 3#5 1#5 2#5 0#3),
    (0x042081AB, .vadd .f32 3#5 1#5 2#5 2#3),
    (0x715A105B, .tmma .bf16 false false 0#5 20#5 21#5),
    (0x007312FB, .bfx 5#5 6#5 7#5),
    (0xA402B4FB, .ldh 9#5 5#5 .w .keep false),
    (0x7462B07B, .stl 5#5 6#5 .d .csel),
    (0x0870507B, .fnc .pkg .all),
    (0x380B53FB, .ldaq 7#5 22#5 true .pkg),
    (0x585B507B, .strl 22#5 5#5 true .pkg),
    (0x015A607B, .boinit 20#5 21#5),
    (0x080A538B, .waita 7#5 20#5 0#5 true),
    (0x140A500B, .notify 0#5 20#5 true),
    (0x200A500B, .bowait 20#5 0#5),
    (0x00000C0B, .qmap 24#5 false false 0#5),
    (0x0C008C8B, .qmap 25#5 true true 1#5),
    (0x10000C0B, .qunmap 24#5),
    (0x20100C8B, .qtok 25#5 .end1),
    (0x002C1E0B, .qbtok 24#5 .end2 14#12),
    (0x300C030B, .qpeek 6#5 24#5),
    (0x400C830B, .qstat 6#5 25#5),
    (0x0050200B, .rwaitf 0#3 5#5),
    (0x4080230B, .rslot 6#5 0#3 8#5),
    (0x5000230B, .rseq 6#5 0#3),
    (0x0062B18B, .send 3#3 5#5 6#5),
    (0x0201B38B, .mrecv 7#5 3#3),
    (0x0401B38B, .mtest 7#5 3#3),
    (0x0403C00B, .spawn 0#5 7#5 .clu),
    (0x1000400B, .tret),
    (0x2000400B, .yield)] = true := by decide +kernel

/-- Words that the spec prints with their assembly. -/
theorem test_decode_printed_second : decodesTo [
    (0x000A600B, .reduce 0#5 0#4 20#5),
    (0x1032F00B, .ipf 5#5 3#4),
    (0x0050700B, .align 5#4),
    (0x0002805B, .tcfg 5#5),
    (0x0200005B, .tzero 0#5),
    (0x0400005B, .twait 0#5),
    (0x795A105B, .tmma .bf16 true false 0#5 20#5 21#5),
    (0x7160245B, .tmmac .bf16 false 8#5 0#5 22#5),
    (0x9002B15B, .tlda .f32 2#5 5#5 0#5),
    (0x9279305B, .tsta .f32 0#5 18#5 7#5),
    (0xA55BCB5B, .get 22#5 23#5 21#5 20#5 false),
    (0xA55BDB5B, .getf 22#5 23#5 21#5 20#5 false),
    (0xF35B4BDB, .put 23#5 22#5 21#5 30#5 true),
    (0xB95A6B5B, .gath 22#5 20#5 21#5 23#5),
    (0xBB5A6B5B, .kscan 22#5 20#5 21#5 23#5),
    (0x055A605B, .racfg 20#5 21#5),
    (0x0C10605B, .rastart 0#5 1#5),
    (0x1400635B, .rastat 6#5),
    (0x000A705B, .crcfg 20#5),
    (0x1000705B, .crgo 0#5),
    (0x2000735B, .crstat 6#5),
    (0x3462F05B, .pft .keep 5#5 6#5),
    (0x4062F05B, .cwb 5#5 6#5),
    (0x5062F05B, .cinv 5#5 6#5),
    (0x000A72FB, .trecv 5#5 20#5),
    (0x0202F07B, .tresume 5#5),
    (0x0402F07B, .tkill 5#5),
    (0x0602F07B, .tstep 5#5),
    (0xE40110AB, .vcvt .bf16 .rs .f32 1#5 2#5),
    (0x1000322B, .vqnt .e4m3 .rne .f32 4#5 0#5),
    (0xA02088AB, .vcmp .f32 .lt 1#3 1#5 2#5 0#3),
    (0xC000822B, .vred .f32 .add 4#5 1#5 0#3),
    (0xE03170AB, .kand 1#3 2#3 3#3),
    (0x1003F02B, .vld 0#5 7#5 0#5 .norm false),
    (0x0094702B, .vshape 8#5 9#5)] = true := by decide +kernel


/-! ## Witnesses: states and operands that meet the hypotheses of each statement

Each theorem names the statement of Certificates/Slice0/Obligations.lean that it belongs to; each line meets the
hypotheses of one clause, at a boundary value where the clause has one. -/

/-- An operation of a meaning completes, and its answer and state pass a check. -/
def completes {α : Type} (m : M α) (s : State) (p : α → State → Bool) : Bool :=
  match m s with
  | .ok (a, t) => p a t
  | .error _ => false

/-- rd may be written. -/
def canWrite (s : State) (d : Reg) : Bool :=
  match s.me.binding d with
  | none => d == 0 || !s.me.xpend.getLsbD d.toNat
  | some b => b.out

/-- Two sources give values. -/
def gives2 (s : State) (a b : Reg) (x y : Word) : Bool :=
  s.given a 0 == some x && s.given b (if a = b then 1 else 0) == some y

/-- A work thread of context 0 in slot 0 of core 0 that issues `add x5, x6, x7`. -/
def base : State := State.placeWord { State.reset with boot := .up } 0x007302B3

/-- The thread with integer registers set. -/
def withX (s : State) (l : List (Reg × Word)) : State := l.foldl (fun s p => s.updMe fun t => t.setX p.1 p.2) s

/-- The thread with a port bound to queue 1, which holds some entries. -/
def withQueue (s : State) (out : Bool) (depth : Nat) (l : List QEntry) : State :=
  (s.updHere fun c => { c with queues := [{ id := 1, depth := depth, entries := l }] }).updMe fun t =>
    t.bind 24 (some { out := out, obj := 1 })

/-- The same thread as the supervisor in slot 15. -/
def super : State :=
  { (base.updCore 0 fun c => { c with slots := c.slots.set 15 (base.thread 0 0) }) with issuer := (0, 15) }

/-- Context 0 maps the 64 KiB at 0 as a normal page with every permission. -/
def paged : State :=
  base.updCtx 0 fun x => { x with pt := [((0, 0), 1), ((1, 0), 1), ((2, 0), 1), ((3, 0), 0x3E3)] }

/-- A line of the L1D whose sector 0 is valid. -/
def cached : State := paged.updHere fun c => { c with l1d := [{ line := 0, valid := 1, data := 0xAABBCCDD }] }

/-- The access translates to a normal page whose line has no reply outstanding. -/
def mapped (s : State) (va : Nat) (rd wr : Bool) (valid : Bool) : Bool :=
  completes (mapGlobal va rd wr false) s fun m t => m.ty == .normal && !t.lineBusy t.issuer.1 (m.pa / 128)
    && t.here.l1Valid (m.pa / 128) (m.pa % 128 / 32) == valid

/-- For `integer_forms_write_their_results`: registers; an in-bound and an out-bound port. -/
theorem witness_integer_forms :
    (let s := withX base [(6, 5), (7, 3)]
     gives2 s 6 7 5 3 && canWrite s 5 && ((s.took [6, 7]).put 5 8).isSome) = true ∧
    (let s := withQueue (withX base [(7, 3)]) false 2 [{ val := 9 }]
     gives2 s 24 7 9 3 && canWrite s 5 && ((s.took [24, 7]).put 5 12).isSome) = true ∧
    (let s := withQueue (withX base [(6, 5), (7, 3)]) true 1 []
     gives2 s 6 7 5 3 && canWrite s 24 && ((s.took [6, 7]).put 24 8).isSome) = true ∧
    (canWrite base 5 && (base.put 5 0x1000).isSome) = true := by decide +kernel

/-- For `registers_are_checked_first`: an out-bound port read, an in-bound one written, a register outstanding. -/
theorem witness_registers_are_checked_first :
    (readsFirst (.add 5 24 7) == some ([24, 7], some 5, false)) = true ∧
    ((withQueue base true 1 []).me.binding 24).any (fun b => b.out) = true ∧
    ((withQueue base false 1 []).me.binding 24).any (fun b => !b.out) = true ∧
    (base.updMe fun t => { t with xpend := 1 <<< 6 }).me.xpend.getLsbD 6 = true ∧
    (base.me.groupOk 31 1 = true ∧ groupsMeet 30 1 31 1 = false) := by decide +kernel

/-- For the clauses of `registers_are_checked_first` and `queue_ports_park_and_trap` on forms whose groups and types are tested
first: such a form, and one that has none. -/
theorem witness_form_ok : base.formOk (.add 5 6 7) ∧ (readsFirst (.vld 3 6 7 .norm false)).isSome = true :=
  ⟨trivial, by decide +kernel⟩

/-- For `queue_ports_park_and_trap`: an empty queue, a token at the head, a full queue. -/
theorem witness_queue_ports :
    (((withQueue base false 1 []).here.queue 1).any fun q => q.entries.isEmpty) = true ∧
    (((withQueue base false 1 [{ kind := .end1 }]).here.queue 1).any fun q => q.entries.any fun e => e.kind != .data) = true ∧
    (let s := withQueue base true 1 [{ val := 1 }]
     gives2 s 6 7 0 0 && ((s.took [6, 7]).here.queue 1).any (fun q => q.depth ≤ q.entries.length)
       && !(s.took [6, 7]).localStoresOut 0 0) = true := by decide +kernel

/-- For `completing_an_instruction` and `integer_forms_frame`: a thread that is not stepping, one that steps, one in a pair. -/
theorem witness_completing :
    base.me.stepping = false ∧ (base.updMe fun t => { t with stepping := true }).issuer.2 ≠ 15 ∧
    (base.updMe fun t => { t with inRep := true, repcnt := 1 }).me.inRep = true ∧
    (List.all [5, 6, 7] fun r => (base.me.binding r).isNone && !base.me.xpend.getLsbD r.toNat) = true := by decide +kernel

/-- For `branches_and_jumps`: taken to an even and to an odd word, not taken. -/
theorem witness_branches_and_jumps :
    (gives2 (withX base [(6, 1), (7, 1)]) 6 7 1 1 && (branchForm (.beq 6 7 4)).any (fun f => f.2.2.2 1 1)) = true ∧
    (branchForm (.bne 6 7 4)).any (fun f => !f.2.2.2 1 1) = true ∧
    (base.me.pc + (BitVec.ofNat 12 2 ++ 0#1).signExtend 64).getLsbD 1 = false ∧
    (base.me.pc + (BitVec.ofNat 12 1 ++ 0#1).signExtend 64).getLsbD 1 = true ∧
    ((base.took [6]).put 5 4).isSome = true := by decide +kernel

/-- For `bad_addresses_trap`: a misaligned word, a local address past 32 bits, one in no region. -/
theorem witness_bad_addresses :
    (base.given 6 0 == some 0 && (0 + 1) % 4 != 0 && canWrite base 5) = true ∧
    2 ^ 32 ≤ (BitVec.ofNat 64 (2 ^ 32)).toNat ∧ locPlace .own 0 0x80000 = none ∧ locPlace .own 0 0x90000000 = none ∧
    base.me.prog.data = none := by decide +kernel

/-- For `loads` and `stores`: a valid sector, one that is not, and a line with no reply outstanding. -/
theorem witness_loads_and_stores :
    mapped cached 0 true false true = true ∧ mapped cached 31 true false true = true ∧
    mapped cached 32 true false false = true ∧ mapped cached 0 false true true = true ∧
    mapped paged 0xFFFF false true false = true ∧
    (cached.sectorBusy 0 0 1 = false ∧ cached.me.holdsAt [6] = false) ∧
    (storeForm (.sth 6 7 .b .noal)).map (fun F => F.hintOf paged) = some .noal := by decide +kernel

/-- For `l1d_store_frame` and `local_loads_and_stores`: the last bytes of a line and of the allotment. -/
theorem witness_local_and_l1d :
    (cached.here.l1 (120 / 128)).isSome = true ∧ 120 % 128 + (leBytes 8 0).length ≤ 128 ∧
    base.me.allots 0 (0x80000 - 8) 8 = true ∧ 0x80000 - 8 + MemSize.bytes .d ≤ 0x80000 ∧
    gives2 base 6 7 0 0 = true ∧ canWrite base 5 = true := by decide +kernel

/-- For `traps_and_their_records`, `trapping_instructions`, `supervisor_calls_kamgor`: a work slot and slot 15. -/
theorem witness_traps :
    base.issuer.2 ≠ 15 ∧ base.me.status ≠ .parked .registered ∧
    (base.updMe fun t => { t with status := .parked .registered }).me.status = .parked .registered ∧
    super.issuer.2 = 15 ∧ (super.me.binding 10).isNone = true ∧ (super.x 10).toNat % 64 = 0 ∧
    (withX super [(10, 0x80000 - 64)]).me.getX 10 = 0x7FFC0 := by decide +kernel

/-- For `control_register_accesses` and `control_register_writes`: a register that may be written, one that may not, a
supervisor register, no register; shapes and counts at their limits. -/
theorem witness_control_registers :
    (Csr.ofNumber 0x802).any (fun r => r.writable && !r.supervisor) = true ∧
    (Csr.ofNumber 0xC00).any (fun r => !r.writable) = true ∧ (Csr.ofNumber 0xFFF).isNone = true ∧
    ((List.range 4096).any fun n => (Csr.ofNumber (BitVec.ofNat 12 n)).any fun r => r.supervisor) = true ∧
    (completes (writeCsr .hint 2) base fun _ u => ((u.took [6]).put 5 0).isSome) = true ∧
    completes (writeCsr .shape (1 + 512 * 2 ^ 16)) base (fun _ _ => true) = true ∧
    completes (writeCsr .shape (128 + 4 * 2 ^ 16)) base (fun _ _ => true) = true ∧
    completes (writeCsr .shape (129 + 4 * 2 ^ 16)) base (fun _ _ => true) = false ∧
    completes (writeCsr .repcnt 64) base (fun _ _ => true) = true ∧
    completes (writeCsr .repcnt 65) base (fun _ _ => true) = false := by decide +kernel

/-- For `repetitions`: a fetched word behind the prefix, fields at their last register and past it. -/
theorem witness_repetitions :
    (let s := base.updMe fun t => { t with ibuf := some (0, wordBytes 0x0980007B ++ wordBytes 0x007302B3) }
     (s.me.wordAt 4 == some 0x007302B3) && (match decode 0x007302B3#32 with
       | .ok i => i == .add 5 6 7 && (repBody i { rd := some 1 }).isSome
       | .error _ => false)) = true ∧
    (31#5).toNat + 0 ≤ 31 ∧ 31 < (31#5).toNat + 1 * 2 ^ 0 := by decide +kernel

/-- A thread whose core has sent one request to tile 0. -/
def sentOne : State := (base.updHere fun c => { c with sent := [(.tile 0, 1)] }).updMe fun t => { t with tbm := 1 }

/-- The thread begins its instruction and nothing of it or of its core is outstanding. -/
def quiet (s : State) : Bool :=
  s.me.prog == {} && !s.localStoresOut s.issuer.1 s.issuer.2 && !s.deviceBusy s.issuer.1 s.issuer.2
    && !s.majOut s.issuer.1 s.issuer.2 && !s.here.engineBusy s.issuer.2

/-- For `fences_and_cache_instructions`: nothing sent; one target to probe; echoes back; ranges at their limit. -/
theorem witness_fences :
    (quiet base && (base.probeTargets .sys).isEmpty) = true ∧ (quiet sentOne && !(sentOne.probeTargets .die).isEmpty) = true ∧
    (base.atStage 1 []).me.prog.stage = 1 ∧ gives2 (withX base [(7, 2 ^ 40 - 1)]) 6 7 0 (2 ^ 40 - 1) = true ∧
    vaValid 0 = true ∧ (base.here.l1d.all fun l => l.dirty == 0) = true ∧ base.net = [] := by decide +kernel

/-- An atomic or a release on the word at 0 goes on: its sector is dropped and what precedes it is out. -/
def released (s : State) (scope : Scope) : Bool :=
  completes (mapGlobal 0 true true false) s fun m t => m.ty == .normal &&
    completes (dropSector m.pa) t fun _ t2 => !t2.lineBusy 0 (m.pa / 128) &&
      completes (releaseSteps scope) t2 fun _ t3 => !t3.lineBusy 0 (m.pa / 128) && completes (publish scope) t3 fun _ _ => true

/-- For `atomics_are_sent_to_the_home` and `acquire_release_wait_notify`: each ordering, and the later stages. -/
theorem witness_atomics :
    (atomicForm (.amoadd 5 7 4 true .relaxed .die)).any (fun F => F.a == 20 && F.ord != .acq && !AmoOrd.isRel F.ord) = true ∧
    (atomicForm (.amocas 5 7 4 true .acq .die)).any (fun F => F.ord == .acq) = true ∧
    (atomicForm (.amodecp 5 4 false .relWk1 .pkg)).any (fun F => AmoOrd.isRel F.ord) = true ∧
    released paged .die = true ∧ released paged .pkg = true ∧ mapped paged 0 true false false = true ∧
    (paged.given 20 0 == some 0 && gives2 paged 20 21 0 0 && canWrite paged 5 && paged.me.prog.stage == 0) = true ∧
    (paged.atStage 3 []).me.prog.stage = 3 ∧
    (let s := paged.updMe fun t => { t with prog := { t.prog with data := some [1] } }
     s.me.prog.data.isSome && ((s.took [20, 21]).put 5 1).isSome) = true := by decide +kernel

/-- For `barrier_objects`: counts 1 and 2^32 - 1, an object in each phase, the last object of the allotment. -/
theorem witness_barriers :
    gives2 (withX base [(20, 0x7FFF0), (21, 1)]) 20 21 0x7FFF0 1 = true ∧ base.me.allots 0 0x7FFF0 16 = true ∧
    (BitVec.ofNat 64 (2 ^ 32 - 1)).toNat < 2 ^ 32 ∧ (base.here.barrier 0x7FFF0).armed ≠ 1 ∧
    (base.here.barrier 0x7FFF0).arrived + 1 < 2 ^ 32 ∧ base.localStoresOut 0 0 = false ∧
    base.intoLanding 0x7FFF0 16 = false ∧
    (State.intoLanding (super.updHere fun c => { c with landings := [(0, 4096)] }) 0 16 = true) ∧
    (base.here.barrier 0).phase = (0#64).extractLsb' 0 8 ∧ (base.here.barrier 0).phase ≠ (1#64).extractLsb' 0 8 := by
  decide +kernel

/-- The supervisor with a record of slot 0's thread in its queue, and with one taken. -/
def posted (taken : Bool) : State := (super.updCore 0 fun c => { c with slots := c.slots.set 0 { status := .trapped } }).updCore 0
  fun c => if taken then { c with taken := [{ tid := 0 }] } else { c with trapq := [{ tid := 0 }] }

/-- For `supervisor_instructions` and `returning_from_a_trap`: outside slot 15; a record queued, none, one taken; slots 14
and 15. -/
theorem witness_supervisor :
    base.issuer.2 ≠ 15 ∧ (posted false).here.trapq ≠ [] ∧ (posted true).here.trapq = [] ∧
    (super.given 6 0 == some 0 && canWrite super 5 && !super.here.inLanding (0x80000 - 64) 64) = true ∧
    (((withX super [(6, 14)]).given 6 0 == some 14) && ((withX super [(6, 15)]).given 6 0 == some 15)) = true ∧
    ((super.took [6]).put 5 0).isSome = true ∧ (super.thread 0 0).present = true ∧ super.killWaits 0 0 = false ∧
    (super.thread 0 1).present = false ∧ ((posted true).core 0).taken.any (fun r => r.names 0) = true ∧
    ((posted true).core 0).taken.all (fun r => r.engine == .own) = true ∧ ((posted true).thread 0 0).status = .trapped := by
  decide +kernel

/-- A thread whose stage reads ring 5 through handle 0 and writes ring 6 through handle 1; ring 5 holds one cell. -/
def ringed (sequenced : Bool) (kind : EntKind) : State :=
  let cell := leBytes 8 (cellHeader true false kind 0) ++ List.replicate 120 0
  let r : Ring := { id := 5, slotsLog := 4, land := some (0, 0), landSize := 16 * 128, ctx := 0 }
  let s := base.updHere fun c =>
    { c with stages := mapIf (fun _ => true) (fun g => { g with handles := [(0, 5, false), (1, 6, true)] }) c.stages }
  { (s.updHere fun c => c.writeSpad 0 cell) with rings := [r, { r with id := 6, land := some (1, 0), sequenced := sequenced }] }

/-- For `queue_forms`: a queue that is named, a handle, bound and free ports; room and none; data and a token. -/
theorem witness_queue_forms :
    completes (nameQueue 0 false) base (fun _ _ => true) = true ∧
    completes (handleRing 0 false) (ringed false .data) (fun r s => !s.ringEndHeld r.id false) = true ∧
    (base.me.binding 24).isNone = true ∧ ((withQueue base false 1 []).me.binding 24).isSome = true ∧
    ((withQueue base true 1 []).here.queue 1).any (fun q => q.entries.length < q.depth) = true ∧
    ((withQueue base true 1 [{}]).here.queue 1).any (fun q => q.depth ≤ q.entries.length) = true ∧
    completes (peekPort { obj := 1 } 0) (withQueue base false 1 [{ kind := .end2 }]) (fun e _ => e.kind == .end2) = true ∧
    completes (peekPort { ring := true, obj := 5 } 0) (ringed false .data) (fun e _ => e.kind == .data) = true ∧
    completes (checkClaim 5) (ringed false .data) (fun _ _ => true) = true := by decide +kernel

/-- For `ring_forms`: an entry there and none; data and a token; room; a sequenced ring's claim given back. -/
theorem witness_ring_forms :
    completes (handleRing 0 false) (ringed false .data) (fun r s => (s.headEntries r 1).any (fun l =>
      l.all fun p => cellKind p.2 == .data) && (s.headEntries r 2).isNone && s.myStage.repl ≤ 1 && 1 ≤ r.slots) = true ∧
    completes (handleRing 0 false) (ringed false .end1) (fun r s => (s.headEntries r 1).any fun l =>
      (l.find? fun p => cellKind p.2 != .data).isSome) = true ∧
    completes (handleRing 1 true) (ringed false .data) (fun r s => !r.sequenced && r.next + 16 - 1 < r.headAt 0 + r.slots
      && (s.given 5 0).isSome) = true ∧
    (let s := (ringed true .data).updMe fun t => { t with claims := [{ ring := 5, seq := 0 }] }
     completes (handleRing 1 true) s fun r s => r.sequenced && completes (ringPut 6 .data true (List.replicate 120 0)) s
       fun _ _ => true) = true ∧
    (base.me.prog.data.isNone && (base.updMe fun t => { t with prog := { t.prog with data := some [7] } }).me.prog.data.isSome)
      = true := by decide +kernel

/-- For `message_forms`: the last slot and the first past it; a full register and an empty one. -/
theorem witness_messages :
    gives2 (withX base [(5, 20479)]) 5 6 20479 0 = true ∧ gives2 (withX base [(5, 20480)]) 5 6 20480 0 = true ∧
    (base.updMe fun t => { t with mfull := 0x80 }).me.mfull.getLsbD 7 = true ∧ base.me.mfull.getLsbD 0 = false ∧
    (base.put 7 0).isSome = true ∧ (base.me.prog.data.isNone && !base.localStoresOut 0 0) = true := by decide +kernel

/-- For `thread_forms` and `reducing`: a record of zeros at the end of the allotment; an align set; a tree of two members. -/
theorem witness_thread_forms :
    (base.me.allots 0 (0x80000 - 32) 32 && (taskRecord (base.here.spad.read (0x80000 - 32) 32)).isSome
      && base.here.deque.isEmpty) = true ∧
    base.tileQuiet 0 0 none = true ∧
    ((base.updCluster 0 fun u => { u with tile := u.tile.set 0 { claim := some (0, 0), queue := [{}] } }).tileQuiet 0 0 none)
      = false ∧
    (base.updMe fun t => { t with alignSet := some 3 }).me.alignSet = some 3 ∧
    (let s := base.updDie 0 fun d => { d with trees := d.trees.set 0 (some { members := [0, 4] }) }
     (s.myTree 0).any (fun r => (r.members.findIdx? fun c => c.val == s.me.coreNo.toNat) == some 0)
       && s.me.footprint % 4 == 0 && s.me.allots 0 0 (64 + s.me.footprint) && !s.reducing 0) = true := by decide +kernel

/-- The operands of a vector instruction are legal and have arrived. -/
def legal (s : State) (n : Nat) (dst : Option VOp) (srcs : List VOp) : Bool :=
  ((dst.toList ++ srcs).all fun p => s.me.groupOk p.1 (spanOf n p.2)) && s.me.vpend == 0 &&
    dst.toList.all fun d => srcs.all fun p => !groupsMeet d.1 (spanOf n d.2) p.1 (spanOf n p.2)

/-- A thread of another shape. -/
def shaped (rows : BitVec 8) (rbytes : BitVec 10) : State := base.updMe fun t => { t with rows := rows, rbytes := rbytes }

/-- For `vector_forms`: the whole register, the last register of the run, a group that is not legal, and one that the
destination meets; a group of two registers. -/
theorem witness_vector_forms :
    (vecForm (.vadd .f32 1 2 3 0)).any (fun F => F.w == 32) = true ∧ base.me.footprint = 512 ∧
    legal base 128 (some (31, 32)) [(2, 32), (3, 32)] = true ∧ legal base 128 (some (2, 32)) [(2, 32), (3, 32)] = false ∧
    (base.updMe fun t => { t with vcount := 4 }).me.groupOk 4 1 = false ∧
    ((30#5).toNat + spanOf 256 32 ≤ 32) := by decide +kernel

/-- For `masks_and_compares`, `reductions_and_sorts`, `rearrangements`: legal operands of each width, two rows. -/
theorem witness_masks_sorts_rearrangements :
    legal base (512 * 8 / 8) none [(0, 8), (1, 8)] = true ∧ legal base (512 * 8 / 16) (some (4, 16)) [(5, 16)] = true ∧
    legal (shaped 2 256) ((shaped 2 256).me.footprint * 8 / 32) (some (4, 32)) [(5, 32)] = true ∧
    (shaped 2 256).me.rows = 2 ∧ base.me.footprint % ElemSize.bytes .b64 = 0 ∧
    legal base (512 / 4) (some (1, 32)) [(2, 32), (3, 32)] = true ∧ 512 / 4 ≤ 2 ^ 32 - 2 ∧ 2 ^ 8 - 2 < 512 / 1 ∧
    (base.given 6 0 == some 0) = true := by decide +kernel

/-- For `conversions`: narrow and wide groups with a scale register behind them. -/
theorem witness_conversions :
    legal base 256 (some (4, 16)) [(8, 16)] = true ∧ legal base 256 (some (4, 16)) [(9, 32)] = false ∧
    legal base 128 (some (4, 32)) [(8, 16)] = true ∧
    (sixBitOk base.me .e4m3 && legal base 512 (some (4, 8)) [(8, 32)] && (4 + spanOf 512 8 < 32)
      && !groupsMeet 5 1 8 (spanOf 512 32)) = true ∧
    (legal base 512 (some (8, 32)) [(4, 8)] && !groupsMeet 5 1 8 (spanOf 512 32)) = true := by decide +kernel

/-- For `vector_moves`: shapes at their limits and past them; the first and last index and the one past it; a footprint that
is no multiple of the size. -/
theorem witness_vector_moves :
    gives2 (withX base [(6, 128), (7, 4)]) 6 7 128 4 = true ∧ gives2 (withX base [(6, 129), (7, 4)]) 6 7 129 4 = true ∧
    legal base (512 / 8) (some (1, 64)) [] = true ∧ gives2 (withX base [(7, 63)]) 6 7 0 63 = true ∧
    gives2 (withX base [(7, 64)]) 6 7 0 64 = true ∧ ((base.took [7]).put 5 0).isSome = true ∧
    (shaped 1 4).me.footprint % ElemSize.bytes .b64 ≠ 0 := by decide +kernel

/-- For `vector_loads_and_stores`: two rows to the end of the allotment; a global page; an address that is no multiple
of 4. -/
theorem witness_vector_memory :
    (let s := withX (shaped 2 256) [(7, 0x80000 - 512)]
     s.me.groupOk 3 1 && s.me.prog.stage == 0 && !s.me.holdsAt [7, 0] && gives2 s 7 0 (0x80000 - 512) 0 && s.me.rbytes.toNat % 4 == 0
       && (List.range 2).all (fun r => (List.range 64).all fun i => s.me.allots 0 (0x80000 - 512 + 256 * r + 4 * i) 4)) = true ∧
    (base.me.groupOk 4 1 && base.me.vpend == 0 && (List.range 128).all fun _ => base.me.allots 0 0 4) = true ∧
    completes (loadRuns .norm true (rowRuns paged.me 0 512)) paged (fun r _ => !r.2 && r.1.any fun p => p.msg.isSome) = true ∧
    (BitVec.ofNat 64 2).toNat % 4 ≠ 0 := by decide +kernel

/-- The thread has claimed sub-array 0. -/
def claimed : State :=
  base.updCluster 0 fun u => { u with tile := u.tile.set 0 { claim := some (0, 0), lastCtx := some 0 } }

/-- For `tile_forms`: an operation of each kind whose operands check; a claim; accumulators of the claim and outside it. -/
theorem witness_tile_forms :
    (claimed.myClaim.length == 1 && (tileSubs .independent 0).all (fun i => (claimed.myUnit.tile.get i).queue.length < 8)) = true ∧
    completes (tileMode 0 []) claimed (fun m s => completes (queueOp (s.me.tileOp .zero 0 m.1 1 [])) s fun _ _ => true) = true ∧
    completes (moveType .f32) claimed (fun ta _ => ta == .f32 && claimed.me.rowOk 0 (32 * TileType.width ta / 8) 0) = true ∧
    (completes (awaitPlace .independent 0) claimed (fun _ _ => true) && completes (tileDraws .f32 1024) claimed fun _ _ => true)
      = true ∧
    completes (productTypes .bf16) claimed (fun t _ => tilePair t.1 t.2 &&
      completes (checkOperand true 0 4096) claimed (fun _ _ => true) &&
      completes (checkOperand false 0 4096) claimed (fun _ _ => true) &&
      completes (requireScales t.1 0) claimed (fun _ _ => true) && completes (checkBase true 0) claimed (fun _ _ => true) &&
      completes (checkBase false 0) claimed (fun _ _ => true) &&
      completes (checkScales t.1 0 32 32 32) claimed (fun _ _ => true)) = true ∧
    claimed.intoLanding 0 4096 = false ∧
    completes (tileMode 1 [0]) claimed (fun _ _ => true) = true ∧
    (claimed.accMode 0).isSome = true ∧ (claimed.accMode 8).isNone = true ∧ claimed.tileQuiet 0 0 none = true ∧
    completes (awaitSubs [0, 1, 2, 3]) base (fun _ _ => true) = true ∧
    (gives2 claimed 6 7 0 0 && (claimed.given 6 0).isSome) = true := by decide +kernel

/-- For `copy_forms`: lengths 1 and 4 MiB, the allotment and a vault, no completion, an object and a notify word; a full
queue; a follow-on of each kind and a word that is none. -/
theorem witness_copy_forms :
    (let s := withX paged [(7, 1)]
     s.given 6 0 == some 0 && s.given 7 0 == some 1 && s.me.allots 0 0 1 && !s.intoLanding 0 1) = true ∧
    (0x40000000 ≤ 0x40000000 ∧ (0x40000000 - 0x40000000) / 0x400000 = (0x40000000 + 0x400000 - 1 - 0x40000000) / 0x400000) ∧
    completes (completionOf false 0 0) paged (fun c s => c == .none && !s.localStoresOut 0 0 && s.here.copies < 32) = true ∧
    completes (completionOf false 5 16) paged (fun c _ => c == .object 16) = true ∧
    completes (completionOf true 5 128) paged (fun c _ => c == .notify 128) = true ∧
    (let s := base.updHere fun c => { c with cmds := List.replicate 32 {} }
     32 ≤ s.here.copies) ∧
    base.spadAllowed .csel (coreIn 0 1) 0 1 = false ∧
    base.spadAllowed .csel (coreIn 0 0) (0x80000 - 16) 16 = true ∧
    (match decode 0x795A105B#32, decode 0x7160245B#32, decode 0x00000013#32 with
      | .ok (.tmma _ _ _ _ _ _), .ok (.tmmac _ _ _ _ _), .ok (.addi _ _ _) => true
      | _, _, _ => false) = true ∧
    completes (tmmaOp .bf16 true true 0 0 0) claimed (fun op s => completes (queueOp op) s fun _ _ => true) = true ∧
    completes (tmmacOp .bf16 true 1 0 0) claimed (fun op s => completes (queueOp op) s fun _ _ => true) = true := by
  decide +kernel

/-- For `engine_forms`: a gather of one element, a scan of one, a prefetch and a clean at their limits, the accelerator and
the cruiser configured, free and in use. -/
theorem witness_engine_forms :
    (completes (checkLocal 0 4 false) base (fun _ _ => true) && completes (checkLocal 0x7FFF8 8 true) base (fun _ _ => true)) = true ∧
    completes (ownSpad 0x7FFE0 32 true) base (fun _ _ => true) = true ∧
    (scanDesc (leBytes 8 1 ++ List.replicate 8 0 ++ leBytes 8 64 ++ leBytes 8 0) 0 0 64).isSome = true ∧
    2 ^ 24 ≤ 2 ^ 24 ∧ (BitVec.ofNat 64 (2 ^ 40 - 1)).toNat < 2 ^ 40 ∧ base.myStream.isNone = true ∧ base.myCruiser.isNone = true ∧
    completes (nameQueue 0 false) base (fun _ s => completes (nameQueue 1 true) s fun _ _ => true) = true ∧
    (base.updMe fun t => { t with racfg := some (0, 8) }).me.racfg = some (0, 8) ∧ base.myUnit.accel = none ∧
    ((base.updCluster 0 fun u => { u with accel := some { core := 1 } }).myUnit.accel).isSome = true ∧
    completes (loopRead 0 16) paged (fun ps _ => ps.any fun p => p.msg.isSome) = true ∧
    (let s := base.updMe fun t => { t with prog := { t.prog with data := some (leBytes 8 1 ++ leBytes 8 4), taken := [1, 0] } }
     s.me.prog.data.isSome && s.me.prog.taken.length == 2 && ofLe ((leBytes 8 1 ++ leBytes 8 4).take 8) == 1) = true ∧
    (base.updMe fun t => { t with crcfg := some (0, [(1, 4)]) }).me.crcfg.isSome = true ∧ base.myUnit.cruiser = none ∧
    (base.put 5 0).isSome = true := by decide +kernel

/-- One message in flight, of the thread in slot 0 of core 0, to tile 0. -/
def inFlight (s : State) (b : Body) (st : Stage := .sent) : State :=
  { s with net := [{ id := 0, target := some (.tile 0), body := b, stage := st }], nextMsg := 1 }

/-- Every stack's access table allows the cores, the engines and the host everything. -/
def open_ (s : State) : State :=
  let e : Word → AclEntry := fun c => { w0 := 0x31, w1 := 0xFFFFFFFFFFFFF100 + c * 0x200 }
  { s with hbm := s.hbm.map fun k => { k with acl := ((k.acl.set 0 (e 0)).set 1 (e 1)).set 2 (e 3) } }

/-- The message is at its home and first on its line, and the line can be read there. -/
def servable (s : State) (line : Nat) : Bool :=
  (s.msg 0).any fun m => s.atHome m && !s.earlierOnLine m line && match s.homeRead .core 0 0 (128 * line) 128 .norm true with
    | .ok _ _ => true
    | _ => false

/-- A slice that holds line 0. -/
def inSlice (s : State) : State := s.updTile 0 fun t => { t with msc := [{ line := 0, valid := 15 }] }

/-- The message passes, its thread stands, and a failure of it may be reported. -/
def answered (s : State) : Bool :=
  (s.msg 0).any fun m => m.moving && !s.stalledMsg m && !m.orphan && (s.thread m.core m.slot).present && s.mayTrap m

/-- For `requests_at_home`: hits, misses, allowed and refused reads, replies and errors, writes, probes, vaults,
scratchpads, fetches. -/
theorem witness_requests_at_home :
    (let s := inFlight (inSlice base) (.fill 0 1 .norm true false)
     servable s 0 && s.sliceHit 0 0 0 1 && (s.sliceRead 0 0 0 1 .norm true).2.1 == 0) = true ∧
    (inFlight base (.fill 0 1 .norm true false)).sliceHit 0 0 0 1 = false ∧
    (let s := inFlight (open_ base) (.fill 0 8 .keep true false) .atStack
     s.stackStateAt 0 != .offline && s.stackAllows .core 0 0 true false && (s.sliceRead 0 0 0 8 .keep true).2.1 == 0) = true ∧
    base.stackAllows .core 0 0 true false = false ∧
    answered (inFlight base (.fill 0 8 .norm true false) (.reply (List.replicate 32 0) 0 .none)) = true ∧
    answered (inFlight base (.fill 0 8 .norm true true) (.reply [] 0 (.access 0))) = true ∧
    (let s := inFlight (open_ base) (.writeback 0 3 7 .norm)
     servable s 0 && !s.writeHeld 0 0 96 32 .norm && (s.writeError 0 0 96 32 .norm).isNone) = true ∧
    (inFlight base (.writeback 0 3 7 .norm)).writeError 0 0 96 32 .norm = some (.access 0) ∧
    (State.updMsg (inFlight base (.writeback 0 3 7 .norm) (.reply [] 0 (.access 0))) 0 fun m =>
      { m with quiet := true }).net.any (fun m => m.quiet && m.isAck) = true ∧
    (let s := inFlight (open_ base) (.update 0 [(1, [1, 2])])
     servable s 0 && !s.writeHeld 0 0 1 2 .noal && (s.writeError 0 0 1 2 .noal).isNone) = true ∧
    answered (inFlight base (.writeback 0 3 7 .norm) (.reply [] 0 .none)) = true ∧
    answered (inFlight base (.vaultWrite 0 [1]) (.reply [] 0 (.access 0))) = true ∧
    ((inFlight base (.probe 0)).tiles.get 0).received = [] ∧ answered (inFlight base (.probe 0) (.reply [] 0 .none)) = true ∧
    base.vaultAllows .core 0 0 8 true false = false ∧
    (base.updTile 0 fun t => { t with acl := t.acl.set 0 { w0 := 0x31, w1 := 0xFFFFFFFFFFFFF100 } }).vaultAllows
      .core 0 0 8 true true = true ∧
    answered (inFlight base (.spadRead 1 0 8)) = true ∧
    answered (inFlight base (.ifetch 0) (.reply (List.replicate 128 0) 0 .none)) = true ∧
    answered (inFlight base (.device 0 none)) = true ∧
    aclAllows (base.ctlAcl.set 0 { w0 := 0x31, w1 := 0xFFFFFFFFFFFFF100 }).toList .core 0 0 true false = true := by
  decide +kernel

/-- For `synchronisation_at_home`: each ordering; a value that differs, a full table, room; replies that write rd, that end an
acquire, and that carry neither. -/
theorem witness_synchronisation :
    servable (inFlight (open_ base) (.atomic .add 0 0 true .relaxed .die 1 0 5 0)) 0 = true ∧
    servable (inFlight (inSlice base) (.atomic .cas 0 0 true .relWkall .pkg 1 0 5 0)) 0 = true ∧
    servable (inFlight (open_ base) (.ldaq 0 true .die 5)) 0 = true ∧
    servable (inFlight (open_ base) (.strl 0 0 true 1 0)) 0 = true ∧
    servable (inFlight (open_ base) (.waita 0 0 true 1 5)) 0 = true ∧ (0 : Nat) ≠ (1#64).toNat % 2 ^ 64 ∧
    ((base.tiles.get 0).monitors.length < 64) ∧
    ((base.updTile 0 fun t => { t with monitors := List.replicate 64 {} }).tiles.get 0).monitors.length = 64 ∧
    servable (inFlight (open_ base) (.notify 0 0 true 5)) 0 = true ∧
    (let s := inFlight base (.ldaq 0 true .die 5) (.reply (leBytes 8 7) 0 .none)
     answered s && (s.msg 0).any fun m => m.isData && (m.result (leBytes 8 7)).isSome && (m.acquires 0).isSome) = true ∧
    (let s := inFlight base (.notify 0 0 true 5) (.reply (leBytes 8 7) 0 .none)
     answered s && (s.msg 0).any fun m => m.isData && (m.result (leBytes 8 7)).isSome && (m.acquires 0).isNone) = true ∧
    (let s := inFlight base (.vaultRead 0 8) (.reply (leBytes 8 7) 0 .none)
     answered s && (s.msg 0).any fun m => m.isData && (m.result (leBytes 8 7)).isNone && (m.acquires 0).isNone) = true ∧
    answered (inFlight base (.notify 0 0 true 5) (.reply [] 0 (.memory 0))) = true ∧ base.me.loadOf 0 = none ∧
    (let l : PendLoad := { dst := .hold, pieces := [{ msg := some 0 }], pc := 0, va := 0, undo := base.me.undo }
     (base.updMe fun t => { t with loads := [l] }).me.loadOf 0 = some 0 ∧ l.passed = false ∧
       ({ l with passed := true } : PendLoad).passed = true) ∧
    (match (open_ base).homeUpdate 0 0 0 8 true with
     | .ok _ _ => true
     | _ => false) = true := by decide +kernel

/-- A thread of core 0 waits since cycle 0, and its die has reached a cycle. -/
def waits (st : Status) (cycle : Nat) : State :=
  (base.updMe fun t => { t with status := st }).updDie 0 fun d => { d with cycle := BitVec.ofNat 64 cycle }

/-- For `deliveries_and_timeouts`: an empty and a full register, no thread; cycles 63 and 64, 255 and 256, 15 and 16; a walk; a
block in the instruction cache. -/
theorem witness_deliveries_and_timeouts :
    (let s := inFlight base (.send 0 3 7)
     answered s && (s.msg 0).any (fun m => !s.toStopped m) && (s.thread 0 0).present && !(s.thread 0 0).mfull.getLsbD 3)
      = true ∧
    (base.updMe fun t => { t with mfull := 8 }).me.mfull.getLsbD 3 = true ∧ (base.thread 0 1).present = false ∧
    (let s := (inFlight (base.updMe fun t => { t with mfull := 8 }) (.send 0 3 7)).updMsg 0 fun m => { m with orphan := true }
     (s.msg 0).any (fun m => m.orphan && m.moving && !s.stalledMsg m && !s.toStopped m) && (s.thread 0 0).mfull.getLsbD 3) = true ∧
    ((inFlight (waits (.parked .sendRetry) 64) (.send 1 0 0) (.reply [] 0 .refused)).cycleOf 0 = 64 ∧
      (waits (.parked .sendRetry) 63).cycleOf 0 < 0 + 64) ∧
    ((waits (.parked (.align 3 0)) 256).me.status = .parked (.align 3 0) ∧ (waits (.parked (.align 3 0)) 255).cycleOf 0 < 256) ∧
    ((waits (.waiting .yield) 16).me.status = .waiting .yield ∧ (waits (.waiting .yield) 15).cycleOf 0 < 16) ∧
    ((base.updCore 0 fun c => { c with slots := c.slots.set 1 (base.thread 0 0) }).isReady 0 1 = true) ∧
    (base.isReady 0 1 = false) ∧ (base.core 0).halting = false ∧
    (let s := State.updMsg (inFlight paged (.update 0 [(1, [1, 2])])) 0 fun m => { m with va := 0xFFFF }
     match (s.core 0).ctx, s.walk 0 0xFFFF, s.translate 0 0 0xFFFF true with
      | some 0, .leaf 3 e, .ok _ 3 _ => s.accessUnderWay 0 3 0xFFFF true && leafA e
      | _, _, _ => false) = true ∧
    (let s := paged.updCtx 0 fun x => { x with pt := [((0, 0), 1), ((1, 0), 1), ((2, 0), 1), ((3, 0), 0x0E3)] }
     match s.walk 0 0xFFFF with
      | .leaf 3 e => !s.accessUnderWay 0 3 0xFFFF true && !leafA e
      | _ => false) = true ∧
    (let s := (paged.updMe fun t => { t with ibuf := none }).updCluster 0 fun c => { c with icache := [(0, 0x13)] }
     (oldest (s.fetchRequests 0)).isSome && (match s.mapFetch 0 0 0 with
       | .ok (pa, _) => (assoc (s.clusters.get 0).icache (pa / 128)).isSome
       | .error _ => false)) = true := by decide +kernel

/-- For `ring_steps`: a cell for the landing and one for the boom; a head message; a claim of data, and of a token that this
replica has passed; a full boom cell; occupancy high for 4,096 cycles and low for 65,536. -/
theorem witness_ring_steps :
    (let s := inFlight (ringed false .data) (.cell 5 3 .data false false [])
     answered s && (s.ring 5).any fun r => r.land == some (0, 0) && 3 < r.head + r.slots) = true ∧
    (let s := open_ { paged with rings := [{ id := 5, slotsLog := 4, land := some (0, 0), landSize := 1024, boom := 0x1000 }] }
     match s.walk 0 (0x1000 + 128 * 8) with
      | .leaf level e => leafPa level e 0x1400 == 0x1400 && !s.writeHeld 0 0 0x1400 128 .noal
      | _ => false) = true ∧
    answered (inFlight (ringed false .data) (.head 5 0 1)) = true ∧
    (let s := (inFlight (ringed false .data) (.claim 5)).updMe fun t => { t with status := .parked .ringClaim }
     let s1 := (s.settleClaim 5 0 0).settleHead 5
     !(s.core 0).halting && (s.msg 0).any (fun m => s.claimTurn m && !s.toStopped m) && (s1.ring 5).any fun q =>
       (q.owed (0, 0)).isNone && (s1.ringCell q 0).any fun c => cellKind c == .data) = true ∧
    (let s := ringed false .end1
     (s.ring 5).any fun q => (q.owed (0, 0)).isNone && (s.ringCell q 0).any fun c => cellKind c != .data) = true ∧
    Ring.owed { id := 5, tokens := [(3, [(0, 0)])] } (0, 0) = some 3 ∧
    (let s := { paged with rings := [{ id := 5, slotsLog := 4, land := some (0, 0), landSize := 1024, boom := 0x1000 }] }
     (s.ring 5).any fun r => (s.landCell r r.head).isNone && (assoc r.ahead r.head).isNone && (s.ringCell r 0).isNone) = true ∧
    (let s := (open_ paged).updTile 0 fun _ => {}
     let cell := leBytes 8 (cellHeader true false .data 8) ++ List.replicate 120 0
     let t := { s with mem := Memory.write s.mem (0x1000 + 128 * 8) cell }
     match t.homeRead .engine 0 0 (0x1000 + 128 * 8) 128 .noal true with
      | .ok b _ => cellFull b 8
      | _ => false) = true ∧
    (4096 ≤ (waits .ready 4095).cycleOf 0 + 1 ∧ 65536 ≤ (waits .ready 65535).cycleOf 0 + 1) := by decide +kernel

/-- A die with a tree of members 0 and 4, whose root is router 0 and whose router 1 hangs below it. -/
def treed : State :=
  base.updDie 0 fun d => { d with trees := d.trees.set 0 (some { members := [0, 4], routers := [(0, 0, 0, 1), (1, 0, 1, 0)] }) }

/-- For `reduction_and_recovery_steps`: a member's packet; a suspect packet in its own domain; a skid slot; a stub. -/
theorem witness_reduction_and_recovery :
    (let s := inFlight treed (.reduce 0 0 0 0 4 [1])
     answered s && ((s.dies.get 0).current 0 (routerOf 0)).isNone && ((s.dies.get 0).trees.get 0).isSome
       && dieOf (s.identity 0 0) == 0) = true ∧
    (let s := inFlight base (.probe 0)
     (s.msg 0).any fun m => m.inMesh && m.suspect.isNone && m.rescue == .no && (s.dies.get 0).stallEnd.isNone
       && s.mayWait m { router := 159, port := 6 }) = true ∧
    (let p : Suspect := { router := 0 }
     let s := { base with net := [{ id := 0, target := some (.tile 0), suspect := some p }] }
     (s.msg 0).any fun m => m.inMesh && (s.captureRide m p).isSome && s.suspectAt m p == (0, 0) && s.tokenAt 0 0
       && !s.skidWaits (0, 0)) = true ∧
    (let s := { base with net := [{ id := 0, target := some (.tile 80) }] }
     (s.msg 0).any fun m => (s.destOf m).die != some 0 && (s.rescueTo m 0 0).isSome) = true ∧
    (let s := { base with net := [{ id := 0, target := some (.tile 80), rescue := .skid 0 false false 0 }] }
     (s.msg 0).any fun m => s.skidAt m == some (4, 0) && (s.skidRide m).isSome && s.tokenAt 4 0) = true ∧
    ((inFlight base (.fill 0 1 .norm true false)).updTile 0 fun t => { t with stub := some 1 }).tiles.get 0 ≠ {} := by
  decide +kernel

/-- Context 0 runs with a live key; its page at 0 translates and every stack allows it. -/
def lived : State := (open_ paged).updCtx 0 fun x => { x with live := true, keyLive := true }

/-- Core 0 has a command. -/
def commanded (s : State) (m : Cmd) : State := s.updCore 0 fun c => { c with ctx := some 0, cmds := [m] }

/-- An access of an engine succeeds. -/
def Got.isOk : Got → Bool
  | .ok _ _ => true
  | _ => false

/-- No scan was accepted before the command with the lowest identity. -/
theorem scanBefore_first (s : State) (m : Cmd) (ch : Nat) (h : m.id = 0) : s.scanBefore m ch = false := by
  simp [State.scanBefore, h]

/-- For `engine_command_steps`: a copy's only packet and its notify word, an element of a gather, a line of a scan, one of a
prefetch and of a clean, a fault at a page that is not mapped. -/
theorem witness_engine_command_steps :
    (let m : Cmd := { kind := .copy (.loc 0) (.glob 0) 128 .norm false }
     let s := commanded lived m
     ((s.core 0).cmd 0).isSome && m.kind.isCopy && s.running 0 m && m.kind.pieces == 1 && Got.isOk (s.doPacket 0 m 0)) = true ∧
    (let m : Cmd := { kind := .copy (.glob 0) (.loc 0) 1 .norm false, comp := .notify 128, done := [0] }
     let s := commanded lived m
     s.running 0 m && m.kind.pieces ≤ m.done.length && Got.isOk (s.writeNotify 0 m 128 1)) = true ∧
    (let m : Cmd := { kind := .gather 0 0 3 1 64 }
     let s := commanded lived m
     s.running 0 m && !m.hasElem 0 && Got.isOk (s.gatherElem 0 m 0)) = true ∧
    (let m : Cmd := { kind := .scan 0 0 32 0 .i8 false 8 64 128 }
     let s := commanded lived m
     (s.nextScan m (s.channelAt 0 0 |>.getD 0)).isSome && m.id == 0 && !s.stalledWay 0 0 && !s.stalled 0
       && (m.lineOf 0).length == 0 && Got.isOk (s.scanSector 0 m 0 0)) = true ∧
    (Cmd.lineOf { lineBuf := [(0, List.replicate 128 0)] } 0).length = 128 ∧
    (let m : Cmd := { kind := .scan 0 0 32 0 .i8 false 8 64 128, done := [0] }
     m.scanLines ≤ m.done.length) ∧
    (let m : Cmd := { kind := .prefetch 0 128 2 1 .norm }
     ((commanded lived m).prefetch 0 0 128 .norm).isSome) = true ∧
    (CmdKind.clean 127 2 true).pieces = 2 ∧
    (let m : Cmd := { kind := .copy (.loc 0) (.glob 65536) 1 .norm false }
     let s := commanded lived m
     match s.cmdFault 0 m with
     | some (t, pos) => s.mayFault 0 m && (s.postEngine 0 m.slot m.kind.engine t pos false).isSome
     | none => false) = true := by decide +kernel

/-- The thread has claimed sub-array 0 and queued an operation there. -/
def tiled (k : TileOpKind) : State :=
  let q : SubArray := { claim := some (0, 0), lastCtx := some 0, queue := [{ kind := k }] }
  (base.updHere fun c => { c with ctx := some 0 }).updCluster 0 fun u => { u with tile := u.tile.set 0 q }

/-- Core 0 runs a reference stream from queue 1 to queue 2. -/
def streamed (l : List QEntry) (rob : List (Option Ahead)) : State :=
  let s := lived.updHere fun c => { c with queues := [{ id := 1, depth := 2, entries := l }, { id := 2, depth := 1 }] }
  s.updCluster 0 fun u => { u with accel := some { qi := 1, qv := 2, size := 8, rob := rob } }

/-- For `cluster_unit_steps`: a step that is done, one that faults, a refused word; a token and an index; an entry to confirm,
with and without a value; a token and a value to deliver; a record of the cruiser. -/
theorem witness_cluster_unit_steps :
    (let s := tiled .zero
     match s.tileHead 0 0 with
     | some (op, c, k) => s.tileDue 0 op c && (match s.tileDo 0 c (s.thread c k).hctx op with
       | .done _ => true
       | _ => false)
     | none => false) = true ∧
    (let s := tiled (.load .f32 0x40000000 128)
     ((s.moveRefused 0 .independent .f32 0x40000000 128 false).min?).isSome
       && (s.postEngine 0 0 .tile { cause := .accessFault, addr := 0x40000000 } 0 false).isSome) = true ∧
    (let s := streamed [{ kind := .end1 }] []
     ((s.core 0).entries 1)[0]?.any fun e => e.kind != .data) = true ∧
    (let s := streamed [{ val := 1 }] []
     match (s.clusters.get 0).accel with
     | some a => s.confirmedAt a a.rob.length
     | none => false) = true ∧
    (let s := streamed [{ kind := .end1 }, { val := 1 }] [none]
     match (s.clusters.get 0).accel with
     | some a => !s.confirmedAt a a.rob.length && !(s.core a.core).halting
     | none => false) = true ∧
    (let s := streamed [{ val := 1 }] [some { idx := 1, stopped := true }]
     match (s.clusters.get 0).accel with
     | some a => s.confirmedAt a 0 && a.fault.isNone && ((s.core 0).queue a.qv).any fun q => q.entries.length < q.depth
     | none => false) = true ∧
    (let s := lived.updHere fun c => { c with queues := [{ id := 1, depth := 1 }] }
     let t := s.updCluster 0 fun u => { u with cruiser := some { q := 1, levels := [(1, 8)], idx := [0] } }
     match (t.clusters.get 0).cruiser with
     | some r => ((t.core 0).queue r.q).any (fun q => q.entries.length < q.depth) && r.cycle != some (t.cycleOf 0)
     | none => false) = true := by decide +kernel

/-- A packet for any core. -/
def packet : Packet := { id := 7, fmts := List.replicate 6 0 }

/-- Context 0 with the launch queue enabled and one entry behind HEAD, whose bytes stand at 0. -/
def queued (b : List Byte) : State :=
  let s := lived.updCtx 0 fun x => { x with lqen := true, lqtail := 1 }
  { s with mem := Memory.write s.mem (s.walk 0 0 |> fun w => match w with
    | .leaf level e => leafPa level e 0
    | _ => 0) b }

/-- Context 0 runs a graph of the nodes given. -/
def graphed (l : List Node) : State := lived.updCtx 0 fun x => { x with graphs := [{ id := 1, nodes := l }] }

/-- A packet entry with nothing but a 4-aligned start, for context 0. -/
def entryBytes : List Byte := List.replicate 128 0

/-- For `launch_steps`: an entry that reads and one that does not; a packet for a die; a graph start; a node of each kind that
is ready; a launch that is over; a loop at its last pass and before it; an object that is written. -/
theorem witness_launch_steps :
    (let s := queued (1 :: List.replicate 15 0 ++ [1] ++ List.replicate 111 0)
     match s.ctlRead 0 0 128 with
     | .ok b t => (t.takeBytes 0 b).isSome && (graphOf 0 b).isSome
     | _ => false) = true ∧
    (match lived.ctlRead 0 65536 128 with
     | .fault _ => true
     | _ => false) = true ∧
    (let s := lived.updCtx 0 fun x => { x with list := [.packet packet] }
     (s.nextPacket 0 == some packet) && (s.dieFor packet).isSome && s.served == some 0
       && s.dies.toList.all fun d => d.stallEnd.isNone) = true ∧
    (match lived.readNodes 0 0 1 with
     | .ok (l, none) t => l.length == 1 && t.nodeOk 0 l 0 (l.getD 0 {})
     | _ => false) = true ∧
    (match (graphed [{ kind := .cond 0 1 2 }, {}, {}]).predicate 0 0 with
     | .ok v _ => v == 0
     | _ => false) = true ∧
    (let s := graphed [{ kind := .loop 0 1 1 3 }, {}, { kind := .completion 0 true }, { kind := .cond 0 1 1 }, { kind := .launch 0 }]
     match (s.ctxs.get 0).graph 1 with
     | some g => s.graphsRun 0 && g.ready 0 && g.ready 2 && g.ready 4
     | none => false) = true ∧
    ((graphed [{}]).startLaunch 0 1 0 65536).isSome = true ∧
    (State.launchOver { graphed [{ state := .started }] with launches := [{ id := 3, node := some (1, 0) }] } 3) = true ∧
    (match (graphed [{ kind := .loop 0 1 1 3, state := .started, pass := 2 }, { state := .complete }]).ctxs.get 0 |>.graph 1 with
     | some g => !g.ready 1 && (g.node 0).pass < 3
     | none => false) = true ∧
    (match lived.signalObject 0 0 with
     | .ok _ _ => true
     | _ => false) = true ∧
    (let s := graphed [{ kind := .completion 0 true, state := .started }]
     match (s.ctxs.get 0).graph 1 with
     | some g => g.object 0 == some (0, true)
     | none => false) = true := by decide +kernel

/-- A reset package that has booted, with context 0 live and a core that holds it idle. -/
def idle : State := State.updCtx { State.reset with boot := .up } 0 fun x => { x with live := true, keyLive := true }

/-- For `dispatch_and_stealing`: a task and a packet that fit; a die that is idle beside one with a packet; a core with nothing
to run beside one with a task that may leave; an entry that has waited for as long as it must. -/
theorem witness_dispatch_and_stealing :
    (let s := idle.updCore 0 fun c => { c with ctx := some 0, deque := [{}] }
     (s.nextTask 0).isSome) = true ∧
    (let s := (idle.updCore 0 fun c => { c with ctx := some 0 }).updDie 0 fun d => { d with ready := [packet] }
     (s.nextTask 0).isNone && (s.nextReady 0).isSome) = true ∧
    (let s := (idle.updCore 0 fun c => { c with ctx := some 0 }).updDie 1 fun d => { d with ready := [packet] }
     (s.dies.get 0).stealEast && s.dieIdle 0 && (oldestPacket ((s.dies.get 1).ready.filter fun p =>
       p.affk == 0 && (s.startPacket 0 p).isSome)).isSome && (s.dies.get 0).stallEnd.isNone && (s.dies.get 1).stallEnd.isNone)
      = true ∧
    (let s := (idle.updCore 1 fun c => { c with ctx := some 0, deque := [{ aff := .clu }] }).updCore 0 fun c => { c with ctx := some 0 }
     s.asksNext 0 == some 1 && (s.core 0).freeSlot.isSome && (s.nextTask 0).isNone && !s.readyFits 0
       && (s.core 0).stealAt.2.isNone && (s.stealable 0 1).isSome && (s.stealable 0 2).isNone) = true ∧
    (let s := (idle.updCore 0 fun c => { c with deque := [{ aff := .pkg }] }).updDie 0 fun d => { d with cycle := 4096 }
     (s.dies.get 0).migr.toNat * 256 ≤ DequeEntry.waited {} (s.cycleOf 0)) ∧
    (stealOrder 45).map Fin.val = [44, 46, 47, 40, 41, 42, 43, 48, 49, 50, 51, 4, 5, 6, 7, 84, 85, 86, 87] := by decide +kernel

/-- A context that halts, with the core that holds it. -/
def halting (l : List L1Line) : State :=
  (idle.updCtx 0 fun x => { x with runState := .halting }).updCore 0 fun c => { c with ctx := some 0, halting := true, l1d := l }

/-- For `preemption_steps`: a context that runs, one that halts with and without lines, with and without a request out; a saved
one and a place; a supervisor's record and its trap. -/
theorem witness_preemption_steps :
    ((idle.ctxs.get 0).live && (idle.ctxs.get 0).runState == .running) = true ∧
    ((halting [{}]).settled 0 && !(halting [{}]).l1Clean 0) = true ∧ ((halting []).settled 0 && (halting []).l1Clean 0) = true ∧
    (inFlight (halting []) (.writeback 0 0 0 .norm)).settled 0 = false ∧
    (let s := idle.updCtx 0 fun x => { x with run := true, runState := .saved, savedCores := [{ home := 0 }] }
     s.placeOk (s.moves 0 [4])) = true ∧
    ((base.updHere fun c => { c with ctx := some 0, kamgor := some (.forwarded []) }).here.kamgor).isSome = true ∧
    ((base.updHere fun c => { c with ctx := some 0, kamgor := some (.stopped {}) }).here.ctx) = some 0 := by decide +kernel

/-- The mailbox is busy with an operation on context 0; its block is at 0. -/
def mailbox (op : Word) (b : List Byte) (live : Bool) : State :=
  let s := idle.updCtx 0 fun x => { x with live := live }
  let m := Memory.write [] 0 b
  { s with mbbusy := true, mbcmd := op, hostMem := m, mbblk := (0, m.read 0 1024) }

/-- For `mailbox_commands`: blocks that are accepted and blocks that are not. -/
theorem witness_mailbox_commands :
    (let s := mailbox 1 ([1, 0, 0, 0] ++ List.replicate 38 0 ++ [0x20, 0, 0, 0, 0, 0, 1]) false
     s.mbCtx == some 0 && createOk 0 (s.mbBlock 256)) = true ∧
    createOk 0 ((mailbox 1 [2] false).mbBlock 256) = false ∧
    (let s := mailbox 3 (List.replicate 18 0 ++ [1] ++ List.replicate 6 0 ++ [4]) true
     match mapRecOf (s.mbBlock 32) with
     | some r => (s.mapRange 0 r).isSome
     | none => false) = true ∧
    mapRecOf ((mailbox 3 [1] true).mbBlock 32) = none ∧
    (let s := mailbox 4 (List.replicate 18 0 ++ [1]) true
     match rangeOf (s.mbBlock 32) with
     | some (va, len, _) => (s.unmapRange 0 va len).isSome
     | none => false) = true ∧
    fieldOf ((mailbox 5 [] true).mbBlock 400) 0 4 = 0 ∧
    (let s := mailbox 5 ([1] ++ List.replicate 24 0 ++ [1] ++ List.replicate 6 0 ++ [1, 1]) true
     let t := s.updCtx 0 fun x => { x with pt := [((0, 0), 1), ((1, 0), 1), ((2, 0), 1), ((3, 0), 0x3E3)] }
     match winReqOf (((t.mbBlock 400).drop 16).take 48) with
     | some r => (t.addWindow 0 r).isSome
     | none => false) = true ∧
    (let s := mailbox 6 (List.replicate 16 0 ++ [1, 0, 0, 0, 1]) true
     (treeOf 0 ((s.mbBlock 1024).drop 16)).isSome) = true ∧
    treeOf 0 (((mailbox 6 [] true).mbBlock 1024).drop 16) = none ∧ (mailbox 7 [] true).mbblk.1 % 256 = 0 := by
  decide +kernel

/-- Cores at reset hold no context. -/
theorem idleCtx_reset (s : State) (ctx : Ctx) (h : s.cores = .replicate 1280 {}) : s.idleCtx ctx = true := by
  have hc : ∀ c, (s.core c) = {} := fun c => by
    unfold State.core
    rw [h]
    exact Vector.getElem_replicate c.isLt
  have hh : s.holders ctx = [] := List.filter_eq_nil_iff.mpr fun c _ => by simp [hc c]
  unfold State.idleCtx
  rw [hh, h, Vector.toList_replicate, Bool.and_eq_true, List.all_eq_true]
  exact ⟨rfl, fun x hx => by rw [List.eq_of_mem_replicate hx]; rfl⟩

/-- For `mailbox_commands`: a context that has ended, saved and quiet; one that is idle and one that is not. -/
theorem witness_quiet_context :
    (State.quietCtx ((mailbox 2 [] true).updCtx 0 fun x => { x with ending := true, runState := .saved }) 0) = true ∧
    (mailbox 5 [] true).idleCtx 0 = true ∧ (halting []).idleCtx 0 = false := by
  refine ⟨?_, idleCtx_reset _ _ rfl, ?_⟩
  · unfold State.quietCtx
    rw [idleCtx_reset _ _ rfl]
    rfl
  · have h : (0 : CoreId) ∈ (halting []).holders 0 :=
      List.mem_filter.mpr ⟨List.mem_finRange _, by decide +kernel⟩
    unfold State.idleCtx
    cases hl : (halting []).holders 0 with
    | nil => rw [hl] at h; cases h
    | cons a l => rfl

/-- For `registers_and_interfaces`: tails at the ring's size and past it; an access that the control die allows and one that it
does not; host reads and writes; requests at the host's and a peer's window; an extent that is granted. -/
theorem witness_registers_and_interfaces :
    ((16#32 - (idle.ctxs.get 0).lqhead).toNat ≤ 2 ^ (idle.ctxs.get 0).lqlog.toNat ∧
      2 ^ (idle.ctxs.get 0).lqlog.toNat < (17#32 - (idle.ctxs.get 0).lqhead).toNat) ∧
    (aclAllows base.ctlAcl.toList .host 0 0x10 false true = false ∧ DevReg.hostOffset .majcfg = none ∧
      DevReg.hostOffset (.ctxctl 63) = some 0x3F040 ∧
      aclAllows (base.ctlAcl.set 0 { w0 := 0x31, w1 := 0xFFFFFFFFFFFFF700 }).toList .host 0 0x3F040 false true = true) ∧
    wbits (4 * 2 ^ 9) 11 9 ≤ 4 ∧ aclAllows base.ctlAcl.toList .core 0 0 true false = false ∧
    aclAllows (base.ctlAcl.set 0 { w0 := 0x31, w1 := 0xFFFFFFFFFFFFF100 }).toList .core 0 0 true false = true ∧
    (match lived.hostRead .host 0 0 8, lived.hostRead .host 0 65536 8 with
     | .ok _ _, .fault _ => true
     | _, _ => false) = true ∧
    (match lived.hostAtomic .host 0 0 8 .add 1 0, lived.hostAtomic .host 0 1 8 .add 1 0 with
     | .ok _ _, .fault _ => true
     | _, _ => false) = true ∧ HostOp.atomic (.fetchAdd 1) = some (.add, 1, 0) ∧
    (lived.hostWriteLine .host 0 0 [1]).isSome = true ∧ lived.hostHeld 0 0 1 = false ∧ (lived.hostWriteLine .host 0 65536 [1]).isNone = true ∧
    (let s := inFlight base (.host 0 0 (.read 8) none)
     (s.msg 0).any fun m => s.atHome m) = true ∧
    (let s := inFlight base (.peer 0 0 (.write [1]) none)
     ((s.msg 0).any fun m => s.atHome m) && (s.peers.get 0).up) = true ∧
    (let s := State.updDie { base with cxl := true, extents := [(1023, 1)] } 0 id
     (assoc s.extents 1023).isSome && !s.revoked.contains 1023 && (assoc s.extents 0).isNone) = true := by decide +kernel

/-- A far device either allows an access or does not: each clause of `registers_and_interfaces` on peers has a case. -/
theorem witness_far_access (c v n : Nat) (w : Bool) :
    Config.farAccess c v n w = true ∨ Config.farAccess c v n w = false := by
  cases Config.farAccess c v n w <;> simp

/-- For `stack_steps`: a copy that is judged; a reply of a read and of a store; stacks IN with their triple, OFFLINE and in
CATCHUP at their last granule and before it; a row to capture. -/
theorem witness_stack_steps :
    ((base.hbm.get 0).judge 0 1 1 none).isSome = true ∧ (Stack.judge { state := .offline } 0 1 1 none).isNone = true ∧
    ((Stack.copy {} 0).err = none ∧ tagNewer 1 (Stack.copy {} 0).tag = true ∧ tagNewer 0 (Stack.copy {} 0).tag = false) ∧
    (let s := { inFlight base (.majRead 0 0 0) (.reply (List.replicate 72 0) 0 .none) with majOps := [{ asked := [0] }] }
     (s.msg 0).any (fun m => m.moving && !s.stalledMsg m) && s.majOps.any fun o => o.winner.isNone && !o.done && o.asked.contains 0)
      = true ∧
    (base.travelled 0 = false ∧ State.travelled { base with time := 3 * tickUnits } 0 = true) ∧
    (base.matesIn 0 = true ∧ (base.hbm.get 0).state = .in_) ∧
    State.matesIn (base.updStack 4 fun x => { x with state := .failed }) 0 = false ∧ 0 < State.granules { base with rsize := 1 } ∧
    State.granules base = 0 ∧ 2 ≤ (base.inStacks 0).length ∧
    (match base.region 0 with
     | .hbm _ _ => assoc base.errors 0 != some false
     | _ => false) = true ∧
    (0 : TileId) ≠ 79 ∧ dieOfTile 0 = dieOfTile 79 ∧ (base.tiles.get 0).stub = none ∧
    (base.hbm.get 0).captured.contains [0] = false ∧ base.captureWin = base.ticks / 32000000 ∧
    ({ base with time := 32000000 * tickUnits } : State).captureWin < 1 := by decide +kernel

/-- For `clocks_resets_and_boot`: TGT at 6 and 7; a switch at 1,000 ticks' notice and one tick less; a switch that is due; a
stall that has ended; a die in reset; an image that does not pass; the last module of a link. -/
theorem witness_clocks_resets_and_boot :
    (6 * 256 / 256 % 16 ≤ 6 ∧ 6 < 7 * 256 / 256 % 16 ∧ (base.dies.get 0).at_ = 0) ∧
    base.ticks + 1000 ≤ (BitVec.ofNat 64 1000).toNat ∧ (BitVec.ofNat 64 999).toNat < base.ticks + 1000 ∧
    (let s := State.updDie { base with time := 1113840 * 2000 } 0 fun d => { d with at_ := 2000, stallEnd := some 2000 }
     (s.dies.get 0).at_ ≠ 0 ∧ (s.dies.get 0).at_.toNat ≤ s.ticks) ∧
    (base.dies.get 0).inReset = false ∧ (∀ m ∈ base.net, dieOf m.core ≠ 0) ∧
    State.reset.boot = .start ∧ imageCode 1 [] = 1 ∧
    (State.reset.links.get 7 &&& ~~~(1#12 <<< 11)) ≠ 0 ∧ ((1#12 <<< 11) &&& ~~~(1#12 <<< 11)) = 0 := by decide +kernel

/-- An image passes when what is fused into the part and its signature say so: the condition that `clocks_resets_and_boot`
names rests on the constants of Config alone. -/
theorem witness_image (b : List Byte) (hm : fieldOf b 0 4 = 0x534B4657) (hk : fieldOf b 4 1 = 1)
    (hr : Config.revoked (fieldOf b 5 1) = false) (hs : ¬ 3 < fieldOf b 5 1)
    (hh : Config.shake256 ((b.drop 24).take 57) = Config.fusedHash (fieldOf b 5 1))
    (hv : ¬ fieldOf b 8 4 < Config.minVersion 1)
    (hl : ¬ (fieldOf b 12 4 < 1 ∨ 2 ^ 28 < fieldOf b 12 4 ∨ b.length < 256 + fieldOf b 12 4))
    (hg : Config.ed448Verify ((b.drop 24).take 57) ((b.drop 128).take 114) (Config.shake256 (signedPart b)) = true) :
    imageCode 1 b = 0 := by
  simp only [imageCode, hm, hk, hr, hs, hh, hv, hl, hg]
  simp

/-- For `a_step_runs_the_decoded_instruction`: a core that issues; a device step. -/
theorem witness_a_step :
    (base.chosen 0).isSome = true ∧ (base.cycleStart.chosen 0).isSome = true ∧ base.me.loads = [] ∧
    (base.dies.get 0).nextClock = some (base.time, .cycle) ∧
    ((base.updMe fun t => { t with xpend := 1 <<< 6, status := .waiting (.regs 64 0) }).notReady 0 0 = true ∧
      base.notReady 0 0 = false) ∧
    isEvent .packageReset = true ∧ (match decode 0x007302B3#32 with
      | .ok (.add d a b) => d == 5 && a == 6 && b == 7
      | _ => false) = true := by decide +kernel

/-- For `decoding_inverts_encoding` and `encoding_inverts_decoding`: an instruction that is well formed, and its word. -/
theorem witness_encoding : Instr.wf (.add 5 6 7) = true ∧ encode (.add 5 6 7) = some 0x007302B3#32 ∧
    decode 0x007302B3#32 = .ok (.add 5 6 7) := by decide +kernel

/-- For `memory_form_is_kept`: states of the form in which a step answers a next state. -/
theorem witness_memory_form :
    (Memory.wf (queued [1, 0, 2]).mem && Memory.wf (queued [1, 0, 2]).vault && Memory.wf (queued [1, 0, 2]).hostMem) = true ∧
    (match step base with
     | .next t => Memory.wf t.mem
     | _ => false) = true := by decide +kernel

/-- For the cases of `barrier_objects` and `rearrangements` that wait or trap, and for `die_cycles`. -/
theorem witness_barrier_traps :
    (inFlight base (.vaultWrite 0 [1])).localStoresOut 0 0 = true ∧
    (let s := base.updHere fun c => c.setBarrier 0 { expected := 1, arrived := 2 ^ 32 - 1, armed := 1 }
     (s.here.barrier 0).armed = 1 ∧ 2 ^ 32 ≤ (s.here.barrier 0).arrived + 1) ∧
    gives2 (withX base [(20, 8), (21, 2 ^ 32)]) 20 21 8 (2 ^ 32) = true ∧ 8 % 16 ≠ 0 ∧
    base.me.allots 0 0x80000 16 = false ∧ legal base (512 / 8) (some (1, 64)) [(1, 64)] = false ∧
    (base.dies.get 3).inReset = false := by decide +kernel

/-- For the clauses of `cluster_unit_steps` on bytes held ahead: local bytes of a queued operation, and global bytes that a
speculative access reads, or that meet a fault. -/
theorem witness_tile_ahead :
    (let s := tiled .zero
     let u := (s.clusters.get 0).tile.get 0
     u.queue[0]?.any (fun o => o.after.isNone && o.ahead.isEmpty && o.step == 0 && decide (0 < o.steps)) && u.claim.isSome
       && !(s.core 0).halting && !s.stalled 0) = true ∧
    ((0, 128) ∈ TileOp.globalRuns { kind := .mma .bf16 .bf16 true false 0 0 } 0) ∧
    (match (lived.speculate 0 0 0 128).1, (lived.speculate 0 0 65536 128).1 with
     | some (some b), some none => b.length == 128
     | _, _ => false) = true := by decide +kernel

/-- The stacks also allow accesses by a far device. -/
def peered : State :=
  let e : AclEntry := { w0 := 0x31, w1 := 0xFFFFFFFFFFFFF100 + 4 * 0x200 }
  { lived with hbm := lived.hbm.map fun k => { k with acl := k.acl.set 3 e } }

/-- For the clauses of `registers_and_interfaces` on accesses by a far device: a read that is answered and one that is
refused, a write that is made and one that is refused. -/
theorem witness_far_device :
    (peered.peers.get 0).up = true ∧
    (match peered.hostRead .peer 0 0 8, peered.hostRead .peer 0 65536 8 with
     | .ok _ _, .fault _ => true
     | _, _ => false) = true ∧
    (peered.hostWriteLine .peer 0 0 [1]).isSome = true ∧ peered.hostHeld 0 0 1 = false ∧ (peered.hostWriteLine .peer 0 65536 [1]).isNone = true := by
  decide +kernel

/-- For the clauses of `completing_an_instruction`, `stores`, `control_register_accesses`, `supervisor_instructions` and
`returning_from_a_trap` on a thread that executes something again, an allocating store, registers that only read and a thread
whose message awaits its reply. -/
theorem witness_second_clauses :
    (let r : Redo := { undo := base.me.undo, dst := .x 5 8 false }
     let s := base.updMe fun t => { t with redo := [r], after := some t.undo }
     s.me.redo == [r] && s.me.after.isSome && !s.me.stepping) = true ∧
    completes (mapGlobal 0xFFFF false true false) paged (fun m t => m.ty == .normal && t.me.prog.stage == 0
      && (t.me.prog.fetched (m.pa / 128) 3).isNone && !t.lineBusy 0 (m.pa / 128) && !t.sectorBusy 0 (m.pa / 128) 3
      && !t.fetching (m.pa / 128) 3 && m.pa % 128 / 32 == 3) = true ∧
    (storeForm (.sb 6 7 0)).any (fun F => F.hintOf paged != .noal) = true ∧
    (Progress.fetched { got := [(511, 3, 0)] } 511 3).isSome = true ∧
    ((Csr.ofNumber 0xC00).any (fun r => !r.writable && !r.supervisor) && (1 : Reg) != 0) = true ∧
    ((inFlight super (.send 0 3 7)).killWaits 0 0 && (super.thread 0 0).present) = true ∧
    (super.atStage 1 []).me.prog.stage = 1 ∧
    (let s := (posted true).updThread 0 0 fun t => { t with redo := [{ undo := base.me.undo, dst := .x 5 8 false }] }
     (s.core 0).taken.any (fun r => r.names 0) && !(s.core 0).trapq.any (fun r => r.names 0) && (s.thread 0 0).after.isNone
       && (s.thread 0 0).status == .trapped) = true := by decide +kernel

/-- A thread of one row of 32 bytes whose line 0 is in the L1D. -/
def cachedRow : State := cached.updMe fun t => { t with rows := 1, rbytes := 32 }

/-- For the clauses of `vector_loads_and_stores` and `tile_forms` on vault words, on global rows, on a stride that is no
multiple of 4, and on an implicit claim. -/
theorem witness_vector_memory_rest :
    completes (loadWordsLoc (rowWords cachedRow.me 0x40000000 32)) cachedRow (fun ps _ => ps.any fun p => p.msg.isSome) = true ∧
    completes (storeWordsLoc ((rowWords cachedRow.me 0 32).map fun w => (w.1, List.replicate 4 0))) cachedRow (fun _ _ => true)
      = true ∧
    completes (loadRuns .norm false [(0xFFFC, 0, 4)]) paged (fun r _ => r.1.any fun p => p.msg.isSome) = true ∧
    completes (mapStores false true ((rowRuns cachedRow.me 0 32).map fun r => (r.1, List.replicate 32 0))) cachedRow
      (fun ps s => s.me.prog.stage == 0 && ps.all fun p => p.m.ty == .normal && s.here.l1Valid (p.m.pa / 128) (p.m.pa % 128 / 32))
      = true ∧
    completes (mapStores false false [(28, List.replicate 4 0)]) cachedRow
      (fun ps s => ps.all fun p => p.m.ty == .normal && s.here.l1Valid (p.m.pa / 128) (p.m.pa % 128 / 32)) = true ∧
    (2#64).toInt % 4 ≠ 0 ∧
    (base.myClaim.isEmpty && completes (awaitSubs (tileSubs .independent 0)) base (fun _ _ => true)
      && (tileSubs .independent 0).all fun i => (base.myUnit.tile.get i).queue.length < 8) = true := by decide +kernel

/-- For the clauses of `stack_steps`, `preemption_steps` and `mailbox_commands` on a copy that is refused or comes late, a store
whose replies come from stacks IN, a thread that a kill has stopped, and END, which has no block. -/
theorem witness_stack_rest :
    (base.copyRefused {} 0 0 false = true ∧ base.copyRefused {} 0 0 true = false) ∧
    ({ absent := true } : Msg).absent = true ∧ ({} : Msg).absent = false ∧
    (let o : MajOp := { stamped := some 0, asked := [0], acks := [(0, true), (4, true)] }
     (State.settleStores { base with majOps := [o] }).majOps.all (fun o => o.done) && (base.hbm.get 4).state == .in_) = true ∧
    (let s := ((halting []).updThread 0 0 fun t => { t with status := .waiting (.slotFree 0) })
     (s.thread 0 0).killing && !s.settled 0 && (s.endKills 0).settled 0 && (s.endKills 0).l1Clean 0) = true ∧
    (let s := { mailbox 2 [] true with mbblk := (1, []) }
     wbits s.mbcmd 7 0 = 2 ∧ s.mbblk.1 % 256 ≠ 0) := by decide +kernel

end Sys2Proof.Tests
end

section
/-! SUPPORT. A trap that a work thread takes by its own instruction (R91, R304): the state after it, in one
equation, and the statement `trapping_instructions`. -/

namespace Sys2Proof.Machine

/-! ## The issuing thread's core replaced -/

@[simp] theorem State.here_setCore (s : State) (x : Core) : (s.setCore s.issuer.1 x).here = x :=
  State.core_setCore_same s s.issuer.1 x

@[simp] theorem State.me_setCore (s : State) (x : Core) : (s.setCore s.issuer.1 x).me = x.thread s.issuer.2 :=
  congrArg (Core.thread · s.issuer.2) (s.here_setCore x)

/-- Nothing outside the cores changes with one of them. -/
theorem State.sameOutside_setCore (s : State) (c : CoreId) (x : Core) : s.sameOutside (s.setCore c x) := rfl

/-- Of the cores only the issuer's trap queue and its thread change when a record is posted and the thread replaced. -/
theorem State.sameCores_posted (s : State) (n : Nat) (r : TrapRecord) (t : Thread) :
    s.sameCores (s.setCore s.issuer.1 ((s.here.postAt n r).setThread s.issuer.2 t)) := by
  refine ⟨fun c hc => State.core_setCore_other s _ c _ hc, ?_, fun k hk => ?_⟩
  · rw [State.here_setCore]
    rfl
  · show ((s.setCore s.issuer.1 _).core s.issuer.1).thread k = s.here.thread k
    rw [State.core_setCore_same, Core.thread_setThread_other _ _ _ _ hk]
    rfl

/-! ## Taking a trap (R304) -/

/-- A thread that a trap has stopped at its instruction. -/
def Thread.trapped (t : Thread) : Thread := { t with status := .trapped, stepping := false, prog := {}, inRep := false }

/-- A thread that stands at no `waita` and no `rseq` is taken from none. -/
theorem State.unwait_eq_self {s : State} {c : CoreId} {k : Slot} (hr : (s.thread c k).status ≠ .parked .registered)
    (hc : (s.thread c k).status ≠ .parked .ringClaim) : s.unwait c k = s := by
  unfold State.unwait
  split
  · next h => exact absurd h hr
  · next h => exact absurd h hc
  · rfl

/-- A work thread's trap stops the thread and posts its record, and changes nothing else. -/
theorem State.takeTrap_of_work {s : State} {c : CoreId} {k : Slot} (i : TrapInfo) (hk : k ≠ 15)
    (hr : (s.thread c k).status ≠ .parked .registered) (hc : (s.thread c k).status ≠ .parked .ringClaim) :
    s.takeTrap c k i =
      s.setCore c (((s.core c).postAt (s.cycleOf c) (s.record c k i)).setThread k (s.thread c k).trapped) := by
  simp only [State.takeTrap, State.unwait_eq_self hr hc, if_neg hk, State.post, State.updCore_eq, State.updThread_eq,
    State.core_setThread_same]
  simp only [State.setThread, State.setCore, set_set_same]
  rfl

/-! ## The instructions -/

/-- `ecall` and `ebreak` of a work thread, and a word that is no instruction, trap with their causes. -/
theorem exec_trapping {s : State} {i : Instr} {w : BitVec 32} {c : Cause} (hk : s.issuer.2 ≠ 15)
    (h : (i, c) ∈ [(Instr.ecall, Cause.ecall), (.ebreak, .ebreak), (.illegalInstruction w, .illegalInstruction)]) :
    exec i s = .next (s.takeTrap s.issuer.1 s.issuer.2 { cause := c }) := by
  simp only [List.mem_cons, Prod.mk.injEq, List.not_mem_nil, or_false] at h
  obtain ⟨rfl, rfl⟩ | ⟨rfl, rfl⟩ | ⟨rfl, rfl⟩ := h
  · show execEcall s = _
    exact runM_trap (by rw [if_neg hk, trapWith_run])
  · exact runM_trap (trapWith_run ..)
  · exact runM_trap (trapWith_run ..)

end Sys2Proof.Machine

section

open Sys2Proof Sys2Proof.Machine

/-- Settles O13: the state after the trap is the old one with the record posted and the thread stopped. -/
theorem trappingInstructions : Obligations.trapping_instructions := by
  intro s w i c hk hr hc hi
  refine ⟨_, s.record s.issuer.1 s.issuer.2 { cause := c }, exec_trapping hk hi, rfl, ?_⟩
  rw [State.takeTrap_of_work { cause := c } hk hr hc]
  simp only [State.me_setCore, State.here_setCore, Core.thread_setThread_same]
  exact ⟨rfl, rfl, rfl, rfl, rfl, rfl, rfl, rfl, rfl, rfl, rfl, State.sameOutside_setCore s _ _,
    State.sameCores_posted s _ _ _⟩

end
end

section
/-! SUPPORT. What the integer forms compute (R78, R79, R94, R95): the model's arithmetic in the terms of the spec's
tables, which form each instruction is, and the statement `integer_forms_write_their_results`. -/

namespace Sys2Proof.Machine

/-! ## Comparisons, shift amounts and 32-bit forms (R78) -/

theorem ofBool_slt (x y : Word) : ofBool (x.slt y) = bitWord (x.toInt < y.toInt) := by
  simp only [ofBool, bitWord, BitVec.slt_eq_decide, decide_eq_true_eq]

theorem ofBool_ult (x y : Word) : ofBool (x.ult y) = bitWord (x.toNat < y.toNat) := by
  simp only [ofBool, bitWord, BitVec.ult_eq_decide, decide_eq_true_eq]

theorem amt6_eq_mod (y : Word) : amt6 y = y.toNat % 64 := by
  simp only [amt6, wbits, bits, Nat.reducePow, Nat.reduceAdd, Nat.reduceSub, Nat.div_one]

theorem wForm_eq_low32 (f : BitVec 32 → BitVec 32 → BitVec 32) (x y : Word) :
    wForm f x y = (f (x.extractLsb' 0 32) (y.extractLsb' 0 32)).signExtend 64 := by
  simp only [wForm, BitVec.setWidth_eq_extractLsb' (show 32 ≤ 64 by decide)]

theorem sext12_low32 (imm : BitVec 12) : (sext12 imm).extractLsb' 0 32 = imm.signExtend 32 := by
  ext i hi
  have h64 : i < 64 := by omega
  simp [sext12, BitVec.getElem_signExtend, h64, BitVec.getLsbD_eq_getElem]

/-- The 5-bit amount of an immediate W shift passes through the register width unchanged. -/
theorem amt5_immediate (sh : BitVec 5) : amt5 ((sh.setWidth 64).extractLsb' 0 32) = sh.toNat := by
  simp only [amt5, BitVec.extractLsb'_toNat, BitVec.toNat_setWidth, Nat.shiftRight_zero]
  omega

/-! ## Products (R78) -/

/-- The upper half of a product is bits 127:64 of it modulo 2^128. -/
theorem mulHigh_eq_extract (p : Int) : mulHigh p = (BitVec.ofInt 128 p).extractLsb' 64 64 := by
  apply BitVec.eq_of_toNat_eq
  simp only [mulHigh, BitVec.toNat_ofInt, BitVec.extractLsb'_toNat, Nat.shiftRight_eq_div_pow]
  omega

theorem ofInt_toNat_eq_zeroExtend {w v : Nat} (x : BitVec w) : BitVec.ofInt v x.toNat = x.zeroExtend v := by
  rw [BitVec.ofInt_natCast, BitVec.ofNat_toNat]

theorem mulHigh_signed (x y : Word) :
    mulHigh (x.toInt * y.toInt) = (x.signExtend 128 * y.signExtend 128).extractLsb' 64 64 := by
  rw [mulHigh_eq_extract, BitVec.ofInt_mul]
  rfl

theorem mulHigh_mixed (x y : Word) :
    mulHigh (x.toInt * y.toNat) = (x.signExtend 128 * y.zeroExtend 128).extractLsb' 64 64 := by
  rw [mulHigh_eq_extract, BitVec.ofInt_mul, ofInt_toNat_eq_zeroExtend]
  rfl

theorem mulHigh_unsigned (x y : Word) :
    mulHigh (x.toNat * y.toNat) = (x.zeroExtend 128 * y.zeroExtend 128).extractLsb' 64 64 := by
  rw [mulHigh_eq_extract, BitVec.ofInt_mul, ofInt_toNat_eq_zeroExtend, ofInt_toNat_eq_zeroExtend]

/-! ## Quotients and remainders (R79) -/

/-- The most negative number divided by -1 wraps to itself, in the model and in the bit-vector quotient alike. -/
theorem divS_eq_sdiv {w : Nat} (x y : BitVec w) : divS x y = if y = 0 then -1 else x.sdiv y := by
  unfold divS
  split
  · exact BitVec.neg_one_eq_allOnes.symm
  · apply BitVec.eq_of_toInt_eq
    rw [BitVec.toInt_ofInt, BitVec.toInt_sdiv]

theorem divU_eq_udiv {w : Nat} (x y : BitVec w) : divU x y = if y = 0 then -1 else x / y := by
  unfold divU
  split
  · exact BitVec.neg_one_eq_allOnes.symm
  · rw [← BitVec.toNat_udiv, BitVec.ofNat_toNat, BitVec.setWidth_eq]

theorem remS_eq_srem {w : Nat} (x y : BitVec w) : remS x y = if y = 0 then x else x.srem y := by
  simp only [remS, ← BitVec.toInt_srem, BitVec.ofInt_toInt]

theorem remU_eq_umod {w : Nat} (x y : BitVec w) : remU x y = if y = 0 then x else x % y := by
  simp only [remU, ← BitVec.toNat_umod, BitVec.ofNat_toNat, BitVec.setWidth_eq]

/-! ## Bit fields (R94) -/

theorem fieldOff_eq_mod (y : Word) : fieldOff y = y.toNat % 128 := by
  simp only [fieldOff, wbits, bits, Nat.reducePow, Nat.reduceAdd, Nat.reduceSub, Nat.div_one]

theorem fieldWidth_eq_descWidth (y : Word) : fieldWidth y = descWidth y := by
  simp only [fieldWidth, descWidth, fieldOff, wbits, bits, BitVec.extractLsb'_toNat, Nat.shiftRight_eq_div_pow]
  split <;> omega

theorem descWidth_le (y : Word) : descWidth y ≤ 64 := by
  rw [← fieldWidth_eq_descWidth, fieldWidth]
  omega

@[simp] theorem lowMask_zero : lowMask 0 = 0 := rfl

/-- At width 64 the shifted one falls out and the mask is all ones. -/
theorem lowMask_toNat {w : Nat} (h : w ≤ 64) : (lowMask w).toNat = 2 ^ w - 1 := by
  obtain h | rfl := Nat.lt_or_eq_of_le h
  · have hlt : 2 ^ w < 2 ^ 64 := Nat.pow_lt_pow_right (by decide) h
    have hpow : (1#64 <<< w).toNat = 2 ^ w := by
      rw [BitVec.toNat_shiftLeft, Nat.shiftLeft_eq, BitVec.toNat_ofNat, Nat.one_mod, Nat.one_mul, Nat.mod_eq_of_lt hlt]
    have hone : (1 : Word).toNat = 1 := rfl
    rw [lowMask, BitVec.toNat_sub_of_le (by rw [BitVec.le_def, hpow]; exact Nat.one_le_two_pow), hpow, hone]
  · rfl

theorem and_lowMask {w : Nat} (h : w ≤ 64) (z : Word) : z &&& lowMask w = BitVec.ofNat 64 (z.toNat % 2 ^ w) := by
  apply BitVec.eq_of_toNat_eq
  rw [BitVec.toNat_and, lowMask_toNat h, Nat.and_two_pow_sub_one_eq_mod, BitVec.toNat_ofNat,
    Nat.mod_eq_of_lt (Nat.lt_of_le_of_lt (Nat.mod_le _ _) z.isLt)]

theorem ofNat_mask_eq_shift {w : Nat} (h : w ≤ 64) (off : Nat) :
    BitVec.ofNat 64 ((2 ^ w - 1) * 2 ^ off) = lowMask w <<< off := by
  apply BitVec.eq_of_toNat_eq
  rw [BitVec.toNat_shiftLeft, lowMask_toNat h, Nat.shiftLeft_eq, BitVec.toNat_ofNat]

theorem toNat_div_pow_eq_shift (x : Word) (n : Nat) : x.toNat / 2 ^ n = (x >>> n).toNat := by
  rw [BitVec.toNat_ushiftRight, Nat.shiftRight_eq_div_pow]

theorem toSigned_low_bits (w : Nat) (z : Word) : toSigned w (z.toNat % 2 ^ w) = (z.setWidth w).toInt := by
  simp only [toSigned, BitVec.toInt, BitVec.toNat_setWidth, Nat.mod_mod]

/-- Widening the low `w` bits by sign is shifting them to the top and back. -/
theorem signExtend_setWidth_eq_shifts {w : Nat} (hw : w ≤ 64) (h0 : w ≠ 0) (z : Word) :
    (z.setWidth w).signExtend 64 = (z <<< (64 - w)).sshiftRight (64 - w) := by
  ext i hi
  rw [BitVec.getElem_signExtend, BitVec.getElem_sshiftRight]
  by_cases h : i < w
  · have h1 : 64 - w + i < 64 := by omega
    have h2 : 64 - w + i - (64 - w) = i := by omega
    simp [h, h1, h2, ← BitVec.getLsbD_eq_getElem]
  · have h1 : ¬ 64 - w + i < 64 := by omega
    have h2 : 63 - (64 - w) = w - 1 := by omega
    have h3 : ¬ 63 < 64 - w := by omega
    have h4 : w - 1 < w := by omega
    simp [h, h1, h2, h3, h4, BitVec.msb_eq_getLsbD_last, -BitVec.getLsbD_eq_getElem]

theorem extractField_signed (x y : Word) :
    extractField true x y =
      if descWidth y = 0 then 0
      else ((x >>> (y.toNat % 128)) <<< (64 - descWidth y)).sshiftRight (64 - descWidth y) := by
  simp only [extractField, fieldWidth_eq_descWidth, fieldOff_eq_mod, toNat_div_pow_eq_shift, toSigned_low_bits, if_true]
  refine if_ctx_congr Iff.rfl (fun _ => rfl) fun h0 => ?_
  exact signExtend_setWidth_eq_shifts (descWidth_le y) h0 _

theorem extractField_unsigned (x y : Word) :
    extractField false x y = (x >>> (y.toNat % 128)) &&& lowMask (descWidth y) := by
  rw [and_lowMask (descWidth_le y)]
  simp only [extractField, fieldWidth_eq_descWidth, fieldOff_eq_mod, toNat_div_pow_eq_shift, Bool.false_eq_true, if_false]
  split
  · next h => rw [h, Nat.pow_zero, Nat.mod_one, BitVec.ofNat_eq_ofNat]
  · rfl

/-- A field of width 0 inserts nothing: its mask is 0. -/
theorem insertField_eq_masked (old x y : Word) :
    insertField old x y =
      (old &&& ~~~(lowMask (descWidth y) <<< (y.toNat % 128))) |||
        ((x &&& lowMask (descWidth y)) <<< (y.toNat % 128)) := by
  simp only [insertField, fieldWidth_eq_descWidth, fieldOff_eq_mod, ofNat_mask_eq_shift (descWidth_le y),
    BitVec.shiftLeft_and_distrib]
  split
  · next h =>
    simp only [h, lowMask_zero, BitVec.ofNat_eq_ofNat, BitVec.zero_shiftLeft, BitVec.and_zero, BitVec.or_zero,
      BitVec.not_zero, BitVec.and_allOnes]
  · rfl

/-! ## Bit counts and byte order (R95) -/

theorem popcount_eq_length_filter {w : Nat} (v : BitVec w) :
    popcount v = ((List.range w).filter fun i => v.getLsbD i).length := by
  have go : ∀ (l : List Nat) (n : Nat),
      l.foldl (fun n i => n + (v.getLsbD i).toNat) n = n + (l.filter fun i => v.getLsbD i).length := by
    intro l
    induction l with
    | nil => intro n; rfl
    | cons i l ih =>
      intro n
      rw [List.foldl_cons, ih, List.filter_cons]
      cases v.getLsbD i with
      | false => rfl
      | true => simp only [Bool.toNat_true, if_true, List.length_cons]; omega
  exact (go (List.range w) 0).trans (Nat.zero_add _)

theorem countLeading_eq_log2 (x : Word) : countLeading x = if x = 0 then 64 else 63 - Nat.log2 x.toNat := by
  unfold countLeading leastBelow
  split
  · next h => subst h; decide
  · next h =>
    have hx : x.toNat ≠ 0 := fun e => h (BitVec.eq_of_toNat_eq e)
    have hlog : x.toNat.log2 < 64 := (Nat.log2_lt hx).mpr x.isLt
    have hfind : (List.range 64).find? (fun i => x.getLsbD (63 - i)) = some (63 - x.toNat.log2) := by
      rw [List.find?_range_eq_some]
      refine ⟨?_, List.mem_range.mpr (by omega), fun j hj => ?_⟩
      · rw [show 63 - (63 - x.toNat.log2) = x.toNat.log2 by omega]
        exact Nat.testBit_log2 hx
      · have hlt : x.toNat < 2 ^ (63 - j) := (Nat.log2_lt hx).mp (by omega)
        rw [BitVec.getLsbD, Nat.testBit_eq_false_of_lt hlt]
        rfl
    rw [hfind, Option.getD_some]

theorem toNat_append_byte {w : Nat} (a : BitVec w) (b : Byte) : (a ++ b).toNat = b.toNat + 256 * a.toNat := by
  rw [BitVec.toNat_append, ← Nat.shiftLeft_add_eq_or_of_lt b.isLt, Nat.shiftLeft_eq]
  omega

theorem leBytes_eq_extracts (x : Word) :
    leBytes 8 x.toNat = [x.extractLsb' 0 8, x.extractLsb' 8 8, x.extractLsb' 16 8, x.extractLsb' 24 8,
      x.extractLsb' 32 8, x.extractLsb' 40 8, x.extractLsb' 48 8, x.extractLsb' 56 8] := by
  simp only [leBytes, Nat.div_div_eq_div_mul, BitVec.extractLsb', Nat.shiftRight_eq_div_pow, Nat.reducePow, Nat.reduceMul,
    Nat.div_one]

/-- Spelling reversed bytes is appending them, the first byte at the top. -/
theorem reverseBytes_eq_append (x : Word) :
    reverseBytes x = x.extractLsb' 0 8 ++ x.extractLsb' 8 8 ++ x.extractLsb' 16 8 ++ x.extractLsb' 24 8
      ++ x.extractLsb' 32 8 ++ x.extractLsb' 40 8 ++ x.extractLsb' 48 8 ++ x.extractLsb' 56 8 := by
  rw [reverseBytes, leBytes_eq_extracts]
  apply BitVec.eq_of_toNat_eq
  simp only [ofBytes, List.reverse_cons, List.reverse_nil, List.nil_append, List.cons_append, ofLe, Nat.mul_zero,
    Nat.add_zero]
  simp only [← toNat_append_byte]
  rw [BitVec.toNat_ofNat, Nat.mod_eq_of_lt (BitVec.isLt _)]

/-! ## Forms that complete -/

/-- The instruction does what its form says: where the sources give values and rd takes the result, it completes
with the entries taken and the result written. -/
def Completes (i : Instr) (F : IntForm) : Prop :=
  ∀ (s t : State) (x y : Word), s.readsForm F x y → s.writable F.d →
    (s.took F.srcs).put F.d (F.f (s.x F.d) x y) = some t → exec i s = .next t.retire

/-- An instruction that runs as a form with one source, by a function equal to the table's. -/
theorem completes_unary {i : Instr} {F : IntForm} {d a : Reg} {f g : Word → Word} (hF : some (intForm1 d a f) = some F)
    (hrun : ∀ s, exec i s = runM (unary g d a) s) (hfg : ∀ x, g x = f x) : Completes i F := by
  obtain rfl := Option.some.inj hF
  obtain rfl : g = f := funext hfg
  intro s t x y hreads hwrite hput
  rw [hrun]
  apply runM_ok
  unfold unary
  rw [M.bind_ok (read1_given (d := some d) hreads fun r hr => Option.some.inj hr ▸ hwrite)]
  exact finishX_put hput

/-- An instruction that runs as a form with two sources, by a function equal to the table's. -/
theorem completes_binary {i : Instr} {F : IntForm} {d a b : Reg} {f g : Word → Word → Word}
    (hF : some (intForm2 d a b f) = some F) (hrun : ∀ s, exec i s = runM (binary g d a b) s)
    (hfg : ∀ x y, g x y = f x y) : Completes i F := by
  obtain rfl := Option.some.inj hF
  obtain rfl : g = f := funext₂ hfg
  intro s t x y hreads hwrite hput
  rw [hrun]
  apply runM_ok
  unfold binary
  rw [M.bind_ok (read2_given (d := some d) (rmw := false) hreads (fun r hr => Option.some.inj hr ▸ hwrite) (by simp))]
  exact finishX_put hput

/-- An instruction on the low 32 bits, by a function equal to the table's. -/
theorem completes_low32 {i : Instr} {F : IntForm} {d a b : Reg} {f g : BitVec 32 → BitVec 32 → BitVec 32}
    (hF : some (intFormW d a b f) = some F) (hrun : ∀ s, exec i s = runM (binary (wForm g) d a b) s)
    (hfg : ∀ x y, g x y = f x y) : Completes i F :=
  completes_binary hF hrun fun x y => by rw [wForm_eq_low32, hfg]

/-- `bfi` reads rd's old value too, so rd is no port (R77). -/
theorem bfi_completes {d a b : Reg} {F : IntForm} (hF : intForm (.bfi d a b) = some F) {s t : State} {x y : Word}
    (hreads : s.readsForm F x y) (hwrite : s.writable F.d) (hd : s.me.binding d = none)
    (hput : (s.took F.srcs).put F.d (F.f (s.x F.d) x y) = some t) : exec (.bfi d a b) s = .next t.retire := by
  obtain rfl := Option.some.inj hF
  refine runM_ok ?_
  rw [M.bind_ok (read2_given (d := some d) (rmw := true) hreads (fun r hr => Option.some.inj hr ▸ hwrite)
    fun _ r hr => Option.some.inj hr ▸ hd)]
  exact finishX_put (insertField_eq_masked (s.x d) x y ▸ hput)

/-- A form without a source, where rd takes the result. -/
theorem nullary_put {s t : State} {d : Reg} {v : Word} (hwrite : s.writable d) (hput : s.put d v = some t) :
    runM (nullary v d) s = .next t.retire := by
  apply runM_ok
  unfold nullary
  rw [M.bind_ok (checkRegs_pass (srcs := []) (d := some d) (rmw := false) (by simp)
    (fun r hr => Option.some.inj hr ▸ hwrite) (by simp))]
  exact finishX_put (rs := []) hput

/-! ## The table of forms -/

/-- Every integer form but `bfi` completes as its row of the table says. -/
theorem completes_of_intForm {i : Instr} {F : IntForm} (h : intForm i = some F) (hbfi : ∀ d a b, i ≠ .bfi d a b) :
    Completes i F := by
  cases i
  case addi | xori | ori | andi | slli | srli | srai | ctz => exact completes_unary h (fun _ => rfl) fun _ => rfl
  case slti => exact completes_unary h (fun _ => rfl) fun x => ofBool_slt x _
  case sltiu => exact completes_unary h (fun _ => rfl) fun x => ofBool_ult x _
  case addiw => exact completes_unary h (fun _ => rfl) fun x => by rw [wForm_eq_low32, sext12_low32]
  case slliw | srliw | sraiw => exact completes_unary h (fun _ => rfl) fun x => by rw [wForm_eq_low32, amt5_immediate]
  case add | sub | xor | or | and | mul => exact completes_binary h (fun _ => rfl) fun _ _ => rfl
  case sll | srl | sra => exact completes_binary h (fun _ => rfl) fun _ y => by rw [amt6_eq_mod y]
  case slt => exact completes_binary h (fun _ => rfl) ofBool_slt
  case sltu => exact completes_binary h (fun _ => rfl) ofBool_ult
  case addw | subw | sllw | srlw | sraw | mulw => exact completes_low32 h (fun _ => rfl) fun _ _ => rfl
  case mulh => exact completes_binary h (fun _ => rfl) mulHigh_signed
  case mulhsu => exact completes_binary h (fun _ => rfl) mulHigh_mixed
  case mulhu => exact completes_binary h (fun _ => rfl) mulHigh_unsigned
  case div => exact completes_binary h (fun _ => rfl) divS_eq_sdiv
  case divu => exact completes_binary h (fun _ => rfl) divU_eq_udiv
  case rem => exact completes_binary h (fun _ => rfl) remS_eq_srem
  case remu => exact completes_binary h (fun _ => rfl) remU_eq_umod
  case divw => exact completes_low32 h (fun _ => rfl) divS_eq_sdiv
  case divuw => exact completes_low32 h (fun _ => rfl) divU_eq_udiv
  case remw => exact completes_low32 h (fun _ => rfl) remS_eq_srem
  case remuw => exact completes_low32 h (fun _ => rfl) remU_eq_umod
  case bfx => exact completes_binary h (fun _ => rfl) extractField_signed
  case bfxu => exact completes_binary h (fun _ => rfl) extractField_unsigned
  case clz => exact completes_unary h (fun _ => rfl) fun x => by rw [countLeading_eq_log2 x]
  case cpop => exact completes_unary h (fun _ => rfl) fun x => by rw [popcount_eq_length_filter x]
  case rev8 => exact completes_unary h (fun _ => rfl) reverseBytes_eq_append
  case bfi d a b => exact absurd rfl (hbfi d a b)
  all_goals exact nomatch h

end Sys2Proof.Machine

section

open Sys2Proof Sys2Proof.Machine

/-- Settles O1: each form runs as its row of the table, and the shapes of forms complete with the result in rd. -/
theorem integerFormsWriteTheirResults : Obligations.integer_forms_write_their_results := by
  refine ⟨fun i F s t x y hF hreads hwrite hbfi hput => ?_, fun s d imm ka t hwrite => ⟨fun hput => ?_, fun hput => ?_,
    fun hput => ?_, fun hput => ?_⟩⟩
  · by_cases h : ∃ d a b, i = .bfi d a b
    · obtain ⟨d, a, b, rfl⟩ := h
      exact bfi_completes hF hreads hwrite (hbfi d a b rfl) hput
    · exact completes_of_intForm hF (fun d a b e => h ⟨d, a, b, e⟩) s t x y hreads hwrite hput
  · exact nullary_put hwrite hput
  · exact nullary_put hwrite hput
  · rw [← popcount_eq_length_filter] at hput
    exact nullary_put hwrite hput
  · exact nullary_put hwrite hput

end
end

section
/-! SUPPORT. The barrier instructions (R149 to R151): the one shape of the four, with its checks in their order, what each
does once the checks have passed, and the statement `barrier_objects`. -/

namespace Sys2Proof.Machine

/-! ## An address in the own scratchpad (R99, R241) -/

/-- The issuing thread may reach `n` bytes of its own scratchpad: they lie in its allotment, and a write meets no landing. -/
def State.ownReach (s : State) (x : Word) (n : Nat) (wr : Bool) : Prop :=
  x.toNat + n ≤ 0x80000 ∧ s.me.allots s.issuer.2 x.toNat n = true ∧ (wr = true → s.intoLanding x.toNat n = false)

theorem State.not_ownReach_of {s : State} {x : Word} {n : Nat} {wr : Bool}
    (h : 0x80000 < x.toNat + n ∨ s.me.allots s.issuer.2 x.toNat n = false ∨ (wr = true ∧ s.intoLanding x.toNat n = true)) :
    ¬ s.ownReach x n wr := by
  rintro ⟨hend, hallot, hland⟩
  obtain h | h | ⟨hwr, h⟩ := h
  · omega
  · exact Bool.false_ne_true (h.symm.trans hallot)
  · exact Bool.false_ne_true ((hland hwr).symm.trans h)

/-- The model's test of an own address is the predicate. -/
theorem State.ownReach_iff {s : State} {x : Word} {n : Nat} {wr : Bool} :
    (x.toNat + n ≤ 0x80000 && s.me.allots s.issuer.2 x.toNat n && !(wr && s.intoLanding x.toNat n)) = true ↔
      s.ownReach x n wr := by
  simp only [State.ownReach, Bool.and_eq_true, decide_eq_true_eq, Bool.not_eq_true', Bool.and_eq_false_imp, and_assoc]

theorem ownSpad_reached {s : State} {x : Word} {n : Nat} {wr : Bool} (h : s.ownReach x n wr) :
    ownSpad x n wr s = .ok (x.toNat, s) := by
  simp only [ownSpad, M.bind_get]
  rw [if_pos (State.ownReach_iff.mpr h), M.pure_run]

theorem ownSpad_refused {s : State} {x : Word} {n : Nat} {wr : Bool} (h : ¬ s.ownReach x n wr) :
    ownSpad x n wr s = .error (.trap { cause := .localAddress, addr := x, write := wr }) := by
  simp only [ownSpad, M.bind_get]
  rw [if_neg (mt State.ownReach_iff.mp h), trapWith_run]

theorem barrierAddr_reached {s : State} {x : Word} {wr : Bool} (halign : x.toNat % 16 = 0) (h : s.ownReach x 16 wr) :
    barrierAddr x wr s = .ok (x.toNat, s) := by
  rw [barrierAddr, if_neg (not_not.mpr halign), ownSpad_reached h]

theorem barrierAddr_misaligned {s : State} {x : Word} {wr : Bool} (halign : x.toNat % 16 ≠ 0) :
    barrierAddr x wr s = .error (.trap { cause := .misaligned, addr := x, write := wr }) := by
  rw [barrierAddr, if_pos halign, trapWith_run]

theorem barrierAddr_refused {s : State} {x : Word} {wr : Bool} (halign : x.toNat % 16 = 0) (h : ¬ s.ownReach x 16 wr) :
    barrierAddr x wr s = .error (.trap { cause := .localAddress, addr := x, write := wr }) := by
  rw [barrierAddr, if_neg (not_not.mpr halign), ownSpad_refused h]

/-! ## The shape of the four instructions (R150) -/

/-- Reading two sources that give values, where no register is written. -/
theorem read2_sources {s : State} {a b : Reg} {x y : Word} (h : s.reads2 a b x y) :
    read2 a b none false s = .ok ((x, y), s) :=
  read2_given h (by simp) (by simp)

/-- A barrier instruction: it reads address and count, checks the count and then the address, and acts on the object. -/
def barrierForm (countOk : Word → Bool) (wr : Bool) (a b : Reg) (act : Word → Nat → M Unit) : M Unit := do
  let (x, y) ← read2 a b none
  require (countOk y)
  let p ← barrierAddr x wr
  act y p

section

variable {s : State} {a b : Reg} {x y : Word} {countOk : Word → Bool} {wr : Bool} {act : Word → Nat → M Unit}

theorem barrierForm_count_refused (hreads : s.reads2 a b x y) (hcount : countOk y = false) :
    barrierForm countOk wr a b act s = .error (.trap { cause := .illegalOperand }) := by
  unfold barrierForm
  rw [M.bind_ok (read2_sources hreads)]
  exact M.bind_error (require_false hcount s)

theorem barrierForm_addr_refused {e : Stop} (hreads : s.reads2 a b x y) (hcount : countOk y = true)
    (haddr : barrierAddr x wr s = .error e) : barrierForm countOk wr a b act s = .error e := by
  unfold barrierForm
  rw [M.bind_ok (read2_sources hreads)]
  exact (M.bind_ok (require_true hcount s)).trans (M.bind_error haddr)

theorem barrierForm_acts (hreads : s.reads2 a b x y) (hcount : countOk y = true) (halign : x.toNat % 16 = 0)
    (h : s.ownReach x 16 wr) : barrierForm countOk wr a b act s = act y x.toNat s := by
  unfold barrierForm
  rw [M.bind_ok (read2_sources hreads)]
  exact (M.bind_ok (require_true hcount s)).trans (M.bind_ok (barrierAddr_reached halign h))

end

/-- The count that `boarr` takes. -/
def countFits (y : Word) : Bool := y.toNat < 2 ^ 32

/-- The count that `boinit` and `boexp` take. -/
def countExpected (y : Word) : Bool := y.toNat < 2 ^ 32 && y != 0

theorem countFits_iff {y : Word} : countFits y = true ↔ y.toNat < 2 ^ 32 := by
  simp only [countFits, decide_eq_true_eq]

theorem countExpected_iff {y : Word} : countExpected y = true ↔ y.toNat < 2 ^ 32 ∧ y ≠ 0 := by
  simp only [countExpected, Bool.and_eq_true, decide_eq_true_eq, bne_iff_ne]

/-- What `boinit` does with its object. -/
def initObject (a b : Reg) (y : Word) (p : Nat) : M Unit := do
  modify fun s => s.updHere fun c => c.writeSpad p (leBytes 4 y.toNat ++ leBytes 4 0 ++ [0, 1] ++ List.replicate 6 0)
  finish [a, b]

/-- What `boexp` does with its object, which it finds as the issue began. -/
def expectObject (a b : Reg) (s : State) (y : Word) (p : Nat) : M Unit := do
  require ((s.here.barrier p).armed != 1)
  modify fun s' => s'.updHere fun c =>
    c.setBarrier p (BarrierObj.flip { s.here.barrier p with expected := y.toNat, armed := 1 })
  finish [a, b]

/-- What `boarr` does with its object, which it finds as the issue began. -/
def arriveObject (a b : Reg) (s : State) (y : Word) (p : Nat) : M Unit := do
  awaitLocalStores
  require ((s.here.barrier p).arrived + y.toNat < 2 ^ 32)
  modify fun s' => s'.updHere fun c => c.countBytes p y.toNat
  finish [a, b]

/-- What `bowait` does with its object. -/
def awaitPhase (a b : Reg) (s : State) (y : Word) (p : Nat) : M Unit :=
  if (s.here.barrier p).phase = y.setWidth 8 then parkOn (.bowait (p + 8) (y.setWidth 8)) else finish [a, b]

theorem exec_boinit_form (a b : Reg) (s : State) :
    exec (.boinit a b) s = runM (barrierForm countExpected true a b (initObject a b)) s := rfl

theorem exec_boexp_form (a b : Reg) (s : State) :
    exec (.boexp a b) s = runM (barrierForm countExpected true a b (expectObject a b s)) s := rfl

theorem exec_boarr_form (a b : Reg) (s : State) :
    exec (.boarr a b) s = runM (barrierForm countFits true a b (arriveObject a b s)) s := rfl

theorem exec_bowait_form (a b : Reg) (s : State) :
    exec (.bowait a b) s = runM (barrierForm (fun _ => true) false a b (awaitPhase a b s)) s := rfl

/-! ## The checks that all make (R150) -/

/-- Every barrier instruction is of the shape, and its test of the count is the spec's: `bowait` makes none, and of the
others `boarr` alone takes 0. -/
theorem exec_barrier_form {a b : Reg} {i : Instr} {wr : Bool} (s : State)
    (hi : (i, wr) ∈ [(Instr.boinit a b, true), (.boexp a b, true), (.boarr a b, true), (.bowait a b, false)]) :
    ∃ countOk act, exec i s = runM (barrierForm countOk wr a b act) s ∧
      ∀ y, countOk y = true ↔ wr = false ∨ (y.toNat < 2 ^ 32 ∧ (y = 0 → i = .boarr a b)) := by
  simp only [List.mem_cons, Prod.mk.injEq, List.not_mem_nil, or_false] at hi
  obtain ⟨rfl, rfl⟩ | ⟨rfl, rfl⟩ | ⟨rfl, rfl⟩ | ⟨rfl, rfl⟩ := hi
  · exact ⟨_, _, exec_boinit_form a b s, fun y => by simp [countExpected_iff]⟩
  · exact ⟨_, _, exec_boexp_form a b s, fun y => by simp [countExpected_iff]⟩
  · exact ⟨_, _, exec_boarr_form a b s, fun y => by simp [countFits_iff]⟩
  · exact ⟨_, _, exec_bowait_form a b s, fun y => by simp⟩

theorem exec_barrier_count_refused {s : State} {a b : Reg} {x y : Word} {i : Instr} (hreads : s.reads2 a b x y)
    (hi : i ∈ [Instr.boinit a b, .boexp a b, .boarr a b]) (hy : 2 ^ 32 ≤ y.toNat ∨ (y = 0 ∧ i ≠ .boarr a b)) :
    exec i s = .next (s.takeTrap s.issuer.1 s.issuer.2 { cause := .illegalOperand }) := by
  obtain ⟨countOk, act, hrun, hok⟩ := exec_barrier_form (a := a) (b := b) (i := i) (wr := true) s (by simpa using hi)
  have hcount : countOk y = false := by
    rw [Bool.eq_false_iff, ne_eq, hok]
    rintro (h | ⟨hlt, hzero⟩)
    · exact Bool.noConfusion h
    · obtain h | ⟨h, hne⟩ := hy
      · omega
      · exact hne (hzero h)
  rw [hrun, runM_trap (barrierForm_count_refused hreads hcount)]

theorem exec_barrier_addr_refused {s : State} {a b : Reg} {x y : Word} {i : Instr} {wr : Bool} {t : TrapInfo}
    (hreads : s.reads2 a b x y)
    (hi : (i, wr) ∈ [(Instr.boinit a b, true), (.boexp a b, true), (.boarr a b, true), (.bowait a b, false)])
    (hy : wr = false ∨ (y.toNat < 2 ^ 32 ∧ (y = 0 → i = .boarr a b)))
    (haddr : barrierAddr x wr s = .error (.trap t)) :
    exec i s = .next (s.takeTrap s.issuer.1 s.issuer.2 t) := by
  obtain ⟨countOk, act, hrun, hok⟩ := exec_barrier_form s hi
  rw [hrun, runM_trap (barrierForm_addr_refused hreads ((hok y).mpr hy) haddr)]

/-! ## The object after a count (R149) -/

theorem ofLe_lt : ∀ l : List Byte, ofLe l < 256 ^ l.length
  | [] => Nat.one_pos
  | b :: l => by
    have ih := ofLe_lt l
    have hb := b.isLt
    simp only [ofLe, List.length_cons, Nat.pow_succ]
    omega

/-- ARRIVED is a field of four bytes. -/
theorem Core.barrier_arrived_lt (c : Core) (p : Nat) : (c.barrier p).arrived < 2 ^ 32 := by
  have h := ofLe_lt (c.spad.read (p + 4) 4)
  rwa [Memory.read_length] at h

theorem Core.countBytes_zero (c : Core) (p : Nat) : c.countBytes p 0 = c := if_pos rfl

/-- A count that fits is not cut. -/
theorem Core.countBytes_of_fits {c : Core} {p n : Nat} (hn : n ≠ 0) (h : (c.barrier p).arrived + n < 2 ^ 32) :
    c.countBytes p n = c.setBarrier p (BarrierObj.flip { c.barrier p with arrived := (c.barrier p).arrived + n }) := by
  rw [Core.countBytes, if_neg hn, BarrierObj.count, Nat.min_eq_right (by omega)]

theorem State.updHere_id (s : State) : (s.updHere fun c => c) = s := by
  have h : s.cores.set s.issuer.1 (s.cores.get s.issuer.1) = s.cores := Vector.set_getElem_self _
  show { s with cores := s.cores.set s.issuer.1 (s.cores.get s.issuer.1) } = s
  rw [h]

/-! ## What each does on an object in reach (R150, R151) -/

theorem awaitLocalStores_none {s : State} (h : s.localStoresOut s.issuer.1 s.issuer.2 = false) :
    awaitLocalStores s = .ok ((), s) := by
  simp only [awaitLocalStores, M.bind_get, h, Bool.false_eq_true, if_false, M.pure_run]

theorem awaitLocalStores_out {s : State} (h : s.localStoresOut s.issuer.1 s.issuer.2 = true) :
    awaitLocalStores s = .error (.block .vault false) := by
  simp only [awaitLocalStores, M.bind_get, h, if_true, waitOn_run]

section

variable {s : State} {a b : Reg} {x y : Word} (hreads : s.reads2 a b x y) (halign : x.toNat % 16 = 0)

include hreads halign

theorem exec_boinit_completes (hreach : s.ownReach x 16 true) (hlt : y.toNat < 2 ^ 32) (hne : y ≠ 0) :
    exec (.boinit a b) s = .next (State.took (s.updHere fun c => c.writeSpad x.toNat
      (leBytes 4 y.toNat ++ [0, 0, 0, 0] ++ [0, 1] ++ [0, 0, 0, 0, 0, 0])) [a, b]).retire := by
  rw [exec_boinit_form]
  refine runM_ok ?_
  rw [barrierForm_acts hreads (countExpected_iff.mpr ⟨hlt, hne⟩) halign hreach]
  exact finish_took _ _

theorem exec_boexp_completes (hreach : s.ownReach x 16 true) (hlt : y.toNat < 2 ^ 32) (hne : y ≠ 0)
    (harmed : (s.here.barrier x.toNat).armed ≠ 1) :
    exec (.boexp a b) s = .next (State.retire (State.took (s.updHere fun c => c.setBarrier x.toNat
      (BarrierObj.flip { s.here.barrier x.toNat with expected := y.toNat, armed := 1 })) [a, b])) := by
  rw [exec_boexp_form]
  refine runM_ok ?_
  rw [barrierForm_acts hreads (countExpected_iff.mpr ⟨hlt, hne⟩) halign hreach, expectObject,
    M.bind_ok (require_true (bne_iff_ne.mpr harmed) s)]
  exact finish_took _ _

theorem exec_boexp_armed_traps (hreach : s.ownReach x 16 true) (hlt : y.toNat < 2 ^ 32) (hne : y ≠ 0)
    (harmed : (s.here.barrier x.toNat).armed = 1) :
    exec (.boexp a b) s = .next (s.takeTrap s.issuer.1 s.issuer.2 { cause := .illegalOperand }) := by
  rw [exec_boexp_form]
  refine runM_trap ?_
  rw [barrierForm_acts hreads (countExpected_iff.mpr ⟨hlt, hne⟩) halign hreach]
  exact M.bind_error (require_false (bne_eq_false_iff_eq.mpr harmed) s)

theorem exec_boarr_waits (hreach : s.ownReach x 16 true) (hlt : y.toNat < 2 ^ 32)
    (hout : s.localStoresOut s.issuer.1 s.issuer.2 = true) :
    exec (.boarr a b) s = .next (s.blockMe .vault false) := by
  rw [exec_boarr_form]
  refine runM_block (b := .vault) ?_
  rw [barrierForm_acts hreads (countFits_iff.mpr hlt) halign hreach]
  exact M.bind_error (awaitLocalStores_out hout)

theorem exec_boarr_counts (hreach : s.ownReach x 16 true) (hlt : y.toNat < 2 ^ 32)
    (hout : s.localStoresOut s.issuer.1 s.issuer.2 = false) (hfits : (s.here.barrier x.toNat).arrived + y.toNat < 2 ^ 32) :
    exec (.boarr a b) s = .next (State.took (s.updHere fun c => c.countBytes x.toNat y.toNat) [a, b]).retire := by
  rw [exec_boarr_form]
  refine runM_ok ?_
  rw [barrierForm_acts hreads (countFits_iff.mpr hlt) halign hreach, arriveObject, M.bind_ok (awaitLocalStores_none hout),
    M.bind_ok (require_true (decide_eq_true hfits) s)]
  exact finish_took _ _

theorem exec_boarr_overflow_traps (hreach : s.ownReach x 16 true) (hlt : y.toNat < 2 ^ 32)
    (hout : s.localStoresOut s.issuer.1 s.issuer.2 = false) (hover : 2 ^ 32 ≤ (s.here.barrier x.toNat).arrived + y.toNat) :
    exec (.boarr a b) s = .next (s.takeTrap s.issuer.1 s.issuer.2 { cause := .illegalOperand }) := by
  rw [exec_boarr_form]
  refine runM_trap ?_
  rw [barrierForm_acts hreads (countFits_iff.mpr hlt) halign hreach, arriveObject, M.bind_ok (awaitLocalStores_none hout)]
  exact M.bind_error (require_false (decide_eq_false (Nat.not_lt.mpr hover)) s)

theorem exec_bowait_completes (hreach : s.ownReach x 16 false)
    (hphase : (s.here.barrier x.toNat).phase ≠ y.extractLsb' 0 8) :
    exec (.bowait a b) s = .next (s.took [a, b]).retire := by
  rw [exec_bowait_form]
  refine runM_ok ?_
  rw [barrierForm_acts hreads rfl halign hreach, awaitPhase, BitVec.setWidth_eq_extractLsb' (by decide), if_neg hphase]
  exact finish_took _ _

theorem exec_bowait_parks (hreach : s.ownReach x 16 false)
    (hphase : (s.here.barrier x.toNat).phase = y.extractLsb' 0 8) :
    exec (.bowait a b) s = .next (s.blockMe (.bowait (x.toNat + 8) (s.here.barrier x.toNat).phase) true) := by
  rw [exec_bowait_form]
  refine runM_block (b := .bowait (x.toNat + 8) (s.here.barrier x.toNat).phase) ?_
  rw [barrierForm_acts hreads rfl halign hreach, awaitPhase, BitVec.setWidth_eq_extractLsb' (by decide), if_pos hphase,
    hphase]
  rfl

end

end Sys2Proof.Machine

section

open Sys2Proof Sys2Proof.Machine

/-- Settles O21: each instruction on an object in reach by its own lemma, and the checks of the four by their one shape. -/
theorem barrierObjects : Obligations.barrier_objects := by
  refine ⟨fun s a b x y hreads halign hend hallot => ?_, fun s a b x y hreads => ⟨fun i hi hy => ?_, fun i wr hi hy => ?_⟩,
    fun a b => ⟨rfl, rfl, rfl, rfl⟩⟩
  · intro o after flips may
    have write : may → s.ownReach x 16 true := fun h => ⟨hend, hallot, fun _ => h⟩
    have read : s.ownReach x 16 false := ⟨hend, hallot, fun h => nomatch h⟩
    refine ⟨?boinit, ?boexp, ?boarr, ?boarrZero, ?bowaitDone, ?bowaitParks, ?boarrWaits, ?boexpArmed, ?boarrOver⟩
    case boinit => exact fun hm hne hlt => exec_boinit_completes hreads halign (write hm) hlt hne
    case boexp => exact fun hm hne hlt harmed => exec_boexp_completes hreads halign (write hm) hlt hne harmed
    case boarr =>
      intro hm hlt hne hfits hout
      have hn : y.toNat ≠ 0 := fun h => hne (BitVec.eq_of_toNat_eq h)
      rw [exec_boarr_counts hreads halign (write hm) hlt hout hfits, State.updHere_eq, Core.countBytes_of_fits hn hfits]
      rfl
    case boarrZero =>
      rintro hm rfl hout
      have hzero : (0 : Word).toNat = 0 := rfl
      have hrun := exec_boarr_counts hreads halign (write hm) (Nat.two_pow_pos 32) hout (Core.barrier_arrived_lt ..)
      rwa [hzero, funext fun c => Core.countBytes_zero c x.toNat, State.updHere_id] at hrun
    case bowaitDone => exact exec_bowait_completes hreads halign read
    case bowaitParks => exact exec_bowait_parks hreads halign read
    case boarrWaits => exact fun hm hlt hout => exec_boarr_waits hreads halign (write hm) hlt hout
    case boexpArmed => exact fun hm hne hlt harmed => exec_boexp_armed_traps hreads halign (write hm) hlt hne harmed
    case boarrOver => exact fun hm hlt hout hover => exec_boarr_overflow_traps hreads halign (write hm) hlt hout hover
  · exact exec_barrier_count_refused hreads hi hy
  · refine ⟨fun h => ?_, fun halign h => ?_⟩
    · exact exec_barrier_addr_refused hreads hi hy (barrierAddr_misaligned h)
    · exact exec_barrier_addr_refused hreads hi hy (barrierAddr_refused halign (State.not_ownReach_of h))

end
end

section
/-! SUPPORT. The start of a die cycle and INC (R366), what a switch and a compute-die reset do to the carried fraction
(R365, R368), and the statement `die_cycles`. -/

namespace Sys2Proof.Machine

/-! ## The dies of a state -/

@[simp] theorem State.get_updDie_same (s : State) (d : DieId) (f : Die → Die) :
    (s.updDie d f).dies.get d = f (s.dies.get d) :=
  get_set_same s.dies d _

/-- Restored claims are a matter of the clusters: taking them again changes no die. -/
@[simp] theorem State.takeReclaims_dies (s : State) : s.takeReclaims.dies = s.dies := by
  refine List.foldlRecOn (motive := fun u : State => u.dies = s.dies) _ _ rfl fun u hu r _ => ?_
  split <;> exact hu

/-- The die whose cycle begins changes by `Die.tick` alone: the rings' samples and the restored claims leave it. -/
@[simp] theorem State.get_tick_same (s : State) (d : DieId) : (s.tick d).dies.get d = (s.dies.get d).tick := by
  rw [State.tick, State.takeReclaims_dies]
  exact State.get_updDie_same s d Die.tick

/-! ## A cycle in the agenda (R363, R368) -/

theorem step_cycle {s : State} {d : DieId} {rest : List Action} (h : s.agenda = .cycle d :: rest) :
    step s = .next (State.cycleDue { s with agenda := rest } d) := by
  rw [step, h]
  rfl

theorem State.cycleDue_of_due {s : State} {d : DieId} {t : Nat} (h : (s.dies.get d).nextClock = some (t, .cycle))
    (ht : t ≤ s.time) : s.cycleDue d = s.tick d := by
  simp only [State.cycleDue, h, if_pos ht]

theorem State.cycleDue_of_not_cycle {s : State} {d : DieId} (h : ∀ t, (s.dies.get d).nextClock ≠ some (t, .cycle)) :
    s.cycleDue d = s := by
  unfold State.cycleDue
  split
  next t ht => exact absurd ht (h t)
  next => rfl

/-- Choosing between a step of a clock and what is due already brings in no other step. -/
theorem dueFirst_ne_cycle {w : Word} {k : ClockStep} {c : Option (Nat × ClockStep)} (hk : k ≠ .cycle)
    (hc : ∀ t, c ≠ some (t, .cycle)) (t : Nat) : dueFirst w k c ≠ some (t, .cycle) := by
  have hnew : some (w.toNat * tickUnits, k) ≠ some (t, ClockStep.cycle) := by simp [hk]
  cases c with
  | none => exact hnew
  | some q =>
    simp only [dueFirst]
    split
    · exact hnew
    · exact hc t

/-- A die in reset counts no cycle. -/
theorem Die.nextClock_ne_cycle_of_inReset {d : Die} (h : d.inReset = true) (t : Nat) :
    d.nextClock ≠ some (t, .cycle) := by
  have hnone : ∀ t, (none : Option (Nat × ClockStep)) ≠ some (t, .cycle) := nofun
  simp only [Die.nextClock, h, if_true]
  cases d.stallEnd with
  | none =>
    split
    · exact dueFirst_ne_cycle (k := .switch) nofun hnone t
    · exact hnone t
  | some w =>
    have hstall := dueFirst_ne_cycle (w := w) (k := .stallEnd) nofun hnone
    split
    · exact dueFirst_ne_cycle (k := .switch) nofun hstall t
    · exact hstall t

/-! ## INC (R366) -/

/-- The quotient of INC fits its 17 bits at every step. -/
theorem incOf_toNat (step : Nat) : (incOf step).toNat = (2 * 18 * 65536 + (12 + step)) / (2 * (12 + step)) := by
  refine (BitVec.toNat_ofNat _ _).trans (Nat.mod_eq_of_lt ((Nat.div_lt_iff_lt_mul (by omega)).mpr ?_))
  omega

/-- INC times the frequency is 1.8 in 16.16 fixed point to within half a unit: INC is rounded to the nearest integer. -/
theorem incOf_nearest (step : Nat) :
    2 * (incOf step).toNat * (12 + step) ≤ 2 * 18 * 2 ^ 16 + (12 + step) ∧
      2 * 18 * 2 ^ 16 < 2 * (incOf step).toNat * (12 + step) + (12 + step) := by
  have hle := Nat.div_mul_le_self (2 * 18 * 65536 + (12 + step)) (2 * (12 + step))
  have hlt := Nat.lt_div_mul_add (a := 2 * 18 * 65536 + (12 + step)) (b := 2 * (12 + step)) (by omega)
  rw [← incOf_toNat, Nat.mul_left_comm, ← Nat.mul_assoc] at hle hlt
  omega

/-! ## The carried fraction over a switch and a reset (R365, R368) -/

@[simp] theorem Die.switch_frac (d : Die) : d.switch.frac = d.frac := rfl

@[simp] theorem Die.lost_frac (d : Die) (cur tgt : Fin 7) : (d.lost cur tgt).frac = 0 := rfl

/-- A switch that is due changes its die by `Die.switch`; one that is not changes nothing. -/
theorem exec_freqSwitch (d : DieId) (s : State) :
    exec (.freqSwitch d) s = .next s ∨ exec (.freqSwitch d) s = .next (s.updDie d Die.switch) := by
  change execFreqSwitch d s = _ ∨ execFreqSwitch d s = _
  simp only [execFreqSwitch, event]
  split
  · exact .inl rfl
  · exact .inr rfl

/-- Whatever else a compute-die reset does, it last leaves the die's own state as `Die.lost` has it. -/
theorem exec_computeDieReset {d : DieId} {cur tgt : Fin 7} {s : State} (h : (s.dies.get d).inReset = false) :
    ∃ u : State, exec (.computeDieReset ⟨d, cur, tgt⟩) s = .next (u.updDie d fun x => x.lost cur tgt) := by
  change ∃ u : State, execComputeDieReset ⟨d, cur, tgt⟩ s = _
  simp only [execComputeDieReset, event, h]
  exact ⟨_, rfl⟩

end Sys2Proof.Machine

section

open Sys2Proof Sys2Proof.Machine

/-- Settles O53: the cycle by `Die.tick`, INC by the bounds of its rounded quotient, and F by what a switch and a reset do
to the die. -/
theorem dieCycles : Obligations.die_cycles := by
  refine fun s die => ⟨⟨?cycle, ?ncycle, ?frac, fun rest hagenda => ⟨fun t hclock hdue => ?due, fun hreset => ?inReset⟩⟩,
    fun step _ => incOf_nearest step, by decide, ?switch, fun cur tgt hrun => ?reset⟩
  case cycle => exact congrArg Die.cycle (State.get_tick_same s die)
  case ncycle => exact congrArg Die.ncycle (State.get_tick_same s die)
  case frac => exact (congrArg (Die.frac · |>.toNat) (State.get_tick_same s die)).trans (BitVec.toNat_ofNat _ 16)
  case due => exact (step_cycle hagenda).trans (congrArg _ (State.cycleDue_of_due hclock hdue))
  case inReset =>
    have hnot := Die.nextClock_ne_cycle_of_inReset hreset
    exact (step_cycle hagenda).trans (congrArg _ (State.cycleDue_of_not_cycle hnot))
  case switch =>
    obtain h | h := exec_freqSwitch die s
    · exact ⟨s, h, rfl⟩
    · exact ⟨_, h, (congrArg Die.frac (State.get_updDie_same s die Die.switch)).trans (Die.switch_frac _)⟩
  case reset =>
    obtain ⟨u, hu⟩ := exec_computeDieReset (cur := cur) (tgt := tgt) hrun
    exact ⟨_, hu, (congrArg Die.frac (State.get_updDie_same u die _)).trans (Die.lost_frac _ cur tgt)⟩

end
end
